-- ==== Sys2Proof/Word.lean ====
section
/-! DEFINITION. The word types of the HZR codec engine (`spec/00_scope.md` R8, R11). -/

namespace Sys2Proof

/-- One byte of `IN` or `OUT` (R38, R60: "a byte is 8 bits"). -/
abbrev Byte := BitVec 8

/-- A host register, an address, a size or an operand: 64 bits (R7 `REG_WIDTH`, R20). -/
abbrev Word := BitVec 64

/-- A node reference: an index into a tree table, or `NONE` (R31). -/
abbrev NodeRef := BitVec 16

end Sys2Proof
end

