-- ==== Sys2Proof/Config.lean ====
section
/-! DEFINITION. What is fixed for the machine and is not state (`spec/00_scope.md` R7, `spec/10_state.md` R42), and the
free values: constants with no body, for what the spec leaves open. -/

namespace Sys2Proof.Config

/-- Alphabet size; symbols are 0..260 (R7 `NSYM`). -/
abbrev nsym : Nat := 261
/-- Width of a symbol in the tree description (R7 `SYMBOL_BITS`). -/
abbrev symbolBits : Nat := 9
/-- Entries of `ENODE` and of `DNODE` (R7 `MAX_TREE_NODES`). -/
abbrev maxTreeNodes : Nat := 521
/-- Entries of the decode lookup table (R7 `LUT_SIZE`). -/
abbrev lutSize : Nat := 256
/-- Bits of the stream that index the lookup table (R7 `LUT_KEY_BITS`). -/
abbrev lutKeyBits : Nat := 8
/-- Most decoded bytes in a block (R7 `MAX_BLOCK`). -/
abbrev maxBlock : Nat := 65536
/-- Longest zero run one token carries (R7 `MAX_RUN`). -/
abbrev maxRun : Nat := 16662
/-- Bytes of the master header (R7 `MASTER_HDR`). -/
abbrev masterHdr : Nat := 4
/-- Bytes of a block header (R7 `BLOCK_HDR`). -/
abbrev blockHdr : Nat := 7
/-- Bytes of input tail below which the decoder leaves the Fast state (R7 `FAST_MARGIN`, R192). -/
abbrev fastMargin : Nat := 10
/-- Most bits of a prefix code on the encode side (R7 `MAX_CODE_BITS`). -/
abbrev maxCodeBits : Nat := 32
/-- Most bytes one `ENCODE` takes (R7 `MAX_INPUT`). -/
abbrev maxInput : Nat := 4294967295
/-- The byte the reader's cache holds for positions at or past `BR_END` (R7 `CACHE_FILL`). -/
abbrev cacheFill : Byte := 0#8
/-- The node reference that refers to no node, `0xFFFF` (R31). -/
abbrev none16 : NodeRef := 0xFFFF#16

/-- Free value: what a byte of `IN` that nothing has written reads as ("unspecified at power-on", R41).
DESIGN CHOICE, safe: log 2. -/
opaque inAtPowerOn : Nat → Byte

/-- Free value: what a byte of `OUT` that nothing has written reads as ("unspecified at power-on", R41).
DESIGN CHOICE, safe: log 2. -/
opaque outAtPowerOn : Nat → Byte

/-- Free value: the byte at address `a` of a span of `OUT` that a failed or an abandoned command was writing
("holding *any value*", R266, R285). `tag` is fresh for each such span. DEDUCED, safe: log 3, log 10. -/
opaque outAfterFailure (tag a : Nat) : Byte

/-- Free value: a field of a table entry that reset leaves unspecified (R41, U5). `table` is the table id of R250
(3..6 `ENODE`, 7..9 `DNODE`, 10..12 `LUT`). DESIGN CHOICE, safe: log 4. -/
opaque tableAtReset (table index : Nat) : BitVec 64

end Sys2Proof.Config
end

