-- ==== Sys2Proof/Syntax.lean ====
section
/-! DEFINITION. The 30 commands (`spec/30_encoding.md` R81), the host's registers and actions
(`spec/10_state.md` R20), and the notation in which host programs are written (R98, R99). -/

namespace Sys2Proof

/-- The commands, one constructor per row of `spec/opcode_table.json` (R81). A command carries no operand of its own:
its operands are what stands in `ARG0`, `ARG1`, `ARG2` when it is issued (R80, R24). -/
inductive Instr where
  | maxsize
  | encode
  | verify
  | decode
  | crc32c
  | brNew
  | brReadBit
  | brReadBits
  | brPeek8
  | brAdvance
  | brReadBitChk
  | brReadBitsChk
  | brAdvanceChk
  | brAdvanceBytesChk
  | brAtEnd
  | bwNew
  | bwWriteBits
  | bwForceFlush
  | histogram
  | treeBuild
  | treeEmit
  | treeRecover
  | symEmit
  | symDecode
  | huffDecode
  | blockEncode
  | blockDecode
  | blockVerify
  | tblRead
  | tblWrite
  deriving DecidableEq, Repr

/-- The ten registers a host sees (R20). "An access at an offset other than these ten is not a host action of the
model", so there is no eleventh constructor. -/
inductive PortReg where
  | cmd
  | status
  | inLen
  | outCap
  | arg0
  | arg1
  | arg2
  | arg3
  | res0
  | res1
  deriving DecidableEq, Repr

/-- What the host, or the platform, does between two commands (R20, R67, R285). -/
inductive HostAction where
  /-- Write a register whole; a write to `CMD` issues a command (R21). -/
  | write (r : PortReg) (v : Word)
  /-- Read a register whole. -/
  | read (r : PortReg)
  /-- Store one byte into `IN`. -/
  | storeIn (a : Word) (b : Byte)
  /-- Store one byte into `OUT`. -/
  | storeOut (a : Word) (b : Byte)
  /-- Load one byte of `IN`. -/
  | loadIn (a : Word)
  /-- Load one byte of `OUT`. -/
  | loadOut (a : Word)
  /-- The platform asserts reset while no command runs (R285). -/
  | reset
  /-- The host writes `v` to `CMD`, and a reset arrives while that command runs and abandons it (R285). -/
  | abandon (v : Word)
  deriving DecidableEq, Repr

/-- One line of the notation of R98, with the two pseudo-commands of R99. -/
inductive AsmLine where
  /-- `MNEMONIC op0, op1, op2` -/
  | command (i : Instr) (ops : List Word)
  /-- `W REG, value` -/
  | w (r : PortReg) (v : Word)
  /-- `R REG` -/
  | r (r : PortReg)
  /-- `IN[a ..] <- b0 b1 ...` -/
  | inBytes (a : Word) (bs : List Byte)
  /-- `OUT[a ..] <- b0 b1 ...` -/
  | outBytes (a : Word) (bs : List Byte)
  /-- `SETIN n` (R99) -/
  | setin (n : Word)
  /-- `SETOUT n` (R99) -/
  | setout (n : Word)
  deriving DecidableEq, Repr

end Sys2Proof
end

