-- ==== Sys2Proof/Machine/State.lean ====
section
/-! DEFINITION. The state of the engine (`spec/10_state.md`), as plain data, and its value after reset (R41). -/

namespace Sys2Proof.Machine

/-- The failure kinds and `NONE`, in the order of their codes 0..7 (`spec/60_exceptions.md` R261). -/
inductive Kind where
  | none
  | argument
  | truncated
  | structural
  | integrity
  | outputOverflow
  | encodeExhausted
  | illegal
  deriving DecidableEq, Repr

/-- The states of the payload decoder's machine, in the order of their codes 0..4 (R37). -/
inductive DecState where
  | idle
  | fast
  | tail
  | completed
  | error
  deriving DecidableEq, Repr

/-- A span of `OUT` whose bytes hold any value: addresses `lo` up to and without `hi`, under the tag `tag`
(`spec/60_exceptions.md` R266; log 3). -/
structure Span where
  lo : Nat
  hi : Nat
  tag : Nat
  deriving DecidableEq, Repr

/-- One byte memory. `cells` lists the bytes that have been written, by strictly rising address; `spans` lists, also
rising and disjoint, the spans that a failure left holding any value. An address in neither holds what it held at
power-on, a free value (R41; log 2). -/
structure Mem where
  cells : List Host.Cell
  spans : List Span
  deriving DecidableEq, Repr

/-- The registers the host writes and the engine only reads (R20, R23, R24). -/
structure Operands where
  inLen : Word
  outCap : Word
  arg0 : Word
  arg1 : Word
  arg2 : Word
  arg3 : Word
  deriving DecidableEq, Repr

/-- What every command writes: `STATUS.FAIL`, `STATUS.ERR`, `RES0`, `RES1` (R21, R22, R25). -/
structure Result where
  fail : Bool
  err : Kind
  res0 : Word
  res1 : Word
  deriving DecidableEq, Repr

/-- The bit reader: `BR_PTR`, `BR_END`, `BR_BITPOS`, `BR_CACHE`, `BR_FAIL` (R29). -/
structure Reader where
  ptr : Word
  stop : Word
  bitpos : BitVec 5
  cache : BitVec 32
  fail : Bool
  deriving DecidableEq, Repr

/-- The bit writer: `BW_PTR`, `BW_END`, `BW_BITPOS`, `BW_CACHE`, `BW_FAIL` (R30). -/
structure Writer where
  ptr : Word
  stop : Word
  bitpos : BitVec 6
  cache : BitVec 32
  fail : Bool
  deriving DecidableEq, Repr

/-- An entry of `SYM` (R32). -/
structure SymEntry where
  count : BitVec 32
  code : BitVec 32
  bits : BitVec 6
  deriving DecidableEq, Repr

/-- An entry of `ENODE` (R33); `symbol` is two's complement, −1 in an internal node (R31). -/
structure ENode where
  count : BitVec 64
  symbol : BitVec 16
  childA : NodeRef
  childB : NodeRef
  deriving DecidableEq, Repr

/-- An entry of `DNODE` (R34). -/
structure DNode where
  symbol : BitVec 16
  childA : NodeRef
  childB : NodeRef
  deriving DecidableEq, Repr

/-- An entry of `LUT` (R35). -/
structure LutEntry where
  node : NodeRef
  symbol : BitVec 9
  bits : BitVec 4
  deriving DecidableEq, Repr

/-- The encoder's tables: `SYM`, `ENODE`, `ENC_ROOT`, `ENC_NEXT`, `ENC_TREE_VALID`, `CODES_VALID` (R32, R33, R36). -/
structure Encoder where
  sym : List SymEntry
  enode : List ENode
  root : NodeRef
  next : BitVec 10
  treeValid : Bool
  codesValid : Bool
  deriving DecidableEq, Repr

/-- The decoder's tables: `DNODE`, `DEC_COUNT`, `LUT`, `DEC_TREE_VALID` (R34 to R36). -/
structure Decoder where
  dnode : List DNode
  count : BitVec 10
  lut : List LutEntry
  treeValid : Bool
  deriving DecidableEq, Repr

/-- The payload decoder's registers: `DEC_STATE`, `OUT_PTR`, `OUT_END` (R37). -/
structure Payload where
  state : DecState
  outPtr : Word
  outEnd : Word
  deriving DecidableEq, Repr

/-- The state of the engine, and three fields of the model's own (`pending`, `readData`, `freeCount`). -/
structure State where
  /-- `IN_LEN`, `OUT_CAP`, `ARG0..ARG3`. -/
  ops : Operands
  /-- `STATUS.FAIL`, `STATUS.ERR`, `RES0`, `RES1`. -/
  result : Result
  /-- The bit reader. -/
  br : Reader
  /-- The bit writer. -/
  bw : Writer
  /-- The encoder's tables. -/
  enc : Encoder
  /-- The decoder's tables. -/
  dec : Decoder
  /-- The payload decoder. -/
  pay : Payload
  /-- The memory `IN`. -/
  input : Mem
  /-- The memory `OUT`. -/
  output : Mem
  /-- MODEL: the host's actions not yet served, oldest first (log 1). -/
  pending : List HostAction
  /-- MODEL: what the host's last read returned (log 5). -/
  readData : Word
  /-- MODEL: the tag of the next span of free bytes (log 6). -/
  freeCount : Nat
  deriving DecidableEq, Repr

/-- The machine never stops with a fault: "the step function is total" (R6, `spec/93_implementation_defined.md`), and a
command that cannot proceed ends in a failure outcome, which is a next state. So there is no constructor (log 11). -/
inductive Fault where
  deriving DecidableEq, Repr

/-- Why an instruction has no meaning. -/
inductive Refusal where
  /-- Raised by an arm of `exec` whose instruction is not modelled yet; safe. No arm raises it. -/
  | notModelled (mnemonic : String)
  deriving DecidableEq, Repr

/-- What a table entry holds that nothing has written (R41, U5): free values. Log 4. -/
def ENode.unwritten (i : Nat) : ENode where
  count := Config.tableAtReset 3 i
  symbol := (Config.tableAtReset 4 i).setWidth 16
  childA := (Config.tableAtReset 5 i).setWidth 16
  childB := (Config.tableAtReset 6 i).setWidth 16

/-- See `ENode.unwritten`. -/
def DNode.unwritten (i : Nat) : DNode where
  symbol := (Config.tableAtReset 7 i).setWidth 16
  childA := (Config.tableAtReset 8 i).setWidth 16
  childB := (Config.tableAtReset 9 i).setWidth 16

/-- See `ENode.unwritten`. -/
def LutEntry.unwritten (i : Nat) : LutEntry where
  node := (Config.tableAtReset 10 i).setWidth 16
  symbol := (Config.tableAtReset 11 i).setWidth 9
  bits := (Config.tableAtReset 12 i).setWidth 4

/-- The machine right after reset at power-on (R41, R285). -/
def State.reset : State where
  ops := ⟨0#64, 0#64, 0#64, 0#64, 0#64, 0#64⟩
  result := ⟨false, .none, 0#64, 0#64⟩
  br := ⟨0#64, 0#64, 0#5, 0#32, false⟩
  bw := ⟨0#64, 0#64, 0#6, 0#32, false⟩
  enc :=
    { sym := List.replicate Config.nsym ⟨0#32, 0#32, 0#6⟩
      enode := (List.range Config.maxTreeNodes).map ENode.unwritten
      root := Config.none16
      next := 261#10
      treeValid := false
      codesValid := false }
  dec :=
    { dnode := (List.range Config.maxTreeNodes).map DNode.unwritten
      count := 0#10
      lut := (List.range Config.lutSize).map LutEntry.unwritten
      treeValid := false }
  pay := ⟨.idle, 0#64, 0#64⟩
  input := ⟨[], []⟩
  output := ⟨[], []⟩
  pending := []
  readData := 0#64
  freeCount := 0

end Sys2Proof.Machine
end

