-- ==== Sys2Proof/Machine/Ops.lean ====
section
/-! DEFINITION. The named operations every command is built from: the two memories (`spec/20_memory.md`), the tables
(`spec/10_state.md` R31 to R35), the two outcomes of a command (`spec/60_exceptions.md` R260), and reset (R285). -/

namespace Sys2Proof.Machine

/-! ### Memory -/

/-- The byte listed at an address, if one is. -/
def cellAt : List Host.Cell → Nat → Option Byte
  | [], _ => none
  | (k, b) :: cs, a => if k = a then some b else cellAt cs a

/-- The tag of the span of free bytes an address lies in, if it lies in one. -/
def tagAt : List Span → Nat → Option Nat
  | [], _ => none
  | p :: ps, a => if p.lo ≤ a ∧ a < p.hi then some p.tag else tagAt ps a

/-- One byte of a memory: the last byte written to the address (R64, R67); in a span a failure left, that span's free
value; else what the address held at power-on. -/
def Mem.read (powerOn : Nat → Byte) (m : Mem) (a : Nat) : Byte :=
  match cellAt m.cells a with
  | some b => b
  | none =>
    match tagAt m.spans a with
    | some t => Config.outAfterFailure t a
    | none => powerOn a

/-- The listed bytes with the byte at one address set, in rising order of address. -/
def putCell (a : Nat) (b : Byte) : List Host.Cell → List Host.Cell
  | [] => [(a, b)]
  | (k, c) :: cs =>
    if a < k then (a, b) :: (k, c) :: cs
    else if a = k then (a, b) :: cs
    else (k, c) :: putCell a b cs

/-- What is left of a span when the addresses `lo` up to and without `hi` are taken out of it. -/
def cutSpan (lo hi : Nat) (p : Span) : List Span :=
  (if p.lo < min p.hi lo then [⟨p.lo, min p.hi lo, p.tag⟩] else []) ++
  (if max p.lo hi < p.hi then [⟨max p.lo hi, p.hi, p.tag⟩] else [])

/-- The spans with the addresses `lo` up to and without `hi` taken out. -/
def cutSpans (lo hi : Nat) : List Span → List Span
  | [] => []
  | p :: ps => cutSpan lo hi p ++ cutSpans lo hi ps

/-- The spans with one more, at its place in rising order. -/
def putSpan (q : Span) : List Span → List Span
  | [] => [q]
  | p :: ps => if q.hi ≤ p.lo then q :: p :: ps else p :: putSpan q ps

/-- Write one byte (R64). -/
def Mem.write (m : Mem) (a : Nat) (b : Byte) : Mem where
  cells := putCell a b m.cells
  spans := cutSpans a (a + 1) m.spans

/-- Write a row of bytes at ascending addresses (R64). -/
def Mem.writeList (m : Mem) (a : Nat) : List Byte → Mem
  | [] => m
  | b :: bs => (m.write a b).writeList (a + 1) bs

/-- Write the low `8 n` bits of `v`, little-endian, a byte at a time (R10 `MemWrite`, R62, R64). -/
def Mem.writeLE (m : Mem) (a : Nat) : Nat → Nat → Mem
  | 0, _ => m
  | n + 1, v => (m.write a (BitVec.ofNat 8 v)).writeLE (a + 1) n (v / 256)

/-- Let the bytes at `lo` up to and without `hi` hold any value, under a tag of their own (R266). -/
def Mem.forget (m : Mem) (lo hi tag : Nat) : Mem :=
  if lo < hi then
    { cells := m.cells.filter fun c => decide (c.1 < lo) || decide (hi ≤ c.1)
      spans := putSpan ⟨lo, hi, tag⟩ (cutSpans lo hi m.spans) }
  else m

/-- The canonical form: cells by strictly rising address, spans not empty, rising and disjoint, and no cell inside a
span. -/
abbrev Mem.wf (m : Mem) : Prop :=
  m.cells.Pairwise (fun c d => c.1 < d.1) ∧ m.spans.Pairwise (fun p q => p.hi ≤ q.lo) ∧
  (∀ p ∈ m.spans, p.lo < p.hi) ∧ ∀ c ∈ m.cells, ∀ p ∈ m.spans, c.1 < p.lo ∨ p.hi ≤ c.1

/-- The byte of `IN` at an address (R38). -/
def State.inByte (s : State) (a : Nat) : Byte := s.input.read Config.inAtPowerOn a

/-- The byte of `OUT` at an address (R38). -/
def State.outByte (s : State) (a : Nat) : Byte := s.output.read Config.outAtPowerOn a

/-- The bytes of a space at `a`, `a+1`, …, `n` of them. -/
def readList (byte : Nat → Byte) (a : Nat) : Nat → List Byte
  | 0 => []
  | n + 1 => byte a :: readList byte (a + 1) n

/-- The `n` bytes at `a`, `a+1`, … as a little-endian natural (R10 `MemRead`, R62). -/
def readLE (byte : Nat → Byte) (a : Nat) : Nat → Nat
  | 0 => 0
  | n + 1 => (byte a).toNat + 256 * readLE byte (a + 1) n

/-- Store one byte into `OUT`. -/
def State.putOut (s : State) (a : Nat) (b : Byte) : State := { s with output := s.output.write a b }

/-- Store a row of bytes into `OUT`. -/
def State.putOutList (s : State) (a : Nat) (bs : List Byte) : State := { s with output := s.output.writeList a bs }

/-- Store the low `8 n` bits of `v` into `OUT`, little-endian. -/
def State.putOutLE (s : State) (a n v : Nat) : State := { s with output := s.output.writeLE a n v }

/-- Let the bytes of `OUT` at `lo` up to and without `hi` hold any value (R266), each time under a fresh tag. -/
def State.forgetOut (s : State) (lo hi : Nat) : State :=
  { s with output := s.output.forget lo hi s.freeCount, freeCount := s.freeCount + 1 }

/-! ### Tables -/

/-- `sext_16` of a node symbol is at least 0: the node is a leaf (R31, R8). -/
def isLeafSymbol (x : BitVec 16) : Bool := 0 ≤ x.toInt

/-- The 16-bit pattern of a node symbol −1 (R31). -/
def internalSymbol : BitVec 16 := 0xFFFF#16

/-- Entry `i` of `SYM` (R32). -/
def Encoder.symAt (e : Encoder) (i : Nat) : SymEntry := e.sym.getD i ⟨0#32, 0#32, 0#6⟩

/-- Entry `i` of `ENODE` (R33). -/
def Encoder.nodeAt (e : Encoder) (i : Nat) : ENode := e.enode.getD i (ENode.unwritten i)

/-- Entry `i` of `DNODE` (R34). -/
def Decoder.nodeAt (d : Decoder) (i : Nat) : DNode := d.dnode.getD i (DNode.unwritten i)

/-- Entry `i` of `LUT` (R35). -/
def Decoder.lutAt (d : Decoder) (i : Nat) : LutEntry := d.lut.getD i (LutEntry.unwritten i)

/-! ### The two outcomes of a command -/

/-- The code of a failure kind (the table of R261). -/
def Kind.code : Kind → BitVec 4
  | .none => 0#4
  | .argument => 1#4
  | .truncated => 2#4
  | .structural => 3#4
  | .integrity => 4#4
  | .outputOverflow => 5#4
  | .encodeExhausted => 6#4
  | .illegal => 7#4

/-- The ok outcome: `FAIL` and `ERR` are 0 and the results are written, unsigned, zero-extended (R13, R25, R260). -/
def State.finishOk (s : State) (r0 r1 : Nat) : State :=
  { s with result := ⟨false, .none, BitVec.ofNat 64 r0, BitVec.ofNat 64 r1⟩ }

/-- The failure outcome, shared by every command: `FAIL` is 1, `ERR` the kind, `RES0` and `RES1` are 0, and nothing else
changes here (R260, R262). There is nothing to return from (R273). -/
def State.failWith (s : State) (k : Kind) : State :=
  { s with result := ⟨true, k, 0#64, 0#64⟩ }

/-- The failure outcome of a command that was writing `OUT` at `lo` up to and without `hi`: those bytes hold any value
(R266). -/
def State.failOver (s : State) (k : Kind) (lo hi : Nat) : State := (s.forgetOut lo hi).failWith k

/-- What an operation inside a command comes to: a value, or `fail K`, each with the state reached (R10, R260, R266). -/
inductive Res (α : Type) where
  | ok (a : α) (s : State)
  | fail (k : Kind) (s : State)
  deriving DecidableEq, Repr

/-- One operation after another; a failure ends both (R260: "execution of the command stops at that point"). -/
def Res.bind {α β : Type} (r : Res α) (f : α → State → Res β) : Res β :=
  match r with
  | .ok a s => f a s
  | .fail k s => .fail k s

/-- The state an operation reached, whether it ended ok or failed. -/
def Res.state {α : Type} : Res α → State
  | .ok _ s => s
  | .fail _ s => s

/-! ### Reset -/

/-- Reset (R285): every register, flag and table as after power-on, "and nothing else": `IN` and `OUT` are not touched.
The model's own fields are no part of the engine and stay. -/
def State.resetEngine (s : State) : State :=
  { State.reset with
    input := s.input
    output := s.output
    pending := s.pending
    readData := s.readData
    freeCount := s.freeCount }

end Sys2Proof.Machine
end

