-- ==== Sys2Proof/Machine/Operands.lean ====
section
/-! DEFINITION. The operand forms and the operand checks (`spec/10_state.md` R24, `spec/30_encoding.md` R80 to R82):
operands are unsigned 64-bit values used as they stand, and every sum and comparison is exact (R11). -/

namespace Sys2Proof.Machine

/-- `IN_LEN` as a natural. -/
def State.inLen (s : State) : Nat := s.ops.inLen.toNat

/-- `OUT_CAP` as a natural. -/
def State.outCap (s : State) : Nat := s.ops.outCap.toNat

/-- `ARG0` as a natural. -/
def State.arg0 (s : State) : Nat := s.ops.arg0.toNat

/-- `ARG1` as a natural. -/
def State.arg1 (s : State) : Nat := s.ops.arg1.toNat

/-- `ARG2` as a natural. -/
def State.arg2 (s : State) : Nat := s.ops.arg2.toNat

/-- "`start ≤ end` and `end ≤`" the bound of the space: the check of `BR_NEW`, `BW_NEW`, `SYM_DECODE`, `HUFF_DECODE`
(R111, R131, R186, R187). -/
abbrev rangeOk (start stop bound : Nat) : Prop := start ≤ stop ∧ stop ≤ bound

/-- A bit count for a read or a write, 1..32 (R113, R132). -/
abbrev bitCountOk (n : Nat) : Prop := 1 ≤ n ∧ n ≤ 32

/-- A block of raw bytes for `HISTOGRAM`, `SYM_EMIT`: `n ≤ 65536`, `start + n ≤ IN_LEN` (R172, R173). -/
abbrev rawBlockOk (start n bound : Nat) : Prop := n ≤ Config.maxBlock ∧ start + n ≤ bound

/-- Run a command whose operand checks are `p`: if one is not met it "fails with kind `ILLEGAL`" and changes nothing else
(R82). -/
def State.checked (s : State) (p : Prop) [Decidable p] (run : State → State) : State :=
  if p then run s else s.failWith .illegal

end Sys2Proof.Machine
end

