-- ==== Sys2Proof/Machine/Crc.lean ====
section
/-! DEFINITION. The CRC and its command (`spec/48_container.md` R230). `crc32c` is the one parameter a model takes as an
argument (R7, R42, D32): every operation that uses it takes it as `crc`. The default instance that R230 writes out, the one
every byte-exact vector assumes, is `crc32c`. PRESUMED: log 7. -/

namespace Sys2Proof.Machine

/-- What the `crc32c` parameter is: "a pure function of the byte sequence" to a 32-bit value (R7, R230). -/
abbrev CrcFn : Type := List Byte → BitVec 32

/-- One bit of the division: `c <- (c >> 1) xor (0x82F63B78 if (c & 1) = 1 else 0)`. -/
def crcBit (c : BitVec 32) : BitVec 32 :=
  if c.getLsbD 0 then (c >>> 1) ^^^ 0x82F63B78#32 else c >>> 1

/-- `n` bits of the division. -/
def crcBits : Nat → BitVec 32 → BitVec 32
  | 0, c => c
  | n + 1, c => crcBits n (crcBit c)

/-- One byte. -/
def crcByte (c : BitVec 32) (b : Byte) : BitVec 32 := crcBits 8 (c ^^^ b.setWidth 32)

/-- The default instance of the parameter (R230). -/
def crc32c (bs : List Byte) : BitVec 32 := bs.foldl crcByte 0xFFFFFFFF#32 ^^^ 0xFFFFFFFF#32

/-- `crc32c(space, a, n)` over `IN` (R10). -/
def State.crcIn (s : State) (crc : CrcFn) (a n : Nat) : Nat := (crc (readList s.inByte a n)).toNat

/-- `crc32c(space, a, n)` over `OUT` (R10). -/
def State.crcOut (s : State) (crc : CrcFn) (a n : Nat) : Nat := (crc (readList s.outByte a n)).toNat

/-- The bound of a space: `IN_LEN` for space 0, `OUT_CAP` for space 1 (R230). -/
def State.spaceBound (s : State) (space : Nat) : Nat := if space = 0 then s.inLen else s.outCap

/-- `CRC32C space, start, length` (R230). -/
def execCrc32cWith (crc : CrcFn) (s : State) : Host.Outcome State Fault Refusal :=
  .next (s.checked (s.arg0 ≤ 1 ∧ s.arg1 + s.arg2 ≤ s.spaceBound s.arg0) fun s =>
    s.finishOk (if s.arg0 = 0 then s.crcIn crc s.arg1 s.arg2 else s.crcOut crc s.arg1 s.arg2) 0)

/-- `CRC32C` with the default instance (R230; log 7). -/
def execCrc32c (s : State) : Host.Outcome State Fault Refusal := execCrc32cWith crc32c s

end Sys2Proof.Machine
end

