-- ==== Sys2Proof/Machine/Flags.lean ====
section
/-! DEFINITION. `STATUS` (`spec/10_state.md` R22), the flags (R28, R36) and the host's view of the registers (R20). -/

namespace Sys2Proof.Machine

/-- The code of a state of the payload decoder (R37). -/
def DecState.code : DecState → BitVec 3
  | .idle => 0#3
  | .fast => 1#3
  | .tail => 2#3
  | .completed => 3#3
  | .error => 4#3

/-- A one-bit field of `STATUS` at its place. -/
def statusBit (at_ : Nat) (b : Bool) : Word := (BitVec.ofBool b).setWidth 64 <<< at_

/-- `STATUS`: FAIL in bit 0, ERR in 7:4, BR_FAIL in 8, BW_FAIL in 9, DEC_STATE in 14:12, ENC_TREE_VALID in 16,
CODES_VALID in 17, DEC_TREE_VALID in 18; every other bit reads 0 (R22). -/
def State.status (s : State) : Word :=
  statusBit 0 s.result.fail ||| (s.result.err.code.setWidth 64 <<< 4) |||
  statusBit 8 s.br.fail ||| statusBit 9 s.bw.fail ||| (s.pay.state.code.setWidth 64 <<< 12) |||
  statusBit 16 s.enc.treeValid ||| statusBit 17 s.enc.codesValid ||| statusBit 18 s.dec.treeValid

/-- What the host reads at a register: `CMD` reads 0 (R20). -/
def State.readPort (s : State) : PortReg → Word
  | .cmd => 0#64
  | .status => s.status
  | .inLen => s.ops.inLen
  | .outCap => s.ops.outCap
  | .arg0 => s.ops.arg0
  | .arg1 => s.ops.arg1
  | .arg2 => s.ops.arg2
  | .arg3 => s.ops.arg3
  | .res0 => s.result.res0
  | .res1 => s.result.res1

/-- What the host's write of a register other than `CMD` does: "A write to a read-only register (`STATUS`, `RES0`,
`RES1`) is ignored and changes nothing" (R20). `CMD` holds nothing; its write is served by running a command. -/
def State.writePort (s : State) (v : Word) : PortReg → State
  | .cmd => s
  | .status => s
  | .inLen => { s with ops := { s.ops with inLen := v } }
  | .outCap => { s with ops := { s.ops with outCap := v } }
  | .arg0 => { s with ops := { s.ops with arg0 := v } }
  | .arg1 => { s with ops := { s.ops with arg1 := v } }
  | .arg2 => { s with ops := { s.ops with arg2 := v } }
  | .arg3 => { s with ops := { s.ops with arg3 := v } }
  | .res0 => s
  | .res1 => s

/-- Clear `ENC_TREE_VALID` and `CODES_VALID`: `HISTOGRAM`, `TBL_WRITE` (R36). -/
def Encoder.dropFlags (e : Encoder) : Encoder := { e with treeValid := false, codesValid := false }

end Sys2Proof.Machine
end

