-- ==== Sys2Proof/Machine/BitReader.lean ====
section
/-! DEFINITION. The bit reader and its ten commands (`spec/40_bitreader.md`). -/

namespace Sys2Proof.Machine

/-! ### The definitions of R110 -/

/-- `in_byte(i)`: a byte of the reader's range; at or past `BR_END` memory is not read and the byte is `CACHE_FILL`. -/
def State.rangeByte (s : State) (i : Nat) : Byte :=
  if i < s.br.stop.toNat then s.inByte i else Config.cacheFill

/-- `load4(p)`: the four bytes at `p`, the lowest address in bits 7:0 (R110, R62). -/
def State.load4 (s : State) (p : Nat) : BitVec 32 :=
  (s.rangeByte p).setWidth 32 ||| ((s.rangeByte (p + 1)).setWidth 32 <<< 8) |||
  ((s.rangeByte (p + 2)).setWidth 32 <<< 16) ||| ((s.rangeByte (p + 3)).setWidth 32 <<< 24)

/-- `P`, the stream position in bits. -/
def Reader.pos (r : Reader) : Nat := 8 * r.ptr.toNat + r.bitpos.toNat

/-- `LIMIT`, the first bit position past the range. -/
def Reader.limit (r : Reader) : Nat := 8 * r.stop.toNat

/-- `sbit(q)`, bit `q` of the stream. -/
def State.sbit (s : State) (q : Nat) : Bool := (s.rangeByte (q / 8)).getLsbD (q % 8)

/-- `field(q, n)`, the `n`-bit field at `q`, lowest bit first. -/
def State.field (s : State) (q : Nat) : Nat → Nat
  | 0 => 0
  | n + 1 => (s.sbit q).toNat + 2 * s.field (q + 1) n

/-- `seek(q)`, "the only way the position moves": position and cache. -/
def State.seek (s : State) (q : Nat) : State :=
  { s with br := { s.br with
      ptr := BitVec.ofNat 64 (q / 8), bitpos := BitVec.ofNat 5 (q % 8), cache := s.load4 (q / 8) } }

/-! ### The operations -/

/-- `br_new(start, end)` (R111). -/
def State.brNew (s : State) (start stop : Nat) : State :=
  State.seek { s with br := { s.br with stop := BitVec.ofNat 64 stop, fail := false } } (8 * start)

/-- A checked move by `n` bits: nothing while `BR_FAIL` is 1 (R122), nothing for `n = 0` ("`n = 0` changes nothing and
cannot fail", R114; so a stale cache stays stale, log 8); past the end of the range it sets `BR_FAIL` and the position and
the cache stay; else `seek` (R113, R114, R115). -/
def State.brMove (s : State) (n : Nat) : State :=
  if s.br.fail = true ∨ n = 0 then s
  else if s.br.limit < s.br.pos + n then { s with br := { s.br with fail := true } }
  else s.seek (s.br.pos + n)

/-- What a checked read of `n` bits returns: the field at the position, 0 on a failure or while `BR_FAIL` is 1 (R113,
R122). -/
def State.brValue (s : State) (n : Nat) : Nat :=
  if s.br.fail then 0
  else if s.br.limit < s.br.pos + n then 0
  else s.field s.br.pos n

/-- `br_peek8()`: `(BR_CACHE >> BR_BITPOS) & 0xFF` (R119). -/
def Reader.peek8 (r : Reader) : Nat := ((r.cache >>> r.bitpos.toNat) &&& 0xFF#32).toNat

/-- `br_at_end()` (R120). -/
def Reader.atEnd (r : Reader) : Bool :=
  (decide (r.ptr.toNat = r.stop.toNat) && decide (r.bitpos.toNat = 0)) ||
  (decide (r.ptr.toNat + 1 = r.stop.toNat) && decide (0 < r.bitpos.toNat))

/-- A read of `n` bits as a command: it ends ok whether or not the bounds test failed (R113, R264 (a)). -/
def State.readCommand (s : State) (n : Nat) : State := (s.brMove n).finishOk (s.brValue n) 0

/-- A move by `n` bits as a command (R114, R115). -/
def State.moveCommand (s : State) (n : Nat) : State := (s.brMove n).finishOk 0 0

/-! ### The commands -/

/-- `BR_NEW start, end` (R111). -/
def execBrNew (s : State) : Host.Outcome State Fault Refusal :=
  .next (s.checked (rangeOk s.arg0 s.arg1 s.inLen) fun s => (s.brNew s.arg0 s.arg1).finishOk 0 0)

/-- `BR_READ_BIT`: in this engine the unchecked form is the checked one (R116). -/
def execBrReadBit (s : State) : Host.Outcome State Fault Refusal := .next (s.readCommand 1)

/-- `BR_READ_BITS n` (R117). -/
def execBrReadBits (s : State) : Host.Outcome State Fault Refusal :=
  .next (s.checked (bitCountOk s.arg0) fun s => s.readCommand s.arg0)

/-- `BR_PEEK8`: no state changes, `BR_FAIL` is not looked at (R119). -/
def execBrPeek8 (s : State) : Host.Outcome State Fault Refusal := .next (s.finishOk s.br.peek8 0)

/-- `BR_ADVANCE n` (R118). -/
def execBrAdvance (s : State) : Host.Outcome State Fault Refusal :=
  .next (s.checked (s.arg0 ≤ 32) fun s => s.moveCommand s.arg0)

/-- `BR_READ_BIT_CHK` (R112). -/
def execBrReadBitChk (s : State) : Host.Outcome State Fault Refusal := .next (s.readCommand 1)

/-- `BR_READ_BITS_CHK n` (R113). -/
def execBrReadBitsChk (s : State) : Host.Outcome State Fault Refusal :=
  .next (s.checked (bitCountOk s.arg0) fun s => s.readCommand s.arg0)

/-- `BR_ADVANCE_CHK n` (R114). -/
def execBrAdvanceChk (s : State) : Host.Outcome State Fault Refusal :=
  .next (s.checked (s.arg0 ≤ 32) fun s => s.moveCommand s.arg0)

/-- `BR_ADVANCE_BYTES_CHK n`: no operand check, the product `8·n` is exact (R115, R11). -/
def execBrAdvanceBytesChk (s : State) : Host.Outcome State Fault Refusal := .next (s.moveCommand (8 * s.arg0))

/-- `BR_AT_END` (R120). -/
def execBrAtEnd (s : State) : Host.Outcome State Fault Refusal := .next (s.finishOk s.br.atEnd.toNat 0)

end Sys2Proof.Machine
end

