-- ==== Sys2Proof/Machine/BitWriter.lean ====
section
/-! DEFINITION. The bit writer and its three commands (`spec/41_bitwriter.md`). -/

namespace Sys2Proof.Machine

/-- `bw_new(start, end)`: pending bits are discarded, not flushed, and nothing is written (R131). -/
def State.bwNew (s : State) (start stop : Nat) : State :=
  { s with bw := ⟨BitVec.ofNat 64 start, BitVec.ofNat 64 stop, 0#6, 0#32, false⟩ }

/-- The byte to flush would pass the end of the range: `BW_FAIL` is set and the pending bits are dropped (R132, R133). -/
def State.bwOverflow (s : State) : State :=
  { s with bw := { s.bw with fail := true, cache := 0#32, bitpos := 0#6 } }

/-- Store one byte at `BW_PTR` and move `BW_PTR` past it (R132, R133). -/
def State.bwPut (s : State) (b : Byte) : State :=
  { s.putOut s.bw.ptr.toNat b with bw := { s.bw with ptr := s.bw.ptr + 1#64 } }

/-- The flush loop of R132: `k` whole bytes are flushed out of the accumulator, then what remains of it is pending. The
loop `while cnt ≥ 8` turns `cnt div 8` times. -/
def State.bwFlush (s : State) : Nat → Nat → Nat → State
  | 0, acc, cnt => { s with bw := { s.bw with cache := BitVec.ofNat 32 acc, bitpos := BitVec.ofNat 6 cnt } }
  | k + 1, acc, cnt =>
    if s.bw.stop.toNat ≤ s.bw.ptr.toNat then s.bwOverflow
    else (s.bwPut (BitVec.ofNat 8 acc)).bwFlush k (acc / 256) (cnt - 8)

/-- `bw_write_bits(x, n)`: bits of `x` at and above `n` are ignored; nothing while `BW_FAIL` is 1 (R132, R134). -/
def State.bwWriteBits (s : State) (x n : Nat) : State :=
  if s.bw.fail then s
  else
    s.bwFlush ((s.bw.bitpos.toNat + n) / 8) (s.bw.cache.toNat ||| (x % 2 ^ n) <<< s.bw.bitpos.toNat)
      (s.bw.bitpos.toNat + n)

/-- `bw_force_flush()`: a partial byte is stored, its padding bits 0 (R133). -/
def State.bwForceFlush (s : State) : State :=
  if s.bw.fail then s
  else if s.bw.bitpos.toNat = 0 then s
  else if s.bw.stop.toNat ≤ s.bw.ptr.toNat then s.bwOverflow
  else
    let t := s.bwPut (s.bw.cache.setWidth 8)
    { t with bw := { t.bw with cache := 0#32, bitpos := 0#6 } }

/-- `BW_NEW start, end` (R131). -/
def execBwNew (s : State) : Host.Outcome State Fault Refusal :=
  .next (s.checked (rangeOk s.arg0 s.arg1 s.outCap) fun s => (s.bwNew s.arg0 s.arg1).finishOk 0 0)

/-- `BW_WRITE_BITS x, n`: a bounds failure is not a command failure (R132, R264 (b)). -/
def execBwWriteBits (s : State) : Host.Outcome State Fault Refusal :=
  .next (s.checked (bitCountOk s.arg1) fun s => (s.bwWriteBits s.arg0 s.arg1).finishOk 0 0)

/-- `BW_FORCE_FLUSH` (R133). -/
def execBwForceFlush (s : State) : Host.Outcome State Fault Refusal := .next (s.bwForceFlush.finishOk 0 0)

end Sys2Proof.Machine
end

