-- ==== Sys2Proof/Machine/Rle.lean ====
section
/-! DEFINITION. The zero-run tokenizer, the histogram, the symbol emitter and the decode dispatch (`spec/44_rle.md`). -/

namespace Sys2Proof.Machine

/-- A token: a symbol 0..260 and a suffix of `k` bits (R93, glossary of `spec/00_scope.md`). -/
structure Token where
  sym : Nat
  k : Nat
  suffix : Nat
  deriving DecidableEq, Repr

/-- `suffix_bits(s)` (R170). -/
def suffixBits (s : Nat) : Nat :=
  if s = 257 then 2 else if s = 258 then 4 else if s = 259 then 8 else if s = 260 then 14 else 0

/-- `base(s)` of the symbols 256 to 260 (R170). -/
def runBase (s : Nat) : Nat :=
  if s = 256 then 2 else if s = 257 then 3 else if s = 258 then 7 else if s = 259 then 23 else 279

/-- `token_for_run(L)`, `1 ≤ L ≤ 16662` (R170). -/
def tokenForRun (l : Nat) : Token :=
  if l ≤ 1 then ⟨0, 0, 0⟩
  else if l = 2 then ⟨256, 0, 0⟩
  else if l ≤ 6 then ⟨257, 2, l - 3⟩
  else if l ≤ 22 then ⟨258, 4, l - 7⟩
  else if l ≤ 278 then ⟨259, 8, l - 23⟩
  else ⟨260, 14, l - 279⟩

/-- The token of a run of zeros that has ended, none for an empty run. -/
def closeRun (r : Nat) : List Token := if r = 0 then [] else [tokenForRun r]

/-- The tokens of a row of bytes after `r` zeros not yet put into a token: a run ends at a non-zero byte, at the end of
the bytes, or when it is 16662 long (R171). -/
def tokensFrom (r : Nat) : List Byte → List Token
  | [] => closeRun r
  | b :: bs =>
    if b = 0#8 then
      if r = Config.maxRun then tokenForRun r :: tokensFrom 1 bs else tokensFrom (r + 1) bs
    else closeRun r ++ ⟨b.toNat, 0, 0⟩ :: tokensFrom 0 bs

/-- `tokens(start, n)`, as a function of the bytes `IN[start .. start+n)` (R171: "a function of the bytes alone"). -/
def tokens (bs : List Byte) : List Token := tokensFrom 0 bs

/-- The bytes `IN[start .. start+n)`. -/
def State.inBytes (s : State) (start n : Nat) : List Byte := readList s.inByte start n

/-! ### Histogram -/

/-- `SYM[s].count <- SYM[s].count + 1` (R172). -/
def countToken (sym : List SymEntry) (t : Token) : List SymEntry :=
  sym.modify t.sym fun e => { e with count := e.count + 1#32 }

/-- `histogram(start, n)`: all of `SYM` zeroed, then the tokens counted; `ENC_TREE_VALID`, `CODES_VALID` cleared (R172). -/
def State.histogram (s : State) (start n : Nat) : State :=
  { s with enc := { s.enc.dropFlags with
      sym := (tokens (s.inBytes start n)).foldl countToken (List.replicate Config.nsym ⟨0#32, 0#32, 0#6⟩) } }

/-! ### Symbol emitter -/

/-- A token through the writer: the prefix code, then the suffix if it has bits (R173). -/
def State.emitToken (s : State) (t : Token) : State :=
  let e := s.enc.symAt t.sym
  let s := s.bwWriteBits e.code.toNat e.bits.toNat
  if 0 < t.k then s.bwWriteBits t.suffix t.k else s

/-- `sym_emit(start, n)` (R173). -/
def State.symEmit (s : State) (start n : Nat) : State := (tokens (s.inBytes start n)).foldl State.emitToken s

/-- Every token of the range has a code: `SYM[s].bits ≥ 1` (R173). -/
def State.allCoded (s : State) (start n : Nat) : Bool :=
  (tokens (s.inBytes start n)).all fun t => decide (1 ≤ (s.enc.symAt t.sym).bits.toNat)

/-! ### Decode dispatch -/

/-- A literal: one byte (R174). -/
def State.putLiteral (s : State) (b : Byte) : Res Unit :=
  if s.pay.outEnd.toNat < s.pay.outPtr.toNat + 1 then .fail .outputOverflow s
  else .ok () { s.putOut s.pay.outPtr.toNat b with pay := { s.pay with outPtr := s.pay.outPtr + 1#64 } }

/-- A run of `l` zero bytes: all of them or, where they do not fit, none (R174). -/
def State.putZeros (s : State) (l : Nat) : Res Unit :=
  if s.pay.outEnd.toNat < s.pay.outPtr.toNat + l then .fail .outputOverflow s
  else
    .ok () { s.putOutList s.pay.outPtr.toNat (List.replicate l 0#8) with
      pay := { s.pay with outPtr := s.pay.outPtr + BitVec.ofNat 64 l } }

/-- `br_read_bits_chk(n)` inside a command that tests `BR_FAIL` after it (R155, R174, R185). -/
def State.brReadOrFail (s : State) (n : Nat) : Res Nat :=
  if (s.brMove n).br.fail then .fail .truncated (s.brMove n) else .ok (s.brValue n) (s.brMove n)

/-- `dispatch(s)`: a literal, or a run whose suffix is read first (R174). -/
def State.dispatch (s : State) (sym : Nat) : Res Unit :=
  if sym ≤ 255 then s.putLiteral (BitVec.ofNat 8 sym)
  else if 0 < suffixBits sym then
    (s.brReadOrFail (suffixBits sym)).bind fun x s => s.putZeros (x + runBase sym)
  else s.putZeros (runBase sym)

/-! ### The commands -/

/-- `HISTOGRAM start, n` (R172). -/
def execHistogram (s : State) : Host.Outcome State Fault Refusal :=
  .next (s.checked (rawBlockOk s.arg0 s.arg1 s.inLen) fun s =>
    (s.histogram s.arg0 s.arg1).finishOk (tokens (s.inBytes s.arg0 s.arg1)).length 0)

/-- The checks of `SYM_EMIT`, in order (R173). -/
abbrev State.symEmitOk (s : State) : Prop :=
  s.enc.codesValid = true ∧ rawBlockOk s.arg0 s.arg1 s.inLen ∧ s.allCoded s.arg0 s.arg1 = true

/-- `SYM_EMIT start, n` (R173). -/
def execSymEmit (s : State) : Host.Outcome State Fault Refusal :=
  .next (s.checked s.symEmitOk fun s =>
    (s.symEmit s.arg0 s.arg1).finishOk (tokens (s.inBytes s.arg0 s.arg1)).length 0)

end Sys2Proof.Machine
end

