-- ==== Sys2Proof/Machine/TreeBuild.lean ====
section
/-! DEFINITION. The Huffman tree builder (`spec/42_tree_builder.md`). -/

namespace Sys2Proof.Machine

/-- One leaf per symbol, used or not, then the internal entries, empty (R140; log 9). The counts are copies, 64 bits
wide. -/
def Encoder.initialNodes (e : Encoder) : List ENode :=
  ((List.range Config.nsym).map fun i =>
    ⟨(e.symAt i).count.setWidth 64, BitVec.ofNat 16 i, Config.none16, Config.none16⟩) ++
  List.replicate (Config.maxTreeNodes - Config.nsym) ⟨0#64, internalSymbol, Config.none16, Config.none16⟩

/-- The symbols with a count greater than 0, in rising order (R140). -/
def Encoder.used (e : Encoder) : List Nat :=
  (List.range Config.nsym).filter fun i => decide (0 < (e.symAt i).count.toNat)

/-- The better of the best entry so far and entry `i`, as (count, index): an entry with count 0 or equal to `skip` is not
eligible, and a later entry wins only with a smaller count, so the lowest index wins a tie (R141). -/
def better (skip : Option Nat) (i : Nat) (x : ENode) (best : Option (Nat × Nat)) : Option (Nat × Nat) :=
  if x.count.toNat = 0 ∨ skip = some i then best
  else
    match best with
    | none => some (x.count.toNat, i)
    | some (d, j) => if x.count.toNat < d then some (x.count.toNat, i) else some (d, j)

/-- The eligible entry that minimises (count, index), among the entries of a list whose first has index `i`, other than
`skip`, and the best so far: "pairs compared first by count, then by index" (R141). -/
def lightest (skip : Option Nat) (i : Nat) (best : Option (Nat × Nat)) : List ENode → Option (Nat × Nat)
  | [] => best
  | x :: xs => lightest skip (i + 1) (better skip i x best) xs

/-- The entries the scan runs over, `0, 1, …, ENC_NEXT − 1` (R141). -/
def Encoder.scanned (e : Encoder) : List ENode := e.enode.take e.next.toNat

/-- `node_1`, with its count: the lightest eligible entry (R141). -/
def Encoder.first (e : Encoder) : Option (Nat × Nat) := lightest none 0 none e.scanned

/-- `node_2`, with its count: the lightest eligible entry other than `node_1` (R141). -/
def Encoder.second (e : Encoder) (n1 : Nat) : Option (Nat × Nat) := lightest (some n1) 0 none e.scanned

/-- `ENODE[i].count <- 0`: the entry is consumed (R142). -/
def consume (i : Nat) (ns : List ENode) : List ENode := ns.modify i fun x => { x with count := 0#64 }

/-- `merge(node_1, node_2)`: the lighter becomes child A (R142). -/
def Encoder.merge (e : Encoder) (n1 n2 : Nat) : Encoder :=
  { e with
    enode :=
      consume n2 (consume n1 (e.enode.set e.next.toNat
        ⟨(e.nodeAt n1).count + (e.nodeAt n2).count, internalSymbol, BitVec.ofNat 16 n1, BitVec.ofNat 16 n2⟩))
    root := e.next.setWidth 16
    next := e.next + 1#10 }

/-- One turn of the loop of R143: select and merge. With fewer than two eligible entries there is nothing to merge, which
does not happen within the `nsym − 1` turns (R142). -/
def Encoder.mergeTurn (e : Encoder) : Encoder :=
  match e.first with
  | none => e
  | some (_, n1) =>
    match e.second n1 with
    | none => e
    | some (_, n2) => e.merge n1 n2

/-- `n` turns of the loop. -/
def Encoder.mergeTurns : Nat → Encoder → Encoder
  | 0, e => e
  | n + 1, e => mergeTurns n e.mergeTurn

/-- The state of the builder before the loop (R140); with one symbol in use its leaf is the root (R143). -/
def Encoder.initial (e : Encoder) : Encoder :=
  { e with
    enode := e.initialNodes
    next := 261#10
    root :=
      match e.used with
      | [i] => BitVec.ofNat 16 i
      | _ => Config.none16
    treeValid := true
    codesValid := false }

/-- `tree_build()` (R143). -/
def Encoder.treeBuild (e : Encoder) : Encoder := mergeTurns (e.used.length - 1) e.initial

/-- `TREE_BUILD`: always ends ok; `RES0` the symbols in use, `RES1` `ENC_ROOT` (R143). -/
def execTreeBuild (s : State) : Host.Outcome State Fault Refusal :=
  .next (({ s with enc := s.enc.treeBuild } : State).finishOk s.enc.used.length s.enc.treeBuild.root.toNat)

end Sys2Proof.Machine
end

