-- ==== Sys2Proof/Machine/TreeCode.lean ====
section
/-! DEFINITION. Tree emission with code assignment, tree recovery, and the decode lookup table
(`spec/43_tree_emit_recover.md`). -/

namespace Sys2Proof.Machine

/-! ### Emission -/

/-- No leaf of the tree rooted at node `n` lies deeper than `fuel − 1` below it (R152, second check). -/
def Encoder.depthOk (e : Encoder) : Nat → Nat → Bool
  | 0, _ => false
  | fuel + 1, n =>
    isLeafSymbol (e.nodeAt n).symbol ||
    (e.depthOk fuel (e.nodeAt n).childA.toNat && e.depthOk fuel (e.nodeAt n).childB.toNat)

/-- No leaf of the tree rooted at `ENC_ROOT` lies deeper than 32 (R152); an empty tree has none. -/
def Encoder.codesFit (e : Encoder) : Bool :=
  decide (e.root = Config.none16) || e.depthOk (Config.maxCodeBits + 1) e.root.toNat

/-- `SYM[sym].code <- code ; SYM[sym].bits <- bits` (R150). -/
def Encoder.setCode (e : Encoder) (sym : Nat) (code : BitVec 32) (bits : Nat) : Encoder :=
  { e with sym := e.sym.modify sym fun x => { x with code := code, bits := BitVec.ofNat 6 bits } }

/-- `emit_node(n, code, bits)`: the node, then child A's subtree, then child B's (R150), with the codes of R151. `fuel`
bounds the depth; within R152's check it does not run out (log 12). -/
def State.emitNode (s : State) : Nat → Nat → BitVec 32 → Nat → State
  | 0, _, _, _ => s
  | fuel + 1, n, code, bits =>
    let x := s.enc.nodeAt n
    if isLeafSymbol x.symbol then
      let s := (s.bwWriteBits 1 1).bwWriteBits x.symbol.toNat Config.symbolBits
      { s with enc := s.enc.setCode x.symbol.toNat code bits }
    else
      let s := s.bwWriteBits 0 1
      let s := s.emitNode fuel x.childA.toNat code (bits + 1)
      s.emitNode fuel x.childB.toNat (code ||| (1#32 <<< bits)) (bits + 1)

/-- `SYM[s].code <- 0 ; SYM[s].bits <- 0` for all `s`; "counts are kept" (R152). -/
def Encoder.clearCodes (e : Encoder) : Encoder :=
  { e with sym := e.sym.map fun x => { x with code := 0#32, bits := 0#6 } }

/-- The state with `SYM`'s codes cleared. -/
def State.cleared (s : State) : State := { s with enc := s.enc.clearCodes }

/-- The depth at which the walk starts: 1 for a lone leaf, whose code is one bit (R153), else 0 (R151). -/
def Encoder.startBits (e : Encoder) : Nat := if isLeafSymbol (e.nodeAt e.root.toNat).symbol then 1 else 0

/-- The walk from `ENC_ROOT`: nothing for the empty tree (R154). -/
def State.emitTree (s : State) : State :=
  if s.enc.root = Config.none16 then s
  else s.emitNode (Config.maxCodeBits + 1) s.enc.root.toNat 0#32 s.enc.startBits

/-- `CODES_VALID <- 1` (R152). -/
def State.setCodesValid (s : State) : State := { s with enc := { s.enc with codesValid := true } }

/-- `tree_emit()` (R152). -/
def State.treeEmit (s : State) : State := s.cleared.emitTree.setCodesValid

/-- The checks of `TREE_EMIT`, in order (R152). -/
abbrev State.treeEmitOk (s : State) : Prop := s.enc.treeValid = true ∧ s.enc.codesFit = true

/-- `TREE_EMIT` (R152): a writer overflow is not a command failure. -/
def execTreeEmit (s : State) : Host.Outcome State Fault Refusal :=
  .next (s.checked s.treeEmitOk fun s => s.treeEmit.finishOk 0 0)

/-! ### Recovery -/

/-- Write the table entry of every 8-bit index whose low `bits` bits equal `code` (R156), in a table whose first entry
has index `i`. -/
def lutFill (code bits : Nat) (x : LutEntry) (i : Nat) : List LutEntry → List LutEntry
  | [] => []
  | y :: ys => (if i % 2 ^ bits = code then x else y) :: lutFill code bits x (i + 1) ys

/-- Change the decoder's tables. -/
def State.withDec (s : State) (f : Decoder → Decoder) : State := { s with dec := f s.dec }

/-- Allocate the next node, `{ symbol: −1, child_a: NONE, child_b: NONE }` (R155). -/
def Decoder.alloc (d : Decoder) : Decoder :=
  { d with
    dnode := d.dnode.set d.count.toNat ⟨internalSymbol, Config.none16, Config.none16⟩
    count := d.count + 1#10 }

/-- A leaf's symbol, and its table entries when it lies at depth 8 or less (R155, R156). -/
def Decoder.setLeaf (d : Decoder) (n sym code bits : Nat) : Decoder :=
  { d with
    dnode := d.dnode.modify n fun x => { x with symbol := BitVec.ofNat 16 sym }
    lut :=
      if bits ≤ Config.lutKeyBits then
        lutFill code bits ⟨Config.none16, BitVec.ofNat 9 sym, BitVec.ofNat 4 (max bits 1)⟩ 0 d.lut
      else d.lut }

/-- The table entry of an internal node at depth 8; a node at another depth writes none (R157, R158). -/
def Decoder.setJump (d : Decoder) (n code bits : Nat) : Decoder :=
  if bits = Config.lutKeyBits then
    { d with lut := d.lut.set code ⟨BitVec.ofNat 16 n, 0#9, BitVec.ofNat 4 Config.lutKeyBits⟩ }
  else d

/-- `DNODE[n].child_a <- a` (R155). -/
def Decoder.setChildA (d : Decoder) (n a : Nat) : Decoder :=
  { d with dnode := d.dnode.modify n fun x => { x with childA := BitVec.ofNat 16 a } }

/-- `DNODE[n].child_b <- b` (R155). -/
def Decoder.setChildB (d : Decoder) (n b : Nat) : Decoder :=
  { d with dnode := d.dnode.modify n fun x => { x with childB := BitVec.ofNat 16 b } }

/-- `recover_node(code, bits)`, giving the node's index (R155). Each level allocates a node before it goes deeper, so the
node limit is the depth limit (R162): with 522 levels of `fuel` the limit of 521 nodes stops every description first
(log 12). -/
def State.recoverNode (s : State) : Nat → Nat → Nat → Res Nat
  | 0, _, _ => .fail .structural s
  | fuel + 1, code, bits =>
    if Config.maxTreeNodes ≤ s.dec.count.toNat then .fail .structural s
    else
      let n := s.dec.count.toNat
      ((s.withDec Decoder.alloc).brReadOrFail 1).bind fun flag s =>
        if flag = 1 then
          (s.brReadOrFail Config.symbolBits).bind fun sym s =>
            if 260 < sym then .fail .structural s
            else .ok n (s.withDec fun d => d.setLeaf n sym code bits)
        else
          let s := s.withDec fun d => d.setJump n code bits
          (s.recoverNode fuel code (bits + 1)).bind fun a s =>
            let s := s.withDec fun d => d.setChildA n a
            (s.recoverNode fuel (if bits ≤ 7 then code ||| (1 <<< bits) else code) (bits + 1)).bind fun b s =>
              .ok n (s.withDec fun d => d.setChildB n b)

/-- `tree_recover()` (R155): `DEC_TREE_VALID` is cleared at the start and set only on success. -/
def State.treeRecover (s : State) : Res Unit :=
  let s := s.withDec fun d => { d with treeValid := false, count := 0#10 }
  (s.recoverNode (Config.maxTreeNodes + 1) 0 0).bind fun _ s =>
    .ok () (s.withDec fun d => { d with treeValid := true })

/-- `TREE_RECOVER` (R155): on a failure the tables and `DEC_COUNT` hold what had been written so far. -/
def execTreeRecover (s : State) : Host.Outcome State Fault Refusal :=
  match s.treeRecover with
  | .ok _ t => .next (t.finishOk t.dec.count.toNat 0)
  | .fail k t => .next (t.failWith k)

end Sys2Proof.Machine
end

