-- ==== Sys2Proof/Machine/PayloadDecode.lean ====
section
/-! DEFINITION. The payload decoder (`spec/45_payload_decode.md`). -/

namespace Sys2Proof.Machine

/-- The walk below the table (R185): from node `n`, one bit a turn, to a leaf. Every turn reads a bit of the range or
fails, so with more `fuel` than bits are left it does not run out (log 12). -/
def State.walk (s : State) : Nat → Nat → Res Nat
  | 0, _ => .fail .truncated s
  | fuel + 1, n =>
    let x := s.dec.nodeAt n
    if isLeafSymbol x.symbol then .ok x.symbol.toNat s
    else
      (s.brReadOrFail 1).bind fun b s => s.walk fuel (if b = 1 then x.childB.toNat else x.childA.toNat)

/-- `br_advance_chk(n)` inside a command that tests `BR_FAIL` after it (R185). -/
def State.brAdvanceOrFail (s : State) (n : Nat) : Res Unit :=
  if (s.brMove n).br.fail then .fail .truncated (s.brMove n) else .ok () (s.brMove n)

/-- `decode_symbol()` (R185). -/
def State.decodeSymbol (s : State) : Res Nat :=
  let x := s.dec.lutAt s.br.peek8
  if x.node = Config.none16 then
    (s.brAdvanceOrFail x.bits.toNat).bind fun _ s => .ok x.symbol.toNat s
  else
    (s.brAdvanceOrFail Config.lutKeyBits).bind fun _ s => s.walk (s.br.limit - s.br.pos + 1) x.node.toNat

/-- `OUT_PTR <- …; OUT_END <- …` (R186, R187). -/
def State.setOut (s : State) (ptr stop : Nat) : State :=
  { s with pay := { s.pay with outPtr := BitVec.ofNat 64 ptr, outEnd := BitVec.ofNat 64 stop } }

/-- `DEC_STATE <- …` (R187). -/
def State.setDecState (s : State) (d : DecState) : State := { s with pay := { s.pay with state := d } }

/-- One symbol and its dispatch: the loop body of R187, steps 1 to 4 of R186; the value is the symbol. -/
def State.decodeOne (s : State) : Res Nat :=
  s.decodeSymbol.bind fun sym s => (s.dispatch sym).bind fun _ s => .ok sym s

/-- The state the loop starts in (R187): Tail for a single-leaf tree, Fast while more than the margin is left. -/
def State.startState (s : State) : DecState :=
  if isLeafSymbol (s.dec.nodeAt 0).symbol then .tail
  else if s.br.ptr.toNat + Config.fastMargin < s.br.stop.toNat then .fast
  else .tail

/-- "Transition Fast→Tail occurs when `byte_ptr ≥ end_ptr − 10`" (R187). -/
def State.leaveFast (s : State) : State :=
  if s.pay.state = .fast ∧ s.br.stop.toNat ≤ s.br.ptr.toNat + Config.fastMargin then s.setDecState .tail else s

/-- The loop of R187. Every turn raises `OUT_PTR` by at least 1 or fails, so with as much `fuel` as bytes are to be
decoded it does not run out (log 12). -/
def State.huffLoop (s : State) : Nat → Res Unit
  | 0 => .ok () s
  | fuel + 1 =>
    if s.pay.outPtr.toNat < s.pay.outEnd.toNat then s.leaveFast.decodeOne.bind fun _ s => s.huffLoop fuel
    else .ok () s

/-- `huff_decode(out_start, out_end)` (R187): a failure leaves `DEC_STATE` at Error. -/
def State.huffDecode (s : State) (start stop : Nat) : Res Unit :=
  let s := s.setOut start stop
  match (s.setDecState s.startState).huffLoop (stop - start) with
  | .ok _ t => .ok () (t.setDecState .completed)
  | .fail k t => .fail k (t.setDecState .error)

/-- The checks of `SYM_DECODE` and of `HUFF_DECODE`, in order (R186, R187). -/
abbrev State.payloadOk (s : State) : Prop := s.dec.treeValid = true ∧ rangeOk s.arg0 s.arg1 s.outCap

/-- `SYM_DECODE out_ptr, out_end` (R186). On a failure nothing is written: "a failing dispatch writes nothing". -/
def execSymDecode (s : State) : Host.Outcome State Fault Refusal :=
  .next (s.checked s.payloadOk fun s =>
    match (s.setOut s.arg0 s.arg1).decodeOne with
    | .ok sym t => t.finishOk t.pay.outPtr.toNat sym
    | .fail k t => t.failWith k)

/-- `HUFF_DECODE out_start, out_end` (R187). On a failure "the bytes of `OUT[out_start .. out_end)` are not to be relied
on". -/
def execHuffDecode (s : State) : Host.Outcome State Fault Refusal :=
  .next (s.checked s.payloadOk fun s =>
    match s.huffDecode s.arg0 s.arg1 with
    | .ok _ t => t.finishOk t.pay.outPtr.toNat 0
    | .fail k t => t.failOver k s.arg0 s.arg1)

end Sys2Proof.Machine
end

