-- ==== Sys2Proof/Machine/BlockDecode.lean ====
section
/-! DEFINITION. The block verifier and the block decoder (`spec/47_block_decoder_verifier.md`). -/

namespace Sys2Proof.Machine

/-- The three fields of a block header (R86); `es` is the payload size, the stored field plus one. -/
structure BlockHeader where
  es : Nat
  crc : Nat
  mode : Nat
  deriving DecidableEq, Repr

/-- `read_block_header(p)`: header cut off, mode above 2, payload past the end of the input, in this order (R215). -/
def State.readBlockHeader (s : State) (p : Nat) : Except Kind BlockHeader :=
  if s.inLen < p + Config.blockHdr then .error .truncated
  else
    let h : BlockHeader := ⟨readLE s.inByte p 2 + 1, readLE s.inByte (p + 2) 4, readLE s.inByte (p + 6) 1⟩
    if 2 < h.mode then .error .structural
    else if s.inLen < p + Config.blockHdr + h.es then .error .structural
    else .ok h

/-- `block_verify(p)`: the next position and the mode; no state changes (R216). -/
def State.blockVerify (s : State) (crc : CrcFn) (p : Nat) : Except Kind (Nat × Nat) :=
  match s.readBlockHeader p with
  | .error k => .error k
  | .ok h =>
    if s.crcIn crc (p + Config.blockHdr) h.es ≠ h.crc then .error .integrity
    else .ok (p + Config.blockHdr + h.es, h.mode)

/-- `decode_copy` (R218). -/
def State.decodeCopy (s : State) (q es start len : Nat) : Res Unit :=
  if es ≠ len then .fail .structural s else .ok () (s.putOutList start (s.inBytes q len))

/-- `decode_fill` (R219). -/
def State.decodeFill (s : State) (q es start len : Nat) : Res Unit :=
  if es ≠ 1 then .fail .structural s else .ok () (s.putOutList start (List.replicate len (s.inByte q)))

/-- `decode_huff_rle`: a reader over exactly the payload, tree recovery, the payload decoder (R220). -/
def State.decodeHuffRle (s : State) (q es start len : Nat) : Res Unit :=
  (s.brNew q (q + es)).treeRecover.bind fun _ s => s.huffDecode start (start + len)

/-- The payload in the mode its header names (R217). -/
def State.decodePayload (s : State) (h : BlockHeader) (q start len : Nat) : Res Unit :=
  if h.mode = 0 then s.decodeCopy q h.es start len
  else if h.mode = 2 then s.decodeFill q h.es start len
  else s.decodeHuffRle q h.es start len

/-- `block_decode(p, out_start, block_len)`: the CRC field is not used (R217, R221); the values are the next position and
the mode. -/
def State.blockDecode (s : State) (p start len : Nat) : Res (Nat × Nat) :=
  match s.readBlockHeader p with
  | .error k => .fail k s
  | .ok h =>
    (s.decodePayload h (p + Config.blockHdr) start len).bind fun _ s => .ok (p + Config.blockHdr + h.es, h.mode) s

/-- `BLOCK_VERIFY in_pos` (R216). -/
def execBlockVerifyWith (crc : CrcFn) (s : State) : Host.Outcome State Fault Refusal :=
  .next (s.checked (s.arg0 ≤ s.inLen) fun s =>
    match s.blockVerify crc s.arg0 with
    | .ok (p, mode) => s.finishOk p mode
    | .error k => s.failWith k)

/-- `BLOCK_VERIFY` with the default instance of `crc32c` (R230; log 7). -/
def execBlockVerify (s : State) : Host.Outcome State Fault Refusal := execBlockVerifyWith crc32c s

/-- The operand checks of `BLOCK_DECODE`, in order (R217). -/
abbrev State.blockDecodeOk (s : State) : Prop :=
  s.arg0 ≤ s.inLen ∧ (1 ≤ s.arg2 ∧ s.arg2 ≤ Config.maxBlock) ∧ s.arg1 + s.arg2 ≤ s.outCap

/-- `BLOCK_DECODE in_pos, out_start, block_len` (R217). "On failure the bytes of `OUT[out_start .. out_start +
block_len)` are not to be relied on." -/
def execBlockDecode (s : State) : Host.Outcome State Fault Refusal :=
  .next (s.checked s.blockDecodeOk fun s =>
    match s.blockDecode s.arg0 s.arg1 s.arg2 with
    | .ok (p, mode) t => t.finishOk p mode
    | .fail k t => t.failOver k s.arg1 (s.arg1 + s.arg2))

end Sys2Proof.Machine
end

