-- ==== Sys2Proof/Machine/BlockEncode.lean ====
section
/-! DEFINITION. The block encoder (`spec/46_block_encoder.md`). -/

namespace Sys2Proof.Machine

/-- The zero class is in use: some `s` in {0, 256, …, 260} has a count (R201). -/
def Encoder.zeroClassUsed (e : Encoder) : Bool :=
  [0, 256, 257, 258, 259, 260].any fun i => decide (0 < (e.symAt i).count.toNat)

/-- The non-zero literals in use, in rising order (R201). -/
def Encoder.literalsUsed (e : Encoder) : List Nat :=
  e.used.filter fun i => decide (1 ≤ i ∧ i ≤ 255)

/-- `constant_value()`: the byte all bytes of the block are, none if they are not all equal (R201). -/
def Encoder.constantValue (e : Encoder) : Option Byte :=
  match e.literalsUsed with
  | [] => some 0#8
  | [v] => if e.zeroClassUsed then none else some (BitVec.ofNat 8 v)
  | _ => none

/-- `try_huff_rle(in_start, n_b, out_pos)`: the payload's size, or `none` for "fallback" (R203). -/
def State.tryHuffRle (s : State) (inStart n outPos : Nat) : Option Nat × State :=
  let s := s.bwNew (outPos + Config.blockHdr) s.outCap
  let s : State := { s with enc := s.enc.treeBuild }
  if s.enc.codesFit = false then (none, s)
  else
    let s := s.treeEmit
    if s.bw.fail then (none, s)
    else
      let s := s.symEmit inStart n
      if s.bw.fail then (none, s)
      else
        let s := s.bwForceFlush
        if s.bw.fail then (none, s)
        else
          let es := s.bw.ptr.toNat - (outPos + Config.blockHdr)
          if Config.maxBlock ≤ es then (none, s) else (some es, s)

/-- `emit_copy(in_start, n_b, out_pos)` (R204). -/
def State.emitCopy (s : State) (inStart n outPos : Nat) : Res (Nat × Nat) :=
  if s.outCap < outPos + Config.blockHdr + n then .fail .encodeExhausted s
  else .ok (n, 0) (s.putOutList (outPos + Config.blockHdr) (s.inBytes inStart n))

/-- `emit_fill(out_pos, v)`: the writer is not touched (R202). -/
def State.emitFill (s : State) (v : Byte) (outPos : Nat) : Res (Nat × Nat) :=
  .ok (1, 2) (s.putOut (outPos + Config.blockHdr) v)

/-- The modes in their order: FILL if the block is constant, HUFF_RLE, COPY (R200 steps 2 to 4, R208); the values are the
payload size and the mode. -/
def State.emitPayload (s : State) (inStart n outPos : Nat) : Res (Nat × Nat) :=
  match s.enc.constantValue with
  | some v => s.emitFill v outPos
  | none =>
    match s.tryHuffRle inStart n outPos with
    | (some es, s) => .ok (es, 1) s
    | (none, s) => s.emitCopy inStart n outPos

/-- `write_block_header(out_pos, es, mode)`: the CRC is taken of the payload bytes just written (R205). -/
def State.writeBlockHeader (s : State) (crc : CrcFn) (outPos es mode : Nat) : State :=
  ((s.putOutLE outPos 2 (es - 1)).putOutLE (outPos + 2) 4 (s.crcOut crc (outPos + Config.blockHdr) es)).putOutLE
    (outPos + 6) 1 mode

/-- `block_encode` once the block's first 8 bytes are known to fit (R200); the values are the bytes written and the
mode. -/
def State.blockEncodeBody (s : State) (crc : CrcFn) (inStart n outPos : Nat) : Res (Nat × Nat) :=
  ((s.histogram inStart n).emitPayload inStart n outPos).bind fun (es, mode) s =>
    .ok (Config.blockHdr + es, mode) (s.writeBlockHeader crc outPos es mode)

/-- `block_encode(in_start, n_b, out_pos)` (R200): with no room for the smallest block "nothing changed yet". -/
def State.blockEncode (s : State) (crc : CrcFn) (inStart n outPos : Nat) : Res (Nat × Nat) :=
  if s.outCap < outPos + 8 then .fail .encodeExhausted s else s.blockEncodeBody crc inStart n outPos

/-- The operand checks of `BLOCK_ENCODE`, in order (R200). -/
abbrev State.blockEncodeOk (s : State) : Prop :=
  (1 ≤ s.arg1 ∧ s.arg1 ≤ Config.maxBlock) ∧ s.arg0 + s.arg1 ≤ s.inLen ∧ s.arg2 ≤ s.outCap

/-- `BLOCK_ENCODE in_start, n_b, out_pos` (R200). A failure after something was written leaves
`OUT[out_pos .. OUT_CAP)` holding any value (R266). -/
def execBlockEncodeWith (crc : CrcFn) (s : State) : Host.Outcome State Fault Refusal :=
  .next (s.checked s.blockEncodeOk fun s =>
    if s.outCap < s.arg2 + 8 then s.failWith .encodeExhausted
    else
      match s.blockEncodeBody crc s.arg0 s.arg1 s.arg2 with
      | .ok (w, mode) t => t.finishOk w mode
      | .fail k t => t.failOver k s.arg2 s.outCap)

/-- `BLOCK_ENCODE` with the default instance of `crc32c` (R230; log 7). -/
def execBlockEncode (s : State) : Host.Outcome State Fault Refusal := execBlockEncodeWith crc32c s

end Sys2Proof.Machine
end

