-- ==== Sys2Proof/Machine/Container.lean ====
section
/-! DEFINITION. The size bound and the container driver (`spec/48_container.md`). -/

namespace Sys2Proof.Machine

/-- `ceil(n / 65536)`, the number of blocks of `n` bytes (R84, R8). -/
def blockCount (n : Nat) : Nat := (n + Config.maxBlock - 1) / Config.maxBlock

/-- `4 + ceil(n/65536) · 65543` (R231). -/
def maxSize (n : Nat) : Nat := Config.masterHdr + blockCount n * (Config.blockHdr + Config.maxBlock)

/-- `MAXSIZE n` (R231). -/
def execMaxsize (s : State) : Host.Outcome State Fault Refusal :=
  .next (if Config.maxInput < s.arg0 then s.failWith .argument else s.finishOk (maxSize s.arg0) 0)

/-- The loop of R232, at most one turn a block: from raw offset `i`, the next block goes to `pos`, `nb` are written. -/
def State.encodeLoop (s : State) (crc : CrcFn) (n : Nat) : Nat → Nat → Nat → Nat → Res (Nat × Nat)
  | 0, pos, _, nb => .ok (pos, nb) s
  | fuel + 1, pos, i, nb =>
    if i < n then
      (s.blockEncode crc i (min Config.maxBlock (n - i)) pos).bind fun (w, _) s =>
        s.encodeLoop crc n fuel (pos + w) (i + min Config.maxBlock (n - i)) (nb + 1)
    else .ok (pos, nb) s

/-- `encode()` once the master header fits (R232); the values are the encoded size and the number of blocks. -/
def State.encodeAll (s : State) (crc : CrcFn) : Res (Nat × Nat) :=
  (s.putOutLE 0 Config.masterHdr s.inLen).encodeLoop crc s.inLen (blockCount s.inLen) Config.masterHdr 0 0

/-- `ENCODE` (R232). After the master header is written, a failure leaves `OUT[0 .. OUT_CAP)` holding any value
(R266). -/
def execEncodeWith (crc : CrcFn) (s : State) : Host.Outcome State Fault Refusal :=
  .next (
    if Config.maxInput < s.inLen then s.failWith .argument
    else if s.outCap < Config.masterHdr then s.failWith .encodeExhausted
    else
      match s.encodeAll crc with
      | .ok (pos, nb) t => t.finishOk pos nb
      | .fail k t => t.failOver k 0 s.outCap)

/-- `ENCODE` with the default instance of `crc32c` (R230; log 7). -/
def execEncode (s : State) : Host.Outcome State Fault Refusal := execEncodeWith crc32c s

/-- The loop of R233: `rem` bytes are still announced, the next block header stands at `pos`; the value is the position
after the last block. -/
def State.verifyLoop (s : State) (crc : CrcFn) : Nat → Nat → Nat → Except Kind Nat
  | 0, pos, _ => .ok pos
  | fuel + 1, pos, rem =>
    if 0 < rem then
      match s.blockVerify crc pos with
      | .error k => .error k
      | .ok (pos, _) => s.verifyLoop crc fuel pos (rem - min Config.maxBlock rem)
    else .ok pos

/-- The announced decoded size, `MemRead(IN, 0, 4)` (R85, R233, R234). -/
def State.announced (s : State) : Nat := readLE s.inByte 0 Config.masterHdr

/-- `VERIFY` (R233): it "writes nothing and changes no unit state". -/
def execVerifyWith (crc : CrcFn) (s : State) : Host.Outcome State Fault Refusal :=
  .next (
    if s.inLen < Config.masterHdr then s.failWith .argument
    else
      match s.verifyLoop crc (blockCount s.announced) Config.masterHdr s.announced with
      | .ok pos => s.finishOk s.announced pos
      | .error k => s.failWith k)

/-- `VERIFY` with the default instance of `crc32c` (R230; log 7). -/
def execVerify (s : State) : Host.Outcome State Fault Refusal := execVerifyWith crc32c s

/-- The loop of R234: `o` of `d` bytes are decoded, the next block header stands at `pos`. -/
def State.decodeLoop (s : State) (d : Nat) : Nat → Nat → Nat → Res Nat
  | 0, pos, _ => .ok pos s
  | fuel + 1, pos, o =>
    if o < d then
      (s.blockDecode pos o (min Config.maxBlock (d - o))).bind fun (pos, _) s =>
        s.decodeLoop d fuel pos (o + min Config.maxBlock (d - o))
    else .ok pos s

/-- `DECODE` (R234): it checks no CRC (R221). Once the blocks are begun, a failure leaves `OUT[0 .. D)` holding any value
(R266). -/
def execDecode (s : State) : Host.Outcome State Fault Refusal :=
  .next (
    if s.inLen < Config.masterHdr then s.failWith .argument
    else if s.outCap < s.announced then s.failWith .argument
    else
      match s.decodeLoop s.announced (blockCount s.announced) Config.masterHdr 0 with
      | .ok pos t => t.finishOk s.announced pos
      | .fail k t => t.failOver k 0 s.announced)

end Sys2Proof.Machine
end

