-- ==== Sys2Proof/Machine/Table.lean ====
section
/-! DEFINITION. Table access (`spec/49_table_access.md`). -/

namespace Sys2Proof.Machine

/-- The number of indices of a table (the third column of R250); ids 14 and above name no table. -/
def State.tableSize (s : State) (id : Nat) : Nat :=
  if id ≤ 2 then Config.nsym
  else if id ≤ 6 then Config.maxTreeNodes
  else if id ≤ 9 then s.dec.count.toNat
  else if id ≤ 12 then Config.lutSize
  else if id = 13 then 9
  else 0

/-- The guard of a table is 1, or it has none (the fifth column of R250). -/
def State.tableGuard (s : State) (id : Nat) : Bool :=
  if id ≤ 2 then true
  else if id ≤ 6 then s.enc.treeValid
  else if id ≤ 12 then s.dec.treeValid
  else true

/-- The scalar registers of table 13 (R250). -/
def State.scalar (s : State) : Nat → Nat
  | 0 => s.enc.root.toNat
  | 1 => s.enc.next.toNat
  | 2 => s.dec.count.toNat
  | 3 => s.pay.outPtr.toNat
  | 4 => s.pay.outEnd.toNat
  | 5 => s.br.ptr.toNat
  | 6 => s.br.stop.toNat
  | 7 => s.bw.ptr.toNat
  | _ => s.bw.stop.toNat

/-- The value of R250, zero-extended; a field is read as its bit pattern. -/
def State.tableValue (s : State) (i : Nat) : Nat → Nat
  | 0 => (s.enc.symAt i).count.toNat
  | 1 => (s.enc.symAt i).code.toNat
  | 2 => (s.enc.symAt i).bits.toNat
  | 3 => (s.enc.nodeAt i).count.toNat
  | 4 => (s.enc.nodeAt i).symbol.toNat
  | 5 => (s.enc.nodeAt i).childA.toNat
  | 6 => (s.enc.nodeAt i).childB.toNat
  | 7 => (s.dec.nodeAt i).symbol.toNat
  | 8 => (s.dec.nodeAt i).childA.toNat
  | 9 => (s.dec.nodeAt i).childB.toNat
  | 10 => (s.dec.lutAt i).node.toNat
  | 11 => (s.dec.lutAt i).symbol.toNat
  | 12 => (s.dec.lutAt i).bits.toNat
  | _ => s.scalar i

/-- `TBL_READ table, index` (R251). -/
def execTblRead (s : State) : Host.Outcome State Fault Refusal :=
  .next (s.checked (s.arg0 ≤ 13 ∧ s.arg1 < s.tableSize s.arg0 ∧ s.tableGuard s.arg0 = true) fun s =>
    s.finishOk (s.tableValue s.arg1 s.arg0) 0)

/-- `SYM[index].count <- value`, and the encoder's flags are cleared (R252). -/
def Encoder.writeCount (e : Encoder) (i value : Nat) : Encoder :=
  { e.dropFlags with sym := e.sym.modify i fun x => { x with count := BitVec.ofNat 32 value } }

/-- `TBL_WRITE table, index, value` (R252). -/
def execTblWrite (s : State) : Host.Outcome State Fault Refusal :=
  .next (s.checked (s.arg0 = 0 ∧ s.arg1 ≤ 260 ∧ s.arg2 ≤ 4294967295) fun s =>
    ({ s with enc := s.enc.writeCount s.arg1 s.arg2 } : State).finishOk 0 0)

end Sys2Proof.Machine
end

