-- ==== Sys2Proof/Machine/Dispatch.lean ====
section
/-! DEFINITION. The dispatch: one arm per command, each one call of its meaning (`spec/30_encoding.md` R81). -/

namespace Sys2Proof.Machine

def exec (i : Instr) (s : State) : Host.Outcome State Fault Refusal :=
  match i with
  | .maxsize => Sys2Proof.Machine.execMaxsize s
  | .encode => Sys2Proof.Machine.execEncode s
  | .verify => Sys2Proof.Machine.execVerify s
  | .decode => Sys2Proof.Machine.execDecode s
  | .crc32c => Sys2Proof.Machine.execCrc32c s
  | .brNew => Sys2Proof.Machine.execBrNew s
  | .brReadBit => Sys2Proof.Machine.execBrReadBit s
  | .brReadBits => Sys2Proof.Machine.execBrReadBits s
  | .brPeek8 => Sys2Proof.Machine.execBrPeek8 s
  | .brAdvance => Sys2Proof.Machine.execBrAdvance s
  | .brReadBitChk => Sys2Proof.Machine.execBrReadBitChk s
  | .brReadBitsChk => Sys2Proof.Machine.execBrReadBitsChk s
  | .brAdvanceChk => Sys2Proof.Machine.execBrAdvanceChk s
  | .brAdvanceBytesChk => Sys2Proof.Machine.execBrAdvanceBytesChk s
  | .brAtEnd => Sys2Proof.Machine.execBrAtEnd s
  | .bwNew => Sys2Proof.Machine.execBwNew s
  | .bwWriteBits => Sys2Proof.Machine.execBwWriteBits s
  | .bwForceFlush => Sys2Proof.Machine.execBwForceFlush s
  | .histogram => Sys2Proof.Machine.execHistogram s
  | .treeBuild => Sys2Proof.Machine.execTreeBuild s
  | .treeEmit => Sys2Proof.Machine.execTreeEmit s
  | .treeRecover => Sys2Proof.Machine.execTreeRecover s
  | .symEmit => Sys2Proof.Machine.execSymEmit s
  | .symDecode => Sys2Proof.Machine.execSymDecode s
  | .huffDecode => Sys2Proof.Machine.execHuffDecode s
  | .blockEncode => Sys2Proof.Machine.execBlockEncode s
  | .blockDecode => Sys2Proof.Machine.execBlockDecode s
  | .blockVerify => Sys2Proof.Machine.execBlockVerify s
  | .tblRead => Sys2Proof.Machine.execTblRead s
  | .tblWrite => Sys2Proof.Machine.execTblWrite s

end Sys2Proof.Machine
end

