-- ==== Sys2Proof/WellFormed.lean ====
section
/-! DEFINITION. Which lines of the notation are well formed (`spec/30_encoding.md` R81, R98). A command by itself is
always well formed: it carries nothing that could be wrong; its operands are checked when it runs (R82). -/

namespace Sys2Proof

/-- How many operands a command has, in the order `ARG0`, `ARG1`, `ARG2` (the columns of R81). -/
def Instr.arity : Instr → Nat
  | .maxsize => 1
  | .encode => 0
  | .verify => 0
  | .decode => 0
  | .crc32c => 3
  | .brNew => 2
  | .brReadBit => 0
  | .brReadBits => 1
  | .brPeek8 => 0
  | .brAdvance => 1
  | .brReadBitChk => 0
  | .brReadBitsChk => 1
  | .brAdvanceChk => 1
  | .brAdvanceBytesChk => 1
  | .brAtEnd => 0
  | .bwNew => 2
  | .bwWriteBits => 2
  | .bwForceFlush => 0
  | .histogram => 2
  | .treeBuild => 0
  | .treeEmit => 0
  | .treeRecover => 0
  | .symEmit => 2
  | .symDecode => 2
  | .huffDecode => 2
  | .blockEncode => 3
  | .blockDecode => 3
  | .blockVerify => 1
  | .tblRead => 2
  | .tblWrite => 3

/-- A store of `n` bytes from address `a` upward stays inside the 64-bit address space (R38, R98). -/
def storeFits (a : Word) (n : Nat) : Bool := a.toNat + n ≤ 2 ^ 64

/-- The checks on a line: a command has exactly its operands (R98), a store stays inside the address space. -/
def AsmLine.wf : AsmLine → Bool
  | .command i ops => ops.length == i.arity
  | .w _ _ => true
  | .r _ => true
  | .inBytes a bs => storeFits a bs.length
  | .outBytes a bs => storeFits a bs.length
  | .setin _ => true
  | .setout _ => true

end Sys2Proof
end

