-- ==== Sys2Proof/Decode.lean ====
section
/-! DEFINITION. The command codes (`spec/30_encoding.md` R80, R81, R83), the register offsets (`spec/10_state.md` R20),
and the assembly of the notation of R98 and R99 into host actions. -/

namespace Sys2Proof

/-- Why a value written to `CMD` names no command (R83). -/
inductive DecodeError where
  /-- The code, bits 7:0 of the value, is one of the 226 that R81 does not list. -/
  | illegalCode (code : Nat)
  deriving DecidableEq, Repr

/-- The decoder: the command that a value written to `CMD` issues. Only bits 7:0 count; "Bits 63:8 of the written value
are ignored" (R21). -/
def decode (v : Word) : Except DecodeError Instr :=
  match v.toNat % 256 with
  | 0x01 => .ok .maxsize
  | 0x02 => .ok .encode
  | 0x03 => .ok .verify
  | 0x04 => .ok .decode
  | 0x05 => .ok .crc32c
  | 0x10 => .ok .brNew
  | 0x11 => .ok .brReadBit
  | 0x12 => .ok .brReadBits
  | 0x13 => .ok .brPeek8
  | 0x14 => .ok .brAdvance
  | 0x15 => .ok .brReadBitChk
  | 0x16 => .ok .brReadBitsChk
  | 0x17 => .ok .brAdvanceChk
  | 0x18 => .ok .brAdvanceBytesChk
  | 0x19 => .ok .brAtEnd
  | 0x20 => .ok .bwNew
  | 0x21 => .ok .bwWriteBits
  | 0x22 => .ok .bwForceFlush
  | 0x30 => .ok .histogram
  | 0x31 => .ok .treeBuild
  | 0x32 => .ok .treeEmit
  | 0x33 => .ok .treeRecover
  | 0x34 => .ok .symEmit
  | 0x35 => .ok .symDecode
  | 0x36 => .ok .huffDecode
  | 0x40 => .ok .blockEncode
  | 0x41 => .ok .blockDecode
  | 0x42 => .ok .blockVerify
  | 0x50 => .ok .tblRead
  | 0x51 => .ok .tblWrite
  | code => .error (.illegalCode code)

/-- The instruction the decoder reads from a table word: the bits above `nbits` are 0. -/
def decodeTableWord (nbits w : Nat) : Option Instr :=
  match decode (BitVec.ofNat 64 (w % 2 ^ nbits)) with
  | .ok i => some i
  | .error _ => none

/-- The code of a command (R81). -/
def Instr.code : Instr → Byte
  | .maxsize => 0x01#8
  | .encode => 0x02#8
  | .verify => 0x03#8
  | .decode => 0x04#8
  | .crc32c => 0x05#8
  | .brNew => 0x10#8
  | .brReadBit => 0x11#8
  | .brReadBits => 0x12#8
  | .brPeek8 => 0x13#8
  | .brAdvance => 0x14#8
  | .brReadBitChk => 0x15#8
  | .brReadBitsChk => 0x16#8
  | .brAdvanceChk => 0x17#8
  | .brAdvanceBytesChk => 0x18#8
  | .brAtEnd => 0x19#8
  | .bwNew => 0x20#8
  | .bwWriteBits => 0x21#8
  | .bwForceFlush => 0x22#8
  | .histogram => 0x30#8
  | .treeBuild => 0x31#8
  | .treeEmit => 0x32#8
  | .treeRecover => 0x33#8
  | .symEmit => 0x34#8
  | .symDecode => 0x35#8
  | .huffDecode => 0x36#8
  | .blockEncode => 0x40#8
  | .blockDecode => 0x41#8
  | .blockVerify => 0x42#8
  | .tblRead => 0x50#8
  | .tblWrite => 0x51#8

/-- The encoder: the value that, written to `CMD`, issues a command, its upper bits 0 (R80, R81). -/
def encode (i : Instr) : Word := i.code.setWidth 64

/-- The byte offset of a register (the table of R20). -/
def PortReg.offset : PortReg → Nat
  | .cmd => 0x00
  | .status => 0x08
  | .inLen => 0x10
  | .outCap => 0x18
  | .arg0 => 0x20
  | .arg1 => 0x28
  | .arg2 => 0x30
  | .arg3 => 0x38
  | .res0 => 0x40
  | .res1 => 0x48

/-- The register at a byte offset, none at an offset other than the ten of R20. -/
def PortReg.ofOffset : Nat → Option PortReg
  | 0x00 => some .cmd
  | 0x08 => some .status
  | 0x10 => some .inLen
  | 0x18 => some .outCap
  | 0x20 => some .arg0
  | 0x28 => some .arg1
  | 0x30 => some .arg2
  | 0x38 => some .arg3
  | 0x40 => some .res0
  | 0x48 => some .res1
  | _ => none

/-- The stores of a row of bytes from an address upward, lowest address first (R98). -/
def storeActions (store : Word → Byte → HostAction) : Word → List Byte → List HostAction
  | _, [] => []
  | a, b :: bs => store a b :: storeActions store (a + 1#64) bs

/-- The register writes of a line's operands, in the order `ARG0`, `ARG1`, `ARG2` (R98). A line has no fourth operand. -/
def operandWrites : List PortReg → List Word → List HostAction
  | r :: rs, v :: vs => .write r v :: operandWrites rs vs
  | _, _ => []

/-- A line of the notation as the host actions it stands for: a command line is "the register writes `W ARG0, v0;
W ARG1, v1; W ARG2, v2; W CMD, code`, leaving out the `ARG` writes for operands the command does not have" (R98);
`SETIN`, `SETOUT` are writes of `IN_LEN`, `OUT_CAP` (R99). -/
def AsmLine.assemble : AsmLine → List HostAction
  | .command i ops => operandWrites [.arg0, .arg1, .arg2] ops ++ [.write .cmd (encode i)]
  | .w q v => [.write q v]
  | .r q => [.read q]
  | .inBytes a bs => storeActions .storeIn a bs
  | .outBytes a bs => storeActions .storeOut a bs
  | .setin n => [.write .inLen n]
  | .setout n => [.write .outCap n]

/-- A program: its lines, one after the other. -/
def assemble (ls : List AsmLine) : List HostAction := ls.flatMap AsmLine.assemble

/-- The operands at the head of a list of host actions: as many writes to the given registers, in their order, as stand
there, and what follows them. -/
def readOperands : List PortReg → List HostAction → List Word × List HostAction
  | r :: rs, .write q v :: acts =>
    if q = r then
      let (vs, rest) := readOperands rs acts
      (v :: vs, rest)
    else ([], .write q v :: acts)
  | _, acts => ([], acts)

/-- The inverse of `AsmLine.assemble` on command lines: the command line at the head of a list of host actions, with what
follows it. None where the operand writes are not those of the command (R98). -/
def readCommandLine (acts : List HostAction) : Option (Instr × List Word × List HostAction) :=
  match readOperands [.arg0, .arg1, .arg2] acts with
  | (ops, .write .cmd v :: rest) =>
    match decode v with
    | .ok i => if ops.length = i.arity then some (i, ops, rest) else none
    | .error _ => none
  | _ => none

end Sys2Proof
end

