-- ==== Sys2Proof/Machine/HostPort.lean ====
section
/-! DEFINITION. The host's side: how one action of the host is served (`spec/10_state.md` R20, R21; `spec/20_memory.md`
R67; `spec/70_reset_and_hazards.md` R285). -/

namespace Sys2Proof.Machine

/-- The meaning of the commands: `exec`, or `execWith crc` where `crc32c` is an argument (R6). -/
abbrev Runner : Type := Instr → State → Host.Outcome State Fault Refusal

/-- A value written to `CMD`: the command of its low 8 bits runs; a code that names no command fails `ILLEGAL` and changes
nothing else (R21, R83). -/
def State.runCommand (s : State) (run : Runner) (v : Word) : Host.Outcome State Fault Refusal :=
  match decode v with
  | .ok i => run i s
  | .error _ => .next (s.failWith .illegal)

/-- The span of `OUT` a command writes when it is accepted, and none when it is refused (R82). -/
def spanIf (p : Prop) [Decidable p] (r : Nat × Nat) : Nat × Nat := if p then r else (0, 0)

/-- The bytes the writer stores on its way from `s` to `t`: `BW_PTR` moves past each byte as it is stored (R132, R133). -/
def State.flushedSpan (s t : State) : Nat × Nat := (s.bw.ptr.toNat, t.bw.ptr.toNat)

/-- The addresses of `OUT`, from the first up to and without the second, that a command may write: none for a command that
is refused before it writes; the ranges of R266 for the decode and encode commands; the bytes of the one token for
`SYM_DECODE` (R186); the bytes the writer flushes for the commands that write through it (R61). -/
def State.writeSpan (s : State) : Instr → Nat × Nat
  | .maxsize => (0, 0)
  | .encode => spanIf (s.inLen ≤ Config.maxInput ∧ Config.masterHdr ≤ s.outCap) (0, s.outCap)
  | .verify => (0, 0)
  | .decode => spanIf (Config.masterHdr ≤ s.inLen ∧ s.announced ≤ s.outCap) (0, s.announced)
  | .crc32c => (0, 0)
  | .brNew => (0, 0)
  | .brReadBit => (0, 0)
  | .brReadBits => (0, 0)
  | .brPeek8 => (0, 0)
  | .brAdvance => (0, 0)
  | .brReadBitChk => (0, 0)
  | .brReadBitsChk => (0, 0)
  | .brAdvanceChk => (0, 0)
  | .brAdvanceBytesChk => (0, 0)
  | .brAtEnd => (0, 0)
  | .bwNew => (0, 0)
  | .bwWriteBits => spanIf (bitCountOk s.arg1) (s.flushedSpan (s.bwWriteBits s.arg0 s.arg1))
  | .bwForceFlush => s.flushedSpan s.bwForceFlush
  | .histogram => (0, 0)
  | .treeBuild => (0, 0)
  | .treeEmit => spanIf s.treeEmitOk (s.flushedSpan s.treeEmit)
  | .treeRecover => (0, 0)
  | .symEmit => spanIf s.symEmitOk (s.flushedSpan (s.symEmit s.arg0 s.arg1))
  | .symDecode => spanIf s.payloadOk (s.arg0, ((s.setOut s.arg0 s.arg1).decodeOne).state.pay.outPtr.toNat)
  | .huffDecode => spanIf s.payloadOk (s.arg0, s.arg1)
  | .blockEncode => spanIf (s.blockEncodeOk ∧ s.arg2 + 8 ≤ s.outCap) (s.arg2, s.outCap)
  | .blockDecode => spanIf s.blockDecodeOk (s.arg1, s.arg1 + s.arg2)
  | .blockVerify => (0, 0)
  | .tblRead => (0, 0)
  | .tblWrite => (0, 0)

/-- A reset that arrives while the command of a written value runs: it "abandons the command; the registers take their
reset values and the bytes of `OUT` the command was writing hold any value" (R285; log 10). -/
def State.abandon (s : State) (v : Word) : State :=
  match decode v with
  | .ok i => (s.forgetOut (s.writeSpan i).1 (s.writeSpan i).2).resetEngine
  | .error _ => s.resetEngine

/-- One action of the host, or of the platform, served (R20, R21, R67, R285). -/
def State.serve (s : State) (run : Runner) : HostAction → Host.Outcome State Fault Refusal
  | .write .cmd v => s.runCommand run v
  | .write r v => .next (s.writePort v r)
  | .read r => .next { s with readData := s.readPort r }
  | .storeIn a b => .next { s with input := s.input.write a.toNat b }
  | .storeOut a b => .next { s with output := s.output.write a.toNat b }
  | .loadIn a => .next { s with readData := (s.inByte a.toNat).setWidth 64 }
  | .loadOut a => .next { s with readData := (s.outByte a.toNat).setWidth 64 }
  | .reset => .next s.resetEngine
  | .abandon v => .next (s.abandon v)

/-- The oldest pending action is taken and served; with none the engine waits, and "waiting has no state of its own"
(R286, R281; log 1). -/
def State.serveNext (s : State) (run : Runner) : Host.Outcome State Fault Refusal :=
  match s.pending with
  | [] => .next s
  | a :: rest => State.serve { s with pending := rest } run a

end Sys2Proof.Machine
end

