-- ==== Sys2Proof/Machine/Parameter.lean ====
section
/-! DEFINITION. The commands with `crc32c` as an argument (`spec/00_scope.md` R6, R7; `spec/10_state.md` R42; D32). Five
commands use the function; the others are the same whatever it is. `exec` is this at the default instance. -/

namespace Sys2Proof.Machine

/-- A command of the machine whose `crc32c` is `crc`: "`step : State × Command → State` (with the `crc32c` parameter)"
(R6, R42). -/
def execWith (crc : CrcFn) (i : Instr) (s : State) : Host.Outcome State Fault Refusal :=
  match i with
  | .maxsize => execMaxsize s
  | .encode => execEncodeWith crc s
  | .verify => execVerifyWith crc s
  | .decode => execDecode s
  | .crc32c => execCrc32cWith crc s
  | .brNew => execBrNew s
  | .brReadBit => execBrReadBit s
  | .brReadBits => execBrReadBits s
  | .brPeek8 => execBrPeek8 s
  | .brAdvance => execBrAdvance s
  | .brReadBitChk => execBrReadBitChk s
  | .brReadBitsChk => execBrReadBitsChk s
  | .brAdvanceChk => execBrAdvanceChk s
  | .brAdvanceBytesChk => execBrAdvanceBytesChk s
  | .brAtEnd => execBrAtEnd s
  | .bwNew => execBwNew s
  | .bwWriteBits => execBwWriteBits s
  | .bwForceFlush => execBwForceFlush s
  | .histogram => execHistogram s
  | .treeBuild => execTreeBuild s
  | .treeEmit => execTreeEmit s
  | .treeRecover => execTreeRecover s
  | .symEmit => execSymEmit s
  | .symDecode => execSymDecode s
  | .huffDecode => execHuffDecode s
  | .blockEncode => execBlockEncodeWith crc s
  | .blockDecode => execBlockDecode s
  | .blockVerify => execBlockVerifyWith crc s
  | .tblRead => execTblRead s
  | .tblWrite => execTblWrite s

end Sys2Proof.Machine
end

