-- ==== Sys2Proof/Machine/Step.lean ====
section
/-! DEFINITION. One step: one action of the host is served (`spec/00_scope.md` R6). -/

namespace Sys2Proof.Machine

/-- One step of the machine (R6, R20; log 1), with the default instance of `crc32c` (log 7). -/
def step (s : State) : Host.Outcome State Fault Refusal := s.serveNext exec

/-- One step of the machine whose `crc32c` is `crc`: "a function `step : State × Command → State` (with the `crc32c`
parameter)" (R6, R7, D32). -/
def stepWith (crc : CrcFn) (s : State) : Host.Outcome State Fault Refusal := s.serveNext (execWith crc)

/-- The machine for any `crc32c`: "the one parameter a model takes as an argument" (R7). -/
def coreWith (crc : CrcFn) : Host.Core where
  State := State
  Fault := Fault
  Refusal := Refusal
  step := stepWith crc
  reset := State.reset

/-- The state in which the very next step is the host's write of the table word `w` to `CMD` (R21): that write stands
before every other pending action. Log 1. -/
def State.withFetchWord (s : State) (nbits w : Nat) : State :=
  { s with pending := .write .cmd (BitVec.ofNat 64 (w % 2 ^ nbits)) :: s.pending }

end Sys2Proof.Machine
end

