-- ==== Sys2Proof/Format.lean ====
section
/-! DEFINITION. The wire format as data (`spec/30_encoding.md` R91 to R96), and what it means that a stream, a table or a
span of memory holds it: the terms in which the statements speak of the reader's stream, the writer's stream and trees. -/

namespace Sys2Proof.Machine

/-! ### Bit strings -/

/-- The low `n` bits of `v`, lowest first (R9). -/
def bitsOf (v n : Nat) : List Bool := (List.range n).map v.testBit

/-- The value of a bit string, its first bit lowest (R9). -/
def bitsValue : List Bool → Nat
  | [] => 0
  | b :: bs => b.toNat + 2 * bitsValue bs

/-- The stream of the reader's range holds these bits at bit position `q`, all of them in the range (R9, R110). -/
abbrev State.hasBits (s : State) (q : Nat) (bits : List Bool) : Prop :=
  q + bits.length ≤ s.br.limit ∧ (List.range bits.length).map (fun i => s.sbit (q + i)) = bits

/-- Bit `q` of `OUT` taken as a bit stream (R9). -/
def State.outBit (s : State) (q : Nat) : Bool := (s.outByte (q / 8)).getLsbD (q % 8)

/-- Bit `q` of what has been written through the writer: in `OUT` below `BW_PTR`, pending in `BW_CACHE` from there on
(R130). -/
def State.writtenBit (s : State) (q : Nat) : Bool :=
  if q < 8 * s.bw.ptr.toNat then s.outBit q else s.bw.cache.getLsbD (q - 8 * s.bw.ptr.toNat)

/-- From `s` to `t` the writer has appended these bits to its stream and nothing else: the position moved past them, the
bits before it are as they were, no byte of `OUT` other than the ones completed has changed (R130, R132). -/
abbrev State.appended (s t : State) (bits : List Bool) : Prop :=
  t.bw.fail = false ∧ t.bw.stop = s.bw.stop ∧ 8 * t.bw.ptr.toNat + t.bw.bitpos.toNat =
    8 * s.bw.ptr.toNat + s.bw.bitpos.toNat + bits.length ∧ t.bw.bitpos.toNat ≤ 7 ∧
  (∀ q < 8 * s.bw.ptr.toNat + s.bw.bitpos.toNat, t.writtenBit q = s.writtenBit q) ∧
  (List.range bits.length).map (fun i => t.writtenBit (8 * s.bw.ptr.toNat + s.bw.bitpos.toNat + i)) = bits ∧
  ∀ a, a < s.bw.ptr.toNat ∨ t.bw.ptr.toNat ≤ a → t.outByte a = s.outByte a

/-! ### Trees -/

/-- A prefix-code tree: the grammar of R91. -/
inductive HTree where
  | leaf (sym : Nat)
  | node (a b : HTree)
  deriving DecidableEq, Repr

/-- The number of nodes. -/
def HTree.nodes : HTree → Nat
  | .leaf _ => 1
  | .node a b => 1 + a.nodes + b.nodes

/-- The description of a tree: in preorder, a flag bit for each node and 9 bits for each leaf (R91). -/
def HTree.describe : HTree → List Bool
  | .leaf x => true :: bitsOf x Config.symbolBits
  | .node a b => false :: (a.describe ++ b.describe)

/-- The leaves in preorder: each symbol with the branches that lead to it from the root, child B as `true` (R94). -/
def HTree.paths : HTree → List (Nat × List Bool)
  | .leaf x => [(x, [])]
  | .node a b => a.paths.map (fun p => (p.1, false :: p.2)) ++ b.paths.map (fun p => (p.1, true :: p.2))

/-- The code of each leaf as the encoder gives it: the branches that lead to it, and the one bit 0 for the leaf of a
single-leaf tree (R151, R153). -/
def HTree.codes : HTree → List (Nat × List Bool)
  | .leaf x => [(x, [false])]
  | .node a b => (HTree.node a b).paths

/-- The symbols of the leaves, in preorder. -/
def HTree.symbols : HTree → List Nat
  | .leaf x => [x]
  | .node a b => a.symbols ++ b.symbols

/-- The depth of the deepest leaf. -/
def HTree.depth : HTree → Nat
  | .leaf _ => 0
  | .node a b => 1 + max a.depth b.depth

/-- A description the decoder accepts: symbols 0..260, at most 521 nodes (R92, R159). -/
abbrev HTree.legal (t : HTree) : Prop := (∀ x ∈ t.symbols, x ≤ 260) ∧ t.nodes ≤ Config.maxTreeNodes

/-- A tree whose description has been read up to the start of a node (R155): the way from the root to that node, and the
left subtrees already read. -/
inductive OpenTree where
  /-- The node comes next. -/
  | here
  /-- It lies in child A of this node. -/
  | inA (rest : OpenTree)
  /-- It lies in child B of this node, whose child A has been read. -/
  | inB (a : HTree) (rest : OpenTree)
  deriving DecidableEq, Repr

/-- The number of nodes read. -/
def OpenTree.nodes : OpenTree → Nat
  | .here => 0
  | .inA o => 1 + o.nodes
  | .inB a o => 1 + a.nodes + o.nodes

/-- The bits read (R91). -/
def OpenTree.describe : OpenTree → List Bool
  | .here => []
  | .inA o => false :: o.describe
  | .inB a o => false :: (a.describe ++ o.describe)

/-- The symbols of the leaves read, in preorder. -/
def OpenTree.symbols : OpenTree → List Nat
  | .here => []
  | .inA o => o.symbols
  | .inB a o => a.symbols ++ o.symbols

/-- What stands in the stream for a leaf: the branches that lead to it, or one bit of either value for the leaf of a
single-leaf tree (R94, R153). -/
def HTree.sends (t : HTree) (x : Nat) (code : List Bool) : Prop :=
  match t with
  | .leaf y => x = y ∧ code.length = 1
  | .node a b => (x, code) ∈ (HTree.node a b).paths

/-- The bits a code takes in all when each symbol occurs as often as its count says (R145 (c)). -/
def HTree.cost (t : HTree) (count : Nat → Nat) : Nat := (t.paths.map fun p => count p.1 * p.2.length).sum

/-- `DNODE` holds a tree in preorder from entry `n` on (R34, R155, R161 (a)). -/
def Decoder.holds (d : Decoder) : HTree → Nat → Prop
  | .leaf x, n => d.nodeAt n = ⟨BitVec.ofNat 16 x, Config.none16, Config.none16⟩
  | .node a b, n =>
    d.nodeAt n = ⟨internalSymbol, BitVec.ofNat 16 (n + 1), BitVec.ofNat 16 (n + 1 + a.nodes)⟩ ∧
    d.holds a (n + 1) ∧ d.holds b (n + 1 + a.nodes)

/-- `ENODE` holds a tree whose root is entry `n` (R33, R142). -/
def Encoder.holds (e : Encoder) : HTree → Nat → Prop
  | .leaf x, n => (e.nodeAt n).symbol = BitVec.ofNat 16 x ∧ x ≤ 260
  | .node a b, n =>
    (e.nodeAt n).symbol = internalSymbol ∧
    e.holds a (e.nodeAt n).childA.toNat ∧ e.holds b (e.nodeAt n).childB.toNat

/-! ### Tokens -/

/-- A token the format allows: its suffix is exactly the bits the table gives its symbol (R93). -/
abbrev Token.legal (t : Token) : Prop := t.sym ≤ 260 ∧ t.k = suffixBits t.sym ∧ t.suffix < 2 ^ t.k

/-- The bytes a token stands for (R93, R174). -/
def Token.bytes (t : Token) : List Byte :=
  if t.sym ≤ 255 then [BitVec.ofNat 8 t.sym] else List.replicate (t.suffix + runBase t.sym) 0#8

/-- A token stands for zero bytes only: the zero class (R176). -/
abbrev Token.isZeros (t : Token) : Prop := t.sym = 0 ∨ 256 ≤ t.sym

/-- A row of tokens is the greedy one: a run of zeros goes on in a second token only where the first is full (R171). -/
def greedyTokens : List Token → Prop
  | x :: y :: ts => (x.isZeros → y.isZeros → x.bytes.length = Config.maxRun) ∧ greedyTokens (y :: ts)
  | _ => True

/-- What stands in the stream for a token under the codes in `SYM`: the code, then the suffix (R173). -/
def Encoder.tokenBits (e : Encoder) (t : Token) : List Bool :=
  bitsOf (e.symAt t.sym).code.toNat (e.symAt t.sym).bits.toNat ++ bitsOf t.suffix t.k

/-- A bit string is a row of tokens under a tree: for each, a code of its symbol and then its suffix (R95). -/
def HTree.encodes (t : HTree) : List Token → List Bool → Prop
  | [], bits => bits = []
  | x :: xs, bits =>
    ∃ code rest, t.sends x.sym code ∧ t.encodes xs rest ∧ bits = code ++ (bitsOf x.suffix x.k ++ rest)

end Sys2Proof.Machine
end

