-- ==== Sys2Proof/Safety.lean ====
section
/-! DEFINITION. What a good state is, in the terms the statements use: the invariants the spec gives the units, and the
table of which command fails with which kind. -/

namespace Sys2Proof.Machine

/-- The reader between operations (R110): `BR_BITPOS ≤ 7` and `P ≤ LIMIT`, hence `BR_PTR ≤ BR_END`. -/
abbrev Reader.ok (r : Reader) : Prop := r.bitpos.toNat ≤ 7 ∧ r.pos ≤ r.limit

/-- The last clause of R110, `BR_CACHE = load4(BR_PTR)`: the cache is a fresh copy of `IN`. It ends when the host rewrites
those bytes (R291). -/
abbrev State.cacheFresh (s : State) : Prop := s.br.cache = s.load4 s.br.ptr.toNat

/-- The writer between operations (R130): `BW_BITPOS ≤ 7`, the bits of `BW_CACHE` at and above `BW_BITPOS` are 0, and
`BW_PTR ≤ BW_END`. -/
abbrev Writer.ok (w : Writer) : Prop :=
  w.bitpos.toNat ≤ 7 ∧ w.cache.toNat < 2 ^ w.bitpos.toNat ∧ w.ptr.toNat ≤ w.stop.toNat

/-- The writer's stream position (R130). -/
def Writer.pos (w : Writer) : Nat := 8 * w.ptr.toNat + w.bitpos.toNat

/-- The encoder's tables have their sizes, `ENC_NEXT` is in 261..521 (R32, R33), and every code fits its length,
`code < 2^bits`, `bits ≤ 32` (R32, U8). -/
abbrev Encoder.ok (e : Encoder) : Prop :=
  e.sym.length = Config.nsym ∧ e.enode.length = Config.maxTreeNodes ∧
  (261 ≤ e.next.toNat ∧ e.next.toNat ≤ Config.maxTreeNodes) ∧
  ∀ x ∈ e.sym, x.bits.toNat ≤ Config.maxCodeBits ∧ x.code.toNat < 2 ^ x.bits.toNat

/-- The decoder's tables have their sizes and `DEC_COUNT` is in 0..521 (R34, R35). -/
abbrev Decoder.ok (d : Decoder) : Prop :=
  d.dnode.length = Config.maxTreeNodes ∧ d.lut.length = Config.lutSize ∧ d.count.toNat ≤ Config.maxTreeNodes

/-- A leaf of a recovered tree: symbol 0..260, no children (R161 (a)). -/
abbrev DNode.leafOk (x : DNode) : Prop :=
  x.symbol.toNat ≤ 260 ∧ x.childA = Config.none16 ∧ x.childB = Config.none16

/-- Node `n` of a recovered tree of `count` nodes is internal: child A is `n + 1`, child B comes later (R161 (a)). -/
abbrev DNode.innerOk (x : DNode) (n count : Nat) : Prop :=
  x.symbol = internalSymbol ∧ x.childA.toNat = n + 1 ∧ n + 1 < x.childB.toNat ∧ x.childB.toNat < count

/-- Every node in use is a leaf, or an internal node whose children lie behind it and in use (R161 (a)). -/
abbrev Decoder.nodesOk (d : Decoder) : Prop :=
  1 ≤ d.count.toNat ∧
  ∀ n < d.count.toNat, (d.nodeAt n).leafOk ∨ (d.nodeAt n).innerOk n d.count.toNat

/-- Every entry of the lookup table is one that recovery writes (R161 (c)): terminal with a symbol 0..260 and 1 to 8 bits,
or a jump to an internal node after 8 bits. -/
abbrev Decoder.lutOk (d : Decoder) : Prop :=
  ∀ i < Config.lutSize,
    ((d.lutAt i).node = Config.none16 ∧ (d.lutAt i).symbol.toNat ≤ 260 ∧
      1 ≤ (d.lutAt i).bits.toNat ∧ (d.lutAt i).bits.toNat ≤ 8) ∨
    ((d.lutAt i).node.toNat < d.count.toNat ∧ (d.nodeAt (d.lutAt i).node.toNat).symbol = internalSymbol ∧
      (d.lutAt i).symbol = 0#9 ∧ (d.lutAt i).bits = 8#4)

/-- The nodes in use are exactly those of one tree the format allows, in preorder from entry 0 on (R161 (a), R159, R160). -/
abbrev Decoder.holdsLegal (d : Decoder) : Prop :=
  ∃ tree : HTree, tree.legal ∧ d.holds tree 0 ∧ d.count.toNat = tree.nodes

/-- While `DEC_TREE_VALID` is 1 the decoder holds a whole tree and a whole table (R36, R161). -/
abbrev Decoder.treeOk (d : Decoder) : Prop := d.treeValid = true → d.holdsLegal ∧ d.nodesOk ∧ d.lutOk

/-- The branch that bit `depth` of `key` takes at a node (R94): child A on 0, child B on 1. -/
def DNode.branch (x : DNode) (key depth : Nat) : Nat :=
  if key.testBit depth then x.childB.toNat else x.childA.toNat

/-- What the eight branches of an 8-bit index come to, followed from node `n` at depth `depth`: the leaf met on the way,
with `max(depth, 1)` bits, or the internal node at depth 8 (R156, R157, R161 (b)). -/
def Decoder.follow (d : Decoder) (key : Nat) : Nat → Nat → Nat → LutEntry
  | 0, n, depth =>
    if isLeafSymbol (d.nodeAt n).symbol then
      ⟨Config.none16, (d.nodeAt n).symbol.setWidth 9, BitVec.ofNat 4 (max depth 1)⟩
    else ⟨BitVec.ofNat 16 n, 0#9, 8#4⟩
  | fuel + 1, n, depth =>
    if isLeafSymbol (d.nodeAt n).symbol then
      ⟨Config.none16, (d.nodeAt n).symbol.setWidth 9, BitVec.ofNat 4 (max depth 1)⟩
    else d.follow key fuel ((d.nodeAt n).branch key depth) (depth + 1)

/-- The lookup table says of every 8-bit index what the tree says of its eight branches (R161 (b)). -/
abbrev Decoder.lutAgrees (d : Decoder) : Prop :=
  ∀ i < Config.lutSize, d.lutAt i = d.follow i 8 0 0

/-- Between commands `DEC_STATE` is Idle, Completed or Error (R190). -/
abbrev DecState.resting (d : DecState) : Prop := d = .idle ∨ d = .completed ∨ d = .error

/-- The outcome of a command that ends ok, with its two results (R13, R25, R260). -/
def Result.okOf (r0 r1 : Nat) : Result := ⟨false, .none, BitVec.ofNat 64 r0, BitVec.ofNat 64 r1⟩

/-- The outcome of a command that fails (R260). -/
def Result.failed (k : Kind) : Result := ⟨true, k, 0#64, 0#64⟩

/-- All the bytes of a row are the same (R201). -/
abbrev constantBytes (bs : List Byte) : Prop := ∃ v, bs = List.replicate bs.length v

/-- The position past `k` blocks that stand one after another in `IN` from `p` on (R84, R86). -/
def State.blocksEnd (s : State) : Nat → Nat → Nat
  | 0, p => p
  | k + 1, p => s.blocksEnd k (p + 7 + (readLE s.inByte p 2 + 1))

/-- `k` blocks stand one after another in `IN` from `p` on, each whole, of a known mode and with the right CRC (R84 to
R87, R215, R216). -/
def State.blocksSound (s : State) (crc : CrcFn) : Nat → Nat → Prop
  | 0, _ => True
  | k + 1, p =>
    p + 7 + (readLE s.inByte p 2 + 1) ≤ s.inLen ∧ readLE s.inByte (p + 6) 1 ≤ 2 ∧
    (crc (readList s.inByte (p + 7) (readLE s.inByte p 2 + 1))).toNat = readLE s.inByte (p + 2) 4 ∧
    s.blocksSound crc k (p + 7 + (readLE s.inByte p 2 + 1))

/-- The commands that may change the bit reader (R26, R29, R294). -/
def readerCommands : List Instr :=
  [.brNew, .brReadBit, .brReadBits, .brAdvance, .brReadBitChk, .brReadBitsChk, .brAdvanceChk, .brAdvanceBytesChk,
   .treeRecover, .symDecode, .huffDecode, .blockDecode, .decode]

/-- The commands that may change the bit writer (R26, R30, R294). -/
def writerCommands : List Instr := [.bwNew, .bwWriteBits, .bwForceFlush, .treeEmit, .symEmit, .blockEncode, .encode]

/-- The commands that may change the encoder's tables (R32, R33, R36, R294). -/
def encoderCommands : List Instr := [.histogram, .treeBuild, .treeEmit, .tblWrite, .blockEncode, .encode]

/-- The commands that may change the decoder's tables (R34 to R36, R294). -/
def decoderCommands : List Instr := [.treeRecover, .blockDecode, .decode]

/-- The commands that may change `OUT_PTR` and `OUT_END` (R37). -/
def payloadCommands : List Instr := [.symDecode, .huffDecode, .blockDecode, .decode]

/-- The commands that may change `DEC_STATE` (R37). -/
def decStateCommands : List Instr := [.huffDecode, .blockDecode, .decode]

/-- The commands that may write `OUT` (R61). -/
def storingCommands : List Instr :=
  [.bwWriteBits, .bwForceFlush, .treeEmit, .symEmit, .symDecode, .huffDecode, .blockEncode, .blockDecode, .encode, .decode]

/-- The composite commands (glossary of `spec/00_scope.md`). -/
def compositeCommands : List Instr := [.blockEncode, .blockDecode, .blockVerify, .encode, .verify, .decode]

/-- The kinds a command can fail with (the table of R263). -/
def failureKinds : Instr → List Kind
  | .maxsize => [.argument]
  | .encode => [.argument, .encodeExhausted]
  | .verify => [.argument, .truncated, .structural, .integrity]
  | .decode => [.argument, .truncated, .structural, .outputOverflow]
  | .crc32c => [.illegal]
  | .brNew => [.illegal]
  | .brReadBit => []
  | .brReadBits => [.illegal]
  | .brPeek8 => []
  | .brAdvance => [.illegal]
  | .brReadBitChk => []
  | .brReadBitsChk => [.illegal]
  | .brAdvanceChk => [.illegal]
  | .brAdvanceBytesChk => []
  | .brAtEnd => []
  | .bwNew => [.illegal]
  | .bwWriteBits => [.illegal]
  | .bwForceFlush => []
  | .histogram => [.illegal]
  | .treeBuild => []
  | .treeEmit => [.illegal]
  | .treeRecover => [.truncated, .structural]
  | .symEmit => [.illegal]
  | .symDecode => [.illegal, .truncated, .outputOverflow]
  | .huffDecode => [.illegal, .truncated, .outputOverflow]
  | .blockEncode => [.illegal, .encodeExhausted]
  | .blockDecode => [.illegal, .truncated, .structural, .outputOverflow]
  | .blockVerify => [.illegal, .truncated, .structural, .integrity]
  | .tblRead => [.illegal]
  | .tblWrite => [.illegal]

end Sys2Proof.Machine
end

