-- ==== Sys2Proof/Certificates/Slice0/Obligations.lean ====
section
/-! DEFINITION. The statements for the provers, in the order of the files of `spec/`. A rule's number in a docstring names
the rule a statement formalises. A statement whose docstring names a log entry rests, where it says so, on a choice of the
model. -/

section Statements

open Sys2Proof Sys2Proof.Machine

/-! ### The host's side, commands, reset -/

/-- One step runs the command that the oldest pending write to `CMD` names, on the state without that write; a value that
names no command fails `ILLEGAL` and changes nothing else (R21, R83). The queue of host actions is the model's (log 1). The
same of the machine that takes `crc32c` as an argument (R6, R7), of which `step` is the default instance (log 7). -/
def Obligations.StepRunsDecodedCommand : Prop :=
  (∀ s v rest i, s.pending = .write .cmd v :: rest → decode v = .ok i → step s = exec i { s with pending := rest }) ∧
  (∀ s v rest e, s.pending = .write .cmd v :: rest → decode v = .error e →
    step s = .next { s with pending := rest, result := Result.failed .illegal }) ∧
  (∀ s i, step (s.withFetchWord 8 (encode i).toNat) = exec i s) ∧
  (∀ crc s v rest i, s.pending = .write .cmd v :: rest → decode v = .ok i →
    stepWith crc s = execWith crc i { s with pending := rest }) ∧
  ∀ s, step s = stepWith crc32c s

/-- A few values written out from the table of R81: the low 8 bits name the command, the bits above are ignored (R21). -/
def Obligations.DecodesCommandWords : Prop :=
  decode 0x0000000000000001#64 = .ok .maxsize ∧ decode 0x0000000000000016#64 = .ok .brReadBitsChk ∧
  decode 0x0000000000000021#64 = .ok .bwWriteBits ∧ decode 0x0000000000000031#64 = .ok .treeBuild ∧
  decode 0x0000000000000036#64 = .ok .huffDecode ∧ decode 0x0000000000000042#64 = .ok .blockVerify ∧
  decode 0xFFFFFFFFFFFFFF51#64 = .ok .tblWrite ∧ decode 0x0000000000000100#64 = .error (.illegalCode 0)

/-- A value names a command exactly when its low 8 bits are that command's code (R21, R81). -/
def Obligations.CodesNameCommands : Prop :=
  ∀ (v : Word) (i : Instr), decode v = .ok i ↔ v.toNat % 256 = (encode i).toNat

/-- R83: the 226 codes outside R81, and what writing one of them does. -/
def Obligations.UnlistedCodesAreIllegal : Prop :=
  let unlisted (c : Nat) : Prop := c = 0x00 ∨ (0x06 ≤ c ∧ c ≤ 0x0F) ∨ (0x1A ≤ c ∧ c ≤ 0x1F) ∨ (0x23 ≤ c ∧ c ≤ 0x2F) ∨
    (0x37 ≤ c ∧ c ≤ 0x3F) ∨ (0x43 ≤ c ∧ c ≤ 0x4F) ∨ (0x52 ≤ c ∧ c ≤ 0xFF)
  (∀ c : Nat, unlisted c ↔ c < 256 ∧ ∀ i : Instr, i.code.toNat ≠ c) ∧
  (List.range 256).countP (fun c => (decode (BitVec.ofNat 64 c)).toOption.isNone) = 226 ∧
  ∀ (s : State) (v : Word) (rest : List HostAction), s.pending = .write .cmd v :: rest → unlisted (v.toNat % 256) →
    step s = .next { s with pending := rest, result := ⟨true, .illegal, 0#64, 0#64⟩ }

/-- A command line, assembled into the register writes of R98, is read back as the same command with the same operands, at
every value of each operand, whatever follows it. -/
def Obligations.CommandLineRoundTrip : Prop :=
  ∀ (i : Instr) (ops : List Word) (rest : List HostAction), (AsmLine.command i ops).wf = true →
    readCommandLine ((AsmLine.command i ops).assemble ++ rest) = some (i, ops, rest)

/-- The host's reads and writes of the ten registers (R20): what is written to a read/write register is read back, a write
to a read-only register changes nothing, `CMD` reads 0; and its stores and loads of the two memories: the byte stored, no
other (R64, R67). That a load's value goes to a field of the model is the model's (log 5). -/
def Obligations.HostAccesses : Prop :=
  (∀ (s : State) (v : Word) (r q : PortReg), r ∈ [.inLen, .outCap, .arg0, .arg1, .arg2, .arg3] →
    (s.writePort v r).readPort q = if q = r then v else s.readPort q) ∧
  (∀ (s : State) (v : Word) (r : PortReg) (rest : List HostAction), r ≠ .cmd → s.pending = .write r v :: rest →
    step s = .next { (s.writePort v r) with pending := rest }) ∧
  (∀ (s : State) (v : Word) (r : PortReg) (rest : List HostAction), r ∈ [.status, .res0, .res1] →
    s.pending = .write r v :: rest → step s = .next { s with pending := rest }) ∧
  (∀ (s : State) (r : PortReg) (rest : List HostAction), s.pending = .read r :: rest →
    step s = .next { s with pending := rest, readData := s.readPort r }) ∧
  (∀ s : State, s.readPort .cmd = 0#64) ∧
  (∀ (s : State) (a : Word) (b : Byte) (rest : List HostAction), s.pending = .storeIn a b :: rest →
    ∃ t, step s = .next t ∧ t = { s with pending := rest, input := t.input } ∧
      ∀ x, t.inByte x = if x = a.toNat then b else s.inByte x) ∧
  (∀ (s : State) (a : Word) (b : Byte) (rest : List HostAction), s.pending = .storeOut a b :: rest →
    ∃ t, step s = .next t ∧ t = { s with pending := rest, output := t.output } ∧
      ∀ x, t.outByte x = if x = a.toNat then b else s.outByte x) ∧
  (∀ (s : State) (a : Word) (rest : List HostAction), s.pending = .loadIn a :: rest →
    step s = .next { s with pending := rest, readData := (s.inByte a.toNat).setWidth 64 }) ∧
  ∀ (s : State) (a : Word) (rest : List HostAction), s.pending = .loadOut a :: rest →
    step s = .next { s with pending := rest, readData := (s.outByte a.toNat).setWidth 64 }

/-- The fields of `STATUS`: every bit of the register (R22), with the codes of the failure kinds (R261) and of the decoder's
states (R37) as numbers. -/
def Obligations.StatusFields : Prop :=
  [Kind.none, .argument, .truncated, .structural, .integrity, .outputOverflow, .encodeExhausted, .illegal].map Kind.code =
    [0#4, 1#4, 2#4, 3#4, 4#4, 5#4, 6#4, 7#4] ∧
  [DecState.idle, .fast, .tail, .completed, .error].map DecState.code = [0#3, 1#3, 2#3, 3#3, 4#3] ∧
  ∀ (s : State) (i : Nat), s.status.getLsbD i =
    if i = 0 then s.result.fail
    else if 4 ≤ i ∧ i ≤ 7 then s.result.err.code.getLsbD (i - 4)
    else if i = 8 then s.br.fail
    else if i = 9 then s.bw.fail
    else if 12 ≤ i ∧ i ≤ 14 then s.pay.state.code.getLsbD (i - 12)
    else if i = 16 then s.enc.treeValid
    else if i = 17 then s.enc.codesValid
    else if i = 18 then s.dec.treeValid
    else false

/-- What reset leaves, wherever the table of R41 gives a value; the fields it leaves unspecified are not spoken of (log
4). -/
def Obligations.ResetValues : Prop :=
  State.reset.result = ⟨false, .none, 0#64, 0#64⟩ ∧ State.reset.ops = ⟨0#64, 0#64, 0#64, 0#64, 0#64, 0#64⟩ ∧
  State.reset.br = ⟨0#64, 0#64, 0#5, 0#32, false⟩ ∧ State.reset.bw = ⟨0#64, 0#64, 0#6, 0#32, false⟩ ∧
  (∀ i < 261, State.reset.enc.symAt i = ⟨0#32, 0#32, 0#6⟩) ∧ State.reset.enc.root = 0xFFFF#16 ∧
  State.reset.enc.next = 261#10 ∧ State.reset.dec.count = 0#10 ∧ State.reset.enc.treeValid = false ∧
  State.reset.enc.codesValid = false ∧ State.reset.dec.treeValid = false ∧ State.reset.pay = ⟨.idle, 0#64, 0#64⟩ ∧
  State.reset.status = 0#64

/-- The platform's reset: every register and flag and `SYM` at the values of R41, the two memories as they were (R285). What
the equation says beyond that is the model's: R41 leaves `ENODE`, `DNODE` and `LUT` unspecified, and the model puts back the
free values of power-on (log 4); the host's last read and the counter of free spans are kept (log 5, log 6). A reset that
abandons a command does the same, and of `OUT` only the bytes the command was writing may have changed (R285; which bytes
those are is read from R266, R61 and the command's own rule, log 10). -/
def Obligations.ResetRestores : Prop :=
  (∀ (s : State) (rest : List HostAction), s.pending = .reset :: rest →
    step s = .next { State.reset with
      input := s.input, output := s.output, pending := rest, readData := s.readData, freeCount := s.freeCount }) ∧
  ∀ (s : State) (v : Word) (rest : List HostAction), s.pending = .abandon v :: rest →
    ∃ t, step s = .next t ∧
      t = { State.reset with
        input := s.input, output := t.output, pending := rest, readData := s.readData, freeCount := t.freeCount } ∧
      ∀ a, (∀ i, decode v = .ok i → a < (s.writeSpan i).1 ∨ (s.writeSpan i).2 ≤ a) → t.outByte a = s.outByte a

/-- The state after reset meets every invariant stated below. -/
def Obligations.ResetMeetsInvariants : Prop :=
  State.reset.input.wf ∧ State.reset.output.wf ∧ State.reset.br.ok ∧ State.reset.cacheFresh ∧ State.reset.bw.ok ∧
  State.reset.enc.ok ∧ State.reset.dec.ok ∧ State.reset.dec.treeOk ∧ (State.reset.dec.treeValid = true →
    State.reset.dec.lutAgrees) ∧ State.reset.pay.state.resting

/-! ### The whole machine -/

/-- The step function is total and never stops (R6; log 11). That a step takes the oldest action out of the model's queue and
no other, and that a step with an empty queue still answers, are choices of the model (log 1). -/
def Obligations.StepAnswersNext : Prop := ∀ s : State, ∃ t, step s = .next t ∧ t.pending = s.pending.tail

/-- No command changes `ARG0..ARG3`, `IN_LEN`, `OUT_CAP` (R21) or a byte of `IN` (R38), nor the model's own host side. -/
def Obligations.CommandsKeepOperandsAndInput : Prop :=
  ∀ (i : Instr) (s t : State), exec i s = .next t →
    t.ops = s.ops ∧ t.input = s.input ∧ t.pending = s.pending ∧ t.readData = s.readData

/-- A command ends ok with `ERR` 0, or it fails with one of its kinds and results 0 (R260, R263). -/
def Obligations.CommandOutcomes : Prop :=
  ∀ (i : Instr) (s t : State), exec i s = .next t →
    (t.result.fail = false ∧ t.result.err = .none) ∨ ∃ k ∈ failureKinds i, t.result = Result.failed k

/-- A command that fails `ILLEGAL` changes nothing but `STATUS.FAIL`, `STATUS.ERR`, `RES0`, `RES1` (R82, R266). -/
def Obligations.IllegalChangesNothing : Prop :=
  ∀ (i : Instr) (s t : State), exec i s = .next t → t.result.err = .illegal →
    t = { s with result := ⟨true, .illegal, 0#64, 0#64⟩ }

/-- Each unit's registers and tables are changed by that unit's commands and the composites only (R26, R37, R294); `OUT`
by the commands of R61 only. -/
def Obligations.UnitsChangedByOwnCommands : Prop :=
  ∀ (i : Instr) (s t : State), exec i s = .next t →
    (i ∉ readerCommands → t.br = s.br) ∧ (i ∉ writerCommands → t.bw = s.bw) ∧ (i ∉ encoderCommands → t.enc = s.enc) ∧
    (i ∉ decoderCommands → t.dec = s.dec) ∧ (i ∉ payloadCommands → t.pay = s.pay) ∧
    (i ∉ decStateCommands → t.pay.state = s.pay.state) ∧
    (i ∉ storingCommands → t.output = s.output ∧ t.freeCount = s.freeCount)

/-- Every byte of `OUT` outside the range a command writes is as before, whether the command ends ok or fails: no byte
for a command that is refused (R82), the bytes `BW_PTR` moves past for the commands that write through the writer (R132,
R133), the token's bytes for `SYM_DECODE` and none where the token fails (R174, R186), the operands' ranges for the
other decode and block commands, bounded by `OUT_CAP` (R23, R61, R222, R266). That R266 does not speak of `SYM_DECODE`
when it names the decode commands is the model's reading (log 3); that these are the bytes a command writes, which
`writeSpan` computes, is read from R266, R61 and the command's own rule (log 10). -/
def Obligations.StoresStayInRange : Prop :=
  ∀ (i : Instr) (s t : State) (a : Nat), exec i s = .next t → a < (s.writeSpan i).1 ∨ (s.writeSpan i).2 ≤ a →
    t.outByte a = s.outByte a

/-- Both memories keep the model's own canonical form in every step: cells by strictly rising address, spans of free bytes
not empty, rising and disjoint, no cell inside a span. The form is a choice of the model (log 2, log 3), not the spec's. -/
def Obligations.MemoriesStayCanonical : Prop :=
  ∀ s t : State, s.input.wf → s.output.wf → step s = .next t → t.input.wf ∧ t.output.wf

/-- The reader's invariant of R110 is kept by every step; its last clause, that the cache is a copy of `IN`, by every
command. -/
def Obligations.ReaderInvariantKept : Prop :=
  (∀ s t : State, s.br.ok → step s = .next t → t.br.ok) ∧
  ∀ (i : Instr) (s t : State), s.br.ok → s.cacheFresh → exec i s = .next t → t.br.ok ∧ t.cacheFresh

/-- The writer's invariant of R130 is kept by every step; so are the sizes and bounds of the encoder's tables, and every
code fits its length (R32, R33). -/
def Obligations.WriterAndEncoderInvariantsKept : Prop :=
  (∀ s t : State, s.bw.ok → step s = .next t → t.bw.ok) ∧ ∀ s t : State, s.enc.ok → step s = .next t → t.enc.ok

/-- While `DEC_TREE_VALID` is 1 the nodes in use are exactly those of one tree the format allows, in preorder, and the lookup
table says of every index what that tree says; every step keeps that (R161, R36). -/
def Obligations.DecoderInvariantKept : Prop :=
  ∀ s t : State, s.dec.ok → s.dec.treeOk → (s.dec.treeValid = true → s.dec.lutAgrees) → step s = .next t →
    t.dec.ok ∧ t.dec.treeOk ∧ (t.dec.treeValid = true → t.dec.lutAgrees)

/-- Between commands `DEC_STATE` is Idle, Completed or Error; `HUFF_DECODE` leaves Completed when it ends ok, with `OUT_PTR`
at the end of its range, and Error when it fails on its data (R187, R190). -/
def Obligations.DecStateRests : Prop :=
  (∀ s t : State, s.pay.state.resting → step s = .next t → t.pay.state.resting) ∧
  ∀ s t : State, exec .huffDecode s = .next t →
    (t.result.fail = false → t.pay = ⟨.completed, s.ops.arg1, s.ops.arg1⟩ ∧ t.result = Result.okOf s.arg1 0) ∧
    (t.result.fail = true → t.result.err ≠ .illegal → t.pay.state = .error)

/-- The sticky flags: while one is set, its unit is changed by no command but `BR_NEW`, resp. `BW_NEW`, and the composites
that begin with it; the writer's commands then store nothing (R28, R122, R134). -/
def Obligations.StickyFlags : Prop :=
  ∀ (i : Instr) (s t : State), exec i s = .next t →
    (s.br.fail = true → i ∉ [.brNew, .blockDecode, .decode] → t.br = s.br) ∧
    (s.bw.fail = true → i ∉ [.bwNew, .blockEncode, .encode] →
      t.bw = s.bw ∧ (i ∈ writerCommands → t.output = s.output))

/-- The validity flags: which command sets and which clears each, and the commands that need one and fail `ILLEGAL` without
it (R36). -/
def Obligations.ValidityFlags : Prop :=
  (∀ (i : Instr) (s t : State), exec i s = .next t → t.result.fail = false →
    (i = .treeBuild → t.enc.treeValid = true ∧ t.enc.codesValid = false) ∧
    (i = .histogram ∨ i = .tblWrite → t.enc.treeValid = false ∧ t.enc.codesValid = false) ∧
    (i = .treeEmit → t.enc.treeValid = true ∧ t.enc.codesValid = true)) ∧
  (∀ s t : State, exec .treeRecover s = .next t → t.dec.treeValid = !t.result.fail) ∧
  (∀ s : State, s.enc.treeValid = false → exec .treeEmit s = .next { s with result := Result.failed .illegal }) ∧
  (∀ s : State, s.enc.codesValid = false → exec .symEmit s = .next { s with result := Result.failed .illegal }) ∧
  (∀ s : State, s.dec.treeValid = false → exec .symDecode s = .next { s with result := Result.failed .illegal }) ∧
  ∀ s : State, s.dec.treeValid = false → exec .huffDecode s = .next { s with result := Result.failed .illegal }

/-- A composite command's results and what it leaves in `OUT` do not depend on what earlier commands left in the unit
registers and the tables (R40). That `OUT` is equal also where the command failed is the model's, not the spec's: R266 lets
those bytes hold any value, and the two runs forget to equal free values because their counters of free spans are equal
(log 3, log 6). -/
def Obligations.CompositesIgnoreUnitState : Prop :=
  ∀ i ∈ compositeCommands, ∀ s u : State, s.ops = u.ops → s.input = u.input → s.output = u.output →
    s.freeCount = u.freeCount → s.enc.ok → u.enc.ok → s.dec.ok → u.dec.ok →
    ∃ t v, exec i s = .next t ∧ exec i u = .next v ∧ t.result = v.result ∧ t.output = v.output

/-! ### The bit reader -/

/-- `BR_NEW start, end` (R111): with a range inside the input, the reader stands on its first bit with the first bytes of the
range in its cache; with another range it fails `ILLEGAL`. -/
def Obligations.BrNewResult : Prop :=
  ∀ s : State, exec .brNew s =
    if s.arg0 ≤ s.arg1 ∧ s.arg1 ≤ s.inLen then
      .next { s with
        result := Result.okOf 0 0
        br :=
          { ptr := s.ops.arg0
            stop := s.ops.arg1
            bitpos := 0#5
            cache := (List.range 4).foldl (fun c j => c ||| (if s.arg0 + j < s.arg1 then
              (s.inByte (s.arg0 + j)).setWidth 32 <<< (8 * j) else 0#32)) 0#32
            fail := false } }
    else .next { s with result := Result.failed .illegal }

/-- The four reads of bits (R112, R113, R116, R117), of one bit or of `ARG0` bits, 1 to 32, that lie in the range: the value
is the field at the position, its first bit lowest, and the reader moves past it, with a fresh cache. -/
def Obligations.ReadsReturnTheField : Prop :=
  ∀ (i : Instr) (s : State) (n : Nat),
    ((i = .brReadBit ∨ i = .brReadBitChk) ∧ n = 1) ∨
      ((i = .brReadBits ∨ i = .brReadBitsChk) ∧ n = s.arg0 ∧ 1 ≤ n ∧ n ≤ 32) →
    s.br.fail = false → s.br.pos + n ≤ s.br.limit →
    exec i s = .next { s with
      result := Result.okOf (((List.range n).map fun j => (s.sbit (s.br.pos + j)).toNat * 2 ^ j).sum) 0
      br := { s.br with
        ptr := BitVec.ofNat 64 ((s.br.pos + n) / 8)
        bitpos := BitVec.ofNat 5 ((s.br.pos + n) % 8)
        cache := s.load4 ((s.br.pos + n) / 8) } }

/-- The advances (R114, R115, R118), by `ARG0` bits, 0 to 32, or by `ARG0` bytes: inside the range the reader moves, and a
move by nothing changes nothing. -/
def Obligations.AdvancesMove : Prop :=
  ∀ (i : Instr) (s : State) (n : Nat),
    ((i = .brAdvance ∨ i = .brAdvanceChk) ∧ n = s.arg0 ∧ n ≤ 32) ∨ (i = .brAdvanceBytesChk ∧ n = 8 * s.arg0) →
    s.br.fail = false → s.br.pos + n ≤ s.br.limit →
    exec i s = .next { s with
      result := Result.okOf 0 0
      br := if n = 0 then s.br else { s.br with
        ptr := BitVec.ofNat 64 ((s.br.pos + n) / 8)
        bitpos := BitVec.ofNat 5 ((s.br.pos + n) % 8)
        cache := s.load4 ((s.br.pos + n) / 8) } }

/-- A read or an advance that would pass the end of the range sets `BR_FAIL`, moves nothing and returns 0; while `BR_FAIL` is
1 it returns 0 and changes nothing; neither is a command failure (R113 to R115, R122, R264 (a)). A bit count outside its
range fails `ILLEGAL` (R82, R113, R114). -/
def Obligations.ReadsPastTheEnd : Prop :=
  (∀ (i : Instr) (s : State) (n : Nat),
    ((i = .brReadBit ∨ i = .brReadBitChk) ∧ n = 1) ∨
      ((i = .brReadBits ∨ i = .brReadBitsChk) ∧ n = s.arg0 ∧ 1 ≤ n ∧ n ≤ 32) ∨
      ((i = .brAdvance ∨ i = .brAdvanceChk) ∧ n = s.arg0 ∧ 1 ≤ n ∧ n ≤ 32) ∨
      (i = .brAdvanceBytesChk ∧ n = 8 * s.arg0 ∧ 1 ≤ n) →
    (s.br.fail = false → s.br.limit < s.br.pos + n →
      exec i s = .next { s with result := Result.okOf 0 0, br := { s.br with fail := true } }) ∧
    (s.br.fail = true → exec i s = .next { s with result := Result.okOf 0 0 })) ∧
  (∀ (i : Instr) (s : State), i = .brReadBits ∨ i = .brReadBitsChk → s.arg0 = 0 ∨ 32 < s.arg0 →
    exec i s = .next { s with result := Result.failed .illegal }) ∧
  ∀ (i : Instr) (s : State), i = .brAdvance ∨ i = .brAdvanceChk → 32 < s.arg0 →
    exec i s = .next { s with result := Result.failed .illegal }

/-- `BR_PEEK8` returns the next 8 bits of the stream, 0 for every bit past the range; `BR_AT_END` returns 1 exactly when
fewer than 8 bits remain; both change nothing, whatever `BR_FAIL` says (R119, R120). -/
def Obligations.PeekAndAtEnd : Prop :=
  (∀ s : State, s.br.ok → s.cacheFresh → exec .brPeek8 s = .next { s with
    result := Result.okOf (((List.range 8).map fun j =>
      if s.br.pos + j < s.br.limit then (s.sbit (s.br.pos + j)).toNat * 2 ^ j else 0).sum) 0 }) ∧
  ∀ s : State, s.br.ok →
    exec .brAtEnd s = .next { s with result := Result.okOf (if s.br.limit - s.br.pos ≤ 7 then 1 else 0) 0 }

/-! ### The bit writer -/

/-- `BW_NEW start, end` (R131). -/
def Obligations.BwNewResult : Prop :=
  ∀ s : State, exec .bwNew s =
    if s.arg0 ≤ s.arg1 ∧ s.arg1 ≤ s.outCap then
      .next { s with result := ⟨false, .none, 0#64, 0#64⟩, bw := ⟨s.ops.arg0, s.ops.arg1, 0#6, 0#32, false⟩ }
    else .next { s with result := ⟨true, .illegal, 0#64, 0#64⟩ }

/-- `BW_WRITE_BITS x, n` (R132): where the whole bytes it completes fit, the low `n` bits of `x` are appended to the writer's
stream, lowest first; where they do not, `BW_FAIL` is set and the pending bits are dropped, the bytes before the one that
does not fit are stored, and the command ends ok all the same; a count outside 1..32 fails `ILLEGAL`. -/
def Obligations.WriteBitsAppends : Prop :=
  (∀ s : State, s.bw.ok → s.bw.fail = false → 1 ≤ s.arg1 → s.arg1 ≤ 32 →
    (s.bw.pos + s.arg1) / 8 ≤ s.bw.stop.toNat →
    ∃ t, exec .bwWriteBits s = .next t ∧ s.appended t (bitsOf s.arg0 s.arg1) ∧
      t = { s with result := Result.okOf 0 0, bw := t.bw, output := t.output }) ∧
  (∀ s : State, s.bw.ok → s.bw.fail = false → 1 ≤ s.arg1 → s.arg1 ≤ 32 →
    s.bw.stop.toNat < (s.bw.pos + s.arg1) / 8 →
    ∃ t, exec .bwWriteBits s = .next t ∧
      t = { s with result := Result.okOf 0 0, bw := ⟨s.bw.stop, s.bw.stop, 0#6, 0#32, true⟩, output := t.output } ∧
      (∀ a, a < s.bw.ptr.toNat ∨ s.bw.stop.toNat ≤ a → t.outByte a = s.outByte a) ∧
      ∀ q, 8 * s.bw.ptr.toNat ≤ q → q < 8 * s.bw.stop.toNat →
        t.outBit q = if q < s.bw.pos then s.writtenBit q else s.arg0.testBit (q - s.bw.pos)) ∧
  ∀ s : State, s.arg1 = 0 ∨ 32 < s.arg1 → exec .bwWriteBits s = .next { s with result := Result.failed .illegal }

/-- `BW_FORCE_FLUSH` (R133): the low byte of the cache is stored, which for a writer between operations (R130) is the pending
bits and above them padding bits 0 (R96); with none pending, or with `BW_FAIL` set, nothing changes; where the byte does not
fit `BW_FAIL` is set and the bits are dropped. -/
def Obligations.ForceFlushCompletesTheByte : Prop :=
  (∀ s : State, s.bw.fail = false → s.bw.bitpos ≠ 0#6 → s.bw.ptr.toNat < s.bw.stop.toNat →
    ∃ t, exec .bwForceFlush s = .next t ∧
      t = { s with
        result := Result.okOf 0 0, bw := ⟨s.bw.ptr + 1#64, s.bw.stop, 0#6, 0#32, false⟩, output := t.output } ∧
      (∀ a, t.outByte a = if a = s.bw.ptr.toNat then s.bw.cache.setWidth 8 else s.outByte a) ∧
      (s.bw.ok → ∀ j < 8, (t.outByte s.bw.ptr.toNat).getLsbD j =
        if j < s.bw.bitpos.toNat then s.writtenBit (8 * s.bw.ptr.toNat + j) else false)) ∧
  (∀ s : State, s.bw.fail = true ∨ s.bw.bitpos = 0#6 →
    exec .bwForceFlush s = .next { s with result := Result.okOf 0 0 }) ∧
  ∀ s : State, s.bw.fail = false → s.bw.bitpos ≠ 0#6 → s.bw.stop.toNat ≤ s.bw.ptr.toNat →
    exec .bwForceFlush s = .next { s with
      result := Result.okOf 0 0, bw := ⟨s.bw.ptr, s.bw.stop, 0#6, 0#32, true⟩ }

/-! ### The tree builder -/

/-- The selection of R141: `node_1` is the eligible entry below `ENC_NEXT` that minimises (count, index), `node_2` the best of
the rest; there is one whenever an entry is eligible. One turn of the loop merges the two (R142): the new entry at
`ENC_NEXT` carries the sum of their counts, has `node_1` as child A and `node_2` as child B and is the root, both counts go
to 0, and no other entry changes. -/
def Obligations.SelectsTwoLightest : Prop :=
  ∀ e : Encoder, e.ok →
    let eligible (j : Nat) : Prop := j < e.next.toNat ∧ 0 < (e.nodeAt j).count.toNat
    let beats (i j : Nat) : Prop := (e.nodeAt i).count.toNat < (e.nodeAt j).count.toNat ∨
      ((e.nodeAt i).count.toNat = (e.nodeAt j).count.toNat ∧ i ≤ j)
    (∀ i, (∃ c, e.first = some (c, i)) ↔ eligible i ∧ ∀ j, eligible j → beats i j) ∧
    (∀ n1 i, (∃ c, e.second n1 = some (c, i)) ↔ (eligible i ∧ i ≠ n1) ∧ ∀ j, eligible j → j ≠ n1 → beats i j) ∧
    (∀ i, eligible i → e.first ≠ none) ∧
    ∀ c1 n1 c2 n2, e.next.toNat < 521 → e.first = some (c1, n1) → e.second n1 = some (c2, n2) →
      let m := e.mergeTurn
      m = { e with enode := m.enode, root := BitVec.ofNat 16 e.next.toNat, next := e.next + 1#10 } ∧
      m.enode.length = 521 ∧
      m.nodeAt e.next.toNat =
        ⟨(m.nodeAt e.next.toNat).count, 0xFFFF#16, BitVec.ofNat 16 n1, BitVec.ofNat 16 n2⟩ ∧
      (c1 + c2 < 2 ^ 64 → (m.nodeAt e.next.toNat).count.toNat = c1 + c2) ∧
      c1 = (e.nodeAt n1).count.toNat ∧ c2 = (e.nodeAt n2).count.toNat ∧
      m.nodeAt n1 = { e.nodeAt n1 with count := 0#64 } ∧ m.nodeAt n2 = { e.nodeAt n2 with count := 0#64 } ∧
      ∀ i, i ≠ e.next.toNat → i ≠ n1 → i ≠ n2 → m.nodeAt i = e.nodeAt i

/-- `TREE_BUILD` (R140 to R145): it always ends ok, `RES0` is the number of symbols in use and `RES1` the root; with none in
use the root is `NONE`, with one it is that symbol's leaf; else `ENODE` holds a tree over exactly the symbols in use whose
root carries the sum of all counts, made by one merge less than there are symbols. The counts in `SYM` are not changed. The
counts decide the build: equal counts give equal trees (R145 (b)); that the entries outside the tree are equal too is read
from the loop of R140, against a remark of U5 (log 9). -/
def Obligations.TreeBuildResult : Prop :=
  (∀ s : State, ∃ t, exec .treeBuild s = .next t ∧
    t = { s with result := Result.okOf s.enc.used.length t.enc.root.toNat, enc := t.enc } ∧
    t.enc.sym = s.enc.sym ∧ t.enc.treeValid = true ∧ t.enc.codesValid = false ∧
    (s.enc.used = [] → t.enc.root = Config.none16 ∧ t.enc.next = 261#10) ∧
    (∀ i, s.enc.used = [i] → t.enc.root = BitVec.ofNat 16 i ∧ t.enc.next = 261#10) ∧
    (s.enc.used ≠ [] → ∃ tree : HTree, t.enc.holds tree t.enc.root.toNat ∧ tree.symbols.Perm s.enc.used ∧
      (t.enc.nodeAt t.enc.root.toNat).count.toNat = (s.enc.used.map fun i => (s.enc.symAt i).count.toNat).sum ∧
      t.enc.next.toNat = 261 + (s.enc.used.length - 1))) ∧
  ∀ s u t v : State, (∀ i < 261, (s.enc.symAt i).count = (u.enc.symAt i).count) → exec .treeBuild s = .next t →
    exec .treeBuild u = .next v → t.result = v.result ∧ t.enc.enode = v.enc.enode ∧ t.enc.next = v.enc.next

/-- The tree is optimal for the counts: no other tree over the same symbols has a smaller sum of count times code length
(R145 (c)). -/
def Obligations.TreeBuildIsOptimal : Prop :=
  ∀ s t : State, s.enc.used ≠ [] → exec .treeBuild s = .next t →
    ∃ tree : HTree, t.enc.holds tree t.enc.root.toNat ∧ tree.symbols.Perm s.enc.used ∧
      ∀ other : HTree, other.symbols.Perm s.enc.used →
        tree.cost (fun i => (s.enc.symAt i).count.toNat) ≤ other.cost (fun i => (s.enc.symAt i).count.toNat)

/-! ### Tree emission and recovery -/

/-- `TREE_EMIT` of the tree at `ENC_ROOT` where the description fits (R150 to R153): the description is appended to the
writer's stream, and every symbol's code and length are those of its leaf, all others 0; the counts are kept. -/
def Obligations.TreeEmitResult : Prop :=
  ∀ (s : State) (tree : HTree), s.enc.ok → s.enc.treeValid = true → s.enc.root ≠ Config.none16 →
    s.enc.holds tree s.enc.root.toNat → tree.symbols.Nodup → tree.depth ≤ 32 → s.bw.ok → s.bw.fail = false →
    (s.bw.pos + tree.describe.length) / 8 ≤ s.bw.stop.toNat →
    ∃ t, exec .treeEmit s = .next t ∧ s.appended t tree.describe ∧
      t = { s with
        result := Result.okOf 0 0, bw := t.bw, output := t.output
        enc := { s.enc with sym := t.enc.sym, codesValid := true } } ∧
      (∀ p ∈ tree.codes, t.enc.symAt p.1 =
        ⟨(s.enc.symAt p.1).count, BitVec.ofNat 32 (bitsValue p.2), BitVec.ofNat 6 p.2.length⟩) ∧
      ∀ i, i ∉ tree.symbols → t.enc.symAt i = ⟨(s.enc.symAt i).count, 0#32, 0#6⟩

/-- The other ends of `TREE_EMIT`: an empty tree writes nothing (R154); a leaf deeper than 32 fails `ILLEGAL` (R152); a writer
that runs out of room sets `BW_FAIL`, a writer that had failed stays so, and the codes are recorded all the same (R152). -/
def Obligations.TreeEmitEdges : Prop :=
  (∀ s : State, s.enc.treeValid = true → s.enc.root = Config.none16 →
    ∃ t, exec .treeEmit s = .next t ∧
      t = { s with result := Result.okOf 0 0, enc := { s.enc with sym := t.enc.sym, codesValid := true } } ∧
      ∀ i, t.enc.symAt i = ⟨(s.enc.symAt i).count, 0#32, 0#6⟩) ∧
  (∀ (s : State) (tree : HTree), s.enc.holds tree s.enc.root.toNat → s.enc.root ≠ Config.none16 → 32 < tree.depth →
    exec .treeEmit s = .next { s with result := Result.failed .illegal }) ∧
  ∀ (s : State) (tree : HTree), s.enc.ok → s.enc.treeValid = true → s.enc.root ≠ Config.none16 →
    s.enc.holds tree s.enc.root.toNat → tree.symbols.Nodup → tree.depth ≤ 32 → s.bw.ok →
    s.bw.fail = true ∨ s.bw.stop.toNat < (s.bw.pos + tree.describe.length) / 8 →
    ∃ t, exec .treeEmit s = .next t ∧ t.result = Result.okOf 0 0 ∧ t.bw.fail = true ∧
      ∀ p ∈ tree.codes, t.enc.symAt p.1 =
        ⟨(s.enc.symAt p.1).count, BitVec.ofNat 32 (bitsValue p.2), BitVec.ofNat 6 p.2.length⟩

/-- The description of any tree the format allows, standing at the reader's position, is recovered as that tree, with every
symbol at every leaf as it was (R91, R155 to R158, R161): `TREE_RECOVER` is the inverse of the description. -/
def Obligations.TreeDescriptionRoundTrip : Prop :=
  ∀ (s : State) (tree : HTree), tree.legal → s.hasBits s.br.pos tree.describe → s.br.fail = false → s.dec.ok →
    ∃ t, exec .treeRecover s = .next t ∧
      t = { s with
        result := Result.okOf tree.nodes 0, dec := t.dec, br := (s.seek (s.br.pos + tree.describe.length)).br } ∧
      t.dec.holds tree 0 ∧ t.dec.count.toNat = tree.nodes ∧ t.dec.treeValid = true ∧ t.dec.lutAgrees

/-- Whatever `TREE_RECOVER` accepts was the description of a tree the format allows, and it holds that tree; otherwise it
fails and `DEC_TREE_VALID` is 0 (R155, R159, R160). The kind of the failure, in the order of R271 (c), where a description
has been read up to the start of a node: `STRUCTURAL` when 521 nodes have been read, whatever follows; else `TRUNCATED` when
the flag, or the symbol of a leaf, passes the end of the range, and `STRUCTURAL` when the symbol is above 260. The reader
stands where the failing read left it. -/
def Obligations.TreeRecoverAcceptsOnlyTrees : Prop :=
  (∀ s t : State, s.dec.ok → exec .treeRecover s = .next t →
    (t.result.fail = false → ∃ tree : HTree, tree.legal ∧ s.hasBits s.br.pos tree.describe ∧ t.dec.holds tree 0) ∧
    (t.result.fail = true → t.dec.treeValid = false)) ∧
  (∀ s : State, s.br.fail = true → ∃ t, exec .treeRecover s = .next t ∧ t.result = Result.failed .truncated) ∧
  ∀ (s : State) (o : OpenTree), s.dec.ok → s.br.fail = false → (∀ x ∈ o.symbols, x ≤ 260) →
    s.hasBits s.br.pos o.describe →
    (o.nodes = 521 → ∃ t, exec .treeRecover s = .next t ∧ t.result = Result.failed .structural ∧
      t.br.fail = false ∧ t.br.pos = s.br.pos + o.describe.length) ∧
    (o.nodes < 521 → s.br.pos + o.describe.length = s.br.limit →
      ∃ t, exec .treeRecover s = .next t ∧ t.result = Result.failed .truncated ∧
        t.br.fail = true ∧ t.br.pos = s.br.pos + o.describe.length) ∧
    (o.nodes < 521 → s.hasBits s.br.pos (o.describe ++ [true]) → s.br.limit < s.br.pos + o.describe.length + 10 →
      ∃ t, exec .treeRecover s = .next t ∧ t.result = Result.failed .truncated ∧
        t.br.fail = true ∧ t.br.pos = s.br.pos + o.describe.length + 1) ∧
    ∀ x, o.nodes < 521 → 260 < x → x < 512 → s.hasBits s.br.pos (o.describe ++ true :: bitsOf x 9) →
      ∃ t, exec .treeRecover s = .next t ∧ t.result = Result.failed .structural ∧
        t.br.fail = false ∧ t.br.pos = s.br.pos + o.describe.length + 10

/-! ### Tokens -/

/-- `token_for_run` and its inverse (R170): the two are inverse bijections between the run lengths 1..16662 and the tokens of
the zero class. -/
def Obligations.RunTokensAreABijection : Prop :=
  (∀ l : Nat, 1 ≤ l → l ≤ 16662 →
    (tokenForRun l).legal ∧ (tokenForRun l).isZeros ∧ (tokenForRun l).bytes = List.replicate l 0#8) ∧
  ∀ x : Token, x.legal → x.isZeros →
    1 ≤ x.bytes.length ∧ x.bytes.length ≤ 16662 ∧ tokenForRun x.bytes.length = x

/-- The tokens of a block are the one greedy row of tokens that stands for its bytes (R171, R175). -/
def Obligations.TokensAreTheGreedyRow : Prop :=
  ∀ (bs : List Byte) (ts : List Token),
    ts = tokens bs ↔ (∀ x ∈ ts, x.legal) ∧ ts.flatMap Token.bytes = bs ∧ greedyTokens ts

/-- `HISTOGRAM start, n` (R172): every symbol's count is the number of its tokens in the range, its code is cleared, the
encoder's flags are cleared, `RES0` is the number of tokens; a range too long or outside the input fails `ILLEGAL`. -/
def Obligations.HistogramCounts : Prop :=
  (∀ s : State, s.arg1 ≤ 65536 → s.arg0 + s.arg1 ≤ s.inLen →
    ∃ t, exec .histogram s = .next t ∧
      t = { s with
        result := Result.okOf (tokens (s.inBytes s.arg0 s.arg1)).length 0
        enc := { s.enc with sym := t.enc.sym, treeValid := false, codesValid := false } } ∧
      t.enc.sym.length = 261 ∧
      ∀ i < 261, (t.enc.symAt i).count.toNat = (tokens (s.inBytes s.arg0 s.arg1)).countP (fun x => decide (x.sym = i)) ∧
        (t.enc.symAt i).code = 0#32 ∧ (t.enc.symAt i).bits = 0#6) ∧
  ∀ s : State, 65536 < s.arg1 ∨ s.inLen < s.arg0 + s.arg1 →
    exec .histogram s = .next { s with result := Result.failed .illegal }

/-- `SYM_EMIT start, n` (R173): where they fit, each token's code and suffix are appended to the writer's stream in order, and
`RES0` is the number of tokens; where they do not, or the writer had failed, the command ends ok all the same with `BW_FAIL`
set; a range too long or outside the input, or a token without a code, fails `ILLEGAL`. -/
def Obligations.SymEmitResult : Prop :=
  (∀ s : State, s.enc.ok → s.enc.codesValid = true → s.arg1 ≤ 65536 → s.arg0 + s.arg1 ≤ s.inLen →
    (∀ x ∈ tokens (s.inBytes s.arg0 s.arg1), 1 ≤ (s.enc.symAt x.sym).bits.toNat) → s.bw.ok → s.bw.fail = false →
    (s.bw.pos + ((tokens (s.inBytes s.arg0 s.arg1)).flatMap s.enc.tokenBits).length) / 8 ≤ s.bw.stop.toNat →
    ∃ t, exec .symEmit s = .next t ∧
      s.appended t ((tokens (s.inBytes s.arg0 s.arg1)).flatMap s.enc.tokenBits) ∧
      t = { s with
        result := Result.okOf (tokens (s.inBytes s.arg0 s.arg1)).length 0, bw := t.bw, output := t.output }) ∧
  (∀ s : State, s.enc.ok → s.enc.codesValid = true → s.arg1 ≤ 65536 → s.arg0 + s.arg1 ≤ s.inLen →
    (∀ x ∈ tokens (s.inBytes s.arg0 s.arg1), 1 ≤ (s.enc.symAt x.sym).bits.toNat) → s.bw.ok →
    s.bw.fail = true ∨
      s.bw.stop.toNat < (s.bw.pos + ((tokens (s.inBytes s.arg0 s.arg1)).flatMap s.enc.tokenBits).length) / 8 →
    ∃ t, exec .symEmit s = .next t ∧ t.bw.fail = true ∧
      t = { s with
        result := Result.okOf (tokens (s.inBytes s.arg0 s.arg1)).length 0, bw := t.bw, output := t.output }) ∧
  ∀ s : State, 65536 < s.arg1 ∨ s.inLen < s.arg0 + s.arg1 ∨
      (∃ x ∈ tokens (s.inBytes s.arg0 s.arg1), (s.enc.symAt x.sym).bits = 0#6) →
    exec .symEmit s = .next { s with result := Result.failed .illegal }

/-! ### The payload decoder -/

/-- `SYM_DECODE out_ptr, out_end` (R185, R186, R174, R94): a token of the tree in `DNODE` that stands at the reader's position
and whose bytes fit is decoded: the reader moves past its code and its suffix, its bytes are stored, `RES0` is the address
past them and `RES1` the symbol. -/
def Obligations.SymDecodeResult : Prop :=
  ∀ (s : State) (tree : HTree) (x : Token) (code : List Bool), s.dec.ok → s.dec.treeValid = true → tree.legal →
    s.dec.count.toNat = tree.nodes → s.dec.holds tree 0 → s.dec.lutAgrees → s.br.ok → s.cacheFresh →
    s.br.fail = false → s.arg1 ≤ s.outCap → x.legal → tree.sends x.sym code →
    s.hasBits s.br.pos (code ++ bitsOf x.suffix x.k) → s.arg0 + x.bytes.length ≤ s.arg1 →
    ∃ t, exec .symDecode s = .next t ∧
      t = { s with
        result := Result.okOf (s.arg0 + x.bytes.length) x.sym
        br := (s.seek (s.br.pos + code.length + x.k)).br
        pay := { s.pay with outPtr := BitVec.ofNat 64 (s.arg0 + x.bytes.length), outEnd := s.ops.arg1 }
        output := t.output } ∧
      ∀ a, t.outByte a = if s.arg0 ≤ a ∧ a < s.arg0 + x.bytes.length then x.bytes.getD (a - s.arg0) 0#8 else s.outByte a

/-- `SYM_DECODE` on a token that is cut off anywhere, in its code or in its suffix, fails `TRUNCATED`, and on a token whose
bytes do not fit, `OUTPUT_OVERFLOW`; it stores nothing (R174, R186; that R266 does not speak of this command is log 3), and
`OUT_PTR` is `out_ptr`. The reader stands where the failing read left it (R185): before the code when the table's advance
failed, at the end of the range when a read of the walk did, behind the code when the suffix is cut off. A range that is no
range, or that passes `OUT_CAP`, fails `ILLEGAL`. -/
def Obligations.SymDecodeFailures : Prop :=
  (∀ s : State, s.dec.treeValid = true → s.arg0 ≤ s.arg1 → s.arg1 ≤ s.outCap → s.dec.ok → s.dec.treeOk → s.br.ok →
    s.br.pos = s.br.limit →
    ∃ t, exec .symDecode s = .next t ∧ t.result = Result.failed .truncated ∧ t.br = { s.br with fail := true } ∧
      t.output = s.output ∧ t.pay = { s.pay with outPtr := s.ops.arg0, outEnd := s.ops.arg1 }) ∧
  (∀ (s : State) (tree : HTree) (x : Token) (code : List Bool), s.dec.ok → s.dec.treeValid = true → tree.legal →
    s.dec.count.toNat = tree.nodes → s.dec.holds tree 0 → s.dec.lutAgrees → s.br.ok → s.cacheFresh →
    s.br.fail = false → s.arg0 ≤ s.arg1 → s.arg1 ≤ s.outCap → x.legal → tree.sends x.sym code →
    (s.hasBits s.br.pos (code ++ bitsOf x.suffix x.k) → s.arg1 < s.arg0 + x.bytes.length →
      ∃ t, exec .symDecode s = .next t ∧ t.result = Result.failed .outputOverflow ∧ t.output = s.output ∧
        t.br = (s.seek (s.br.pos + code.length + x.k)).br ∧
        t.pay = { s.pay with outPtr := s.ops.arg0, outEnd := s.ops.arg1 }) ∧
    ∀ m < code.length + x.k, s.hasBits s.br.pos ((code ++ bitsOf x.suffix x.k).take m) → s.br.pos + m = s.br.limit →
      ∃ t, exec .symDecode s = .next t ∧ t.result = Result.failed .truncated ∧ t.output = s.output ∧
        t.br = { (s.seek (if code.length ≤ m then s.br.pos + code.length
          else if m < 8 then s.br.pos else s.br.limit)).br with fail := true } ∧
        t.pay = { s.pay with outPtr := s.ops.arg0, outEnd := s.ops.arg1 }) ∧
  ∀ s : State, s.arg1 < s.arg0 ∨ s.outCap < s.arg1 →
    exec .symDecode s = .next { s with result := Result.failed .illegal }

/-- `HUFF_DECODE out_start, out_end` (R187, R189, R191): a row of tokens of the tree in `DNODE` that stands at the reader's
position and whose bytes fill the range exactly is decoded whole, whatever stands behind it. Where the row leaves room and
the next token is cut off, the command fails `TRUNCATED`, and where that token does not fit, `OUTPUT_OVERFLOW`; `DEC_STATE`
is then Error and `OUT_PTR` stands behind the last token that was decoded. A range that is no range, or that passes
`OUT_CAP`, fails `ILLEGAL`. -/
def Obligations.HuffDecodeResult : Prop :=
  (∀ (s : State) (tree : HTree) (ts : List Token) (bits : List Bool), s.dec.ok → s.dec.treeValid = true → tree.legal →
    s.dec.count.toNat = tree.nodes → s.dec.holds tree 0 → s.dec.lutAgrees → s.br.ok → s.cacheFresh →
    s.br.fail = false → s.arg1 ≤ s.outCap → (∀ x ∈ ts, x.legal) → tree.encodes ts bits →
    s.hasBits s.br.pos bits → s.arg0 + (ts.flatMap Token.bytes).length = s.arg1 →
    ∃ t, exec .huffDecode s = .next t ∧
      t = { s with
        result := Result.okOf s.arg1 0
        br := (s.seek (s.br.pos + bits.length)).br
        pay := ⟨.completed, s.ops.arg1, s.ops.arg1⟩
        output := t.output } ∧
      ∀ a, t.outByte a =
        if s.arg0 ≤ a ∧ a < s.arg1 then (ts.flatMap Token.bytes).getD (a - s.arg0) 0#8 else s.outByte a) ∧
  (∀ (s : State) (tree : HTree) (ts : List Token) (bits : List Bool) (x : Token) (code : List Bool), s.dec.ok →
    s.dec.treeValid = true → tree.legal → s.dec.count.toNat = tree.nodes → s.dec.holds tree 0 → s.dec.lutAgrees →
    s.br.ok → s.cacheFresh → s.br.fail = false → s.arg1 ≤ s.outCap → (∀ y ∈ ts, y.legal) → tree.encodes ts bits →
    s.arg0 + (ts.flatMap Token.bytes).length < s.arg1 → x.legal → tree.sends x.sym code →
    (s.hasBits s.br.pos (bits ++ (code ++ bitsOf x.suffix x.k)) →
      s.arg1 < s.arg0 + (ts.flatMap Token.bytes).length + x.bytes.length →
      ∃ t, exec .huffDecode s = .next t ∧
        t = { s with
          result := Result.failed .outputOverflow
          br := (s.seek (s.br.pos + bits.length + code.length + x.k)).br
          pay := ⟨.error, BitVec.ofNat 64 (s.arg0 + (ts.flatMap Token.bytes).length), s.ops.arg1⟩
          output := t.output, freeCount := t.freeCount } ∧
        ∀ a, a < s.arg0 ∨ s.arg1 ≤ a → t.outByte a = s.outByte a) ∧
    ∀ m < code.length + x.k, s.hasBits s.br.pos (bits ++ (code ++ bitsOf x.suffix x.k).take m) →
      s.br.pos + bits.length + m = s.br.limit →
      ∃ t, exec .huffDecode s = .next t ∧ t.br.fail = true ∧
        t = { s with
          result := Result.failed .truncated
          br := t.br
          pay := ⟨.error, BitVec.ofNat 64 (s.arg0 + (ts.flatMap Token.bytes).length), s.ops.arg1⟩
          output := t.output, freeCount := t.freeCount } ∧
        ∀ a, a < s.arg0 ∨ s.arg1 ≤ a → t.outByte a = s.outByte a) ∧
  ∀ s : State, s.arg1 < s.arg0 ∨ s.outCap < s.arg1 →
    exec .huffDecode s = .next { s with result := Result.failed .illegal }

/-! ### Blocks -/

/-- `BLOCK_ENCODE in_start, n_b, out_pos` with room for the block as a copy (R200 to R206, R208): it ends ok, the header's
fields are those of the payload, the block is a FILL block exactly when its bytes are all the same, and the FILL and COPY
payloads are as the format says; stores go to `OUT[out_pos .. OUT_CAP)` only. A block that is all one byte needs room for
8 bytes only, and the writer is not touched (R202). Without room for 8 bytes the command fails and changes nothing else.
Which mode a block gets that is not constant (R203, R204, R208): with the tree of its counts and the codes of that tree, the
payload is the description, the tokens and padding bits 0; where no leaf is deeper than 32 and the payload is below 65536
bytes and fits, the block is that payload, mode 1; else it is a copy, mode 0; and where the copy does not fit either the
command fails `ENCODE_EXHAUSTED`. Operands outside their ranges fail `ILLEGAL`. -/
def Obligations.BlockEncodeResult : Prop :=
  (∀ s : State, s.enc.ok → 1 ≤ s.arg1 → s.arg1 ≤ 65536 → s.arg0 + s.arg1 ≤ s.inLen → s.arg2 + 7 + s.arg1 ≤ s.outCap →
    ∃ t es mode, exec .blockEncode s = .next t ∧
      t = { s with result := Result.okOf (7 + es) mode, enc := t.enc, bw := t.bw, output := t.output } ∧
      1 ≤ es ∧ es ≤ 65536 ∧ s.arg2 + 7 + es ≤ s.outCap ∧ mode ≤ 2 ∧
      readLE t.outByte s.arg2 2 = es - 1 ∧
      readLE t.outByte (s.arg2 + 2) 4 = (crc32c (readList t.outByte (s.arg2 + 7) es)).toNat ∧
      readLE t.outByte (s.arg2 + 6) 1 = mode ∧
      (mode = 2 ↔ constantBytes (s.inBytes s.arg0 s.arg1)) ∧
      (mode = 2 → es = 1 ∧ t.outByte (s.arg2 + 7) = s.inByte s.arg0) ∧
      (mode = 0 → es = s.arg1 ∧ readList t.outByte (s.arg2 + 7) es = s.inBytes s.arg0 s.arg1) ∧
      (mode = 1 → 3 ≤ es ∧ es < 65536) ∧
      ∀ a, a < s.arg2 ∨ s.outCap ≤ a → t.outByte a = s.outByte a) ∧
  (∀ s : State, 1 ≤ s.arg1 → s.arg1 ≤ 65536 → s.arg0 + s.arg1 ≤ s.inLen → s.arg2 + 8 ≤ s.outCap →
    constantBytes (s.inBytes s.arg0 s.arg1) →
    ∃ t, exec .blockEncode s = .next t ∧ t.result = Result.okOf 8 2 ∧ t.bw = s.bw ∧
      t.enc.treeValid = false ∧ t.enc.codesValid = false) ∧
  (∀ s : State, 1 ≤ s.arg1 → s.arg1 ≤ 65536 → s.arg0 + s.arg1 ≤ s.inLen → s.arg2 ≤ s.outCap → s.outCap < s.arg2 + 8 →
    exec .blockEncode s = .next { s with result := Result.failed .encodeExhausted }) ∧
  (∀ s : State, s.enc.ok → 1 ≤ s.arg1 → s.arg1 ≤ 65536 → s.arg0 + s.arg1 ≤ s.inLen → s.arg2 + 8 ≤ s.outCap →
    ¬ constantBytes (s.inBytes s.arg0 s.arg1) →
    ∃ (t : State) (tree : HTree), exec .blockEncode s = .next t ∧ t.enc.holds tree t.enc.root.toNat ∧
      tree.symbols.Perm t.enc.used ∧ t.enc.treeValid = true ∧
      (∀ i < 261, (t.enc.symAt i).count.toNat =
        (tokens (s.inBytes s.arg0 s.arg1)).countP fun x => decide (x.sym = i)) ∧
      (tree.depth ≤ 32 → ∀ p ∈ tree.codes, (t.enc.symAt p.1).code = BitVec.ofNat 32 (bitsValue p.2) ∧
        (t.enc.symAt p.1).bits = BitVec.ofNat 6 p.2.length) ∧
      let payload := tree.describe ++ (tokens (s.inBytes s.arg0 s.arg1)).flatMap t.enc.tokenBits
      let size := (payload.length + 7) / 8
      let kept : Prop := tree.depth ≤ 32 ∧ size < 65536 ∧ s.arg2 + 7 + size ≤ s.outCap
      (kept → t.result = Result.okOf (7 + size) 1 ∧
        (List.range (8 * size)).map (fun q => t.outBit (8 * (s.arg2 + 7) + q)) =
          payload ++ List.replicate (8 * size - payload.length) false) ∧
      (¬ kept → s.arg2 + 7 + s.arg1 ≤ s.outCap → t.result = Result.okOf (7 + s.arg1) 0) ∧
      (¬ kept → s.outCap < s.arg2 + 7 + s.arg1 → t.result = Result.failed .encodeExhausted)) ∧
  ∀ s : State, s.arg1 = 0 ∨ 65536 < s.arg1 ∨ s.inLen < s.arg0 + s.arg1 ∨ s.outCap < s.arg2 →
    exec .blockEncode s = .next { s with result := Result.failed .illegal }

/-- `BLOCK_VERIFY in_pos` (R215, R216): the tests in their order, and the result when all are passed; no other state
changes. -/
def Obligations.BlockVerifyResult : Prop :=
  ∀ s : State, exec .blockVerify s =
    .next { s with
      result :=
        if s.inLen < s.arg0 then Result.failed .illegal
        else if s.inLen < s.arg0 + 7 then Result.failed .truncated
        else if 2 < readLE s.inByte (s.arg0 + 6) 1 then Result.failed .structural
        else if s.inLen < s.arg0 + 7 + (readLE s.inByte s.arg0 2 + 1) then Result.failed .structural
        else if (crc32c (readList s.inByte (s.arg0 + 7) (readLE s.inByte s.arg0 2 + 1))).toNat ≠
            readLE s.inByte (s.arg0 + 2) 4 then Result.failed .integrity
        else Result.okOf (s.arg0 + 7 + (readLE s.inByte s.arg0 2 + 1)) (readLE s.inByte (s.arg0 + 6) 1) }

/-- `BLOCK_DECODE in_pos, out_start, block_len` of a COPY block and of a FILL block (R217 to R219, R88, R89): the slice is
filled from the payload, the reader, the tables and `DEC_STATE` are not touched, and the CRC is not looked at (R221). A
header that is cut off fails `TRUNCATED`, and a mode above 2 or a payload past the end of the input `STRUCTURAL`, in this
order (R215), with nothing but bytes of the slice changed. Operands outside their ranges fail `ILLEGAL` (R217). -/
def Obligations.BlockDecodeCopyAndFill : Prop :=
  (∀ s : State, s.inLen < s.arg0 ∨ s.arg2 = 0 ∨ 65536 < s.arg2 ∨ s.outCap < s.arg1 + s.arg2 →
    exec .blockDecode s = .next { s with result := Result.failed .illegal }) ∧
  (∀ (s : State) (k : Kind), s.arg0 ≤ s.inLen → 1 ≤ s.arg2 → s.arg2 ≤ 65536 → s.arg1 + s.arg2 ≤ s.outCap →
    (s.inLen < s.arg0 + 7 ∧ k = .truncated) ∨
      (s.arg0 + 7 ≤ s.inLen ∧ k = .structural ∧ (2 < readLE s.inByte (s.arg0 + 6) 1 ∨
        s.inLen < s.arg0 + 7 + (readLE s.inByte s.arg0 2 + 1))) →
    ∃ t, exec .blockDecode s = .next t ∧
      t = { s with result := Result.failed k, output := t.output, freeCount := t.freeCount } ∧
      ∀ a, a < s.arg1 ∨ s.arg1 + s.arg2 ≤ a → t.outByte a = s.outByte a) ∧
  ∀ (s : State) (es : Nat), s.arg0 + 7 + es ≤ s.inLen → 1 ≤ s.arg2 → s.arg2 ≤ 65536 → s.arg1 + s.arg2 ≤ s.outCap →
    es = readLE s.inByte s.arg0 2 + 1 →
    (readLE s.inByte (s.arg0 + 6) 1 = 0 → es = s.arg2 →
      ∃ t, exec .blockDecode s = .next t ∧
        t = { s with result := Result.okOf (s.arg0 + 7 + es) 0, output := t.output } ∧
        ∀ a, t.outByte a = if s.arg1 ≤ a ∧ a < s.arg1 + s.arg2 then s.inByte (s.arg0 + 7 + (a - s.arg1))
          else s.outByte a) ∧
    (readLE s.inByte (s.arg0 + 6) 1 = 2 → es = 1 →
      ∃ t, exec .blockDecode s = .next t ∧
        t = { s with result := Result.okOf (s.arg0 + 8) 2, output := t.output } ∧
        ∀ a, t.outByte a = if s.arg1 ≤ a ∧ a < s.arg1 + s.arg2 then s.inByte (s.arg0 + 7) else s.outByte a) ∧
    (readLE s.inByte (s.arg0 + 6) 1 = 0 → es ≠ s.arg2 →
      ∃ t, exec .blockDecode s = .next t ∧ t.result = Result.failed .structural) ∧
    (readLE s.inByte (s.arg0 + 6) 1 = 2 → es ≠ 1 →
      ∃ t, exec .blockDecode s = .next t ∧ t.result = Result.failed .structural)

/-- A block that `BLOCK_ENCODE` made, moved to `IN` at any place, is decoded by `BLOCK_DECODE` to the bytes it was made from,
in every mode (R200, R217 to R220, R235), whatever function `crc32c` is (R7). -/
def Obligations.BlockRoundTrip : Prop :=
  ∀ (crc : CrcFn) (s t u : State), s.enc.ok → execWith crc .blockEncode s = .next t → t.result.fail = false →
    (∀ j < t.result.res0.toNat, u.inByte (u.arg0 + j) = t.outByte (s.arg2 + j)) →
    u.arg0 + t.result.res0.toNat ≤ u.inLen → u.arg2 = s.arg1 → u.arg1 + u.arg2 ≤ u.outCap → u.dec.ok →
    ∃ v, exec .blockDecode u = .next v ∧
      v = { u with
        result := Result.okOf (u.arg0 + t.result.res0.toNat) t.result.res1.toNat
        br := v.br, dec := v.dec, pay := v.pay, output := v.output } ∧
      ∀ a, v.outByte a = if u.arg1 ≤ a ∧ a < u.arg1 + u.arg2 then s.inByte (s.arg0 + (a - u.arg1)) else u.outByte a

/-! ### The container -/

/-- `MAXSIZE n` (R231). -/
def Obligations.MaxsizeBound : Prop :=
  ∀ s : State, exec .maxsize s =
    .next { s with
      result :=
        if 2 ^ 32 - 1 < s.arg0 then ⟨true, .argument, 0#64, 0#64⟩
        else ⟨false, .none, BitVec.ofNat 64 (4 + (s.arg0 + 65535) / 65536 * 65543), 0#64⟩ }

/-- `CRC32C space, start, length` (R230): the function of the bytes of the range, and nothing else changes. The function is
an argument of the machine (R7): only five commands use it, `DECODE` and `BLOCK_DECODE` not among them (R61, R221), and
`BLOCK_VERIFY` uses it through equality of results only (R216). `exec` is the machine at the default instance of R230 (log
7), whose value on the nine ASCII digits and on the bytes of the worked example the rule gives. -/
def Obligations.Crc32cResult : Prop :=
  (∀ (crc : CrcFn) (s : State), execWith crc .crc32c s = .next { s with
    result :=
      if s.arg0 = 0 ∧ s.arg1 + s.arg2 ≤ s.inLen then Result.okOf (crc (readList s.inByte s.arg1 s.arg2)).toNat 0
      else if s.arg0 = 1 ∧ s.arg1 + s.arg2 ≤ s.outCap then Result.okOf (crc (readList s.outByte s.arg1 s.arg2)).toNat 0
      else Result.failed .illegal }) ∧
  (∀ s : State, exec .crc32c s = .next { s with
    result :=
      if s.arg0 = 0 ∧ s.arg1 + s.arg2 ≤ s.inLen then Result.okOf (crc32c (readList s.inByte s.arg1 s.arg2)).toNat 0
      else if s.arg0 = 1 ∧ s.arg1 + s.arg2 ≤ s.outCap then Result.okOf (crc32c (readList s.outByte s.arg1 s.arg2)).toNat 0
      else Result.failed .illegal }) ∧
  (∀ (i : Instr) (s : State), exec i s = execWith crc32c i s) ∧
  (∀ (crc : CrcFn) (i : Instr) (s : State), i ∉ [.crc32c, .encode, .verify, .blockEncode, .blockVerify] →
    execWith crc i s = exec i s) ∧
  (∀ (crc : CrcFn) (s t : State), execWith crc .blockVerify s = .next t →
    (t.result.fail = false ↔ s.arg0 ≤ s.inLen ∧ s.arg0 + 7 + (readLE s.inByte s.arg0 2 + 1) ≤ s.inLen ∧
      readLE s.inByte (s.arg0 + 6) 1 ≤ 2 ∧
      (crc (readList s.inByte (s.arg0 + 7) (readLE s.inByte s.arg0 2 + 1))).toNat = readLE s.inByte (s.arg0 + 2) 4)) ∧
  crc32c [] = 0x00000000#32 ∧ crc32c [0x06#8, 0x08#8, 0x30#8] = 0x1C22DF64#32 ∧
  crc32c [0x31#8, 0x32#8, 0x33#8, 0x34#8, 0x35#8, 0x36#8, 0x37#8, 0x38#8, 0x39#8] = 0xE3069283#32

/-- `ENCODE` with room for the bound ends ok within it, one block per 65536 bytes, behind a master header that holds the size
(R232, R235 (a), R237, R85). An input too long for the header's field fails `ARGUMENT`, and no room for the master header
`ENCODE_EXHAUSTED`, in this order, and nothing else changes (R232, R271 (f)). -/
def Obligations.EncodeSucceeds : Prop :=
  (∀ s : State, 2 ^ 32 - 1 < s.inLen → exec .encode s = .next { s with result := Result.failed .argument }) ∧
  (∀ s : State, s.inLen ≤ 2 ^ 32 - 1 → s.outCap < 4 →
    exec .encode s = .next { s with result := Result.failed .encodeExhausted }) ∧
  ∀ s : State, s.enc.ok → s.inLen ≤ 2 ^ 32 - 1 → 4 + (s.inLen + 65535) / 65536 * 65543 ≤ s.outCap →
    ∃ t e, exec .encode s = .next t ∧
      t = { s with
        result := Result.okOf e ((s.inLen + 65535) / 65536), enc := t.enc, bw := t.bw, output := t.output } ∧
      e ≤ 4 + (s.inLen + 65535) / 65536 * 65543 ∧ readLE t.outByte 0 4 = s.inLen ∧
      ∀ a, s.outCap ≤ a → t.outByte a = s.outByte a

/-- `ENCODE` is a function of the input: with room for the bound, equal inputs give equal outcomes and equal encoded bytes,
whatever the engine and `OUT` held before (R235 (d), R209), whatever function `crc32c` is (R7). -/
def Obligations.EncodeIsAFunction : Prop :=
  ∀ (crc : CrcFn) (s u t v : State), s.enc.ok → u.enc.ok → s.inLen = u.inLen → (∀ a < s.inLen, s.inByte a = u.inByte a) →
    s.inLen ≤ 2 ^ 32 - 1 → 4 + (s.inLen + 65535) / 65536 * 65543 ≤ s.outCap →
    4 + (s.inLen + 65535) / 65536 * 65543 ≤ u.outCap → execWith crc .encode s = .next t →
    execWith crc .encode u = .next v →
    t.result = v.result ∧ ∀ a < t.result.res0.toNat, t.outByte a = v.outByte a

/-- `VERIFY` (R233): over a container whose blocks are sound it ends ok with the announced size and the bytes consumed; it
ends ok over no other; it changes nothing else. -/
def Obligations.VerifyResult : Prop :=
  (∀ s : State, 4 ≤ s.inLen → s.blocksSound crc32c ((readLE s.inByte 0 4 + 65535) / 65536) 4 →
    exec .verify s = .next { s with
      result := Result.okOf (readLE s.inByte 0 4) (s.blocksEnd ((readLE s.inByte 0 4 + 65535) / 65536) 4) }) ∧
  (∀ s t : State, exec .verify s = .next t → t.result.fail = false →
    4 ≤ s.inLen ∧ s.blocksSound crc32c ((readLE s.inByte 0 4 + 65535) / 65536) 4) ∧
  (∀ s : State, s.inLen < 4 → exec .verify s = .next { s with result := Result.failed .argument }) ∧
  ∀ s t : State, exec .verify s = .next t → t = { s with result := t.result }

/-- What `ENCODE` made passes `VERIFY` (R235 (b)), whatever function `crc32c` is (R7). -/
def Obligations.VerifyAcceptsEncoded : Prop :=
  ∀ (crc : CrcFn) (s t u : State), s.enc.ok → execWith crc .encode s = .next t → t.result.fail = false →
    u.inLen = t.result.res0.toNat →
    (∀ a < u.inLen, u.inByte a = t.outByte a) →
    execWith crc .verify u = .next { u with result := Result.okOf s.inLen u.inLen }

/-- `DECODE` is a left inverse of `ENCODE` (R235 (c)): over any room in which `ENCODE` ended ok, whatever function `crc32c` is
(R7). -/
def Obligations.DecodeInvertsEncode : Prop :=
  ∀ (crc : CrcFn) (s t u : State), s.enc.ok → execWith crc .encode s = .next t → t.result.fail = false →
    u.inLen = t.result.res0.toNat →
    (∀ a < u.inLen, u.inByte a = t.outByte a) → s.inLen ≤ u.outCap → u.dec.ok →
    ∃ v, exec .decode u = .next v ∧
      v = { u with
        result := Result.okOf s.inLen u.inLen, br := v.br, dec := v.dec, pay := v.pay, output := v.output } ∧
      ∀ a, v.outByte a = if a < s.inLen then s.inByte a else u.outByte a

/-- `DECODE` of an announced size of 0, and of one COPY block or one FILL block (R234, R218, R219); an input without a master
header, or one that announces more than fits, fails `ARGUMENT` and writes nothing. -/
def Obligations.DecodeResult : Prop :=
  (∀ s : State, 4 ≤ s.inLen → readLE s.inByte 0 4 = 0 → exec .decode s = .next { s with result := Result.okOf 0 4 }) ∧
  (∀ (s : State) (d : Nat), d = readLE s.inByte 0 4 → 1 ≤ d → d ≤ 65536 → d ≤ s.outCap → 11 + d ≤ s.inLen →
    readLE s.inByte 4 2 + 1 = d → readLE s.inByte 10 1 = 0 →
    ∃ t, exec .decode s = .next t ∧ t = { s with result := Result.okOf d (11 + d), output := t.output } ∧
      ∀ a, t.outByte a = if a < d then s.inByte (11 + a) else s.outByte a) ∧
  (∀ (s : State) (d : Nat), d = readLE s.inByte 0 4 → 1 ≤ d → d ≤ 65536 → d ≤ s.outCap → 12 ≤ s.inLen →
    readLE s.inByte 4 2 = 0 → readLE s.inByte 10 1 = 2 →
    ∃ t, exec .decode s = .next t ∧ t = { s with result := Result.okOf d 12, output := t.output } ∧
      ∀ a, t.outByte a = if a < d then s.inByte 11 else s.outByte a) ∧
  ∀ s : State, s.inLen < 4 ∨ s.outCap < readLE s.inByte 0 4 →
    exec .decode s = .next { s with result := Result.failed .argument }

/-! ### Table access -/

/-- `TBL_READ table, index` (R250, R251): the value of the field where the index is in the table's range and the guard is 1,
and `ILLEGAL` elsewhere; nothing else changes. -/
def Obligations.TblReadResult : Prop :=
  ∀ s : State,
    let i := s.arg1
    let read (ok : Prop) [Decidable ok] (v : Nat) : Result := if ok then Result.okOf v 0 else Result.failed .illegal
    exec .tblRead s = .next { s with
      result :=
        match s.arg0 with
        | 0 => read (i ≤ 260) (s.enc.symAt i).count.toNat
        | 1 => read (i ≤ 260) (s.enc.symAt i).code.toNat
        | 2 => read (i ≤ 260) (s.enc.symAt i).bits.toNat
        | 3 => read (i ≤ 520 ∧ s.enc.treeValid = true) (s.enc.nodeAt i).count.toNat
        | 4 => read (i ≤ 520 ∧ s.enc.treeValid = true) (s.enc.nodeAt i).symbol.toNat
        | 5 => read (i ≤ 520 ∧ s.enc.treeValid = true) (s.enc.nodeAt i).childA.toNat
        | 6 => read (i ≤ 520 ∧ s.enc.treeValid = true) (s.enc.nodeAt i).childB.toNat
        | 7 => read (i < s.dec.count.toNat ∧ s.dec.treeValid = true) (s.dec.nodeAt i).symbol.toNat
        | 8 => read (i < s.dec.count.toNat ∧ s.dec.treeValid = true) (s.dec.nodeAt i).childA.toNat
        | 9 => read (i < s.dec.count.toNat ∧ s.dec.treeValid = true) (s.dec.nodeAt i).childB.toNat
        | 10 => read (i ≤ 255 ∧ s.dec.treeValid = true) (s.dec.lutAt i).node.toNat
        | 11 => read (i ≤ 255 ∧ s.dec.treeValid = true) (s.dec.lutAt i).symbol.toNat
        | 12 => read (i ≤ 255 ∧ s.dec.treeValid = true) (s.dec.lutAt i).bits.toNat
        | 13 =>
          match i with
          | 0 => Result.okOf s.enc.root.toNat 0
          | 1 => Result.okOf s.enc.next.toNat 0
          | 2 => Result.okOf s.dec.count.toNat 0
          | 3 => Result.okOf s.pay.outPtr.toNat 0
          | 4 => Result.okOf s.pay.outEnd.toNat 0
          | 5 => Result.okOf s.br.ptr.toNat 0
          | 6 => Result.okOf s.br.stop.toNat 0
          | 7 => Result.okOf s.bw.ptr.toNat 0
          | 8 => Result.okOf s.bw.stop.toNat 0
          | _ => Result.failed .illegal
        | _ => Result.failed .illegal }

/-- `TBL_WRITE table, index, value` (R252). -/
def Obligations.TblWriteResult : Prop :=
  (∀ s : State, s.enc.ok → s.arg0 = 0 → s.arg1 ≤ 260 → s.arg2 ≤ 4294967295 →
    ∃ t, exec .tblWrite s = .next t ∧
      t = { s with
        result := ⟨false, .none, 0#64, 0#64⟩
        enc := { s.enc with sym := t.enc.sym, treeValid := false, codesValid := false } } ∧
      t.enc.sym.length = 261 ∧
      ∀ i < 261, t.enc.symAt i =
        if i = s.arg1 then { s.enc.symAt i with count := BitVec.ofNat 32 s.arg2 } else s.enc.symAt i) ∧
  ∀ s : State, s.arg0 ≠ 0 ∨ 260 < s.arg1 ∨ 4294967295 < s.arg2 →
    exec .tblWrite s = .next { s with result := ⟨true, .illegal, 0#64, 0#64⟩ }

end Statements
end

