-- ==== Sys2Proof/Laws/Bits.lean ====
section
/-! SUPPORT. Bit strings: their values, and a row of bits read off a function. -/

namespace Sys2Proof.Machine

@[simp] theorem bitsOf_length (v n : Nat) : (bitsOf v n).length = n := by simp [bitsOf]

@[simp] theorem bitsOf_getElem (v n i : Nat) (h : i < (bitsOf v n).length) : (bitsOf v n)[i] = v.testBit i := by
  simp [bitsOf]

/-- A row of bits read off a function is a given list exactly when it agrees at every place. -/
theorem map_range_eq_iff {α : Type} (f : Nat → α) (bits : List α) :
    (List.range bits.length).map f = bits ↔ ∀ i (h : i < bits.length), f i = bits[i] := by
  constructor
  · intro e i h
    have h' : i < ((List.range bits.length).map f).length := by simpa using h
    have := List.getElem_map (f := f) (l := List.range bits.length) (h := h')
    rw [List.getElem_range] at this
    rw [← this]
    congr 1
  · intro e
    refine List.ext_getElem (by simp) fun i h1 h2 => ?_
    simpa using e i h2

theorem bitsValue_append (xs ys : List Bool) :
    bitsValue (xs ++ ys) = bitsValue xs + 2 ^ xs.length * bitsValue ys := by
  induction xs with
  | nil => simp [bitsValue]
  | cons x xs ih => simp only [List.cons_append, bitsValue, ih, List.length_cons, Nat.pow_succ]; ring

theorem bitsValue_lt (xs : List Bool) : bitsValue xs < 2 ^ xs.length := by
  induction xs with
  | nil => simp [bitsValue]
  | cons x xs ih =>
    simp only [bitsValue, List.length_cons, Nat.pow_succ]
    have : x.toNat ≤ 1 := by cases x <;> simp
    omega

theorem testBit_bitsValue (xs : List Bool) (i : Nat) : (bitsValue xs).testBit i = xs.getD i false := by
  induction xs generalizing i with
  | nil => simp [bitsValue]
  | cons x xs ih =>
    have e : bitsValue (x :: xs) = 2 * bitsValue xs + x.toNat := by simp only [bitsValue]; omega
    cases i with
    | zero => rw [e, Nat.testBit_zero]; cases x <;> simp
    | succ i =>
      rw [Nat.testBit_succ, e, show (2 * bitsValue xs + x.toNat) / 2 = bitsValue xs by cases x <;> (simp; try omega), ih]
      simp

@[simp] theorem bitsValue_bitsOf (v n : Nat) : bitsValue (bitsOf v n) = v % 2 ^ n := by
  refine Nat.eq_of_testBit_eq fun i => ?_
  rw [testBit_bitsValue, Nat.testBit_mod_two_pow]
  by_cases h : i < n
  · simp [List.getD, bitsOf, h]
  · simp [List.getD, bitsOf, h]

theorem bitsOf_bitsValue (xs : List Bool) : bitsOf (bitsValue xs) xs.length = xs := by
  refine List.ext_getElem (by simp) fun i h1 h2 => ?_
  rw [bitsOf_getElem, testBit_bitsValue]; simp [List.getD, h2]

theorem bitsOf_congr {v w n : Nat} (h : ∀ i < n, v.testBit i = w.testBit i) : bitsOf v n = bitsOf w n := by
  refine List.ext_getElem (by simp) fun i h1 h2 => ?_
  simpa using h i (by simpa using h1)

end Sys2Proof.Machine
end

