-- ==== Sys2Proof/Laws/State.lean ====
section
/-! SUPPORT. The fields that each update of the state leaves as they were, and those it writes: one lemma per field per
update, so that no later proof unfolds a record update. -/

namespace Sys2Proof.Machine

variable (s : State)

/-! ### `finishOk` -/

@[simp] theorem State.finishOk_ops (r0 r1 : Nat) : (s.finishOk r0 r1).ops = s.ops := rfl
@[simp] theorem State.finishOk_br (r0 r1 : Nat) : (s.finishOk r0 r1).br = s.br := rfl
@[simp] theorem State.finishOk_bw (r0 r1 : Nat) : (s.finishOk r0 r1).bw = s.bw := rfl
@[simp] theorem State.finishOk_enc (r0 r1 : Nat) : (s.finishOk r0 r1).enc = s.enc := rfl
@[simp] theorem State.finishOk_dec (r0 r1 : Nat) : (s.finishOk r0 r1).dec = s.dec := rfl
@[simp] theorem State.finishOk_pay (r0 r1 : Nat) : (s.finishOk r0 r1).pay = s.pay := rfl
@[simp] theorem State.finishOk_input (r0 r1 : Nat) : (s.finishOk r0 r1).input = s.input := rfl
@[simp] theorem State.finishOk_output (r0 r1 : Nat) : (s.finishOk r0 r1).output = s.output := rfl
@[simp] theorem State.finishOk_pending (r0 r1 : Nat) : (s.finishOk r0 r1).pending = s.pending := rfl
@[simp] theorem State.finishOk_readData (r0 r1 : Nat) : (s.finishOk r0 r1).readData = s.readData := rfl
@[simp] theorem State.finishOk_freeCount (r0 r1 : Nat) : (s.finishOk r0 r1).freeCount = s.freeCount := rfl

/-! ### `failWith` -/

@[simp] theorem State.failWith_ops (k : Kind) : (s.failWith k).ops = s.ops := rfl
@[simp] theorem State.failWith_br (k : Kind) : (s.failWith k).br = s.br := rfl
@[simp] theorem State.failWith_bw (k : Kind) : (s.failWith k).bw = s.bw := rfl
@[simp] theorem State.failWith_enc (k : Kind) : (s.failWith k).enc = s.enc := rfl
@[simp] theorem State.failWith_dec (k : Kind) : (s.failWith k).dec = s.dec := rfl
@[simp] theorem State.failWith_pay (k : Kind) : (s.failWith k).pay = s.pay := rfl
@[simp] theorem State.failWith_input (k : Kind) : (s.failWith k).input = s.input := rfl
@[simp] theorem State.failWith_output (k : Kind) : (s.failWith k).output = s.output := rfl
@[simp] theorem State.failWith_pending (k : Kind) : (s.failWith k).pending = s.pending := rfl
@[simp] theorem State.failWith_readData (k : Kind) : (s.failWith k).readData = s.readData := rfl
@[simp] theorem State.failWith_freeCount (k : Kind) : (s.failWith k).freeCount = s.freeCount := rfl

/-! ### `putOut` -/

@[simp] theorem State.putOut_ops (a : Nat) (b : Byte) : (s.putOut a b).ops = s.ops := rfl
@[simp] theorem State.putOut_result (a : Nat) (b : Byte) : (s.putOut a b).result = s.result := rfl
@[simp] theorem State.putOut_br (a : Nat) (b : Byte) : (s.putOut a b).br = s.br := rfl
@[simp] theorem State.putOut_bw (a : Nat) (b : Byte) : (s.putOut a b).bw = s.bw := rfl
@[simp] theorem State.putOut_enc (a : Nat) (b : Byte) : (s.putOut a b).enc = s.enc := rfl
@[simp] theorem State.putOut_dec (a : Nat) (b : Byte) : (s.putOut a b).dec = s.dec := rfl
@[simp] theorem State.putOut_pay (a : Nat) (b : Byte) : (s.putOut a b).pay = s.pay := rfl
@[simp] theorem State.putOut_input (a : Nat) (b : Byte) : (s.putOut a b).input = s.input := rfl
@[simp] theorem State.putOut_pending (a : Nat) (b : Byte) : (s.putOut a b).pending = s.pending := rfl
@[simp] theorem State.putOut_readData (a : Nat) (b : Byte) : (s.putOut a b).readData = s.readData := rfl
@[simp] theorem State.putOut_freeCount (a : Nat) (b : Byte) : (s.putOut a b).freeCount = s.freeCount := rfl

/-! ### `putOutList` -/

@[simp] theorem State.putOutList_ops (a : Nat) (bs : List Byte) : (s.putOutList a bs).ops = s.ops := rfl
@[simp] theorem State.putOutList_result (a : Nat) (bs : List Byte) : (s.putOutList a bs).result = s.result := rfl
@[simp] theorem State.putOutList_br (a : Nat) (bs : List Byte) : (s.putOutList a bs).br = s.br := rfl
@[simp] theorem State.putOutList_bw (a : Nat) (bs : List Byte) : (s.putOutList a bs).bw = s.bw := rfl
@[simp] theorem State.putOutList_enc (a : Nat) (bs : List Byte) : (s.putOutList a bs).enc = s.enc := rfl
@[simp] theorem State.putOutList_dec (a : Nat) (bs : List Byte) : (s.putOutList a bs).dec = s.dec := rfl
@[simp] theorem State.putOutList_pay (a : Nat) (bs : List Byte) : (s.putOutList a bs).pay = s.pay := rfl
@[simp] theorem State.putOutList_input (a : Nat) (bs : List Byte) : (s.putOutList a bs).input = s.input := rfl
@[simp] theorem State.putOutList_pending (a : Nat) (bs : List Byte) : (s.putOutList a bs).pending = s.pending := rfl
@[simp] theorem State.putOutList_readData (a : Nat) (bs : List Byte) : (s.putOutList a bs).readData = s.readData := rfl
@[simp] theorem State.putOutList_freeCount (a : Nat) (bs : List Byte) : (s.putOutList a bs).freeCount = s.freeCount := rfl

/-! ### `putOutLE` -/

@[simp] theorem State.putOutLE_ops (a n v : Nat) : (s.putOutLE a n v).ops = s.ops := rfl
@[simp] theorem State.putOutLE_result (a n v : Nat) : (s.putOutLE a n v).result = s.result := rfl
@[simp] theorem State.putOutLE_br (a n v : Nat) : (s.putOutLE a n v).br = s.br := rfl
@[simp] theorem State.putOutLE_bw (a n v : Nat) : (s.putOutLE a n v).bw = s.bw := rfl
@[simp] theorem State.putOutLE_enc (a n v : Nat) : (s.putOutLE a n v).enc = s.enc := rfl
@[simp] theorem State.putOutLE_dec (a n v : Nat) : (s.putOutLE a n v).dec = s.dec := rfl
@[simp] theorem State.putOutLE_pay (a n v : Nat) : (s.putOutLE a n v).pay = s.pay := rfl
@[simp] theorem State.putOutLE_input (a n v : Nat) : (s.putOutLE a n v).input = s.input := rfl
@[simp] theorem State.putOutLE_pending (a n v : Nat) : (s.putOutLE a n v).pending = s.pending := rfl
@[simp] theorem State.putOutLE_readData (a n v : Nat) : (s.putOutLE a n v).readData = s.readData := rfl
@[simp] theorem State.putOutLE_freeCount (a n v : Nat) : (s.putOutLE a n v).freeCount = s.freeCount := rfl

/-! ### `forgetOut` -/

@[simp] theorem State.forgetOut_ops (lo hi : Nat) : (s.forgetOut lo hi).ops = s.ops := rfl
@[simp] theorem State.forgetOut_result (lo hi : Nat) : (s.forgetOut lo hi).result = s.result := rfl
@[simp] theorem State.forgetOut_br (lo hi : Nat) : (s.forgetOut lo hi).br = s.br := rfl
@[simp] theorem State.forgetOut_bw (lo hi : Nat) : (s.forgetOut lo hi).bw = s.bw := rfl
@[simp] theorem State.forgetOut_enc (lo hi : Nat) : (s.forgetOut lo hi).enc = s.enc := rfl
@[simp] theorem State.forgetOut_dec (lo hi : Nat) : (s.forgetOut lo hi).dec = s.dec := rfl
@[simp] theorem State.forgetOut_pay (lo hi : Nat) : (s.forgetOut lo hi).pay = s.pay := rfl
@[simp] theorem State.forgetOut_input (lo hi : Nat) : (s.forgetOut lo hi).input = s.input := rfl
@[simp] theorem State.forgetOut_pending (lo hi : Nat) : (s.forgetOut lo hi).pending = s.pending := rfl
@[simp] theorem State.forgetOut_readData (lo hi : Nat) : (s.forgetOut lo hi).readData = s.readData := rfl

/-! ### `failOver` -/

@[simp] theorem State.failOver_ops (k : Kind) (lo hi : Nat) : (s.failOver k lo hi).ops = s.ops := rfl
@[simp] theorem State.failOver_br (k : Kind) (lo hi : Nat) : (s.failOver k lo hi).br = s.br := rfl
@[simp] theorem State.failOver_bw (k : Kind) (lo hi : Nat) : (s.failOver k lo hi).bw = s.bw := rfl
@[simp] theorem State.failOver_enc (k : Kind) (lo hi : Nat) : (s.failOver k lo hi).enc = s.enc := rfl
@[simp] theorem State.failOver_dec (k : Kind) (lo hi : Nat) : (s.failOver k lo hi).dec = s.dec := rfl
@[simp] theorem State.failOver_pay (k : Kind) (lo hi : Nat) : (s.failOver k lo hi).pay = s.pay := rfl
@[simp] theorem State.failOver_input (k : Kind) (lo hi : Nat) : (s.failOver k lo hi).input = s.input := rfl
@[simp] theorem State.failOver_pending (k : Kind) (lo hi : Nat) : (s.failOver k lo hi).pending = s.pending := rfl
@[simp] theorem State.failOver_readData (k : Kind) (lo hi : Nat) : (s.failOver k lo hi).readData = s.readData := rfl

/-! ### `seek` -/

@[simp] theorem State.seek_ops (q : Nat) : (s.seek q).ops = s.ops := rfl
@[simp] theorem State.seek_result (q : Nat) : (s.seek q).result = s.result := rfl
@[simp] theorem State.seek_bw (q : Nat) : (s.seek q).bw = s.bw := rfl
@[simp] theorem State.seek_enc (q : Nat) : (s.seek q).enc = s.enc := rfl
@[simp] theorem State.seek_dec (q : Nat) : (s.seek q).dec = s.dec := rfl
@[simp] theorem State.seek_pay (q : Nat) : (s.seek q).pay = s.pay := rfl
@[simp] theorem State.seek_input (q : Nat) : (s.seek q).input = s.input := rfl
@[simp] theorem State.seek_output (q : Nat) : (s.seek q).output = s.output := rfl
@[simp] theorem State.seek_pending (q : Nat) : (s.seek q).pending = s.pending := rfl
@[simp] theorem State.seek_readData (q : Nat) : (s.seek q).readData = s.readData := rfl
@[simp] theorem State.seek_freeCount (q : Nat) : (s.seek q).freeCount = s.freeCount := rfl

/-! ### `brNew` -/

@[simp] theorem State.brNew_ops (start stop : Nat) : (s.brNew start stop).ops = s.ops := rfl
@[simp] theorem State.brNew_result (start stop : Nat) : (s.brNew start stop).result = s.result := rfl
@[simp] theorem State.brNew_bw (start stop : Nat) : (s.brNew start stop).bw = s.bw := rfl
@[simp] theorem State.brNew_enc (start stop : Nat) : (s.brNew start stop).enc = s.enc := rfl
@[simp] theorem State.brNew_dec (start stop : Nat) : (s.brNew start stop).dec = s.dec := rfl
@[simp] theorem State.brNew_pay (start stop : Nat) : (s.brNew start stop).pay = s.pay := rfl
@[simp] theorem State.brNew_input (start stop : Nat) : (s.brNew start stop).input = s.input := rfl
@[simp] theorem State.brNew_output (start stop : Nat) : (s.brNew start stop).output = s.output := rfl
@[simp] theorem State.brNew_pending (start stop : Nat) : (s.brNew start stop).pending = s.pending := rfl
@[simp] theorem State.brNew_readData (start stop : Nat) : (s.brNew start stop).readData = s.readData := rfl
@[simp] theorem State.brNew_freeCount (start stop : Nat) : (s.brNew start stop).freeCount = s.freeCount := rfl

/-! ### `bwNew` -/

@[simp] theorem State.bwNew_ops (start stop : Nat) : (s.bwNew start stop).ops = s.ops := rfl
@[simp] theorem State.bwNew_result (start stop : Nat) : (s.bwNew start stop).result = s.result := rfl
@[simp] theorem State.bwNew_br (start stop : Nat) : (s.bwNew start stop).br = s.br := rfl
@[simp] theorem State.bwNew_enc (start stop : Nat) : (s.bwNew start stop).enc = s.enc := rfl
@[simp] theorem State.bwNew_dec (start stop : Nat) : (s.bwNew start stop).dec = s.dec := rfl
@[simp] theorem State.bwNew_pay (start stop : Nat) : (s.bwNew start stop).pay = s.pay := rfl
@[simp] theorem State.bwNew_input (start stop : Nat) : (s.bwNew start stop).input = s.input := rfl
@[simp] theorem State.bwNew_output (start stop : Nat) : (s.bwNew start stop).output = s.output := rfl
@[simp] theorem State.bwNew_pending (start stop : Nat) : (s.bwNew start stop).pending = s.pending := rfl
@[simp] theorem State.bwNew_readData (start stop : Nat) : (s.bwNew start stop).readData = s.readData := rfl
@[simp] theorem State.bwNew_freeCount (start stop : Nat) : (s.bwNew start stop).freeCount = s.freeCount := rfl

/-! ### `bwOverflow` -/

@[simp] theorem State.bwOverflow_ops : (s.bwOverflow).ops = s.ops := rfl
@[simp] theorem State.bwOverflow_result : (s.bwOverflow).result = s.result := rfl
@[simp] theorem State.bwOverflow_br : (s.bwOverflow).br = s.br := rfl
@[simp] theorem State.bwOverflow_enc : (s.bwOverflow).enc = s.enc := rfl
@[simp] theorem State.bwOverflow_dec : (s.bwOverflow).dec = s.dec := rfl
@[simp] theorem State.bwOverflow_pay : (s.bwOverflow).pay = s.pay := rfl
@[simp] theorem State.bwOverflow_input : (s.bwOverflow).input = s.input := rfl
@[simp] theorem State.bwOverflow_output : (s.bwOverflow).output = s.output := rfl
@[simp] theorem State.bwOverflow_pending : (s.bwOverflow).pending = s.pending := rfl
@[simp] theorem State.bwOverflow_readData : (s.bwOverflow).readData = s.readData := rfl
@[simp] theorem State.bwOverflow_freeCount : (s.bwOverflow).freeCount = s.freeCount := rfl

/-! ### `bwPut` -/

@[simp] theorem State.bwPut_ops (b : Byte) : (s.bwPut b).ops = s.ops := rfl
@[simp] theorem State.bwPut_result (b : Byte) : (s.bwPut b).result = s.result := rfl
@[simp] theorem State.bwPut_br (b : Byte) : (s.bwPut b).br = s.br := rfl
@[simp] theorem State.bwPut_enc (b : Byte) : (s.bwPut b).enc = s.enc := rfl
@[simp] theorem State.bwPut_dec (b : Byte) : (s.bwPut b).dec = s.dec := rfl
@[simp] theorem State.bwPut_pay (b : Byte) : (s.bwPut b).pay = s.pay := rfl
@[simp] theorem State.bwPut_input (b : Byte) : (s.bwPut b).input = s.input := rfl
@[simp] theorem State.bwPut_pending (b : Byte) : (s.bwPut b).pending = s.pending := rfl
@[simp] theorem State.bwPut_readData (b : Byte) : (s.bwPut b).readData = s.readData := rfl
@[simp] theorem State.bwPut_freeCount (b : Byte) : (s.bwPut b).freeCount = s.freeCount := rfl

/-! ### `histogram` -/

@[simp] theorem State.histogram_ops (start n : Nat) : (s.histogram start n).ops = s.ops := rfl
@[simp] theorem State.histogram_result (start n : Nat) : (s.histogram start n).result = s.result := rfl
@[simp] theorem State.histogram_br (start n : Nat) : (s.histogram start n).br = s.br := rfl
@[simp] theorem State.histogram_bw (start n : Nat) : (s.histogram start n).bw = s.bw := rfl
@[simp] theorem State.histogram_dec (start n : Nat) : (s.histogram start n).dec = s.dec := rfl
@[simp] theorem State.histogram_pay (start n : Nat) : (s.histogram start n).pay = s.pay := rfl
@[simp] theorem State.histogram_input (start n : Nat) : (s.histogram start n).input = s.input := rfl
@[simp] theorem State.histogram_output (start n : Nat) : (s.histogram start n).output = s.output := rfl
@[simp] theorem State.histogram_pending (start n : Nat) : (s.histogram start n).pending = s.pending := rfl
@[simp] theorem State.histogram_readData (start n : Nat) : (s.histogram start n).readData = s.readData := rfl
@[simp] theorem State.histogram_freeCount (start n : Nat) : (s.histogram start n).freeCount = s.freeCount := rfl

/-! ### `withDec` -/

@[simp] theorem State.withDec_ops (f : Decoder → Decoder) : (s.withDec f).ops = s.ops := rfl
@[simp] theorem State.withDec_result (f : Decoder → Decoder) : (s.withDec f).result = s.result := rfl
@[simp] theorem State.withDec_br (f : Decoder → Decoder) : (s.withDec f).br = s.br := rfl
@[simp] theorem State.withDec_bw (f : Decoder → Decoder) : (s.withDec f).bw = s.bw := rfl
@[simp] theorem State.withDec_enc (f : Decoder → Decoder) : (s.withDec f).enc = s.enc := rfl
@[simp] theorem State.withDec_pay (f : Decoder → Decoder) : (s.withDec f).pay = s.pay := rfl
@[simp] theorem State.withDec_input (f : Decoder → Decoder) : (s.withDec f).input = s.input := rfl
@[simp] theorem State.withDec_output (f : Decoder → Decoder) : (s.withDec f).output = s.output := rfl
@[simp] theorem State.withDec_pending (f : Decoder → Decoder) : (s.withDec f).pending = s.pending := rfl
@[simp] theorem State.withDec_readData (f : Decoder → Decoder) : (s.withDec f).readData = s.readData := rfl
@[simp] theorem State.withDec_freeCount (f : Decoder → Decoder) : (s.withDec f).freeCount = s.freeCount := rfl

/-! ### `setOut` -/

@[simp] theorem State.setOut_ops (ptr stop : Nat) : (s.setOut ptr stop).ops = s.ops := rfl
@[simp] theorem State.setOut_result (ptr stop : Nat) : (s.setOut ptr stop).result = s.result := rfl
@[simp] theorem State.setOut_br (ptr stop : Nat) : (s.setOut ptr stop).br = s.br := rfl
@[simp] theorem State.setOut_bw (ptr stop : Nat) : (s.setOut ptr stop).bw = s.bw := rfl
@[simp] theorem State.setOut_enc (ptr stop : Nat) : (s.setOut ptr stop).enc = s.enc := rfl
@[simp] theorem State.setOut_dec (ptr stop : Nat) : (s.setOut ptr stop).dec = s.dec := rfl
@[simp] theorem State.setOut_input (ptr stop : Nat) : (s.setOut ptr stop).input = s.input := rfl
@[simp] theorem State.setOut_output (ptr stop : Nat) : (s.setOut ptr stop).output = s.output := rfl
@[simp] theorem State.setOut_pending (ptr stop : Nat) : (s.setOut ptr stop).pending = s.pending := rfl
@[simp] theorem State.setOut_readData (ptr stop : Nat) : (s.setOut ptr stop).readData = s.readData := rfl
@[simp] theorem State.setOut_freeCount (ptr stop : Nat) : (s.setOut ptr stop).freeCount = s.freeCount := rfl

/-! ### `setDecState` -/

@[simp] theorem State.setDecState_ops (d : DecState) : (s.setDecState d).ops = s.ops := rfl
@[simp] theorem State.setDecState_result (d : DecState) : (s.setDecState d).result = s.result := rfl
@[simp] theorem State.setDecState_br (d : DecState) : (s.setDecState d).br = s.br := rfl
@[simp] theorem State.setDecState_bw (d : DecState) : (s.setDecState d).bw = s.bw := rfl
@[simp] theorem State.setDecState_enc (d : DecState) : (s.setDecState d).enc = s.enc := rfl
@[simp] theorem State.setDecState_dec (d : DecState) : (s.setDecState d).dec = s.dec := rfl
@[simp] theorem State.setDecState_input (d : DecState) : (s.setDecState d).input = s.input := rfl
@[simp] theorem State.setDecState_output (d : DecState) : (s.setDecState d).output = s.output := rfl
@[simp] theorem State.setDecState_pending (d : DecState) : (s.setDecState d).pending = s.pending := rfl
@[simp] theorem State.setDecState_readData (d : DecState) : (s.setDecState d).readData = s.readData := rfl
@[simp] theorem State.setDecState_freeCount (d : DecState) : (s.setDecState d).freeCount = s.freeCount := rfl

/-! ### `resetEngine` -/

@[simp] theorem State.resetEngine_input : (s.resetEngine).input = s.input := rfl
@[simp] theorem State.resetEngine_output : (s.resetEngine).output = s.output := rfl
@[simp] theorem State.resetEngine_pending : (s.resetEngine).pending = s.pending := rfl
@[simp] theorem State.resetEngine_readData : (s.resetEngine).readData = s.readData := rfl
@[simp] theorem State.resetEngine_freeCount : (s.resetEngine).freeCount = s.freeCount := rfl

/-! ### What the updates write -/

@[simp] theorem State.finishOk_result (r0 r1 : Nat) :
    (s.finishOk r0 r1).result = ⟨false, .none, BitVec.ofNat 64 r0, BitVec.ofNat 64 r1⟩ := rfl
@[simp] theorem State.failWith_result (k : Kind) : (s.failWith k).result = ⟨true, k, 0#64, 0#64⟩ := rfl
@[simp] theorem State.failOver_result (k : Kind) (lo hi : Nat) :
    (s.failOver k lo hi).result = ⟨true, k, 0#64, 0#64⟩ := rfl
@[simp] theorem State.putOut_output (a : Nat) (b : Byte) : (s.putOut a b).output = s.output.write a b := rfl
@[simp] theorem State.putOutList_output (a : Nat) (bs : List Byte) :
    (s.putOutList a bs).output = s.output.writeList a bs := rfl
@[simp] theorem State.putOutLE_output (a n v : Nat) : (s.putOutLE a n v).output = s.output.writeLE a n v := rfl
@[simp] theorem State.forgetOut_output (lo hi : Nat) :
    (s.forgetOut lo hi).output = s.output.forget lo hi s.freeCount := rfl
@[simp] theorem State.failOver_output (k : Kind) (lo hi : Nat) :
    (s.failOver k lo hi).output = s.output.forget lo hi s.freeCount := rfl
@[simp] theorem State.seek_br_ptr (q : Nat) : (s.seek q).br.ptr = BitVec.ofNat 64 (q / 8) := rfl
@[simp] theorem State.seek_br_bitpos (q : Nat) : (s.seek q).br.bitpos = BitVec.ofNat 5 (q % 8) := rfl
@[simp] theorem State.seek_br_cache (q : Nat) : (s.seek q).br.cache = s.load4 (q / 8) := rfl
@[simp] theorem State.seek_br_stop (q : Nat) : (s.seek q).br.stop = s.br.stop := rfl
@[simp] theorem State.seek_br_fail (q : Nat) : (s.seek q).br.fail = s.br.fail := rfl
@[simp] theorem State.brNew_br_stop (start stop : Nat) : (s.brNew start stop).br.stop = BitVec.ofNat 64 stop := rfl
@[simp] theorem State.brNew_br_fail (start stop : Nat) : (s.brNew start stop).br.fail = false := rfl
@[simp] theorem State.bwNew_bw (start stop : Nat) :
    (s.bwNew start stop).bw = ⟨BitVec.ofNat 64 start, BitVec.ofNat 64 stop, 0#6, 0#32, false⟩ := rfl
@[simp] theorem State.bwOverflow_bw :
    s.bwOverflow.bw = { s.bw with fail := true, cache := 0#32, bitpos := 0#6 } := rfl
@[simp] theorem State.bwPut_bw (b : Byte) : (s.bwPut b).bw = { s.bw with ptr := s.bw.ptr + 1#64 } := rfl
@[simp] theorem State.bwPut_output (b : Byte) : (s.bwPut b).output = s.output.write s.bw.ptr.toNat b := rfl
@[simp] theorem State.withDec_dec (f : Decoder → Decoder) : (s.withDec f).dec = f s.dec := rfl
@[simp] theorem State.setOut_pay (ptr stop : Nat) :
    (s.setOut ptr stop).pay = { s.pay with outPtr := BitVec.ofNat 64 ptr, outEnd := BitVec.ofNat 64 stop } := rfl
@[simp] theorem State.setDecState_pay (d : DecState) : (s.setDecState d).pay = { s.pay with state := d } := rfl

/-! ### Results of operations -/

@[simp] theorem Res.bind_ok {α β : Type} (a : α) (f : α → State → Res β) : (Res.ok a s).bind f = f a s := rfl
@[simp] theorem Res.bind_fail {α β : Type} (k : Kind) (f : α → State → Res β) :
    (Res.fail k s).bind f = .fail k s := rfl
@[simp] theorem Res.state_ok {α : Type} (a : α) : (Res.ok a s).state = s := rfl
@[simp] theorem Res.state_fail {α : Type} (k : Kind) : (Res.fail k s : Res α).state = s := rfl

/-- What two operations one after the other can come to. -/
theorem Res.bind_eq_ok {α β : Type} {r : Res α} {f : α → State → Res β} {b : β} {t : State} :
    r.bind f = .ok b t ↔ ∃ a u, r = .ok a u ∧ f a u = .ok b t := by
  cases r <;> simp

/-- See `Res.bind_eq_ok`. -/
theorem Res.bind_eq_fail {α β : Type} {r : Res α} {f : α → State → Res β} {k : Kind} {t : State} :
    r.bind f = .fail k t ↔ r = .fail k t ∨ ∃ a u, r = .ok a u ∧ f a u = .fail k t := by
  cases r <;> simp

/-! ### Operand checks -/

theorem State.checked_of {p : Prop} [Decidable p] {run : State → State} (h : p) : s.checked p run = run s := by
  simp [State.checked, h]
theorem State.checked_of_not {p : Prop} [Decidable p] {run : State → State} (h : ¬p) :
    s.checked p run = s.failWith .illegal := by
  simp [State.checked, h]

end Sys2Proof.Machine
end

