-- ==== Sys2Proof/Laws/Memory.lean ====
section
/-! SUPPORT. The laws of the two memories: what a byte reads as after each operation, and that every operation keeps the
canonical form `Mem.wf`. -/

namespace Sys2Proof.Machine

/-! ### Reading after an operation -/

theorem cellAt_putCell (a x : Nat) (b : Byte) (cs : List Host.Cell) :
    cellAt (putCell a b cs) x = if a = x then some b else cellAt cs x := by
  induction cs with
  | nil => simp [putCell, cellAt]
  | cons c cs ih =>
    obtain ⟨k, c⟩ := c
    simp only [putCell]
    split
    · simp [cellAt]
    · split
      · next h => subst h; simp only [cellAt]; split <;> simp_all
      · simp only [cellAt, ih]; split <;> simp_all

theorem tagAt_append (ps qs : List Span) (x : Nat) :
    tagAt (ps ++ qs) x = (tagAt ps x).or (tagAt qs x) := by
  induction ps with
  | nil => simp [tagAt]
  | cons p ps ih => simp only [List.cons_append, tagAt, ih]; split <;> simp

theorem tagAt_cutSpans (lo hi x : Nat) (ps : List Span) :
    tagAt (cutSpans lo hi ps) x = if lo ≤ x ∧ x < hi then none else tagAt ps x := by
  induction ps with
  | nil => simp [cutSpans, tagAt]
  | cons p ps ih =>
    simp only [cutSpans, tagAt_append, ih, cutSpan]
    by_cases h : lo ≤ x ∧ x < hi
    · simp only [h, and_self, if_true, Option.or_none]
      split_ifs <;> simp [tagAt] <;> omega
    · simp only [h, if_false, tagAt]
      by_cases hp : p.lo ≤ x ∧ x < p.hi
      · rw [if_pos hp]
        by_cases hl : x < lo
        · rw [if_pos (show p.lo < min p.hi lo by omega)]
          simp only [tagAt]
          rw [if_pos (show p.lo ≤ x ∧ x < min p.hi lo by omega)]; rfl
        · rw [if_pos (show max p.lo hi < p.hi by omega)]
          have hi' : max p.lo hi ≤ x ∧ x < p.hi := by omega
          split_ifs
          · simp only [tagAt]; rw [if_neg (by omega), if_pos hi']; rfl
          · simp only [tagAt]; rw [if_pos hi']; rfl
      · rw [if_neg hp]
        have e1 : tagAt (if p.lo < min p.hi lo then [⟨p.lo, min p.hi lo, p.tag⟩] else []) x = none := by
          split_ifs
          · simp only [tagAt]; rw [if_neg (by omega)]
          · rfl
        have e2 : tagAt (if max p.lo hi < p.hi then [⟨max p.lo hi, p.hi, p.tag⟩] else []) x = none := by
          split_ifs
          · simp only [tagAt]; rw [if_neg (by omega)]
          · rfl
        rw [e1, e2]; rfl

theorem tagAt_putSpan (q : Span) (x : Nat) (ps : List Span) (h : q.lo ≤ x ∧ x < q.hi → tagAt ps x = none) :
    tagAt (putSpan q ps) x = if q.lo ≤ x ∧ x < q.hi then some q.tag else tagAt ps x := by
  induction ps with
  | nil => simp [putSpan, tagAt]
  | cons p ps ih =>
    simp only [putSpan]
    split
    · simp [tagAt]
    · simp only [tagAt] at h ⊢
      by_cases hp : p.lo ≤ x ∧ x < p.hi
      · by_cases hq : q.lo ≤ x ∧ x < q.hi
        · simp [hp] at h; omega
        · simp [hp, hq]
      · rw [ih (by simpa [hp] using h)]; simp [hp]

/-- A read after a write: the byte written, and every other byte as before. -/
theorem Mem.read_write (f : Nat → Byte) (m : Mem) (a x : Nat) (b : Byte) :
    (m.write a b).read f x = if x = a then b else m.read f x := by
  by_cases h : a = x
  · subst h; simp [Mem.read, Mem.write, cellAt_putCell]
  · have h' : ¬(a ≤ x ∧ x < a + 1) := by omega
    simp only [Mem.read, Mem.write, cellAt_putCell, tagAt_cutSpans]
    rw [if_neg h, if_neg h', if_neg (Ne.symm h)]

@[simp] theorem Mem.read_write_same (f : Nat → Byte) (m : Mem) (a : Nat) (b : Byte) :
    (m.write a b).read f a = b := by simp [Mem.read_write]

theorem Mem.read_write_ne (f : Nat → Byte) (m : Mem) {a x : Nat} (b : Byte) (h : x ≠ a) :
    (m.write a b).read f x = m.read f x := by simp [Mem.read_write, h]

theorem Mem.read_writeList (f : Nat → Byte) (m : Mem) (a x : Nat) (bs : List Byte) :
    (m.writeList a bs).read f x =
      if h : a ≤ x ∧ x < a + bs.length then bs[x - a]'(by omega) else m.read f x := by
  induction bs generalizing m a with
  | nil => simp only [Mem.writeList, List.length_nil]; rw [dif_neg (by omega)]
  | cons b bs ih =>
    simp only [Mem.writeList, ih, List.length_cons, Mem.read_write]
    by_cases h : x = a
    · subst h; rw [dif_neg (by omega), dif_pos (by omega)]; simp
    · by_cases h' : a + 1 ≤ x ∧ x < a + 1 + bs.length
      · rw [dif_pos h', dif_pos (by omega)]
        obtain ⟨k, rfl⟩ : ∃ k, x = a + 1 + k := ⟨x - (a + 1), by omega⟩
        have e1 : a + 1 + k - (a + 1) = k := by omega
        have e2 : a + 1 + k - a = k + 1 := by omega
        simp [e1, e2]
      · rw [dif_neg h', dif_neg (by omega)]; simp [h]

theorem Mem.read_writeList_outside (f : Nat → Byte) (m : Mem) {a x : Nat} (bs : List Byte)
    (h : x < a ∨ a + bs.length ≤ x) : (m.writeList a bs).read f x = m.read f x := by
  rw [Mem.read_writeList, dif_neg (by omega)]

/-- A little-endian write, byte by byte. -/
theorem Mem.read_writeLE (f : Nat → Byte) (m : Mem) (a x n v : Nat) :
    (m.writeLE a n v).read f x =
      if a ≤ x ∧ x < a + n then BitVec.ofNat 8 (v / 256 ^ (x - a)) else m.read f x := by
  induction n generalizing m a v with
  | zero => simp only [Mem.writeLE]; rw [if_neg (by omega)]
  | succ n ih =>
    simp only [Mem.writeLE, ih, Mem.read_write]
    by_cases h : x = a
    · subst h; rw [if_neg (by omega), if_pos (by omega)]; simp
    · by_cases h' : a + 1 ≤ x ∧ x < a + 1 + n
      · rw [if_pos h', if_pos (by omega), Nat.div_div_eq_div_mul, ← Nat.pow_succ']
        congr 3; omega
      · rw [if_neg h', if_neg h, if_neg (by omega)]

theorem Mem.read_writeLE_outside (f : Nat → Byte) (m : Mem) {a x n : Nat} (v : Nat) (h : x < a ∨ a + n ≤ x) :
    (m.writeLE a n v).read f x = m.read f x := by
  rw [Mem.read_writeLE, if_neg (by omega)]

theorem cellAt_filter (p : Nat → Bool) (cs : List Host.Cell) (x : Nat) :
    cellAt (cs.filter fun c => p c.1) x = if p x then cellAt cs x else none := by
  induction cs with
  | nil => simp [cellAt]
  | cons c cs ih =>
    obtain ⟨k, c⟩ := c
    by_cases hk : p k
    · simp only [List.filter_cons, hk, if_true, cellAt, ih]; split <;> simp_all
    · simp only [List.filter_cons, hk, cellAt, Bool.false_eq_true, if_false, ih]
      by_cases hx : k = x
      · subst hx; simp [hk]
      · simp [hx]

/-- A byte after `forget`: a free value inside, as before outside. -/
theorem Mem.read_forget (f : Nat → Byte) (m : Mem) (lo hi tag x : Nat) :
    (m.forget lo hi tag).read f x =
      if lo ≤ x ∧ x < hi then Config.outAfterFailure tag x else m.read f x := by
  unfold Mem.forget
  split
  · next hlt =>
    have hc := cellAt_filter (fun k => decide (k < lo) || decide (hi ≤ k)) m.cells x
    have ht := tagAt_putSpan ⟨lo, hi, tag⟩ x (cutSpans lo hi m.spans)
      (fun h => by rw [tagAt_cutSpans, if_pos h])
    simp only [Mem.read, hc, ht, tagAt_cutSpans]
    by_cases h : lo ≤ x ∧ x < hi
    · have : ¬(x < lo ∨ hi ≤ x) := by omega
      simp [h, this]
    · have : x < lo ∨ hi ≤ x := by omega
      simp [h, this]
  · next hlt => rw [if_neg (by omega)]

theorem Mem.read_forget_outside (f : Nat → Byte) (m : Mem) {lo hi x : Nat} (tag : Nat) (h : x < lo ∨ hi ≤ x) :
    (m.forget lo hi tag).read f x = m.read f x := by
  rw [Mem.read_forget, if_neg (by omega)]

/-! ### The canonical form -/

theorem mem_putCell {a : Nat} {b : Byte} {cs : List Host.Cell} {c : Host.Cell} (h : c ∈ putCell a b cs) :
    c = (a, b) ∨ c ∈ cs := by
  induction cs with
  | nil => simpa [putCell] using h
  | cons d cs ih =>
    obtain ⟨k, d⟩ := d
    simp only [putCell] at h
    split at h
    · simpa using h
    · split at h
      · simp only [List.mem_cons] at h ⊢; tauto
      · simp only [List.mem_cons] at h ⊢
        rcases h with h | h
        · exact .inr (.inl h)
        · rcases ih h with h | h
          · exact .inl h
          · exact .inr (.inr h)

theorem putCell_rising (a : Nat) (b : Byte) {cs : List Host.Cell} (h : cs.Pairwise (fun c d => c.1 < d.1)) :
    (putCell a b cs).Pairwise (fun c d => c.1 < d.1) := by
  induction cs with
  | nil => simp [putCell]
  | cons c cs ih =>
    obtain ⟨k, c⟩ := c
    have h0 := h
    rw [List.pairwise_cons] at h
    simp only [putCell]
    split
    · next hk =>
      rw [List.pairwise_cons]
      refine ⟨fun d hd => ?_, h0⟩
      rcases List.mem_cons.1 hd with rfl | hd
      · exact hk
      · exact Nat.lt_trans hk (h.1 d hd)
    · split
      · next hk => subst hk; exact List.pairwise_cons.2 ⟨h.1, h.2⟩
      · next h1 h2 =>
        refine List.pairwise_cons.2 ⟨fun d hd => ?_, ih h.2⟩
        rcases mem_putCell hd with rfl | hd
        · simp; omega
        · exact h.1 d hd

/-- A piece of a cut span: inside the span, outside the addresses taken out, not empty, under the span's tag. -/
theorem mem_cutSpan {lo hi : Nat} {p q : Span} (h : q ∈ cutSpan lo hi p) :
    p.lo ≤ q.lo ∧ q.hi ≤ p.hi ∧ q.lo < q.hi ∧ (q.hi ≤ lo ∨ hi ≤ q.lo) := by
  simp only [cutSpan, List.mem_append] at h
  rcases h with h | h <;> split at h <;> simp at h <;> subst h <;> simp <;> omega

theorem mem_cutSpans {lo hi : Nat} {ps : List Span} {q : Span} (h : q ∈ cutSpans lo hi ps) :
    ∃ p ∈ ps, p.lo ≤ q.lo ∧ q.hi ≤ p.hi ∧ q.lo < q.hi ∧ (q.hi ≤ lo ∨ hi ≤ q.lo) := by
  induction ps with
  | nil => simp [cutSpans] at h
  | cons p ps ih =>
    simp only [cutSpans, List.mem_append] at h
    rcases h with h | h
    · exact ⟨p, by simp, mem_cutSpan h⟩
    · obtain ⟨r, hr, hh⟩ := ih h
      exact ⟨r, by simp [hr], hh⟩

theorem cutSpans_rising {lo hi : Nat} {ps : List Span} (hlt : lo < hi)
    (h : ps.Pairwise (fun p q => p.hi ≤ q.lo)) :
    (cutSpans lo hi ps).Pairwise (fun p q => p.hi ≤ q.lo) := by
  induction ps with
  | nil => simp [cutSpans]
  | cons p ps ih =>
    rw [List.pairwise_cons] at h
    simp only [cutSpans]
    refine List.pairwise_append.2 ⟨?_, ih h.2, fun q hq r hr => ?_⟩
    · simp only [cutSpan]; split_ifs <;> simp <;> omega
    · obtain ⟨p', hp', h1, _⟩ := mem_cutSpans hr
      exact Nat.le_trans (mem_cutSpan hq).2.1 (Nat.le_trans (h.1 p' hp') h1)

theorem mem_putSpan {q r : Span} {ps : List Span} (h : r ∈ putSpan q ps) : r = q ∨ r ∈ ps := by
  induction ps with
  | nil => simpa [putSpan] using h
  | cons p ps ih =>
    simp only [putSpan] at h
    split at h
    · simpa using h
    · simp only [List.mem_cons] at h ⊢
      rcases h with h | h
      · exact .inr (.inl h)
      · rcases ih h with h | h
        · exact .inl h
        · exact .inr (.inr h)

theorem putSpan_rising {q : Span} {ps : List Span} (h : ps.Pairwise (fun p q => p.hi ≤ q.lo))
    (hne : ∀ p ∈ ps, p.lo < p.hi) (hq : q.lo < q.hi) (hd : ∀ p ∈ ps, p.hi ≤ q.lo ∨ q.hi ≤ p.lo) :
    (putSpan q ps).Pairwise (fun p q => p.hi ≤ q.lo) := by
  induction ps with
  | nil => simp [putSpan]
  | cons p ps ih =>
    have h0 := h
    rw [List.pairwise_cons] at h
    simp only [putSpan]
    split
    · next hk =>
      refine List.pairwise_cons.2 ⟨fun r hr => ?_, h0⟩
      rcases List.mem_cons.1 hr with rfl | hr
      · exact hk
      · have := h.1 r hr; have := hne p (by simp); omega
    · next hk =>
      refine List.pairwise_cons.2 ⟨fun r hr => ?_, ih h.2 (fun r hr => hne r (by simp [hr]))
        (fun r hr => hd r (by simp [hr]))⟩
      rcases mem_putSpan hr with rfl | hr
      · have := hd p (by simp); omega
      · exact h.1 r hr

/-- Every write keeps the canonical form. -/
theorem Mem.write_wf {m : Mem} (h : m.wf) (a : Nat) (b : Byte) : (m.write a b).wf := by
  obtain ⟨h1, h2, h3, h4⟩ := h
  refine ⟨putCell_rising a b h1, cutSpans_rising (by omega) h2, fun p hp => ?_, fun c hc p hp => ?_⟩
  · obtain ⟨_, _, _, _, h, _⟩ := mem_cutSpans hp; exact h
  · obtain ⟨q, hq, e1, e2, e3, e4⟩ := mem_cutSpans hp
    rcases mem_putCell hc with rfl | hc
    · simp; omega
    · have := h4 c hc q hq; omega

theorem Mem.writeList_wf {m : Mem} (h : m.wf) (a : Nat) (bs : List Byte) : (m.writeList a bs).wf := by
  induction bs generalizing m a with
  | nil => exact h
  | cons b bs ih => exact ih (Mem.write_wf h a b) (a + 1)

theorem Mem.writeLE_wf {m : Mem} (h : m.wf) (a n v : Nat) : (m.writeLE a n v).wf := by
  induction n generalizing m a v with
  | zero => exact h
  | succ n ih => exact ih (Mem.write_wf h a _) (a + 1) _

theorem Mem.forget_wf {m : Mem} (h : m.wf) (lo hi tag : Nat) : (m.forget lo hi tag).wf := by
  obtain ⟨h1, h2, h3, h4⟩ := h
  unfold Mem.forget
  split
  · next hlt =>
    refine ⟨h1.filter _, putSpan_rising (cutSpans_rising hlt h2) ?_ hlt ?_, fun p hp => ?_, fun c hc p hp => ?_⟩
    · intro p hp; obtain ⟨_, _, _, _, h, _⟩ := mem_cutSpans hp; exact h
    · intro p hp; obtain ⟨_, _, _, _, _, h⟩ := mem_cutSpans hp; simpa using h
    · rcases mem_putSpan hp with rfl | hp
      · exact hlt
      · obtain ⟨_, _, _, _, h, _⟩ := mem_cutSpans hp; exact h
    · simp only [List.mem_filter, Bool.or_eq_true, decide_eq_true_eq] at hc
      rcases mem_putSpan hp with rfl | hp
      · exact hc.2
      · obtain ⟨q, hq, e1, e2, e3, e4⟩ := mem_cutSpans hp
        have := h4 c hc.1 q hq; omega
  · exact ⟨h1, h2, h3, h4⟩

/-- The memories right after reset are canonical. -/
theorem State.reset_memories_wf : State.reset.input.wf ∧ State.reset.output.wf := by
  decide

/-! ### Rows of bytes -/

@[simp] theorem readList_length (f : Nat → Byte) (a n : Nat) : (readList f a n).length = n := by
  induction n generalizing a with
  | zero => rfl
  | succ n ih => simp [readList, ih]

@[simp] theorem readList_getElem (f : Nat → Byte) (a n i : Nat) (h : i < (readList f a n).length) :
    (readList f a n)[i] = f (a + i) := by
  induction n generalizing a i with
  | zero => simp at h
  | succ n ih =>
    cases i with
    | zero => simp [readList]
    | succ i => simp only [readList, List.getElem_cons_succ]; rw [ih]; congr 1; omega

/-- A row of bytes depends on the bytes read only. -/
theorem readList_congr {f g : Nat → Byte} {a b n : Nat} (h : ∀ j < n, f (a + j) = g (b + j)) :
    readList f a n = readList g b n := by
  refine List.ext_getElem (by simp) fun i h1 h2 => ?_
  simp only [readList_getElem]
  exact h i (by simpa using h1)

theorem readLE_congr {f g : Nat → Byte} {a b n : Nat} (h : ∀ j < n, f (a + j) = g (b + j)) :
    readLE f a n = readLE g b n := by
  induction n generalizing a b with
  | zero => rfl
  | succ n ih =>
    simp only [readLE]
    rw [show f a = g b from by simpa using h 0 (by omega)]
    rw [ih (a := a + 1) (b := b + 1) fun j hj => by
      have := h (j + 1) (by omega)
      rwa [show a + (j + 1) = a + 1 + j by omega, show b + (j + 1) = b + 1 + j by omega] at this]

theorem readLE_lt (f : Nat → Byte) (a n : Nat) : readLE f a n < 256 ^ n := by
  induction n generalizing a with
  | zero => simp [readLE]
  | succ n ih =>
    have := ih (a + 1); have := (f a).isLt
    simp only [readLE, Nat.pow_succ]; omega

/-- Reading back a little-endian write gives the value, of which the low `8 n` bits were kept. -/
theorem readLE_writeLE (f : Nat → Byte) (m : Mem) (a n v : Nat) :
    readLE ((m.writeLE a n v).read f) a n = v % 256 ^ n := by
  induction n generalizing m a v with
  | zero => simp [readLE, Nat.mod_one]
  | succ n ih =>
    simp only [readLE, Mem.writeLE]
    rw [ih, Mem.read_writeLE_outside _ _ _ (.inl (by omega)), Mem.read_write_same]
    have e := Nat.mod_mul (x := v) (a := 256) (b := 256 ^ n)
    rw [Nat.pow_succ', e]; simp

/-! ### Memory through the state -/

theorem State.outByte_of_output_eq {s t : State} (h : t.output = s.output) (a : Nat) : t.outByte a = s.outByte a := by
  simp [State.outByte, h]

theorem State.inByte_of_input_eq {s t : State} (h : t.input = s.input) (a : Nat) : t.inByte a = s.inByte a := by
  simp [State.inByte, h]

theorem State.outByte_putOut (s : State) (a x : Nat) (b : Byte) :
    (s.putOut a b).outByte x = if x = a then b else s.outByte x := Mem.read_write _ _ _ _ _

theorem State.outByte_putOutList (s : State) (a x : Nat) (bs : List Byte) :
    (s.putOutList a bs).outByte x =
      if h : a ≤ x ∧ x < a + bs.length then bs[x - a]'(by omega) else s.outByte x := Mem.read_writeList _ _ _ _ _

theorem State.outByte_putOutLE (s : State) (a x n v : Nat) :
    (s.putOutLE a n v).outByte x =
      if a ≤ x ∧ x < a + n then BitVec.ofNat 8 (v / 256 ^ (x - a)) else s.outByte x := Mem.read_writeLE _ _ _ _ _ _

theorem State.outByte_forgetOut (s : State) (lo hi x : Nat) :
    (s.forgetOut lo hi).outByte x =
      if lo ≤ x ∧ x < hi then Config.outAfterFailure s.freeCount x else s.outByte x := Mem.read_forget _ _ _ _ _ _

theorem State.outByte_failOver (s : State) (k : Kind) (lo hi x : Nat) :
    (s.failOver k lo hi).outByte x =
      if lo ≤ x ∧ x < hi then Config.outAfterFailure s.freeCount x else s.outByte x := Mem.read_forget _ _ _ _ _ _

@[simp] theorem State.outByte_finishOk (s : State) (r0 r1 x : Nat) : (s.finishOk r0 r1).outByte x = s.outByte x := rfl
@[simp] theorem State.outByte_failWith (s : State) (k : Kind) (x : Nat) : (s.failWith k).outByte x = s.outByte x := rfl

/-! ### Stores inside a range -/

/-- The second memory is the first after stores at addresses from `lo` up to and without `hi`. -/
inductive Mem.Stores (lo hi : Nat) : Mem → Mem → Prop where
  | refl (m : Mem) : Mem.Stores lo hi m m
  | store {m m' : Mem} {a : Nat} (b : Byte) (h : Mem.Stores lo hi m m') (h1 : lo ≤ a) (h2 : a < hi) :
      Mem.Stores lo hi m (m'.write a b)

theorem Mem.Stores.trans {lo hi : Nat} {m m' m'' : Mem} (h : Mem.Stores lo hi m m') (h' : Mem.Stores lo hi m' m'') :
    Mem.Stores lo hi m m'' := by
  induction h' with
  | refl => exact h
  | store b _ h1 h2 ih => exact .store b ih h1 h2

theorem Mem.Stores.mono {lo hi lo' hi' : Nat} {m m' : Mem} (h : Mem.Stores lo hi m m') (h1 : lo' ≤ lo) (h2 : hi ≤ hi') :
    Mem.Stores lo' hi' m m' := by
  induction h with
  | refl => exact .refl _
  | store b _ k1 k2 ih => exact .store b ih (by omega) (by omega)

theorem Mem.Stores.wf {lo hi : Nat} {m m' : Mem} (h : Mem.Stores lo hi m m') (hw : m.wf) : m'.wf := by
  induction h with
  | refl => exact hw
  | store b _ _ _ ih => exact Mem.write_wf ih _ _

/-- Every byte outside the range is as before. -/
theorem Mem.Stores.read_outside {lo hi : Nat} {m m' : Mem} (h : Mem.Stores lo hi m m') (f : Nat → Byte) {x : Nat}
    (hx : x < lo ∨ hi ≤ x) : m'.read f x = m.read f x := by
  induction h with
  | refl => rfl
  | store b _ _ _ ih => rw [Mem.read_write_ne _ _ _ (by omega), ih]

theorem Mem.Stores.write {lo hi a : Nat} (m : Mem) (b : Byte) (h1 : lo ≤ a) (h2 : a < hi) :
    Mem.Stores lo hi m (m.write a b) := .store b (.refl m) h1 h2

theorem Mem.Stores.writeList {lo hi a : Nat} (m : Mem) (bs : List Byte) (h1 : lo ≤ a) (h2 : a + bs.length ≤ hi) :
    Mem.Stores lo hi m (m.writeList a bs) := by
  induction bs generalizing m a with
  | nil => exact .refl _
  | cons b bs ih =>
    simp only [List.length_cons] at h2
    exact (Mem.Stores.write m b h1 (by omega)).trans (ih _ (by omega) (by omega))

theorem Mem.Stores.writeLE {lo hi a : Nat} (m : Mem) (n v : Nat) (h1 : lo ≤ a) (h2 : a + n ≤ hi) :
    Mem.Stores lo hi m (m.writeLE a n v) := by
  induction n generalizing m a v with
  | zero => exact .refl _
  | succ n ih => exact (Mem.Stores.write m _ h1 (by omega)).trans (ih _ _ (by omega) (by omega))

end Sys2Proof.Machine
end

