-- ==== Sys2Proof/Laws/Reader.lean ====
section
/-! SUPPORT. The laws of the bit reader: what the stream depends on, what a move can come to, what a read returns. -/

namespace Sys2Proof.Machine

/-! ### The stream -/

/-- The stream depends on `BR_END` and on `IN` only. -/
theorem State.rangeByte_congr {s t : State} (h1 : t.br.stop = s.br.stop) (h2 : t.input = s.input) (i : Nat) :
    t.rangeByte i = s.rangeByte i := by simp [State.rangeByte, State.inByte, h1, h2]

theorem State.load4_congr {s t : State} (h1 : t.br.stop = s.br.stop) (h2 : t.input = s.input) (p : Nat) :
    t.load4 p = s.load4 p := by simp [State.load4, State.rangeByte_congr h1 h2]

theorem State.sbit_congr {s t : State} (h1 : t.br.stop = s.br.stop) (h2 : t.input = s.input) (q : Nat) :
    t.sbit q = s.sbit q := by simp [State.sbit, State.rangeByte_congr h1 h2]

theorem State.field_congr {s t : State} (h1 : t.br.stop = s.br.stop) (h2 : t.input = s.input) (q n : Nat) :
    t.field q n = s.field q n := by
  induction n generalizing q with
  | zero => rfl
  | succ n ih => simp only [State.field, ih, State.sbit_congr h1 h2]

theorem State.hasBits_congr {s t : State} (h1 : t.br.stop = s.br.stop) (h2 : t.input = s.input) (q : Nat)
    (bits : List Bool) : t.hasBits q bits ↔ s.hasBits q bits := by
  simp [State.hasBits, Reader.limit, h1, State.sbit_congr h1 h2]

theorem State.field_eq_bitsValue (s : State) (q n : Nat) :
    s.field q n = bitsValue ((List.range n).map fun i => s.sbit (q + i)) := by
  induction n generalizing q with
  | zero => rfl
  | succ n ih =>
    simp only [State.field, ih, List.range_succ_eq_map, List.map_cons, List.map_map, bitsValue, Nat.add_zero]
    congr 2
    refine congrArg bitsValue (List.map_congr_left fun i _ => ?_)
    simp [Nat.add_assoc, Nat.add_comm 1 i]

theorem State.field_testBit (s : State) (q n i : Nat) :
    (s.field q n).testBit i = (decide (i < n) && s.sbit (q + i)) := by
  rw [State.field_eq_bitsValue, testBit_bitsValue]
  by_cases h : i < n <;> simp [List.getD, h]

theorem State.field_lt (s : State) (q n : Nat) : s.field q n < 2 ^ n := by
  rw [State.field_eq_bitsValue]; simpa using bitsValue_lt ((List.range n).map fun i => s.sbit (q + i))

/-- The field at `q` as the sum of R110. -/
theorem State.field_eq_sum (s : State) (q n : Nat) :
    s.field q n = ∑ i ∈ Finset.range n, (s.sbit (q + i)).toNat * 2 ^ i := by
  induction n generalizing q with
  | zero => rfl
  | succ n ih =>
    rw [State.field, ih, Finset.sum_range_succ', Finset.mul_sum]
    simp only [Nat.add_zero, Nat.pow_zero, Nat.mul_one, Nat.pow_succ]
    rw [Nat.add_comm]
    congr 1
    refine Finset.sum_congr rfl fun i _ => ?_
    rw [show q + 1 + i = q + (i + 1) by omega]; ring

theorem State.hasBits_iff (s : State) (q : Nat) (bits : List Bool) :
    s.hasBits q bits ↔ q + bits.length ≤ s.br.limit ∧ ∀ i (h : i < bits.length), s.sbit (q + i) = bits[i] := by
  simp only [State.hasBits, map_range_eq_iff]

theorem State.hasBits_append {s : State} {q : Nat} {xs ys : List Bool} :
    s.hasBits q (xs ++ ys) ↔ s.hasBits q xs ∧ s.hasBits (q + xs.length) ys := by
  simp only [State.hasBits_iff, List.length_append]
  constructor
  · rintro ⟨h1, h2⟩
    refine ⟨⟨by omega, fun i h => ?_⟩, ⟨by omega, fun i h => ?_⟩⟩
    · have := h2 i (by omega); rwa [List.getElem_append_left h] at this
    · have := h2 (xs.length + i) (by omega)
      rw [List.getElem_append_right (by omega)] at this
      simpa [Nat.add_assoc] using this
  · rintro ⟨⟨h1, h2⟩, h3, h4⟩
    refine ⟨by omega, fun i h => ?_⟩
    by_cases hi : i < xs.length
    · rw [List.getElem_append_left hi]; exact h2 i hi
    · rw [List.getElem_append_right (by omega)]
      have := h4 (i - xs.length) (by omega)
      rwa [show q + xs.length + (i - xs.length) = q + i by omega] at this

theorem State.hasBits_cons {s : State} {q : Nat} {x : Bool} {xs : List Bool} :
    s.hasBits q (x :: xs) ↔ (q + 1 ≤ s.br.limit ∧ s.sbit q = x) ∧ s.hasBits (q + 1) xs := by
  have := State.hasBits_append (s := s) (q := q) (xs := [x]) (ys := xs)
  simpa [State.hasBits_iff (bits := [x])] using this

/-- A field that the stream holds has the value of its bits. -/
theorem State.field_of_hasBits {s : State} {q : Nat} {bits : List Bool} (h : s.hasBits q bits) :
    s.field q bits.length = bitsValue bits := by
  rw [State.field_eq_bitsValue, h.2]

/-! ### Positions -/

theorem Reader.limit_lt (r : Reader) : r.limit < 8 * 2 ^ 64 := by
  have := r.stop.isLt; simp only [Reader.limit]; omega

@[simp] theorem State.seek_br_limit (s : State) (q : Nat) : (s.seek q).br.limit = s.br.limit := rfl

theorem State.seek_pos (s : State) {q : Nat} (h : q < 8 * 2 ^ 64) : (s.seek q).br.pos = q := by
  simp only [Reader.pos, State.seek_br_ptr, State.seek_br_bitpos, BitVec.toNat_ofNat]
  rw [Nat.mod_eq_of_lt (by omega), Nat.mod_eq_of_lt (by omega)]; omega

theorem State.seek_ok (s : State) {q : Nat} (h : q ≤ s.br.limit) : (s.seek q).br.ok := by
  have := s.br.limit_lt
  refine ⟨?_, ?_⟩
  · simp only [State.seek_br_bitpos, BitVec.toNat_ofNat]; omega
  · rw [State.seek_pos s (by omega)]; exact h

theorem State.seek_cacheFresh (s : State) {q : Nat} (h : q < 8 * 2 ^ 64) : (s.seek q).cacheFresh := by
  simp only [State.cacheFresh, State.seek_br_cache, State.seek_br_ptr, BitVec.toNat_ofNat]
  rw [Nat.mod_eq_of_lt (by omega)]
  exact State.load4_congr (s := s.seek q) (t := s) rfl rfl _

/-- One move after another. -/
theorem State.seek_seek (s : State) (p q : Nat) : (s.seek p).seek q = s.seek q := by
  simp only [State.seek]
  congr 1

/-! ### Moves -/

/-- All that a move can come to: nothing, the sticky flag, or a new position inside the range. -/
theorem State.brMove_cases (s : State) (n : Nat) :
    (s.brMove n = s ∧ (s.br.fail = true ∨ n = 0)) ∨
    (s.brMove n = { s with br := { s.br with fail := true } } ∧ s.br.limit < s.br.pos + n) ∨
    (s.brMove n = s.seek (s.br.pos + n) ∧ s.br.fail = false ∧ 0 < n ∧ s.br.pos + n ≤ s.br.limit) := by
  unfold State.brMove
  split
  · next h => exact .inl ⟨rfl, h⟩
  · next h =>
    split
    · next h' => exact .inr (.inl ⟨rfl, h'⟩)
    · next h' =>
      rw [not_or, Bool.not_eq_true] at h
      exact .inr (.inr ⟨rfl, h.1, by omega, by omega⟩)

/-- A move changes the reader only. -/
theorem State.brMove_frame (s : State) (n : Nat) : s.brMove n = { s with br := (s.brMove n).br } := by
  rcases s.brMove_cases n with ⟨h, _⟩ | ⟨h, _⟩ | ⟨h, _⟩ <;> rw [h] <;> rfl

@[simp] theorem State.brMove_stop (s : State) (n : Nat) : (s.brMove n).br.stop = s.br.stop := by
  rcases s.brMove_cases n with ⟨h, _⟩ | ⟨h, _⟩ | ⟨h, _⟩ <;> rw [h] <;> rfl

theorem State.brMove_ok {s : State} (h : s.br.ok) (n : Nat) : (s.brMove n).br.ok := by
  rcases s.brMove_cases n with ⟨e, _⟩ | ⟨e, _⟩ | ⟨e, _, _, hl⟩ <;> rw [e]
  · exact h
  · exact h
  · exact State.seek_ok s hl

theorem State.brMove_cacheFresh {s : State} (h : s.cacheFresh) (n : Nat) : (s.brMove n).cacheFresh := by
  rcases s.brMove_cases n with ⟨e, _⟩ | ⟨e, _⟩ | ⟨e, _, _, hl⟩ <;> rw [e]
  · exact h
  · exact h
  · exact State.seek_cacheFresh s (by have := s.br.limit_lt; omega)

/-- A move that fits. -/
theorem State.brMove_of_fits {s : State} {n : Nat} (hf : s.br.fail = false) (hn : 0 < n)
    (h : s.br.pos + n ≤ s.br.limit) : s.brMove n = s.seek (s.br.pos + n) := by
  unfold State.brMove
  rw [if_neg (by simp [hf]; omega), if_neg (by omega)]

/-- A move that does not fit. -/
theorem State.brMove_of_past {s : State} {n : Nat} (hf : s.br.fail = false) (hn : 0 < n)
    (h : s.br.limit < s.br.pos + n) : s.brMove n = { s with br := { s.br with fail := true } } := by
  unfold State.brMove
  rw [if_neg (by simp [hf]; omega), if_pos h]

theorem State.brValue_of_fits {s : State} {n : Nat} (hf : s.br.fail = false) (h : s.br.pos + n ≤ s.br.limit) :
    s.brValue n = s.field s.br.pos n := by
  unfold State.brValue
  rw [if_neg (by simp [hf]), if_neg (by omega)]

/-- A checked read that fits. -/
theorem State.brReadOrFail_of_fits {s : State} {n : Nat} (hf : s.br.fail = false) (hn : 0 < n)
    (h : s.br.pos + n ≤ s.br.limit) :
    s.brReadOrFail n = .ok (s.field s.br.pos n) (s.seek (s.br.pos + n)) := by
  unfold State.brReadOrFail
  rw [State.brMove_of_fits hf hn h, State.brValue_of_fits hf h, State.seek_br_fail, hf]; rfl

/-- A checked read of bits that the stream holds. -/
theorem State.brReadOrFail_of_hasBits {s : State} {bits : List Bool} (hf : s.br.fail = false) (hn : 0 < bits.length)
    (h : s.hasBits s.br.pos bits) :
    s.brReadOrFail bits.length = .ok (bitsValue bits) (s.seek (s.br.pos + bits.length)) := by
  rw [State.brReadOrFail_of_fits hf hn h.1, State.field_of_hasBits h]

/-- What a checked read can come to. -/
theorem State.brReadOrFail_cases {s : State} {n : Nat} (hn : 0 < n) :
    (s.brReadOrFail n = .fail .truncated (s.brMove n) ∧ (s.brMove n).br.fail = true) ∨
    (s.brReadOrFail n = .ok (s.field s.br.pos n) (s.seek (s.br.pos + n)) ∧ s.br.fail = false ∧
      s.br.pos + n ≤ s.br.limit) := by
  by_cases hf : s.br.fail = true
  · refine .inl ⟨?_, ?_⟩ <;> simp [State.brReadOrFail, State.brMove, hf]
  · rw [Bool.not_eq_true] at hf
    by_cases h : s.br.pos + n ≤ s.br.limit
    · exact .inr ⟨State.brReadOrFail_of_fits hf hn h, hf, h⟩
    · have e := State.brMove_of_past hf hn (by omega)
      refine .inl ⟨?_, ?_⟩ <;> simp [State.brReadOrFail, e]

/-- What a checked advance can come to. -/
theorem State.brAdvanceOrFail_of_fits {s : State} {n : Nat} (hf : s.br.fail = false) (hn : 0 < n)
    (h : s.br.pos + n ≤ s.br.limit) : s.brAdvanceOrFail n = .ok () (s.seek (s.br.pos + n)) := by
  unfold State.brAdvanceOrFail
  rw [State.brMove_of_fits hf hn h, State.seek_br_fail, hf]; rfl

/-! ### The cache -/

theorem State.load4_getLsbD (s : State) (p i : Nat) (h : i < 32) :
    (s.load4 p).getLsbD i = (s.rangeByte (p + i / 8)).getLsbD (i % 8) := by
  simp only [State.load4, BitVec.getLsbD_or, BitVec.getLsbD_setWidth, BitVec.getLsbD_shiftLeft, h, decide_true,
    Bool.true_and]
  have h1 : i / 8 = 0 ∨ i / 8 = 1 ∨ i / 8 = 2 ∨ i / 8 = 3 := by omega
  rcases h1 with e | e | e | e
  · rw [e, show i % 8 = i by omega]
    simp [show i < 8 by omega, show i < 16 by omega, show i < 24 by omega]
  · rw [e, show i % 8 = i - 8 by omega]
    simp [show ¬i < 8 by omega, show i < 16 by omega, show i < 24 by omega, BitVec.getLsbD_of_ge _ i (by omega : 8 ≤ i)]
    omega
  · rw [e, show i % 8 = i - 16 by omega]
    simp [show ¬i < 8 by omega, show ¬i < 16 by omega, show i < 24 by omega, BitVec.getLsbD_of_ge _ i (by omega : 8 ≤ i),
      BitVec.getLsbD_of_ge _ (i - 8) (by omega : 8 ≤ i - 8)]
    omega
  · rw [e, show i % 8 = i - 24 by omega]
    simp [show ¬i < 8 by omega, show ¬i < 16 by omega, show ¬i < 24 by omega,
      BitVec.getLsbD_of_ge _ i (by omega : 8 ≤ i), BitVec.getLsbD_of_ge _ (i - 8) (by omega : 8 ≤ i - 8),
      BitVec.getLsbD_of_ge _ (i - 16) (by omega : 8 ≤ i - 16)]
    omega

/-- "The low `32 − b` bits of `BR_CACHE >> b` are `field(P, 32 − b)`", bit by bit (R121). -/
theorem State.cache_bit {s : State} (h : s.br.ok) (hc : s.cacheFresh) (i : Nat) (hi : i + s.br.bitpos.toNat < 32) :
    (s.br.cache >>> s.br.bitpos.toNat).getLsbD i = s.sbit (s.br.pos + i) := by
  rw [BitVec.getLsbD_ushiftRight, hc, State.load4_getLsbD _ _ _ (by omega)]
  have := h.1
  simp only [State.sbit, Reader.pos]
  rw [show (8 * s.br.ptr.toNat + s.br.bitpos.toNat + i) / 8 = s.br.ptr.toNat + (s.br.bitpos.toNat + i) / 8 by omega,
    show (8 * s.br.ptr.toNat + s.br.bitpos.toNat + i) % 8 = (s.br.bitpos.toNat + i) % 8 by omega]

/-- `br_peek8` is `field(P, 8)` (R119). -/
theorem State.peek8_eq_field {s : State} (h : s.br.ok) (hc : s.cacheFresh) : s.br.peek8 = s.field s.br.pos 8 := by
  refine Nat.eq_of_testBit_eq fun i => ?_
  rw [State.field_testBit, Reader.peek8, ← BitVec.getLsbD, BitVec.getLsbD_and]
  have h255 : (0xFF#32).getLsbD i = decide (i < 8) := by
    by_cases h8 : i < 32
    · interval_cases i <;> rfl
    · rw [BitVec.getLsbD_of_ge _ _ (by omega)]; simp; omega
  rw [h255]
  by_cases hi : i < 8
  · rw [State.cache_bit h hc i (by have := h.1; omega)]; simp [hi]
  · simp [hi]

theorem Reader.peek8_lt (r : Reader) : r.peek8 < 256 := by
  have : ((r.cache >>> r.bitpos.toNat) &&& 0xFF#32).toNat ≤ (0xFF#32).toNat := by
    rw [BitVec.toNat_and]; exact Nat.and_le_right
  exact Nat.lt_succ_of_le this

/-! ### Initialisation -/

theorem State.brNew_pos {s : State} {start stop : Nat} (h : start < 2 ^ 64) : (s.brNew start stop).br.pos = 8 * start :=
  State.seek_pos _ (by omega)

theorem State.brNew_limit {s : State} {start stop : Nat} (h : stop < 2 ^ 64) :
    (s.brNew start stop).br.limit = 8 * stop := by
  simp only [Reader.limit, State.brNew_br_stop, BitVec.toNat_ofNat, Nat.mod_eq_of_lt h]

theorem State.brNew_ok {s : State} {start stop : Nat} (h : start ≤ stop) (hs : stop < 2 ^ 64) :
    (s.brNew start stop).br.ok := by
  refine ⟨?_, ?_⟩
  · show ((BitVec.ofNat 5 (8 * start % 8)).toNat) ≤ 7
    rw [BitVec.toNat_ofNat]; omega
  · rw [State.brNew_pos (by omega), State.brNew_limit hs]; omega

theorem State.brNew_cacheFresh {s : State} {start stop : Nat} (h : start < 2 ^ 64) : (s.brNew start stop).cacheFresh :=
  State.seek_cacheFresh _ (by omega)

/-! ### Reading -/

/-- From `s` to `t` the reader has only read: its range is the same, its invariant and its cache are kept, its position has
not gone back, and a failed reader stays as it is (R27, R110, R122). -/
structure State.Reading (s t : State) : Prop where
  stop : t.br.stop = s.br.stop
  input : t.input = s.input
  ok : s.br.ok → t.br.ok
  fresh : s.cacheFresh → t.cacheFresh
  pos : s.br.pos ≤ t.br.pos
  sticky : s.br.fail = true → t.br = s.br

theorem State.Reading.refl (s : State) : s.Reading s := ⟨rfl, rfl, id, id, Nat.le_refl _, fun _ => rfl⟩

theorem State.Reading.trans {s t u : State} (h : s.Reading t) (h' : t.Reading u) : s.Reading u :=
  ⟨h'.stop.trans h.stop, h'.input.trans h.input, fun k => h'.ok (h.ok k), fun k => h'.fresh (h.fresh k),
    h.pos.trans h'.pos, fun k => (h'.sticky (by rw [h.sticky k]; exact k)).trans (h.sticky k)⟩

/-- Reading is judged by the reader and `IN` alone. -/
theorem State.Reading.congr {s t s' t' : State} (h : s.Reading t) (h1 : s'.br = s.br) (h2 : s'.input = s.input)
    (h3 : t'.br = t.br) (h4 : t'.input = t.input) : s'.Reading t' := by
  have hs : s'.cacheFresh ↔ s.cacheFresh := by
    simp only [State.cacheFresh, h1, State.load4_congr (show s'.br.stop = s.br.stop by rw [h1]) h2]
  have ht : t'.cacheFresh ↔ t.cacheFresh := by
    simp only [State.cacheFresh, h3, State.load4_congr (show t'.br.stop = t.br.stop by rw [h3]) h4]
  refine ⟨?_, ?_, ?_, ?_, ?_, ?_⟩
  · rw [h3, h1]; exact h.stop
  · rw [h4, h2]; exact h.input
  · rw [h3, h1]; exact h.ok
  · rw [hs, ht]; exact h.fresh
  · rw [h3, h1]; exact h.pos
  · rw [h3, h1]; exact h.sticky

theorem State.brMove_reading (s : State) (n : Nat) : s.Reading (s.brMove n) := by
  refine ⟨State.brMove_stop s n, by rw [State.brMove_frame], fun h => State.brMove_ok h n,
    fun h => State.brMove_cacheFresh h n, ?_, fun h => by simp [State.brMove, h]⟩
  rcases s.brMove_cases n with ⟨e, _⟩ | ⟨e, _⟩ | ⟨e, _, _, hl⟩ <;> rw [e]
  · exact Nat.le_refl _
  · rw [State.seek_pos _ (by have := s.br.limit_lt; omega)]; omega

/-- A checked read changes the reader only. -/
theorem State.brReadOrFail_state (s : State) (n : Nat) : (s.brReadOrFail n).state = s.brMove n := by
  unfold State.brReadOrFail; split <;> rfl

theorem State.brAdvanceOrFail_state (s : State) (n : Nat) : (s.brAdvanceOrFail n).state = s.brMove n := by
  unfold State.brAdvanceOrFail; split <;> rfl

/-- What holds of the state an operation reached, when it holds of each of two operations one after the other. -/
theorem Res.bind_rel {α β : Type} {R : State → State → Prop} (trans : ∀ {a b c}, R a b → R b c → R a c) {s : State}
    {r : Res α} {f : α → State → Res β} (h1 : R s r.state) (h2 : ∀ a t, r = .ok a t → R t (f a t).state) :
    R s (r.bind f).state := by
  cases r with
  | ok a t => exact trans h1 (h2 a t rfl)
  | fail k t => exact h1

end Sys2Proof.Machine
end

