-- ==== Sys2Proof/Laws/Writer.lean ====
section
/-! SUPPORT. The laws of the bit writer: what each operation comes to, what it changes, and how it appends to the stream. -/

namespace Sys2Proof.Machine

/-! ### The flush loop -/

/-- All that the flush loop can come to: every whole byte is stored, or the range ends first. -/
theorem State.bwFlush_eq (k acc cnt : Nat) (s : State) (hp : s.bw.ptr.toNat ≤ s.bw.stop.toNat) :
    s.bwFlush k acc cnt =
      if s.bw.ptr.toNat + k ≤ s.bw.stop.toNat then
        { s with
          bw := ⟨BitVec.ofNat 64 (s.bw.ptr.toNat + k), s.bw.stop, BitVec.ofNat 6 (cnt - 8 * k),
            BitVec.ofNat 32 (acc / 256 ^ k), s.bw.fail⟩
          output := s.output.writeLE s.bw.ptr.toNat k acc }
      else
        { s with
          bw := ⟨s.bw.stop, s.bw.stop, 0#6, 0#32, true⟩
          output := s.output.writeLE s.bw.ptr.toNat (s.bw.stop.toNat - s.bw.ptr.toNat) acc } := by
  induction k generalizing acc cnt s with
  | zero =>
    rw [if_pos (by omega)]
    simp [State.bwFlush, Mem.writeLE]
  | succ k ih =>
    unfold State.bwFlush
    by_cases hlt : s.bw.stop.toNat ≤ s.bw.ptr.toNat
    · rw [if_pos hlt, if_neg (by omega)]
      have : s.bw.ptr = s.bw.stop := BitVec.eq_of_toNat_eq (by omega)
      simp [State.bwOverflow, this, Mem.writeLE]
    · have hn : (s.bw.ptr + 1#64).toNat = s.bw.ptr.toNat + 1 := by
        have := s.bw.stop.isLt
        rw [BitVec.toNat_add]; simp only [BitVec.toNat_ofNat]; omega
      rw [if_neg hlt, ih _ _ _ (by simp only [State.bwPut_bw, hn]; omega)]
      simp only [State.bwPut_bw, State.bwPut_output, hn]
      by_cases hfit : s.bw.ptr.toNat + 1 + k ≤ s.bw.stop.toNat
      · rw [if_pos hfit, if_pos (by omega)]
        simp only [State.bwPut, State.putOut, Mem.writeLE]
        rw [Nat.div_div_eq_div_mul, ← Nat.pow_succ', show cnt - 8 - 8 * k = cnt - 8 * (k + 1) by omega,
          show s.bw.ptr.toNat + 1 + k = s.bw.ptr.toNat + (k + 1) by omega]
      · rw [if_neg hfit, if_neg (by omega)]
        simp only [State.bwPut, State.putOut]
        rw [show s.bw.stop.toNat - s.bw.ptr.toNat = (s.bw.stop.toNat - (s.bw.ptr.toNat + 1)) + 1 by omega]
        rfl

/-- The flush loop changes the writer and `OUT` only. -/
theorem State.bwFlush_frame (k acc cnt : Nat) (s : State) :
    s.bwFlush k acc cnt = { s with bw := (s.bwFlush k acc cnt).bw, output := (s.bwFlush k acc cnt).output } := by
  induction k generalizing acc cnt s with
  | zero => rfl
  | succ k ih =>
    unfold State.bwFlush
    split
    · rfl
    · rw [ih]; rfl

theorem State.bwFlush_stop (k acc cnt : Nat) (s : State) : (s.bwFlush k acc cnt).bw.stop = s.bw.stop := by
  induction k generalizing acc cnt s with
  | zero => rfl
  | succ k ih =>
    unfold State.bwFlush
    split
    · rfl
    · rw [ih]; rfl

/-- From `s` to `t` the writer has only stored between its position and the end of its range, and moved forward. -/
structure State.Confined (s t : State) : Prop where
  stop : t.bw.stop = s.bw.stop
  ptr : s.bw.ptr.toNat ≤ t.bw.ptr.toNat
  stores : Mem.Stores s.bw.ptr.toNat s.bw.stop.toNat s.output t.output

theorem State.Confined.refl (s : State) : s.Confined s := ⟨rfl, Nat.le_refl _, .refl _⟩

theorem State.Confined.trans {s t u : State} (h : s.Confined t) (h' : t.Confined u) : s.Confined u :=
  ⟨h'.stop.trans h.stop, h.ptr.trans h'.ptr, h.stores.trans (h'.stores.mono h.ptr (by rw [h.stop]))⟩

theorem State.Confined.congr {s t s' t' : State} (h : s.Confined t) (h1 : s'.bw = s.bw) (h2 : s'.output = s.output)
    (h3 : t'.bw = t.bw) (h4 : t'.output = t.output) : s'.Confined t' := by
  refine ⟨?_, ?_, ?_⟩
  · rw [h3, h1]; exact h.stop
  · rw [h3, h1]; exact h.ptr
  · rw [h1, h2, h4]; exact h.stores

theorem State.bwPut_confined {s : State} (h : s.bw.ptr.toNat < s.bw.stop.toNat) (b : Byte) : s.Confined (s.bwPut b) := by
  have hn : (s.bw.ptr + 1#64).toNat = s.bw.ptr.toNat + 1 := by
    have := s.bw.stop.isLt
    rw [BitVec.toNat_add]; simp only [BitVec.toNat_ofNat]; omega
  exact ⟨rfl, by simp only [State.bwPut_bw, hn]; omega, Mem.Stores.write _ _ (Nat.le_refl _) h⟩

theorem State.bwFlush_confined (k acc cnt : Nat) (s : State) : s.Confined (s.bwFlush k acc cnt) := by
  induction k generalizing acc cnt s with
  | zero => exact ⟨rfl, Nat.le_refl _, .refl _⟩
  | succ k ih =>
    unfold State.bwFlush
    split
    · exact ⟨rfl, Nat.le_refl _, .refl _⟩
    · next hlt => exact (State.bwPut_confined (by omega) _).trans (ih _ _ _)

/-! ### `bw_write_bits` -/

theorem State.bwWriteBits_of_fail {s : State} (h : s.bw.fail = true) (x n : Nat) : s.bwWriteBits x n = s := by
  simp [State.bwWriteBits, h]

theorem State.bwWriteBits_frame (s : State) (x n : Nat) :
    s.bwWriteBits x n = { s with bw := (s.bwWriteBits x n).bw, output := (s.bwWriteBits x n).output } := by
  unfold State.bwWriteBits
  split
  · rfl
  · exact State.bwFlush_frame _ _ _ _

@[simp] theorem State.bwWriteBits_stop (s : State) (x n : Nat) : (s.bwWriteBits x n).bw.stop = s.bw.stop := by
  unfold State.bwWriteBits
  split
  · rfl
  · exact State.bwFlush_stop _ _ _ _

theorem State.bwWriteBits_confined (s : State) (x n : Nat) : s.Confined (s.bwWriteBits x n) := by
  unfold State.bwWriteBits
  split
  · exact .refl s
  · exact State.bwFlush_confined _ _ _ _

/-- The accumulator of R132 as an exact sum. -/
theorem accumulator_eq {c x n p : Nat} (hc : c < 2 ^ p) : c ||| (x % 2 ^ n) <<< p = c + 2 ^ p * (x % 2 ^ n) := by
  rw [Nat.or_comm, Nat.shiftLeft_eq, Nat.mul_comm, ← Nat.two_pow_add_eq_or_of_lt hc, Nat.add_comm]

theorem accumulator_lt {c x n p : Nat} (hc : c < 2 ^ p) : c ||| (x % 2 ^ n) <<< p < 2 ^ (p + n) := by
  rw [accumulator_eq hc, Nat.pow_add]
  have := Nat.mod_lt x (Nat.two_pow_pos n)
  have h2 : 2 ^ p * (x % 2 ^ n) ≤ 2 ^ p * (2 ^ n - 1) := Nat.mul_le_mul_left _ (by omega)
  have h3 : 2 ^ p * (2 ^ n - 1) + 2 ^ p = 2 ^ p * 2 ^ n := by
    rw [← Nat.mul_succ]; congr 1; have := Nat.two_pow_pos n; omega
  omega

/-- The writer's invariant is kept. -/
theorem State.bwWriteBits_ok {s : State} (h : s.bw.ok) (x n : Nat) : (s.bwWriteBits x n).bw.ok := by
  unfold State.bwWriteBits
  split
  · exact h
  · obtain ⟨h1, h2, h3⟩ := h
    rw [State.bwFlush_eq _ _ _ _ h3]
    split
    · next hfit =>
      have hlt := accumulator_lt (x := x) (n := n) h2
      have hm : (s.bw.bitpos.toNat + n - 8 * ((s.bw.bitpos.toNat + n) / 8)) = (s.bw.bitpos.toNat + n) % 8 := by omega
      have hs := s.bw.stop.isLt
      simp only [Writer.ok, BitVec.toNat_ofNat, hm]
      rw [Nat.mod_eq_of_lt (a := (s.bw.bitpos.toNat + n) % 8) (by omega),
        Nat.mod_eq_of_lt (a := s.bw.ptr.toNat + _) (by omega)]
      refine ⟨by omega, Nat.lt_of_le_of_lt (Nat.mod_le _ _) ?_, hfit⟩
      rw [Nat.div_lt_iff_lt_mul (Nat.pow_pos (by omega)), show (256 : Nat) = 2 ^ 8 by rfl, ← Nat.pow_mul, ← Nat.pow_add]
      exact Nat.lt_of_lt_of_eq hlt (congrArg _ (by omega))
    · exact ⟨Nat.zero_le _, by simp, Nat.le_refl _⟩

/-- What a write that fits comes to: the position moves on by `n`, and the bits from `BW_PTR` on are those of the
accumulator. -/
theorem State.bwWriteBits_cases {s : State} (h : s.bw.ok) (hf : s.bw.fail = false) (x n : Nat) (hn : n ≤ 32) :
    ((s.bwWriteBits x n).bw.fail = true ∧ 8 * s.bw.stop.toNat + 8 ≤ 8 * s.bw.ptr.toNat + s.bw.bitpos.toNat + n) ∨
    (s.appended (s.bwWriteBits x n) (bitsOf x n) ∧
      8 * s.bw.ptr.toNat + s.bw.bitpos.toNat + n < 8 * s.bw.stop.toNat + 8) := by
  have hok := State.bwWriteBits_ok h x n
  obtain ⟨h1, h2, h3⟩ := h
  have hlt := accumulator_lt (x := x) (n := n) h2
  have hs := s.bw.stop.isLt
  by_cases hfit : s.bw.ptr.toNat + (s.bw.bitpos.toNat + n) / 8 ≤ s.bw.stop.toNat
  · right
    have e : s.bwWriteBits x n = s.bwFlush ((s.bw.bitpos.toNat + n) / 8)
        (s.bw.cache.toNat ||| (x % 2 ^ n) <<< s.bw.bitpos.toNat) (s.bw.bitpos.toNat + n) := by
      unfold State.bwWriteBits; rw [if_neg (by simp [hf])]
    rw [State.bwFlush_eq _ _ _ _ h3, if_pos hfit] at e
    have hm : (s.bw.bitpos.toNat + n - 8 * ((s.bw.bitpos.toNat + n) / 8)) = (s.bw.bitpos.toNat + n) % 8 := by omega
    have hb : ∀ q, 8 * s.bw.ptr.toNat ≤ q → (s.bwWriteBits x n).writtenBit q =
        (s.bw.cache.toNat ||| (x % 2 ^ n) <<< s.bw.bitpos.toNat).testBit (q - 8 * s.bw.ptr.toNat) := by
      intro q hq
      rw [e]
      simp only [State.writtenBit, State.outBit, State.outByte, BitVec.toNat_ofNat, Nat.mod_eq_of_lt
        (show s.bw.ptr.toNat + (s.bw.bitpos.toNat + n) / 8 < 2 ^ 64 by omega), Mem.read_writeLE]
      split
      · next hq2 =>
        rw [if_pos (by omega), BitVec.getLsbD_ofNat, show (256 : Nat) = 2 ^ 8 by rfl, ← Nat.pow_mul,
          Nat.testBit_div_two_pow]
        simp only [show q % 8 < 8 by omega, decide_true, Bool.true_and]
        congr 1; omega
      · next hq2 =>
        rw [BitVec.getLsbD_ofNat, show (256 : Nat) = 2 ^ 8 by rfl, ← Nat.pow_mul, Nat.testBit_div_two_pow]
        rw [show q - 8 * (s.bw.ptr.toNat + (s.bw.bitpos.toNat + n) / 8) + 8 * ((s.bw.bitpos.toNat + n) / 8) =
          q - 8 * s.bw.ptr.toNat by omega]
        by_cases h32 : q - 8 * (s.bw.ptr.toNat + (s.bw.bitpos.toNat + n) / 8) < 32
        · simp [h32]
        · simp only [h32, decide_false, Bool.false_and]
          exact (Nat.testBit_lt_two_pow (Nat.lt_of_lt_of_le hlt (Nat.pow_le_pow_right (by omega) (by omega)))).symm
    have hold : ∀ i, i < s.bw.bitpos.toNat →
        (s.bw.cache.toNat ||| (x % 2 ^ n) <<< s.bw.bitpos.toNat).testBit i = s.bw.cache.getLsbD i := by
      intro i hi
      rw [Nat.testBit_or, Nat.testBit_shiftLeft]; simp [BitVec.getLsbD]; omega
    have hnew : ∀ i, i < n →
        (s.bw.cache.toNat ||| (x % 2 ^ n) <<< s.bw.bitpos.toNat).testBit (s.bw.bitpos.toNat + i) = x.testBit i := by
      intro i hi
      rw [Nat.testBit_or, Nat.testBit_shiftLeft, Nat.testBit_lt_two_pow
        (Nat.lt_of_lt_of_le h2 (Nat.pow_le_pow_right (by omega) (by omega)))]
      simp [Nat.testBit_mod_two_pow, hi]
    refine ⟨⟨?_, ?_, ?_, hok.1, ?_, ?_, ?_⟩, by omega⟩
    · rw [e]; exact hf
    · simp
    · rw [e]
      simp only [BitVec.toNat_ofNat, hm, bitsOf_length]
      rw [Nat.mod_eq_of_lt (a := (s.bw.bitpos.toNat + n) % 8) (by omega),
        Nat.mod_eq_of_lt (a := s.bw.ptr.toNat + _) (by omega)]
      omega
    · intro q hq
      by_cases hq2 : 8 * s.bw.ptr.toNat ≤ q
      · rw [hb q hq2, hold _ (by omega), State.writtenBit, if_neg (by omega)]
      · rw [State.writtenBit, State.writtenBit, if_pos (by omega : q < 8 * s.bw.ptr.toNat), e]
        simp only [State.outBit, State.outByte, BitVec.toNat_ofNat, Nat.mod_eq_of_lt
          (show s.bw.ptr.toNat + (s.bw.bitpos.toNat + n) / 8 < 2 ^ 64 by omega), Mem.read_writeLE]
        rw [if_pos (by omega), if_neg (by omega)]
    · rw [map_range_eq_iff]
      intro i hi
      rw [hb _ (by omega), show 8 * s.bw.ptr.toNat + s.bw.bitpos.toNat + i - 8 * s.bw.ptr.toNat =
        s.bw.bitpos.toNat + i by omega, hnew _ (by simpa using hi), bitsOf_getElem]
    · intro a ha
      rw [e] at ha ⊢
      simp only [BitVec.toNat_ofNat, Nat.mod_eq_of_lt
        (show s.bw.ptr.toNat + (s.bw.bitpos.toNat + n) / 8 < 2 ^ 64 by omega)] at ha
      exact Mem.read_writeLE_outside _ _ _ ha
  · left
    refine ⟨?_, by omega⟩
    unfold State.bwWriteBits
    rw [if_neg (by simp [hf]), State.bwFlush_eq _ _ _ _ h3, if_neg hfit]

/-! ### Appending -/

theorem State.appended_ptr_le {s t : State} {xs : List Bool} (h : s.appended t xs) :
    s.bw.ptr.toNat ≤ t.bw.ptr.toNat := by
  obtain ⟨_, _, h3, h4, _⟩ := h; omega

theorem State.appended_nil {s : State} (h : s.bw.ok) (hf : s.bw.fail = false) : s.appended s [] :=
  ⟨hf, rfl, rfl, h.1, fun _ _ => rfl, rfl, fun _ _ => rfl⟩

/-- One appending after another. -/
theorem State.appended_trans {s t u : State} {xs ys : List Bool} (h : s.appended t xs) (h' : t.appended u ys) :
    s.appended u (xs ++ ys) := by
  have hp := State.appended_ptr_le h
  have hp' := State.appended_ptr_le h'
  obtain ⟨h1, h2, h3, h4, h5, h6, h7⟩ := h
  obtain ⟨k1, k2, k3, k4, k5, k6, k7⟩ := h'
  rw [map_range_eq_iff] at h6 k6
  refine ⟨k1, k2.trans h2, by rw [k3, h3, List.length_append]; omega, k4, fun q hq => ?_, ?_, fun a ha => ?_⟩
  · rw [k5 q (by omega), h5 q hq]
  · rw [map_range_eq_iff]
    intro i hi
    rw [List.length_append] at hi
    by_cases hx : i < xs.length
    · rw [k5 _ (by omega), h6 i hx, List.getElem_append_left hx]
    · rw [List.getElem_append_right (by omega), ← k6 (i - xs.length) (by omega), h3]
      congr 1; omega
  · rw [k7 a (by omega), h7 a (by omega)]

/-- Changing what is neither the writer nor `OUT` appends nothing. -/
theorem State.appended_congr_right {s t u : State} {xs : List Bool} (h : s.appended t xs) (h1 : u.bw = t.bw)
    (h2 : u.output = t.output) : s.appended u xs := by
  simpa only [State.appended, State.writtenBit, State.outBit, State.outByte, h1, h2] using h

theorem State.appended_congr_left {s t u : State} {xs : List Bool} (h : s.appended t xs) (h1 : u.bw = s.bw)
    (h2 : u.output = s.output) : u.appended t xs := by
  simpa only [State.appended, State.writtenBit, State.outBit, State.outByte, h1, h2] using h

/-! ### `bw_force_flush` -/

theorem State.bwForceFlush_frame (s : State) :
    s.bwForceFlush = { s with bw := s.bwForceFlush.bw, output := s.bwForceFlush.output } := by
  unfold State.bwForceFlush; split_ifs <;> rfl

@[simp] theorem State.bwForceFlush_stop (s : State) : s.bwForceFlush.bw.stop = s.bw.stop := by
  unfold State.bwForceFlush; split_ifs <;> rfl

theorem State.bwForceFlush_confined (s : State) : s.Confined s.bwForceFlush := by
  unfold State.bwForceFlush
  split_ifs with h1 h2 h3
  · exact .refl s
  · exact .refl s
  · exact ⟨rfl, Nat.le_refl _, .refl _⟩
  · have k := State.bwPut_confined (s := s) (by omega) (s.bw.cache.setWidth 8)
    exact ⟨k.stop, k.ptr, k.stores⟩

theorem State.bwForceFlush_ok {s : State} (h : s.bw.ok) : s.bwForceFlush.bw.ok := by
  obtain ⟨h1, h2, h3⟩ := h
  unfold State.bwForceFlush
  split_ifs with k1 k2 k3
  · exact ⟨h1, h2, h3⟩
  · exact ⟨h1, h2, h3⟩
  · exact ⟨by simp, by simp, h3⟩
  · refine ⟨by simp, by simp, ?_⟩
    have := s.bw.stop.isLt
    simp only [State.bwPut_bw, BitVec.toNat_add, BitVec.toNat_ofNat]; omega

/-- A flush that fits: the pending bits become a byte whose higher bits are 0. -/
theorem State.bwForceFlush_of_fits {s : State} (h : s.bw.ok) (hf : s.bw.fail = false) (hb : 0 < s.bw.bitpos.toNat)
    (hp : s.bw.ptr.toNat < s.bw.stop.toNat) :
    s.bwForceFlush =
      { s with
        bw := ⟨s.bw.ptr + 1#64, s.bw.stop, 0#6, 0#32, false⟩
        output := s.output.write s.bw.ptr.toNat (s.bw.cache.setWidth 8) } := by
  unfold State.bwForceFlush
  rw [if_neg (by simp [hf]), if_neg (by omega), if_neg (by omega)]
  simp [State.bwPut, State.putOut, hf]

/-- All that a flush can come to on a live writer: nothing is pending, the range is full, or the pending bits are padded
with zero bits to a byte. -/
theorem State.bwForceFlush_cases {s : State} (h : s.bw.ok) (hf : s.bw.fail = false) :
    (s.bwForceFlush.bw.fail = true ∧ s.bw.stop.toNat = s.bw.ptr.toNat ∧ 0 < s.bw.bitpos.toNat) ∨
    (s.appended s.bwForceFlush (List.replicate ((8 - s.bw.bitpos.toNat) % 8) false) ∧
      s.bwForceFlush.bw.bitpos.toNat = 0) := by
  have h0 := h
  obtain ⟨h1, h2, h3⟩ := h
  by_cases hb : s.bw.bitpos.toNat = 0
  · right
    have e : s.bwForceFlush = s := by unfold State.bwForceFlush; rw [if_neg (by simp [hf]), if_pos hb]
    rw [e, hb]
    exact ⟨State.appended_nil h0 hf, rfl⟩
  · by_cases hp : s.bw.ptr.toNat < s.bw.stop.toNat
    · right
      have e := State.bwForceFlush_of_fits h0 hf (by omega) hp
      have hs := s.bw.stop.isLt
      have hn : (s.bw.ptr + 1#64).toNat = s.bw.ptr.toNat + 1 := by
        rw [BitVec.toNat_add]; simp only [BitVec.toNat_ofNat]; omega
      have hm : (8 - s.bw.bitpos.toNat) % 8 = 8 - s.bw.bitpos.toNat := by omega
      have hb8 : ∀ q, 8 * s.bw.ptr.toNat ≤ q → q < 8 * s.bw.ptr.toNat + 8 →
          s.bwForceFlush.writtenBit q = s.bw.cache.getLsbD (q - 8 * s.bw.ptr.toNat) := by
        intro q hq hq2
        rw [e]
        simp only [State.writtenBit, State.outBit, State.outByte, hn, Mem.read_write]
        rw [if_pos (by omega), if_pos (by omega), BitVec.getLsbD_setWidth]
        simp only [show q % 8 < 8 by omega, decide_true, Bool.true_and]
        congr 1; omega
      refine ⟨⟨?_, by simp, ?_, by rw [e]; simp, fun q hq => ?_, ?_, fun a ha => ?_⟩, by rw [e]; rfl⟩
      · rw [e]
      · rw [e, hm]; simp only [hn, List.length_replicate, BitVec.toNat_ofNat]; omega
      · by_cases hq2 : 8 * s.bw.ptr.toNat ≤ q
        · rw [hb8 q hq2 (by omega), State.writtenBit, if_neg (by omega)]
        · rw [e]
          simp only [State.writtenBit, State.outBit, State.outByte, hn, Mem.read_write]
          rw [if_pos (show q < 8 * (s.bw.ptr.toNat + 1) by omega), if_pos (show q < 8 * s.bw.ptr.toNat by omega),
            if_neg (by omega)]
      · rw [map_range_eq_iff, hm]
        intro i hi
        rw [List.length_replicate] at hi
        rw [hb8 _ (by omega) (by omega), List.getElem_replicate]
        refine Nat.testBit_lt_two_pow (Nat.lt_of_lt_of_le h2 (Nat.pow_le_pow_right (by omega) (by omega)))
      · rw [e] at ha ⊢
        simp only [hn] at ha
        exact Mem.read_write_ne _ _ _ (by omega)
    · left
      refine ⟨?_, by omega, by omega⟩
      unfold State.bwForceFlush
      rw [if_neg (by simp [hf]), if_neg hb, if_pos (by omega)]; rfl

/-! ### Rows of writes -/

/-- The writer's invariant is kept, a failed writer stays as it is, and a live one either appends the bits or runs out of
room, which it does only where they need more bytes than the range has. -/
structure State.Writes (s t : State) (bits : List Bool) : Prop where
  ok : t.bw.ok
  stop : t.bw.stop = s.bw.stop
  sticky : s.bw.fail = true → t.bw = s.bw ∧ t.output = s.output
  live : s.bw.fail = false →
    (t.bw.fail = true ∧ 8 * s.bw.stop.toNat + 8 ≤ 8 * s.bw.ptr.toNat + s.bw.bitpos.toNat + bits.length) ∨
    (s.appended t bits ∧ 8 * s.bw.ptr.toNat + s.bw.bitpos.toNat + bits.length < 8 * s.bw.stop.toNat + 8)

theorem State.Writes.nil {s : State} (h : s.bw.ok) : s.Writes s [] :=
  ⟨h, rfl, fun _ => ⟨rfl, rfl⟩, fun hf => .inr ⟨State.appended_nil h hf, by
    obtain ⟨h1, _, h3⟩ := h; simp only [List.length_nil]; omega⟩⟩

theorem State.Writes.trans {s t u : State} {xs ys : List Bool} (h : s.Writes t xs) (h' : t.Writes u ys) :
    s.Writes u (xs ++ ys) := by
  refine ⟨h'.ok, h'.stop.trans h.stop, fun hf => ?_, fun hf => ?_⟩
  · obtain ⟨e1, e2⟩ := h.sticky hf
    obtain ⟨k1, k2⟩ := h'.sticky (by rw [e1]; exact hf)
    exact ⟨k1.trans e1, k2.trans e2⟩
  · rw [List.length_append]
    rcases h.live hf with ⟨h1, h2⟩ | ⟨h1, h2⟩
    · obtain ⟨e1, _⟩ := h'.sticky h1
      exact .inl ⟨by rw [e1]; exact h1, by omega⟩
    · have hp := h1.2.2.1
      rcases h'.live h1.1 with ⟨k1, k2⟩ | ⟨k1, k2⟩
      · refine .inl ⟨k1, ?_⟩
        rw [h.stop] at k2; omega
      · refine .inr ⟨State.appended_trans h1 k1, ?_⟩
        rw [h.stop] at k2; omega

/-- A row of writes is judged by the writer and `OUT` alone. -/
theorem State.Writes.congr {s t s' t' : State} {xs : List Bool} (h : s.Writes t xs) (h1 : s'.bw = s.bw)
    (h2 : s'.output = s.output) (h3 : t'.bw = t.bw) (h4 : t'.output = t.output) : s'.Writes t' xs := by
  refine ⟨h3 ▸ h.ok, by rw [h3, h1]; exact h.stop, fun hf => ?_, fun hf => ?_⟩
  · rw [h3, h4, h1, h2]; exact h.sticky (h1 ▸ hf)
  · rw [h1] at hf
    rw [h3, h1]
    refine (h.live hf).imp id fun k => ⟨?_, k.2⟩
    exact State.appended_congr_right (State.appended_congr_left k.1 h1 h2) h3 h4

theorem State.bwWriteBits_writes {s : State} (h : s.bw.ok) (x n : Nat) (hn : n ≤ 32) :
    s.Writes (s.bwWriteBits x n) (bitsOf x n) := by
  refine ⟨State.bwWriteBits_ok h x n, State.bwWriteBits_stop s x n, fun hf => ?_, fun hf => ?_⟩
  · rw [State.bwWriteBits_of_fail hf]; exact ⟨rfl, rfl⟩
  · rw [bitsOf_length]
    exact State.bwWriteBits_cases h hf x n hn

theorem State.Writes.of_fits {s t : State} {xs : List Bool} (h : s.Writes t xs) (hf : s.bw.fail = false)
    (hfit : 8 * s.bw.ptr.toNat + s.bw.bitpos.toNat + xs.length < 8 * s.bw.stop.toNat + 8) : s.appended t xs := by
  rcases h.live hf with ⟨_, k⟩ | ⟨k, _⟩
  · omega
  · exact k

theorem State.Writes.of_not_fail {s t : State} {xs : List Bool} (h : s.Writes t xs) (hf : s.bw.fail = false)
    (ht : t.bw.fail = false) : s.appended t xs := by
  rcases h.live hf with ⟨k, _⟩ | ⟨k, _⟩
  · rw [ht] at k; exact absurd k (by simp)
  · exact k

end Sys2Proof.Machine
end

