-- ==== Sys2Proof/Laws/Rle.lean ====
section
/-! SUPPORT. The laws of the zero-run tokens: each token is one the format allows, and the tokens of a row of bytes expand
to it; what the dispatch does with a token. -/

namespace Sys2Proof.Machine

/-! ### Tokens -/

theorem tokenForRun_legal {l : Nat} (h1 : 1 ≤ l) (h2 : l ≤ Config.maxRun) : (tokenForRun l).legal := by
  simp only [tokenForRun, Config.maxRun] at *
  split_ifs <;> simp [Token.legal, suffixBits] <;> omega

/-- A run's token stands for the run (R170: "`L = suffix + base(s)`"). -/
theorem tokenForRun_bytes {l : Nat} (h1 : 1 ≤ l) (h2 : l ≤ Config.maxRun) :
    (tokenForRun l).bytes = List.replicate l 0#8 := by
  simp only [tokenForRun, Config.maxRun] at *
  split_ifs with h h h h h
  · rw [show l = 1 by omega]; rfl
  · rw [show l = 2 by omega]; rfl
  all_goals simp [Token.bytes, runBase]; try omega

/-- The symbols of the zero class (glossary of `spec/00_scope.md`). -/
theorem tokenForRun_sym (l : Nat) : (tokenForRun l).sym = 0 ∨ 256 ≤ (tokenForRun l).sym ∧ (tokenForRun l).sym ≤ 260 := by
  simp only [tokenForRun]
  split_ifs <;> simp

theorem Token.bytes_length_pos (t : Token) : 1 ≤ t.bytes.length := by
  unfold Token.bytes
  split_ifs
  · simp
  · simp only [List.length_replicate, runBase]; split_ifs <;> omega

theorem closeRun_bytes {r : Nat} (h : r ≤ Config.maxRun) :
    (closeRun r).flatMap Token.bytes = List.replicate r 0#8 := by
  unfold closeRun
  split
  · next h => simp [h]
  · simp [tokenForRun_bytes (by omega : 1 ≤ r) h]

theorem literal_bytes (b : Byte) : Token.bytes ⟨b.toNat, 0, 0⟩ = [b] := by
  have := b.isLt
  simp [Token.bytes]; omega

theorem tokensFrom_bytes (bs : List Byte) (r : Nat) (h : r ≤ Config.maxRun) :
    (tokensFrom r bs).flatMap Token.bytes = List.replicate r 0#8 ++ bs := by
  induction bs generalizing r with
  | nil => simp [tokensFrom, closeRun_bytes h]
  | cons b bs ih =>
    unfold tokensFrom
    split
    · next hb =>
      subst hb
      split
      · next hr =>
        rw [List.flatMap_cons, ih 1 (by simp [Config.maxRun]), tokenForRun_bytes (by rw [hr]; simp [Config.maxRun]) h]
        simp
      · rw [ih (r + 1) (by omega), List.replicate_succ']; simp
    · rw [List.flatMap_append, List.flatMap_cons, closeRun_bytes h, ih 0 (by simp), literal_bytes]; simp

/-- Decoding the tokens of a row of bytes gives the bytes back (R175). -/
theorem tokens_bytes (bs : List Byte) : (tokens bs).flatMap Token.bytes = bs := by
  simpa [tokens] using tokensFrom_bytes bs 0 (by simp)

theorem closeRun_legal {r : Nat} (h : r ≤ Config.maxRun) : ∀ t ∈ closeRun r, t.legal := by
  unfold closeRun
  split
  · simp
  · intro t ht; rw [List.mem_singleton] at ht; rw [ht]; exact tokenForRun_legal (by omega) h

theorem tokensFrom_legal (bs : List Byte) (r : Nat) (h : r ≤ Config.maxRun) : ∀ t ∈ tokensFrom r bs, t.legal := by
  induction bs generalizing r with
  | nil => exact closeRun_legal h
  | cons b bs ih =>
    unfold tokensFrom
    split
    · split
      · next hr =>
        intro t ht
        rcases List.mem_cons.1 ht with rfl | ht
        · exact tokenForRun_legal (by rw [hr]; simp [Config.maxRun]) h
        · exact ih 1 (by simp [Config.maxRun]) t ht
      · exact ih (r + 1) (by omega)
    · intro t ht
      rcases List.mem_append.1 ht with ht | ht
      · exact closeRun_legal h t ht
      · rcases List.mem_cons.1 ht with rfl | ht
        · have := b.isLt
          refine ⟨by show b.toNat ≤ 260; omega, ?_, by simp⟩
          show 0 = suffixBits b.toNat
          simp only [suffixBits]; split_ifs <;> omega
        · exact ih 0 (by simp) t ht

theorem tokens_legal (bs : List Byte) : ∀ t ∈ tokens bs, t.legal := tokensFrom_legal bs 0 (by simp)

/-- "every token covers at least one byte" (R11). -/
theorem tokens_length_le (bs : List Byte) : (tokens bs).length ≤ bs.length := by
  conv => rhs; rw [← tokens_bytes bs]
  rw [List.length_flatMap]
  generalize tokens bs = ts
  induction ts with
  | nil => simp
  | cons t ts ih => have := t.bytes_length_pos; simp only [List.length_cons, List.map_cons, List.sum_cons]; omega

/-- A non-zero byte is a token by itself (R171). -/
theorem tokens_cons_literal {b : Byte} (h : b ≠ 0#8) (bs : List Byte) : tokens (b :: bs) = ⟨b.toNat, 0, 0⟩ :: tokens bs := by
  simp [tokens, tokensFrom, h, closeRun]

theorem tokensFrom_replicate (r j : Nat) (bs : List Byte) (h : r + j ≤ Config.maxRun) :
    tokensFrom r (List.replicate j 0#8 ++ bs) = tokensFrom (r + j) bs := by
  induction j generalizing r with
  | zero => simp
  | succ j ih =>
    rw [List.replicate_succ, List.cons_append, tokensFrom, if_pos rfl, if_neg (by omega), ih _ (by omega)]
    congr 1; omega

/-- A run of zeros becomes one token, up to the first byte that is not zero, the end, or 16662 of them (R171). -/
theorem tokens_run {r : Nat} (h1 : 1 ≤ r) (h2 : r ≤ Config.maxRun) (bs : List Byte)
    (h : r = Config.maxRun ∨ bs.head? ≠ some 0#8) :
    tokens (List.replicate r 0#8 ++ bs) = tokenForRun r :: tokens bs := by
  rw [tokens, tokensFrom_replicate 0 r bs (by omega), Nat.zero_add]
  cases bs with
  | nil => simp only [tokensFrom, closeRun, if_neg (show r ≠ 0 by omega), tokens]; simp
  | cons b bs =>
    by_cases hb : b = 0#8
    · subst hb
      have hr : r = Config.maxRun := by simpa using h
      rw [tokensFrom, if_pos rfl, if_pos hr]
      simp [tokens, tokensFrom, Config.maxRun]
    · rw [tokens_cons_literal hb, tokensFrom, if_neg hb, closeRun, if_neg (by omega)]; simp [tokens]

/-! ### Dispatch -/

/-- Seeking to where the reader stands changes nothing while the cache is fresh. -/
theorem State.seek_self {s : State} (h : s.br.ok) (hc : s.cacheFresh) : s.seek s.br.pos = s := by
  have h1 := h.1
  have e1 : s.br.pos / 8 = s.br.ptr.toNat := by simp only [Reader.pos]; omega
  have e2 : s.br.pos % 8 = s.br.bitpos.toNat := by simp only [Reader.pos]; omega
  simp only [State.seek, e1, e2, ← hc, BitVec.ofNat_toNat, BitVec.setWidth_eq]

/-- What the dispatch of a token comes to when its suffix stands in the stream and its bytes fit: the reader moves past
the suffix, the bytes are stored, `OUT_PTR` moves past them (R174). -/
theorem State.dispatch_of_token {s : State} {t : Token} (ht : t.legal) (hr : s.br.ok) (hc : s.cacheFresh)
    (hf : s.br.fail = false) (hs : s.hasBits s.br.pos (bitsOf t.suffix t.k))
    (ho : s.pay.outPtr.toNat + t.bytes.length ≤ s.pay.outEnd.toNat) :
    s.dispatch t.sym = .ok () { s.seek (s.br.pos + t.k) with
      output := s.output.writeList s.pay.outPtr.toNat t.bytes
      pay := { s.pay with outPtr := s.pay.outPtr + BitVec.ofNat 64 t.bytes.length } } := by
  obtain ⟨h1, h2, h3⟩ := ht
  unfold State.dispatch
  by_cases hl : t.sym ≤ 255
  · have hk : t.k = 0 := by rw [h2]; simp only [suffixBits]; split_ifs <;> omega
    have hb : t.bytes = [BitVec.ofNat 8 t.sym] := by simp [Token.bytes, hl]
    rw [hb] at ho
    rw [if_pos hl, hk, Nat.add_zero, State.seek_self hr hc, hb, State.putLiteral, if_neg (by simpa using ho)]
    rfl
  · have hb : t.bytes = List.replicate (t.suffix + runBase t.sym) 0#8 := by simp [Token.bytes, hl]
    rw [hb, List.length_replicate] at ho
    rw [if_neg hl]
    by_cases hk : 0 < suffixBits t.sym
    · have e := State.brReadOrFail_of_hasBits hf (by simpa [h2] using hk) hs
      rw [bitsOf_length, bitsValue_bitsOf, Nat.mod_eq_of_lt h3] at e
      rw [if_pos hk, ← h2, e, Res.bind_ok, State.putZeros, hb, List.length_replicate]
      rw [if_neg (by simp only [State.seek_pay]; omega)]
      rfl
    · have hx : t.suffix = 0 := by
        have : t.k = 0 := by omega
        rw [this] at h3; omega
      rw [hx, Nat.zero_add] at hb ho
      rw [if_neg hk, show t.k = 0 by omega, Nat.add_zero, State.seek_self hr hc, State.putZeros, hb,
        List.length_replicate, if_neg (by omega)]
      rfl

end Sys2Proof.Machine
end

