-- ==== Sys2Proof/Laws/TreeBuild.lean ====
section
/-! SUPPORT. The laws of the tree builder: selection takes the least pair of count and index, a merge keeps the forest of
trees that the eligible entries stand for, and the whole build ends in one tree over the symbols in use. -/

namespace Sys2Proof.Machine

/-! ### Selection -/

/-- All that one comparison can come to. -/
theorem better_cases (skip : Option Nat) (i : Nat) (x : ENode) (best : Option (Nat × Nat)) :
    better skip i x best = best ∧
      (x.count.toNat = 0 ∨ skip = some i ∨ ∃ d m, best = some (d, m) ∧ d ≤ x.count.toNat) ∨
    (better skip i x best = some (x.count.toNat, i) ∧ x.count.toNat ≠ 0 ∧ skip ≠ some i ∧
      ∀ d m, best = some (d, m) → x.count.toNat < d) := by
  unfold better
  split
  · next hc => exact .inl ⟨rfl, by tauto⟩
  · next hc =>
    rw [not_or] at hc
    cases best with
    | none => exact .inr ⟨rfl, hc.1, hc.2, by simp⟩
    | some p =>
      obtain ⟨d, m⟩ := p
      dsimp only
      split
      · next hlt =>
        refine .inr ⟨rfl, hc.1, hc.2, fun d' m' e => ?_⟩
        simp only [Option.some.injEq, Prod.mk.injEq] at e; omega
      · next hlt => exact .inl ⟨rfl, .inr (.inr ⟨d, m, rfl, by omega⟩)⟩

/-- What the scan finds is the least pair of count and index (R141). -/
theorem lightest_some {skip : Option Nat} {xs : List ENode} {i c j : Nat} {best : Option (Nat × Nat)}
    (h : lightest skip i best xs = some (c, j)) (hb : ∀ d m, best = some (d, m) → m < i) :
    (best = some (c, j) ∨
      ∃ k, ∃ hk : k < xs.length, j = i + k ∧ xs[k].count.toNat = c ∧ c ≠ 0 ∧ skip ≠ some j) ∧
    (∀ d m, best = some (d, m) → c < d ∨ c = d ∧ j ≤ m) ∧
    ∀ k, ∀ hk : k < xs.length, xs[k].count.toNat ≠ 0 → skip ≠ some (i + k) →
      c < xs[k].count.toNat ∨ c = xs[k].count.toNat ∧ j ≤ i + k := by
  induction xs generalizing i best with
  | nil => simp only [lightest] at h; subst h; simp
  | cons x xs ih =>
    simp only [lightest] at h
    have hcase := better_cases skip i x best
    generalize better skip i x best = best' at h hcase
    obtain ⟨r1, r2, r3⟩ := ih h (by
      intro d m e
      rcases hcase with ⟨e', _⟩ | ⟨e', _⟩
      · rw [e'] at e; have := hb d m e; omega
      · rw [e'] at e; simp only [Option.some.injEq, Prod.mk.injEq] at e; omega)
    refine ⟨?_, ?_, ?_⟩
    · rcases r1 with r1 | ⟨k, hk, r1⟩
      · rcases hcase with ⟨e', _⟩ | ⟨e', h0, hs, _⟩
        · exact .inl (e' ▸ r1)
        · rw [e'] at r1
          simp only [Option.some.injEq, Prod.mk.injEq] at r1
          obtain ⟨rfl, rfl⟩ := r1
          exact .inr ⟨0, by simp, by simp, by simp, h0, hs⟩
      · exact .inr ⟨k + 1, by simpa using hk, by omega, by simpa using r1.2.1, r1.2.2⟩
    · intro d m e
      rcases hcase with ⟨e', _⟩ | ⟨e', h0, hs, hlt⟩
      · exact r2 d m (e' ▸ e)
      · have := hlt d m e
        have := r2 _ _ e'
        omega
    · intro k hk h0 hs
      cases k with
      | zero =>
        simp only [List.getElem_cons_zero, Nat.add_zero] at h0 hs ⊢
        rcases hcase with ⟨e', hx⟩ | ⟨e', _⟩
        · rcases hx with hx | hx | ⟨d, m, e, hx⟩
          · exact absurd hx h0
          · exact absurd hx hs
          · have := r2 d m (e'.trans e)
            have := hb d m e
            omega
        · exact r2 _ _ e'
      | succ k =>
        have hs' : skip ≠ some (i + 1 + k) := by rwa [show i + 1 + k = i + (k + 1) by omega]
        have hk' : k < xs.length := by simpa using hk
        have := r3 k hk' (by simpa using h0) hs'
        simp only [List.getElem_cons_succ]; omega

/-- The scan finds nothing only where nothing is eligible. -/
theorem lightest_none {skip : Option Nat} {xs : List ENode} {i : Nat} {best : Option (Nat × Nat)}
    (h : lightest skip i best xs = none) :
    best = none ∧ ∀ k, ∀ hk : k < xs.length, xs[k].count.toNat = 0 ∨ skip = some (i + k) := by
  induction xs generalizing i best with
  | nil => simp only [lightest] at h; simp [h]
  | cons x xs ih =>
    simp only [lightest] at h
    obtain ⟨r1, r2⟩ := ih h
    have hc : best = none ∧ (x.count.toNat = 0 ∨ skip = some i) := by
      rcases better_cases skip i x best with ⟨e, hx⟩ | ⟨e, _⟩
      · rw [e] at r1
        subst r1; simpa using hx
      · rw [e] at r1; simp at r1
    refine ⟨hc.1, fun k hk => ?_⟩
    cases k with
    | zero => simpa using hc.2
    | succ k =>
      have := r2 k (by simpa using hk)
      rwa [show i + 1 + k = i + (k + 1) by omega] at this

/-! ### Reading the tables -/

theorem Encoder.nodeAt_eq {e : Encoder} {i : Nat} (h : i < e.enode.length) : e.nodeAt i = e.enode[i] := by
  simp [Encoder.nodeAt, List.getD, h]

theorem Encoder.merge_nodeAt {e : Encoder} {n1 n2 i : Nat} (hl : e.enode.length = Config.maxTreeNodes)
    (h1 : n1 < e.next.toNat) (h2 : n2 < e.next.toNat)
    (hi : i < Config.maxTreeNodes) :
    (e.merge n1 n2).nodeAt i =
      if i = e.next.toNat then
        ⟨(e.nodeAt n1).count + (e.nodeAt n2).count, internalSymbol, BitVec.ofNat 16 n1, BitVec.ofNat 16 n2⟩
      else if i = n1 ∨ i = n2 then { e.nodeAt i with count := 0#64 } else e.nodeAt i := by
  have hlen : (e.merge n1 n2).enode.length = Config.maxTreeNodes := by simp [Encoder.merge, consume, hl]
  rw [Encoder.nodeAt_eq (by omega)]
  simp only [Encoder.merge, consume, List.getElem_modify, List.getElem_set]
  by_cases hin : e.next.toNat = i
  · subst hin
    rw [if_neg (by omega), if_neg (by omega), if_pos rfl, if_pos rfl]
  · rw [if_neg (Ne.symm hin), if_neg hin, Encoder.nodeAt_eq (by omega : i < e.enode.length)]
    by_cases h1i : n1 = i <;> by_cases h2i : n2 = i
    · rw [if_pos h2i, if_pos h1i, if_pos (.inl h1i.symm)]
    · rw [if_neg h2i, if_pos h1i, if_pos (.inl h1i.symm)]
    · rw [if_pos h2i, if_neg h1i, if_pos (.inr h2i.symm)]
    · rw [if_neg h2i, if_neg h1i, if_neg (by tauto)]

@[simp] theorem Encoder.merge_sym (e : Encoder) (n1 n2 : Nat) : (e.merge n1 n2).sym = e.sym := rfl
@[simp] theorem Encoder.merge_next (e : Encoder) (n1 n2 : Nat) : (e.merge n1 n2).next = e.next + 1#10 := rfl
@[simp] theorem Encoder.merge_root (e : Encoder) (n1 n2 : Nat) : (e.merge n1 n2).root = e.next.setWidth 16 := rfl
@[simp] theorem Encoder.merge_treeValid (e : Encoder) (n1 n2 : Nat) : (e.merge n1 n2).treeValid = e.treeValid := rfl
@[simp] theorem Encoder.merge_codesValid (e : Encoder) (n1 n2 : Nat) : (e.merge n1 n2).codesValid = e.codesValid := rfl
@[simp] theorem Encoder.merge_enode_length (e : Encoder) (n1 n2 : Nat) :
    (e.merge n1 n2).enode.length = e.enode.length := by simp [Encoder.merge, consume]

/-- A turn of the loop is a merge of two entries or, with fewer than two eligible, nothing. -/
theorem Encoder.mergeTurn_cases (e : Encoder) : e.mergeTurn = e ∨ ∃ n1 n2, e.mergeTurn = e.merge n1 n2 := by
  unfold Encoder.mergeTurn
  split
  · exact .inl rfl
  · split
    · exact .inl rfl
    · exact .inr ⟨_, _, rfl⟩

/-! ### The forest -/

/-- `ENODE` holds a tree whose entries all lie below `m`. -/
def Encoder.rooted (e : Encoder) (m : Nat) : HTree → Nat → Prop
  | .leaf x, n => n < m ∧ (e.nodeAt n).symbol = BitVec.ofNat 16 x ∧ x ≤ 260
  | .node a b, n =>
    n < m ∧ (e.nodeAt n).symbol = internalSymbol ∧ e.rooted m a (e.nodeAt n).childA.toNat ∧
    e.rooted m b (e.nodeAt n).childB.toNat

theorem Encoder.rooted_lt {e : Encoder} {m n : Nat} {t : HTree} (h : e.rooted m t n) : n < m := by
  cases t <;> exact h.1

theorem Encoder.holds_of_rooted {e : Encoder} {m n : Nat} {t : HTree} (h : e.rooted m t n) : e.holds t n := by
  induction t generalizing n with
  | leaf x => exact h.2
  | node a b iha ihb => exact ⟨h.2.1, iha h.2.2.1, ihb h.2.2.2⟩

/-- A tree stays where the symbols and children of the entries below `m` stay. -/
theorem Encoder.rooted_mono {e e' : Encoder} {m m' n : Nat} {t : HTree} (h : e.rooted m t n) (hm : m ≤ m')
    (hs : ∀ i < m, (e'.nodeAt i).symbol = (e.nodeAt i).symbol ∧ (e'.nodeAt i).childA = (e.nodeAt i).childA ∧
      (e'.nodeAt i).childB = (e.nodeAt i).childB) : e'.rooted m' t n := by
  induction t generalizing n with
  | leaf x => exact ⟨by have := h.1; omega, (hs n h.1).1 ▸ h.2.1, h.2.2⟩
  | node a b iha ihb =>
    obtain ⟨h1, h2, h3, h4⟩ := h
    obtain ⟨s1, s2, s3⟩ := hs n h1
    exact ⟨by omega, s1 ▸ h2, s2.symm ▸ iha h3, s3.symm ▸ ihb h4⟩

/-- The eligible entries are the roots of a forest, and their counts add up to `total`. -/
structure Encoder.Forest (e : Encoder) (f : List (Nat × HTree)) (total : Nat) : Prop where
  length : e.enode.length = Config.maxTreeNodes
  next : e.next.toNat ≤ Config.maxTreeNodes
  rooted : ∀ p ∈ f, e.rooted e.next.toNat p.2 p.1
  eligible : ∀ i < e.next.toNat, (e.nodeAt i).count.toNat ≠ 0 ↔ i ∈ f.map Prod.fst
  nodup : (f.map Prod.fst).Nodup
  sum : (f.map fun p => (e.nodeAt p.1).count.toNat).sum = total
  bound : total < 2 ^ 64

/-- A turn on a forest of two trees or more joins the two lightest. -/
theorem Encoder.Forest.turn {e : Encoder} {f : List (Nat × HTree)} {total : Nat} (h : e.Forest f total)
    (h2 : 2 ≤ f.length) (hn : e.next.toNat < Config.maxTreeNodes) :
    ∃ n1 t1 n2 t2 rest, f.Perm ((n1, t1) :: (n2, t2) :: rest) ∧ e.mergeTurn = e.merge n1 n2 ∧
      (e.mergeTurn).Forest ((e.next.toNat, .node t1 t2) :: rest) total := by
  have hlen := h.length
  have hsl : e.scanned.length = e.next.toNat := by
    simp only [Encoder.scanned, List.length_take]; omega
  have hsg : ∀ k, ∀ hk : k < e.scanned.length, e.scanned[k] = e.nodeAt k := by
    intro k hk
    rw [Encoder.nodeAt_eq (by omega)]; simp [Encoder.scanned]
  have hlt : ∀ p ∈ f, p.1 < e.next.toNat := fun p hp => Encoder.rooted_lt (h.rooted p hp)
  -- the lightest entry
  obtain ⟨⟨c1, n1⟩, e1⟩ : ∃ p, e.first = some p := by
    cases e1 : e.first with
    | some p => exact ⟨p, rfl⟩
    | none =>
      exfalso
      obtain ⟨_, r⟩ := lightest_none e1
      obtain ⟨p, hp⟩ : ∃ p, p ∈ f := by
        cases f with
        | nil => simp at h2
        | cons p f => exact ⟨p, by simp⟩
      have hp1 := hlt p hp
      have := r p.1 (by omega)
      rw [hsg] at this
      simp only [reduceCtorEq, or_false] at this
      exact (h.eligible p.1 hp1).2 (List.mem_map_of_mem hp) this
  obtain ⟨s1, -, -⟩ := lightest_some e1 (by simp)
  simp only [reduceCtorEq, false_or, Nat.zero_add] at s1
  obtain ⟨k1, hk1, rfl, hc1, hc1', -⟩ := s1
  rw [hsg] at hc1
  have hm1 := (h.eligible n1 (by omega)).1 (by omega)
  obtain ⟨⟨n1', t1⟩, hp1, e1'⟩ := List.mem_map.1 hm1
  simp only at e1'
  have e1' := e1'.symm
  subst e1'
  obtain ⟨f1, f2, rfl⟩ := List.append_of_mem hp1
  have hperm1 : (f1 ++ (n1, t1) :: f2).Perm ((n1, t1) :: (f1 ++ f2)) := List.perm_middle
  have hnd1 := h.nodup.perm (hperm1.map Prod.fst)
  simp only [List.map_cons, List.nodup_cons] at hnd1
  have hr0 : 1 ≤ (f1 ++ f2).length := by
    have := hperm1.length_eq; simp only [List.length_cons] at this; omega
  -- the lightest of the rest
  obtain ⟨⟨c2, n2⟩, e2⟩ : ∃ p, e.second n1 = some p := by
    cases e2 : e.second n1 with
    | some p => exact ⟨p, rfl⟩
    | none =>
      exfalso
      obtain ⟨_, r⟩ := lightest_none e2
      obtain ⟨p, hp⟩ : ∃ p, p ∈ f1 ++ f2 := by
        cases hf : f1 ++ f2 with
        | nil => rw [hf] at hr0; simp at hr0
        | cons p f => exact ⟨p, by simp⟩
      have hpf : p ∈ f1 ++ (n1, t1) :: f2 := hperm1.mem_iff.2 (List.mem_cons_of_mem _ hp)
      have hp1' := hlt p hpf
      have := r p.1 (by omega)
      rw [hsg, Nat.zero_add, Option.some.injEq] at this
      rcases this with this | this
      · exact (h.eligible p.1 hp1').2 (List.mem_map_of_mem hpf) this
      · exact hnd1.1 (this ▸ List.mem_map_of_mem hp)
  obtain ⟨s2, -, -⟩ := lightest_some e2 (by simp)
  simp only [reduceCtorEq, false_or, Nat.zero_add] at s2
  obtain ⟨k2, hk2, rfl, hc2, hc2', hne⟩ := s2
  rw [hsg] at hc2
  have hne' : n1 ≠ n2 := fun hx => hne (by rw [hx])
  have hm2 := (h.eligible n2 (by omega)).1 (by omega)
  rw [(hperm1.map Prod.fst).mem_iff, List.map_cons, List.mem_cons] at hm2
  obtain ⟨⟨n2', t2⟩, hp2, e2'⟩ := List.mem_map.1 (hm2.resolve_left (Ne.symm hne'))
  simp only at e2'
  have e2' := e2'.symm
  subst e2'
  obtain ⟨g1, g2, hg⟩ := List.append_of_mem hp2
  have hperm : (f1 ++ (n1, t1) :: f2).Perm ((n1, t1) :: (n2, t2) :: (g1 ++ g2)) :=
    hperm1.trans (by rw [hg]; exact List.perm_middle.cons _)
  have hturn : e.mergeTurn = e.merge n1 n2 := by simp [Encoder.mergeTurn, e1, e2]
  have hnd := h.nodup.perm (hperm.map Prod.fst)
  simp only [List.map_cons, List.nodup_cons, List.mem_cons, not_or] at hnd
  have hsum := h.sum
  rw [(hperm.map fun p => (e.nodeAt p.1).count.toNat).sum_eq] at hsum
  simp only [List.map_cons, List.sum_cons] at hsum
  have hb := h.bound
  have hn1 : n1 < e.next.toNat := by omega
  have hn2 : n2 < e.next.toNat := by omega
  have hnext : (e.next + 1#10).toNat = e.next.toNat + 1 := by
    rw [BitVec.toNat_add]; simp only [BitVec.toNat_ofNat]
    simp only [Config.maxTreeNodes] at hn; omega
  have hat := fun i hi => Encoder.merge_nodeAt (i := i) hlen hn1 hn2 hi
  have hold : ∀ i < e.next.toNat, ((e.merge n1 n2).nodeAt i).symbol = (e.nodeAt i).symbol ∧
      ((e.merge n1 n2).nodeAt i).childA = (e.nodeAt i).childA ∧
      ((e.merge n1 n2).nodeAt i).childB = (e.nodeAt i).childB := by
    intro i hi
    rw [hat i (by omega), if_neg (by omega)]
    split <;> exact ⟨rfl, rfl, rfl⟩
  have hrest : ∀ p ∈ g1 ++ g2, p ∈ f1 ++ (n1, t1) :: f2 := fun p hp =>
    hperm.mem_iff.2 (List.mem_cons_of_mem _ (List.mem_cons_of_mem _ hp))
  have hcount : ∀ p ∈ g1 ++ g2, (e.merge n1 n2).nodeAt p.1 = e.nodeAt p.1 := by
    intro p hp
    have hpl := hlt p (hrest p hp)
    rw [hat p.1 (by omega), if_neg (by omega), if_neg]
    rintro (hx | hx)
    · exact hnd.1.2 (hx ▸ List.mem_map_of_mem hp)
    · exact hnd.2.1 (hx ▸ List.mem_map_of_mem hp)
  have hnew : (e.merge n1 n2).nodeAt e.next.toNat =
      ⟨(e.nodeAt n1).count + (e.nodeAt n2).count, internalSymbol, BitVec.ofNat 16 n1, BitVec.ofNat 16 n2⟩ := by
    rw [hat _ hn, if_pos rfl]
  have hnewc : ((e.nodeAt n1).count + (e.nodeAt n2).count).toNat =
      (e.nodeAt n1).count.toNat + (e.nodeAt n2).count.toNat := by
    rw [BitVec.toNat_add, Nat.mod_eq_of_lt]; omega
  refine ⟨n1, t1, n2, t2, g1 ++ g2, hperm, hturn, ?_⟩
  rw [hturn]
  refine ⟨by simpa using hlen, by simp only [Encoder.merge_next, hnext]; omega, fun p hp => ?_, fun i hi => ?_, ?_, ?_, hb⟩
  · simp only [Encoder.merge_next, hnext]
    rcases List.mem_cons.1 hp with rfl | hp
    · refine ⟨by omega, by rw [hnew], ?_, ?_⟩
      · rw [hnew]
        simp only [BitVec.toNat_ofNat]
        rw [Nat.mod_eq_of_lt (by simp only [Config.maxTreeNodes] at hn; omega)]
        exact Encoder.rooted_mono (h.rooted _ hp1) (by omega) hold
      · rw [hnew]
        simp only [BitVec.toNat_ofNat]
        rw [Nat.mod_eq_of_lt (by simp only [Config.maxTreeNodes] at hn; omega)]
        exact Encoder.rooted_mono (h.rooted (n2, t2) (hperm.mem_iff.2 (by simp))) (by omega) hold
    · exact Encoder.rooted_mono (h.rooted p (hrest p hp)) (by omega) hold
  · simp only [Encoder.merge_next, hnext] at hi
    rw [List.map_cons, List.mem_cons]
    by_cases hin : i = e.next.toNat
    · subst hin
      rw [hnew]; simp only [hnewc, true_or, iff_true]; omega
    · rw [hat i (by omega), if_neg hin]
      have hel := h.eligible i (by omega)
      rw [(hperm.map Prod.fst).mem_iff] at hel
      simp only [List.map_cons, List.mem_cons] at hel
      by_cases hc : i = n1 ∨ i = n2
      · rw [if_pos hc]
        simp only [BitVec.toNat_ofNat, Nat.zero_mod, ne_eq, not_true_eq_false, false_iff, not_or]
        refine ⟨hin, fun hm => ?_⟩
        rcases hc with rfl | rfl
        · exact hnd.1.2 hm
        · exact hnd.2.1 hm
      · rw [if_neg hc, hel]; rw [not_or] at hc; tauto
  · rw [List.map_cons, List.nodup_cons]
    refine ⟨fun hm => ?_, hnd.2.2⟩
    obtain ⟨p, hp, hpe⟩ := List.mem_map.1 hm
    have := hlt p (hrest p hp)
    omega
  · rw [List.map_cons, List.sum_cons, hnew]
    simp only [hnewc]
    rw [List.map_congr_left (fun p hp => by rw [hcount p hp])]
    rw [← hsum]; simp only [Nat.add_assoc]

/-! ### The whole build -/

theorem Encoder.mergeTurn_sym (e : Encoder) : e.mergeTurn.sym = e.sym := by
  rcases e.mergeTurn_cases with h | ⟨_, _, h⟩ <;> rw [h]; rfl

theorem Encoder.mergeTurn_flags (e : Encoder) :
    e.mergeTurn.treeValid = e.treeValid ∧ e.mergeTurn.codesValid = e.codesValid := by
  rcases e.mergeTurn_cases with h | ⟨_, _, h⟩ <;> rw [h] <;> exact ⟨rfl, rfl⟩

theorem Encoder.mergeTurns_sym (n : Nat) (e : Encoder) : (Encoder.mergeTurns n e).sym = e.sym := by
  induction n generalizing e with
  | zero => rfl
  | succ n ih => rw [Encoder.mergeTurns, ih, Encoder.mergeTurn_sym]

theorem Encoder.mergeTurns_flags (n : Nat) (e : Encoder) :
    (Encoder.mergeTurns n e).treeValid = e.treeValid ∧ (Encoder.mergeTurns n e).codesValid = e.codesValid := by
  induction n generalizing e with
  | zero => exact ⟨rfl, rfl⟩
  | succ n ih =>
    rw [Encoder.mergeTurns, (ih _).1, (ih _).2]; exact e.mergeTurn_flags

/-- `n` turns on a forest of `n + 1` trees leave one tree, over the same symbols, with the sum of all counts (R143). -/
theorem Encoder.Forest.turns {total : Nat} (n : Nat) {e : Encoder} {f : List (Nat × HTree)} (h : e.Forest f total)
    (hf : f.length = n + 1) (hn : e.next.toNat + n ≤ Config.maxTreeNodes) :
    ∃ r t, (Encoder.mergeTurns n e).Forest [(r, t)] total ∧ (Encoder.mergeTurns n e).next.toNat = e.next.toNat + n ∧
      t.symbols.Perm (f.flatMap fun p => p.2.symbols) ∧
      (0 < n → r + 1 = e.next.toNat + n ∧ (Encoder.mergeTurns n e).root = BitVec.ofNat 16 r ∧ ∃ a b, t = .node a b) := by
  induction n generalizing e f with
  | zero =>
    obtain ⟨⟨r, t⟩, rfl⟩ := List.length_eq_one_iff.1 hf
    exact ⟨r, t, h, rfl, by simp, fun h => absurd h (by omega)⟩
  | succ n ih =>
    obtain ⟨n1, t1, n2, t2, rest, hp, ht, hF⟩ := h.turn (by omega) (by omega)
    have hnext : e.mergeTurn.next.toNat = e.next.toNat + 1 := by
      rw [ht, Encoder.merge_next, BitVec.toNat_add]; simp only [BitVec.toNat_ofNat]
      simp only [Config.maxTreeNodes] at hn; omega
    have hlen := hp.length_eq
    simp only [List.length_cons] at hlen
    have hsyms : (HTree.node t1 t2).symbols ++ rest.flatMap (fun p => p.2.symbols) =
        (((n1, t1) :: (n2, t2) :: rest).flatMap fun p => p.2.symbols) := by
      simp [HTree.symbols]
    have hroot : e.mergeTurn.root = BitVec.ofNat 16 e.next.toNat := by
      rw [ht, Encoder.merge_root]
      refine BitVec.eq_of_toNat_eq ?_
      simp
    cases n with
    | zero =>
      obtain rfl : rest = [] := List.eq_nil_of_length_eq_zero (by omega)
      refine ⟨_, _, hF, by rw [Encoder.mergeTurns, Encoder.mergeTurns, hnext], ?_, fun _ => ⟨rfl, hroot, _, _, rfl⟩⟩
      refine List.Perm.trans ?_ (hp.flatMap_right _).symm
      rw [← hsyms]; simp
    | succ n =>
      obtain ⟨r, t, r1, r2, r3, r4⟩ := ih hF (by simp only [List.length_cons]; omega) (by omega)
      obtain ⟨q1, q2, q3⟩ := r4 (by omega)
      refine ⟨r, t, r1, by rw [Encoder.mergeTurns, r2]; omega, r3.trans ?_, fun _ => ⟨by omega, q2, q3⟩⟩
      refine List.Perm.trans ?_ (hp.flatMap_right _).symm
      rw [← hsyms]; simp

/-! ### The start of the build -/

theorem Encoder.initialNodes_length (e : Encoder) : e.initialNodes.length = Config.maxTreeNodes := by
  simp only [Encoder.initialNodes, List.length_append, List.length_map, List.length_range, List.length_replicate]
  decide

theorem Encoder.initial_nodeAt_leaf (e : Encoder) {i : Nat} (h : i < Config.nsym) :
    e.initial.nodeAt i = ⟨(e.symAt i).count.setWidth 64, BitVec.ofNat 16 i, Config.none16, Config.none16⟩ := by
  have hi : i < e.initial.enode.length := by
    rw [show e.initial.enode = e.initialNodes from rfl, e.initialNodes_length]
    simp only [Config.nsym, Config.maxTreeNodes] at *; omega
  rw [Encoder.nodeAt_eq hi]
  simp only [Encoder.initial, Encoder.initialNodes]
  rw [List.getElem_append_left (by simpa using h)]
  simp

theorem Encoder.initial_nodeAt_inner (e : Encoder) {i : Nat} (h : Config.nsym ≤ i) (h' : i < Config.maxTreeNodes) :
    e.initial.nodeAt i = ⟨0#64, internalSymbol, Config.none16, Config.none16⟩ := by
  have hi : i < e.initial.enode.length := by
    rw [show e.initial.enode = e.initialNodes from rfl, e.initialNodes_length]; exact h'
  rw [Encoder.nodeAt_eq hi]
  simp only [Encoder.initial, Encoder.initialNodes]
  rw [List.getElem_append_right (by simpa using h)]
  simp

theorem Encoder.mem_used {e : Encoder} {i : Nat} : i ∈ e.used ↔ i < Config.nsym ∧ (e.symAt i).count.toNat ≠ 0 := by
  simp [Encoder.used, Nat.pos_iff_ne_zero]

theorem Encoder.used_nodup (e : Encoder) : e.used.Nodup := List.nodup_range.filter _

theorem Encoder.used_length_le (e : Encoder) : e.used.length ≤ Config.nsym := by
  have := List.length_filter_le (fun i => decide (0 < (e.symAt i).count.toNat)) (List.range Config.nsym)
  simpa [Encoder.used] using this

/-- The counts of all symbols in use, added up exactly. -/
def Encoder.total (e : Encoder) : Nat := (e.used.map fun i => (e.symAt i).count.toNat).sum

theorem Encoder.total_lt (e : Encoder) : e.total < 2 ^ 41 := by
  have h : ∀ l : List Nat, (l.map fun i => (e.symAt i).count.toNat).sum ≤ l.length * (2 ^ 32 - 1) := by
    intro l
    induction l with
    | nil => simp
    | cons i l ih =>
      have := (e.symAt i).count.isLt
      simp only [List.map_cons, List.sum_cons, List.length_cons]; omega
  have h1 := h e.used
  have h2 := e.used_length_le
  simp only [Config.nsym] at h2
  unfold Encoder.total; omega

/-- Before the loop the eligible entries are the leaves of the symbols in use (R140). -/
theorem Encoder.initial_forest (e : Encoder) :
    e.initial.Forest (e.used.map fun i => (i, .leaf i)) e.total := by
  have hmap : (e.used.map fun i => (i, HTree.leaf i)).map Prod.fst = e.used := by
    rw [List.map_map]; exact List.map_id _
  have hnx : e.initial.next.toNat = Config.nsym := rfl
  have hle : Config.nsym ≤ Config.maxTreeNodes := by decide
  refine ⟨e.initialNodes_length, hle, fun p hp => ?_, fun i hi => ?_, ?_, ?_, ?_⟩
  · obtain ⟨i, hi, rfl⟩ := List.mem_map.1 hp
    have hi' := (Encoder.mem_used.1 hi).1
    refine ⟨by rw [hnx]; exact hi', by rw [e.initial_nodeAt_leaf hi'], ?_⟩
    simp only [Config.nsym] at hi'; omega
  · rw [hnx] at hi
    rw [hmap, Encoder.mem_used, e.initial_nodeAt_leaf hi]
    have := (e.symAt i).count.isLt
    simp only [BitVec.toNat_setWidth, Nat.mod_eq_of_lt (show (e.symAt i).count.toNat < 2 ^ 64 by omega)]
    tauto
  · rw [hmap]; exact e.used_nodup
  · rw [Encoder.total, List.map_map]
    refine congrArg List.sum (List.map_congr_left fun i hi => ?_)
    have hi' := (Encoder.mem_used.1 hi).1
    have := (e.symAt i).count.isLt
    simp only [Function.comp, e.initial_nodeAt_leaf hi', BitVec.toNat_setWidth]
    exact Nat.mod_eq_of_lt (by omega)
  · have := e.total_lt; omega

@[simp] theorem Encoder.treeBuild_sym (e : Encoder) : e.treeBuild.sym = e.sym := by
  rw [Encoder.treeBuild, Encoder.mergeTurns_sym]; rfl

@[simp] theorem Encoder.treeBuild_treeValid (e : Encoder) : e.treeBuild.treeValid = true := by
  rw [Encoder.treeBuild, (Encoder.mergeTurns_flags _ _).1]; rfl

@[simp] theorem Encoder.treeBuild_codesValid (e : Encoder) : e.treeBuild.codesValid = false := by
  rw [Encoder.treeBuild, (Encoder.mergeTurns_flags _ _).2]; rfl

/-- With symbols in use the build ends in one tree over exactly these, whose root carries the sum of all counts and is the
only eligible entry left (R143, R145). -/
theorem Encoder.treeBuild_tree (e : Encoder) (h : e.used ≠ []) :
    ∃ t, e.treeBuild.Forest [(e.treeBuild.root.toNat, t)] e.total ∧ t.symbols.Perm e.used ∧
      e.treeBuild.next.toNat = Config.nsym + (e.used.length - 1) ∧ (2 ≤ e.used.length → ∃ a b, t = .node a b) := by
  have hpos : 0 < e.used.length := List.length_pos_iff.2 h
  have hle := e.used_length_le
  have hnx : e.initial.next.toNat = Config.nsym := rfl
  obtain ⟨r, t, r1, r2, r3, r4⟩ := e.initial_forest.turns (e.used.length - 1) (by simp; omega)
    (by rw [hnx]; simp only [Config.nsym, Config.maxTreeNodes] at *; omega)
  have hsy : ((e.used.map fun i => (i, HTree.leaf i)).flatMap fun p => p.2.symbols) = e.used := by
    rw [List.flatMap_map]; simp [HTree.symbols]
  rw [hsy] at r3
  rw [hnx] at r2 r4
  have hroot : e.treeBuild.root.toNat = r := by
    by_cases h1 : e.used.length = 1
    · obtain ⟨i, hi⟩ := List.length_eq_one_iff.1 h1
      have hiu := (Encoder.mem_used.1 (show i ∈ e.used by simp [hi])).1
      have ht : e.treeBuild = e.initial := by rw [Encoder.treeBuild, h1]; rfl
      have hr : e.initial.root = BitVec.ofNat 16 i := by simp [Encoder.initial, hi]
      rw [ht, hr, BitVec.toNat_ofNat, Nat.mod_eq_of_lt (by simp only [Config.nsym] at hiu; omega)]
      rw [h1] at r1
      have hmem := r1.eligible i (by rw [show Encoder.mergeTurns (1 - 1) e.initial = e.initial from rfl, hnx]; exact hiu)
      have hini := e.initial_forest.eligible i (by rw [hnx]; exact hiu)
      have hin : i ∈ [(r, t)].map Prod.fst :=
        hmem.1 (hini.2 (by simp [hi]))
      simpa using hin
    · obtain ⟨q1, q2, -⟩ := r4 (by omega)
      rw [Encoder.treeBuild, q2, BitVec.toNat_ofNat, Nat.mod_eq_of_lt]
      simp only [Config.nsym] at *; omega
  refine ⟨t, hroot ▸ r1, r3, r2, fun h2 => (r4 (by omega)).2.2⟩

/-- With no symbol in use the tree is empty (R144). -/
theorem Encoder.treeBuild_empty (e : Encoder) (h : e.used = []) :
    e.treeBuild.root = Config.none16 ∧ e.treeBuild.next = 261#10 := by
  have ht : e.treeBuild = e.initial := by rw [Encoder.treeBuild, h]; rfl
  rw [ht]; simp [Encoder.initial, h]

/-- A lone symbol's leaf is the root (R143). -/
theorem Encoder.treeBuild_single (e : Encoder) {i : Nat} (h : e.used = [i]) :
    e.treeBuild.root = BitVec.ofNat 16 i ∧ e.treeBuild.next = 261#10 := by
  have ht : e.treeBuild = e.initial := by rw [Encoder.treeBuild, h]; rfl
  rw [ht]; simp [Encoder.initial, h]

/-- The build leaves the encoder's tables well formed, whatever they were, but for `SYM`, which it does not touch. -/
theorem Encoder.treeBuild_ok {e : Encoder} (h : e.ok) : e.treeBuild.ok := by
  obtain ⟨h1, _, _, h4⟩ := h
  by_cases hu : e.used = []
  · have ht : e.treeBuild = e.initial := by rw [Encoder.treeBuild, hu]; rfl
    rw [ht]
    exact ⟨h1, e.initialNodes_length, show 261 ≤ (261#10).toNat ∧ (261#10).toNat ≤ Config.maxTreeNodes by decide, h4⟩
  · obtain ⟨t, r1, _, r3, _⟩ := e.treeBuild_tree hu
    have := e.used_length_le
    refine ⟨by rw [Encoder.treeBuild_sym]; exact h1, r1.length, ?_, by rw [Encoder.treeBuild_sym]; exact h4⟩
    rw [r3]; simp only [Config.nsym, Config.maxTreeNodes] at *; omega

end Sys2Proof.Machine
end

