-- ==== Sys2Proof/Laws/TreeEmit.lean ====
section
/-! SUPPORT. The laws of tree emission: what it changes, that it appends the description of the tree that `ENODE` holds,
and that it records the codes of the leaves. -/

namespace Sys2Proof.Machine

/-! ### What emission changes -/

/-- Emission changes the writer, `OUT`, and codes in `SYM`. -/
theorem State.emitNode_frame (fuel n : Nat) (code : BitVec 32) (bits : Nat) (s : State) :
    s.emitNode fuel n code bits =
      { s with
        bw := (s.emitNode fuel n code bits).bw
        output := (s.emitNode fuel n code bits).output
        enc := { s.enc with sym := (s.emitNode fuel n code bits).enc.sym } } := by
  induction fuel generalizing n code bits s with
  | zero => rfl
  | succ fuel ih =>
    unfold State.emitNode
    dsimp only
    split
    · rw [State.bwWriteBits_frame, State.bwWriteBits_frame s]; rfl
    · rw [ih, ih _ _ _ (s.bwWriteBits 0 1), State.bwWriteBits_frame s]

@[simp] theorem State.emitNode_enode (fuel n : Nat) (code : BitVec 32) (bits : Nat) (s : State) :
    (s.emitNode fuel n code bits).enc.enode = s.enc.enode := by rw [State.emitNode_frame]

theorem State.emitNode_confined (fuel n : Nat) (code : BitVec 32) (bits : Nat) (s : State) :
    s.Confined (s.emitNode fuel n code bits) := by
  induction fuel generalizing n code bits s with
  | zero => exact .refl s
  | succ fuel ih =>
    unfold State.emitNode
    dsimp only
    split
    · exact ((State.bwWriteBits_confined s _ _).trans (State.bwWriteBits_confined _ _ _)).congr rfl rfl rfl rfl
    · exact (State.bwWriteBits_confined s _ _).trans ((ih _ _ _ _).trans (ih _ _ _ _))

theorem State.emitNode_bw_ok (fuel n : Nat) (code : BitVec 32) (bits : Nat) {s : State} (h : s.bw.ok) :
    (s.emitNode fuel n code bits).bw.ok := by
  induction fuel generalizing n code bits s with
  | zero => exact h
  | succ fuel ih =>
    unfold State.emitNode
    dsimp only
    split
    · exact State.bwWriteBits_ok (State.bwWriteBits_ok h _ _) _ _
    · exact ih _ _ _ (ih _ _ _ (State.bwWriteBits_ok h _ _))

/-- The codes recorded fit their lengths, within the depth that R152 checks. -/
theorem State.emitNode_codes_ok (fuel n : Nat) (code : BitVec 32) (bits : Nat) {s : State}
    (h : ∀ x ∈ s.enc.sym, x.bits.toNat ≤ Config.maxCodeBits ∧ x.code.toNat < 2 ^ x.bits.toNat)
    (hc : code.toNat < 2 ^ bits) (hb : fuel + bits ≤ Config.maxCodeBits + 1 ∨ bits ≤ Config.maxCodeBits ∧
      isLeafSymbol (s.enc.nodeAt n).symbol = true) :
    ∀ x ∈ (s.emitNode fuel n code bits).enc.sym,
      x.bits.toNat ≤ Config.maxCodeBits ∧ x.code.toNat < 2 ^ x.bits.toNat := by
  induction fuel generalizing n code bits s with
  | zero => exact h
  | succ fuel ih =>
    unfold State.emitNode
    dsimp only
    split
    · intro x hx
      rw [State.bwWriteBits_frame, State.bwWriteBits_frame s] at hx
      simp only [Encoder.setCode] at hx
      have hbits : bits ≤ Config.maxCodeBits := by omega
      obtain ⟨i, hi, rfl⟩ := List.mem_iff_getElem.1 hx
      simp only [List.length_modify] at hi
      rw [List.getElem_modify]
      split
      · simp only [BitVec.toNat_ofNat]
        rw [Nat.mod_eq_of_lt (by simp only [Config.maxCodeBits] at hbits; omega)]
        exact ⟨hbits, hc⟩
      · exact h _ (List.getElem_mem _)
    · next hl =>
      have hb' : fuel + 1 + bits ≤ Config.maxCodeBits + 1 := by
        rcases hb with hb | ⟨_, hb⟩
        · exact hb
        · exact absurd hb hl
      have h1 : (s.bwWriteBits 0 1).enc = s.enc := by rw [State.bwWriteBits_frame]
      have hcA : code.toNat < 2 ^ (bits + 1) := by rw [Nat.pow_succ]; omega
      refine ih _ _ _ (ih _ _ _ (by rw [h1]; exact h) hcA (.inl (by omega))) ?_ (.inl (by omega))
      rw [BitVec.toNat_or]
      refine Nat.or_lt_two_pow hcA ?_
      rw [BitVec.toNat_shiftLeft, Nat.shiftLeft_eq]
      refine Nat.lt_of_le_of_lt (Nat.mod_le _ _) ?_
      rw [Nat.pow_succ]
      have := Nat.two_pow_pos bits
      simp only [BitVec.toNat_ofNat]; omega

/-! ### Symbols of nodes -/

theorem isLeafSymbol_ofNat {x : Nat} (h : x ≤ 260) : isLeafSymbol (BitVec.ofNat 16 x) = true := by
  have : (BitVec.ofNat 16 x).toInt = x := by
    rw [BitVec.toInt_eq_toNat_of_lt] <;> simp only [BitVec.toNat_ofNat] <;> omega
  simp [isLeafSymbol, this]

@[simp] theorem isLeafSymbol_internal : isLeafSymbol internalSymbol = false := by decide

theorem HTree.paths_symbols (t : HTree) : t.paths.map Prod.fst = t.symbols := by
  induction t with
  | leaf x => rfl
  | node a b iha ihb =>
    simp only [HTree.paths, HTree.symbols, List.map_append, List.map_map, ← iha, ← ihb]; rfl

theorem HTree.path_length_le {t : HTree} {p : Nat × List Bool} (h : p ∈ t.paths) : p.2.length ≤ t.depth := by
  induction t generalizing p with
  | leaf x =>
    simp only [HTree.paths, List.mem_singleton] at h
    subst h; exact Nat.zero_le _
  | node a b iha ihb =>
    simp only [HTree.paths, List.mem_append, List.mem_map] at h
    rcases h with ⟨q, hq, rfl⟩ | ⟨q, hq, rfl⟩
    · have := iha hq; simp only [List.length_cons, HTree.depth]; omega
    · have := ihb hq; simp only [List.length_cons, HTree.depth]; omega

/-- The depth check of R152 on a tree that `ENODE` holds. -/
theorem Encoder.depthOk_of_holds {e : Encoder} {t : HTree} {n : Nat} (h : e.holds t n) (fuel : Nat) :
    e.depthOk fuel n = decide (t.depth < fuel) := by
  induction t generalizing n fuel with
  | leaf x =>
    cases fuel with
    | zero => rfl
    | succ fuel => simp [Encoder.depthOk, h.1, isLeafSymbol_ofNat h.2, HTree.depth]
  | node a b iha ihb =>
    cases fuel with
    | zero => simp [Encoder.depthOk, HTree.depth]
    | succ fuel =>
      obtain ⟨h1, h2, h3⟩ := h
      simp only [Encoder.depthOk, h1, isLeafSymbol_internal, Bool.false_or, iha h2, ihb h3, HTree.depth]
      rw [← Bool.decide_and]
      congr 1
      simp only [eq_iff_iff]; omega

/-! ### Emission of a tree -/

/-- The recording of one leaf's code, below a node with its own code and depth (R151). -/
def recordCode (code : BitVec 32) (bits : Nat) (sym : List SymEntry) (p : Nat × List Bool) : List SymEntry :=
  sym.modify p.1 fun x =>
    { x with code := code ||| BitVec.ofNat 32 (bitsValue p.2 <<< bits), bits := BitVec.ofNat 6 (bits + p.2.length) }

theorem recordCode_false (code : BitVec 32) (bits : Nat) (sym : List SymEntry) (p : Nat × List Bool) :
    recordCode code bits sym (p.1, false :: p.2) = recordCode code (bits + 1) sym p := by
  have e1 : bitsValue (false :: p.2) <<< bits = bitsValue p.2 <<< (bits + 1) := by
    simp only [bitsValue, Bool.toNat_false, Nat.zero_add, Nat.shiftLeft_eq, Nat.pow_succ]; ring
  have e2 : bits + (false :: p.2).length = bits + 1 + p.2.length := by simp only [List.length_cons]; omega
  simp only [recordCode, e1, e2]

theorem recordCode_true (code : BitVec 32) (bits : Nat) (sym : List SymEntry) (p : Nat × List Bool) :
    recordCode code bits sym (p.1, true :: p.2) = recordCode (code ||| (1#32 <<< bits)) (bits + 1) sym p := by
  have e1 : code ||| BitVec.ofNat 32 (bitsValue (true :: p.2) <<< bits) =
      code ||| 1#32 <<< bits ||| BitVec.ofNat 32 (bitsValue p.2 <<< (bits + 1)) := by
    rw [BitVec.or_assoc]
    congr 1
    refine BitVec.eq_of_getLsbD_eq fun i hi => ?_
    simp only [BitVec.getLsbD_or, BitVec.getLsbD_shiftLeft, BitVec.getLsbD_ofNat, Nat.testBit_shiftLeft,
      testBit_bitsValue, hi, decide_true, Bool.true_and, show i - bits < 32 by omega]
    rcases Nat.lt_trichotomy i bits with h | h | h
    · simp [h, show ¬bits ≤ i by omega, show ¬bits + 1 ≤ i by omega]
    · subst h; simp
    · obtain ⟨k, rfl⟩ : ∃ k, i = bits + (k + 1) := ⟨i - bits - 1, by omega⟩
      have e2 : bits + (k + 1) - bits = k + 1 := by omega
      have e3 : bits + (k + 1) - (bits + 1) = k := by omega
      have h1 : Nat.testBit 1 (k + 1) = false := by simp [Nat.testBit_succ]
      simp only [e2, e3, h1, Bool.and_false, Bool.false_or, List.getD_cons_succ]
      simp only [show bits + (k + 1) ≥ bits by omega, show bits + (k + 1) ≥ bits + 1 by omega, decide_true, Bool.true_and]
  have e2 : bits + (true :: p.2).length = bits + 1 + p.2.length := by simp only [List.length_cons]; omega
  simp only [recordCode, e1, e2]

/-- Emitting a tree that `ENODE` holds writes its description and records the code of every leaf (R150, R151). -/
theorem State.emitNode_of_holds {t : HTree} {fuel n : Nat} {code : BitVec 32} {bits : Nat} {s : State}
    (h : s.enc.holds t n) (hd : t.depth < fuel) (hok : s.bw.ok) :
    s.Writes (s.emitNode fuel n code bits) t.describe ∧
    (s.emitNode fuel n code bits).enc.sym = t.paths.foldl (recordCode code bits) s.enc.sym := by
  induction t generalizing n fuel code bits s with
  | leaf x =>
    obtain ⟨fuel, rfl⟩ : ∃ k, fuel = k + 1 := ⟨fuel - 1, by omega⟩
    have hx : (BitVec.ofNat 16 x).toNat = x := by
      rw [BitVec.toNat_ofNat, Nat.mod_eq_of_lt]; have := h.2; omega
    unfold State.emitNode
    simp only [h.1, isLeafSymbol_ofNat h.2, if_true, hx]
    constructor
    · have w1 := State.bwWriteBits_writes hok 1 1 (by omega)
      have w2 := State.bwWriteBits_writes w1.ok x Config.symbolBits (by decide)
      exact (w1.trans w2).congr rfl rfl rfl rfl
    · rw [State.bwWriteBits_frame, State.bwWriteBits_frame s]
      simp [Encoder.setCode, HTree.paths, recordCode, bitsValue]
  | node a b iha ihb =>
    obtain ⟨fuel, rfl⟩ : ∃ k, fuel = k + 1 := ⟨fuel - 1, by omega⟩
    obtain ⟨h1, h2, h3⟩ := h
    simp only [HTree.depth] at hd
    unfold State.emitNode
    simp only [h1, isLeafSymbol_internal, Bool.false_eq_true, if_false]
    have w1 := State.bwWriteBits_writes hok 0 1 (by omega)
    have e1 : (s.bwWriteBits 0 1).enc = s.enc := by rw [State.bwWriteBits_frame]
    have ra := iha (s := s.bwWriteBits 0 1) (n := (s.enc.nodeAt n).childA.toNat) (code := code) (bits := bits + 1)
      (fuel := fuel) (by rw [e1]; exact h2) (by omega) w1.ok
    have e2 : ((s.bwWriteBits 0 1).emitNode fuel (s.enc.nodeAt n).childA.toNat code (bits + 1)).enc.enode =
        s.enc.enode := by rw [State.emitNode_enode, e1]
    have hb : ∀ {e : Encoder} {t : HTree} {n : Nat}, e.enode = s.enc.enode → s.enc.holds t n → e.holds t n := by
      intro e t
      induction t with
      | leaf x => intro n he hh; exact ⟨by rw [Encoder.nodeAt, he]; exact hh.1, hh.2⟩
      | node a b iha ihb =>
        intro n he hh
        have hn : e.nodeAt n = s.enc.nodeAt n := by rw [Encoder.nodeAt, he]; rfl
        exact ⟨by rw [hn]; exact hh.1, by rw [hn]; exact iha he hh.2.1, by rw [hn]; exact ihb he hh.2.2⟩
    have rb := ihb (s := (s.bwWriteBits 0 1).emitNode fuel (s.enc.nodeAt n).childA.toNat code (bits + 1))
      (n := (s.enc.nodeAt n).childB.toNat) (code := code ||| (1#32 <<< bits)) (bits := bits + 1)
      (fuel := fuel) (hb e2 h3) (by omega) ra.1.ok
    constructor
    · have := w1.trans (ra.1.trans rb.1)
      exact this
    · rw [rb.2, ra.2, e1]
      simp only [HTree.paths, List.foldl_append, List.foldl_map, recordCode_false, recordCode_true]

/-! ### The codes recorded -/

theorem HTree.codes_symbols (t : HTree) : t.codes.map Prod.fst = t.symbols := by
  cases t with
  | leaf x => rfl
  | node a b => exact HTree.paths_symbols _

theorem HTree.code_length {t : HTree} {p : Nat × List Bool} (h : p ∈ t.codes) :
    1 ≤ p.2.length ∧ p.2.length ≤ max 1 t.depth := by
  cases t with
  | leaf x =>
    simp only [HTree.codes, List.mem_singleton] at h
    subst h; simp
  | node a b =>
    have h1 := HTree.path_length_le (t := .node a b) h
    refine ⟨?_, by omega⟩
    simp only [HTree.codes, HTree.paths, List.mem_append, List.mem_map] at h
    rcases h with ⟨q, _, rfl⟩ | ⟨q, _, rfl⟩ <;> simp

theorem HTree.sends_of_codes {t : HTree} {p : Nat × List Bool} (h : p ∈ t.codes) : t.sends p.1 p.2 := by
  cases t with
  | leaf x =>
    simp only [HTree.codes, List.mem_singleton] at h
    subst h; exact ⟨rfl, rfl⟩
  | node a b => exact h

@[simp] theorem recordCode_length (code : BitVec 32) (bits : Nat) (sym : List SymEntry) (p : Nat × List Bool) :
    (recordCode code bits sym p).length = sym.length := by simp [recordCode]

theorem foldl_recordCode_length (code : BitVec 32) (bits : Nat) (ps : List (Nat × List Bool)) (sym : List SymEntry) :
    (ps.foldl (recordCode code bits) sym).length = sym.length := by
  induction ps generalizing sym with
  | nil => rfl
  | cons p ps ih => rw [List.foldl_cons, ih, recordCode_length]

theorem foldl_recordCode_other {code : BitVec 32} {bits : Nat} {ps : List (Nat × List Bool)} {sym : List SymEntry}
    {i : Nat} (h : i ∉ ps.map Prod.fst) (d : SymEntry) :
    (ps.foldl (recordCode code bits) sym).getD i d = sym.getD i d := by
  induction ps generalizing sym with
  | nil => rfl
  | cons p ps ih =>
    simp only [List.map_cons, List.mem_cons, not_or] at h
    rw [List.foldl_cons, ih h.2]
    simp [recordCode, List.getD, Ne.symm h.1]

theorem foldl_recordCode_mem {code : BitVec 32} {bits : Nat} {ps : List (Nat × List Bool)} {sym : List SymEntry}
    (hn : (ps.map Prod.fst).Nodup) {p : Nat × List Bool} (hp : p ∈ ps) (hl : p.1 < sym.length) (d : SymEntry) :
    (ps.foldl (recordCode code bits) sym).getD p.1 d =
      { sym.getD p.1 d with
        code := code ||| BitVec.ofNat 32 (bitsValue p.2 <<< bits), bits := BitVec.ofNat 6 (bits + p.2.length) } := by
  induction ps generalizing sym with
  | nil => simp at hp
  | cons q ps ih =>
    simp only [List.map_cons, List.nodup_cons] at hn
    rw [List.foldl_cons]
    rcases List.mem_cons.1 hp with rfl | hp
    · rw [foldl_recordCode_other hn.1]
      simp [recordCode, List.getD, hl]
    · rw [ih hn.2 hp (by simpa using hl)]
      have hne : q.1 ≠ p.1 := fun he => hn.1 (he ▸ List.mem_map_of_mem hp)
      simp [recordCode, List.getD, hne]

/-! ### `tree_emit` -/

@[simp] theorem Encoder.clearCodes_enode (e : Encoder) : e.clearCodes.enode = e.enode := rfl
@[simp] theorem Encoder.clearCodes_root (e : Encoder) : e.clearCodes.root = e.root := rfl
@[simp] theorem Encoder.clearCodes_nodeAt (e : Encoder) (i : Nat) : e.clearCodes.nodeAt i = e.nodeAt i := rfl
@[simp] theorem Encoder.clearCodes_sym_length (e : Encoder) : e.clearCodes.sym.length = e.sym.length := by
  simp [Encoder.clearCodes]
@[simp] theorem Encoder.clearCodes_symAt (e : Encoder) (i : Nat) :
    e.clearCodes.symAt i = ⟨(e.symAt i).count, 0#32, 0#6⟩ := by
  simp only [Encoder.clearCodes, Encoder.symAt, List.getD, List.getElem?_map]
  cases e.sym[i]? <;> rfl

/-- `tree_emit` by the cases of its root. -/
theorem State.treeEmit_cases (s : State) :
    (s.enc.root = Config.none16 ∧ s.treeEmit = s.cleared.setCodesValid) ∨
    (s.enc.root ≠ Config.none16 ∧ s.treeEmit =
      (s.cleared.emitNode (Config.maxCodeBits + 1) s.enc.root.toNat 0#32 s.enc.startBits).setCodesValid) := by
  unfold State.treeEmit State.emitTree
  rw [show s.cleared.enc.root = s.enc.root from rfl, show s.cleared.enc.startBits = s.enc.startBits from rfl]
  by_cases h : s.enc.root = Config.none16
  · exact .inl ⟨h, by rw [if_pos h]⟩
  · exact .inr ⟨h, by rw [if_neg h]⟩

/-- `tree_emit` changes the writer, `OUT`, `SYM` and `CODES_VALID`, which it sets. -/
theorem State.treeEmit_frame (s : State) :
    s.treeEmit =
      { s with
        bw := s.treeEmit.bw
        output := s.treeEmit.output
        enc := { s.enc with sym := s.treeEmit.enc.sym, codesValid := true } } := by
  rcases s.treeEmit_cases with ⟨_, h⟩ | ⟨_, h⟩
  · rw [h]; rfl
  · rw [h, State.emitNode_frame]; rfl

theorem State.treeEmit_confined (s : State) : s.Confined s.treeEmit := by
  rcases s.treeEmit_cases with ⟨_, h⟩ | ⟨_, h⟩
  · rw [h]; exact ⟨rfl, Nat.le_refl _, .refl _⟩
  · rw [h]; exact (State.emitNode_confined _ _ _ _ s.cleared).congr rfl rfl rfl rfl

theorem State.treeEmit_bw_ok {s : State} (h : s.bw.ok) : s.treeEmit.bw.ok := by
  rcases s.treeEmit_cases with ⟨_, e⟩ | ⟨_, e⟩
  · rw [e]; exact h
  · rw [e]; exact State.emitNode_bw_ok _ _ _ _ (s := s.cleared) h

theorem State.emitNode_sym_length (fuel n : Nat) (code : BitVec 32) (bits : Nat) (s : State) :
    (s.emitNode fuel n code bits).enc.sym.length = s.enc.sym.length := by
  induction fuel generalizing n code bits s with
  | zero => rfl
  | succ fuel ih =>
    unfold State.emitNode
    dsimp only
    split
    · rw [State.bwWriteBits_frame, State.bwWriteBits_frame s]; simp [Encoder.setCode]
    · rw [ih, ih, State.bwWriteBits_frame s]

theorem State.treeEmit_enc_ok {s : State} (h : s.enc.ok) : s.treeEmit.enc.ok := by
  obtain ⟨h1, h2, h3, h4⟩ := h
  have hcl : ∀ x ∈ s.enc.clearCodes.sym, x.bits.toNat ≤ Config.maxCodeBits ∧ x.code.toNat < 2 ^ x.bits.toNat := by
    intro x hx
    simp only [Encoder.clearCodes, List.mem_map] at hx
    obtain ⟨y, _, rfl⟩ := hx
    simp
  rcases s.treeEmit_cases with ⟨_, e⟩ | ⟨_, e⟩
  · rw [e]
    exact ⟨by simpa [State.setCodesValid, State.cleared] using h1, h2, h3, hcl⟩
  · have hf := State.emitNode_frame (Config.maxCodeBits + 1) s.enc.root.toNat 0#32 s.enc.startBits s.cleared
    have hk := State.emitNode_codes_ok (Config.maxCodeBits + 1) s.enc.root.toNat 0#32 s.enc.startBits (s := s.cleared)
      hcl (by have := Nat.two_pow_pos s.enc.startBits; simp)
      (by
        by_cases hl : isLeafSymbol (s.enc.nodeAt s.enc.root.toNat).symbol = true
        · exact .inr ⟨by simp [Encoder.startBits, hl], hl⟩
        · exact .inl (by simp [Encoder.startBits, hl]))
    rw [e]
    refine ⟨?_, ?_, ?_, hk⟩
    · show (s.cleared.emitNode _ _ _ _).enc.sym.length = _
      rw [State.emitNode_sym_length]; simpa [State.cleared] using h1
    · show (s.cleared.emitNode _ _ _ _).enc.enode.length = _
      rw [State.emitNode_enode]; exact h2
    · show 261 ≤ (s.cleared.emitNode _ _ _ _).enc.next.toNat ∧ (s.cleared.emitNode _ _ _ _).enc.next.toNat ≤ _
      rw [hf]; exact h3

/-- Emitting the tree at `ENC_ROOT`: its description is written, and every symbol's code and length are those of its leaf,
all others 0 (R151 to R153). -/
theorem State.treeEmit_of_holds {s : State} {t : HTree} (h : s.enc.holds t s.enc.root.toNat)
    (hr : s.enc.root ≠ Config.none16) (hd : t.depth ≤ Config.maxCodeBits) (hok : s.bw.ok)
    (hl : s.enc.sym.length = Config.nsym) (hs : ∀ x ∈ t.symbols, x ≤ 260) (hn : t.symbols.Nodup) :
    s.Writes s.treeEmit t.describe ∧
    (∀ p ∈ t.codes, s.treeEmit.enc.symAt p.1 =
      ⟨(s.enc.symAt p.1).count, BitVec.ofNat 32 (bitsValue p.2), BitVec.ofNat 6 p.2.length⟩) ∧
    (∀ i, i ∉ t.symbols → s.treeEmit.enc.symAt i = ⟨(s.enc.symAt i).count, 0#32, 0#6⟩) := by
  have hcl : s.cleared.enc.holds t s.enc.root.toNat := by
    have : ∀ {t : HTree} {n : Nat}, s.enc.holds t n → s.cleared.enc.holds t n := by
      intro t
      induction t with
      | leaf x => exact fun hh => hh
      | node a b iha ihb => exact fun hh => ⟨hh.1, iha hh.2.1, ihb hh.2.2⟩
    exact this h
  rcases s.treeEmit_cases with ⟨hx, _⟩ | ⟨_, e⟩
  · exact absurd hx hr
  · obtain ⟨w, hsym⟩ := State.emitNode_of_holds (s := s.cleared) (code := 0#32) (bits := s.enc.startBits) hcl
      (show t.depth < Config.maxCodeBits + 1 by omega) hok
    have hbits : ∀ p ∈ t.paths, ∃ q ∈ t.codes, q.1 = p.1 ∧
        BitVec.ofNat 32 (bitsValue q.2) = 0#32 ||| BitVec.ofNat 32 (bitsValue p.2 <<< s.enc.startBits) ∧
        q.2.length = s.enc.startBits + p.2.length := by
      cases t with
      | leaf x =>
        intro p hp
        have hb : s.enc.startBits = 1 := by simp [Encoder.startBits, h.1, isLeafSymbol_ofNat h.2]
        simp only [HTree.paths, List.mem_singleton] at hp
        subst hp
        exact ⟨(x, [false]), by simp [HTree.codes], rfl, by simp [bitsValue], by rw [hb]; rfl⟩
      | node a b =>
        intro p hp
        have hb : s.enc.startBits = 0 := by simp [Encoder.startBits, h.1]
        exact ⟨p, hp, rfl, by rw [hb]; simp, by rw [hb]; simp⟩
    have hsl : s.cleared.enc.sym.length = Config.nsym := by simpa [State.cleared] using hl
    refine ⟨?_, fun q hq => ?_, fun i hi => ?_⟩
    · rw [e]; exact w.congr rfl rfl rfl rfl
    · -- the path of the same leaf
      have hqs : q.1 ∈ t.paths.map Prod.fst := by
        rw [HTree.paths_symbols, ← HTree.codes_symbols]; exact List.mem_map_of_mem hq
      obtain ⟨p, hp, hpq⟩ := List.mem_map.1 hqs
      obtain ⟨q', hq', e1, e2, e3⟩ := hbits p hp
      have hqq : q' = q := by
        have hnd : (t.codes.map Prod.fst).Nodup := by rw [HTree.codes_symbols]; exact hn
        exact List.inj_on_of_nodup_map hnd hq' hq (e1.trans hpq)
      subst hqq
      have hp1 : p.1 ≤ 260 := hs _ (by rw [← HTree.paths_symbols]; exact List.mem_map_of_mem hp)
      have := foldl_recordCode_mem (code := 0#32) (bits := s.enc.startBits) (sym := s.cleared.enc.sym)
        (by rw [HTree.paths_symbols]; exact hn) hp (by rw [hsl]; simp only [Config.nsym]; omega) ⟨0#32, 0#32, 0#6⟩
      rw [e, ← hpq]
      show (s.cleared.emitNode _ _ _ _).enc.sym.getD p.1 _ = _
      rw [hsym, this, e2, ← e3]
      have hc := s.enc.clearCodes_symAt p.1
      rw [Encoder.symAt] at hc
      rw [show s.cleared.enc.sym = s.enc.clearCodes.sym from rfl, hc]
    · rw [e]
      show (s.cleared.emitNode _ _ _ _).enc.sym.getD i _ = _
      rw [hsym, foldl_recordCode_other (by rw [HTree.paths_symbols]; exact hi)]
      exact s.enc.clearCodes_symAt i

end Sys2Proof.Machine
end

