-- ==== Sys2Proof/Laws/Emit.lean ====
section
/-! SUPPORT. The laws of the histogram and of the symbol emitter. -/

namespace Sys2Proof.Machine

/-! ### The histogram -/

@[simp] theorem countToken_length (sym : List SymEntry) (t : Token) : (countToken sym t).length = sym.length := by
  simp [countToken]

theorem foldl_countToken_length (ts : List Token) (sym : List SymEntry) :
    (ts.foldl countToken sym).length = sym.length := by
  induction ts generalizing sym with
  | nil => rfl
  | cons t ts ih => rw [List.foldl_cons, ih, countToken_length]

/-- Counting adds to each entry the number of its tokens. -/
theorem foldl_countToken_getD (ts : List Token) (sym : List SymEntry) {i : Nat} (hi : i < sym.length) (d : SymEntry) :
    (ts.foldl countToken sym).getD i d =
      { sym.getD i d with
        count := (sym.getD i d).count + BitVec.ofNat 32 (ts.countP fun t => decide (t.sym = i)) } := by
  induction ts generalizing sym with
  | nil => simp
  | cons t ts ih =>
    rw [List.foldl_cons, ih _ (by simpa using hi), List.countP_cons]
    by_cases h : t.sym = i
    · simp only [countToken, List.getD, List.getElem?_modify, h, hi, List.getElem?_eq_getElem, if_true, decide_true,
        Option.map_eq_map, Option.map_some, Option.getD_some]
      congr 1
      rw [BitVec.ofNat_add, BitVec.add_assoc, BitVec.add_comm 1#32]
    · simp [countToken, List.getD, h]

@[simp] theorem State.histogram_sym_length (s : State) (start n : Nat) :
    (s.histogram start n).enc.sym.length = Config.nsym := by
  show ((tokens _).foldl countToken (List.replicate _ _)).length = _
  rw [foldl_countToken_length, List.length_replicate]

/-- After the histogram the entry of a symbol has the number of its tokens, and no code (R172). -/
theorem State.histogram_symAt (s : State) (start n : Nat) {i : Nat} (hi : i < Config.nsym) :
    (s.histogram start n).enc.symAt i =
      ⟨BitVec.ofNat 32 ((tokens (s.inBytes start n)).countP fun t => decide (t.sym = i)), 0#32, 0#6⟩ := by
  show ((tokens _).foldl countToken (List.replicate _ _)).getD i _ = _
  rw [foldl_countToken_getD _ _ (by simpa using hi)]
  simp [List.getD, hi]

theorem State.inBytes_length (s : State) (start n : Nat) : (s.inBytes start n).length = n := by simp [State.inBytes]

/-- The symbols in use after the histogram of a block are those of its tokens. -/
theorem State.histogram_mem_used (s : State) (start : Nat) {n : Nat} (hn : n ≤ Config.maxBlock) (i : Nat) :
    i ∈ (s.histogram start n).enc.used ↔ i ∈ (tokens (s.inBytes start n)).map Token.sym := by
  rw [Encoder.mem_used]
  constructor
  · rintro ⟨hi, hc⟩
    rw [State.histogram_symAt s start n hi] at hc
    have hpos : 0 < (tokens (s.inBytes start n)).countP fun t => decide (t.sym = i) := by
      refine Nat.pos_of_ne_zero fun h0 => hc ?_
      rw [h0]; rfl
    obtain ⟨t, ht, hs⟩ := List.countP_pos_iff.1 hpos
    exact List.mem_map.2 ⟨t, ht, by simpa using hs⟩
  · intro h
    obtain ⟨t, ht, rfl⟩ := List.mem_map.1 h
    have hlt : t.sym < Config.nsym := by
      have := (tokens_legal _ t ht).1; simp only [Config.nsym]; omega
    refine ⟨hlt, ?_⟩
    rw [State.histogram_symAt s start n hlt]
    have hpos : 0 < (tokens (s.inBytes start n)).countP fun u => decide (u.sym = t.sym) :=
      List.countP_pos_iff.2 ⟨t, ht, by simp⟩
    have hle := List.countP_le_length (p := fun u => decide (u.sym = t.sym)) (l := tokens (s.inBytes start n))
    have hle2 := tokens_length_le (s.inBytes start n)
    rw [State.inBytes_length] at hle2
    simp only [BitVec.toNat_ofNat]
    rw [Nat.mod_eq_of_lt (by simp only [Config.maxBlock] at hn; omega)]; omega

theorem State.histogram_enc_ok {s : State} (h : s.enc.ok) (start n : Nat) : (s.histogram start n).enc.ok := by
  refine ⟨State.histogram_sym_length s start n, h.2.1, h.2.2.1, fun x hx => ?_⟩
  obtain ⟨i, hi, rfl⟩ := List.mem_iff_getElem.1 hx
  have hi' : i < Config.nsym := by rwa [State.histogram_sym_length] at hi
  have e := State.histogram_symAt s start n hi'
  rw [Encoder.symAt, List.getD_eq_getElem _ _ hi] at e
  rw [e]; simp

/-! ### The symbol emitter -/

theorem State.emitToken_frame (s : State) (t : Token) :
    s.emitToken t = { s with bw := (s.emitToken t).bw, output := (s.emitToken t).output } := by
  unfold State.emitToken
  dsimp only
  split
  · rw [State.bwWriteBits_frame, State.bwWriteBits_frame s]
  · rw [State.bwWriteBits_frame]

theorem State.foldl_emitToken_frame (ts : List Token) (s : State) :
    ts.foldl State.emitToken s =
      { s with bw := (ts.foldl State.emitToken s).bw, output := (ts.foldl State.emitToken s).output } := by
  induction ts generalizing s with
  | nil => rfl
  | cons t ts ih => rw [List.foldl_cons, ih, State.emitToken_frame]

/-- `sym_emit` changes the writer and `OUT` only. -/
theorem State.symEmit_frame (s : State) (start n : Nat) :
    s.symEmit start n = { s with bw := (s.symEmit start n).bw, output := (s.symEmit start n).output } :=
  State.foldl_emitToken_frame _ s

theorem State.emitToken_confined (s : State) (t : Token) : s.Confined (s.emitToken t) := by
  unfold State.emitToken
  dsimp only
  split
  · exact (State.bwWriteBits_confined s _ _).trans (State.bwWriteBits_confined _ _ _)
  · exact State.bwWriteBits_confined s _ _

theorem State.foldl_emitToken_confined (ts : List Token) (s : State) : s.Confined (ts.foldl State.emitToken s) := by
  induction ts generalizing s with
  | nil => exact .refl s
  | cons t ts ih => exact (State.emitToken_confined s t).trans (ih _)

theorem State.symEmit_confined (s : State) (start n : Nat) : s.Confined (s.symEmit start n) :=
  State.foldl_emitToken_confined _ s

theorem State.emitToken_bw_ok {s : State} (h : s.bw.ok) (t : Token) : (s.emitToken t).bw.ok := by
  unfold State.emitToken
  dsimp only
  split
  · exact State.bwWriteBits_ok (State.bwWriteBits_ok h _ _) _ _
  · exact State.bwWriteBits_ok h _ _

theorem State.symEmit_bw_ok {s : State} (h : s.bw.ok) (start n : Nat) : (s.symEmit start n).bw.ok := by
  unfold State.symEmit
  generalize tokens (s.inBytes start n) = ts
  induction ts generalizing s with
  | nil => exact h
  | cons t ts ih => exact ih (State.emitToken_bw_ok h t)

/-- A token with a code of at most 32 bits: its code, then its suffix, are appended (R173). -/
theorem State.emitToken_writes {s : State} (h : s.bw.ok) {t : Token} (ht : t.legal)
    (hb : (s.enc.symAt t.sym).bits.toNat ≤ 32) : s.Writes (s.emitToken t) (s.enc.tokenBits t) := by
  have hk : t.k ≤ 32 := by rw [ht.2.1]; simp only [suffixBits]; split_ifs <;> omega
  have w1 := State.bwWriteBits_writes h (s.enc.symAt t.sym).code.toNat _ hb
  unfold State.emitToken Encoder.tokenBits
  dsimp only
  split
  · exact w1.trans (State.bwWriteBits_writes w1.ok t.suffix t.k hk)
  · next h0 =>
    rw [show t.k = 0 by omega, show bitsOf t.suffix 0 = [] from rfl, List.append_nil]
    exact w1

theorem State.foldl_emitToken_writes {ts : List Token} {s : State} (h : s.bw.ok) (ht : ∀ t ∈ ts, t.legal)
    (hb : ∀ t ∈ ts, (s.enc.symAt t.sym).bits.toNat ≤ 32) :
    s.Writes (ts.foldl State.emitToken s) (ts.flatMap s.enc.tokenBits) := by
  induction ts generalizing s with
  | nil => exact .nil h
  | cons t ts ih =>
    have w1 := State.emitToken_writes h (ht t (by simp)) (hb t (by simp))
    have he : (s.emitToken t).enc = s.enc := by rw [State.emitToken_frame]
    have w2 := ih (s := s.emitToken t) w1.ok (fun u hu => ht u (by simp [hu]))
      (fun u hu => by rw [he]; exact hb u (by simp [hu]))
    rw [he] at w2
    rw [List.foldl_cons, List.flatMap_cons]
    exact w1.trans w2

/-- `sym_emit` appends the tokens of the range, in order (R173). -/
theorem State.symEmit_writes {s : State} (h : s.bw.ok) (he : s.enc.ok) (start n : Nat) :
    s.Writes (s.symEmit start n) ((tokens (s.inBytes start n)).flatMap s.enc.tokenBits) := by
  refine State.foldl_emitToken_writes h (tokens_legal _) fun t ht => ?_
  have hlt : t.sym < s.enc.sym.length := by
    have := (tokens_legal _ t ht).1; rw [he.1]; simp only [Config.nsym]; omega
  rw [Encoder.symAt, List.getD_eq_getElem _ _ hlt]
  exact (he.2.2.2 _ (List.getElem_mem hlt)).1

/-- Under the codes of a tree, the tokens' bits are what the tree makes of the tokens. -/
theorem HTree.encodes_tokens {t : HTree} {e : Encoder} {ts : List Token}
    (hc : ∀ u ∈ ts, ∃ code, (u.sym, code) ∈ t.codes ∧
      bitsOf (e.symAt u.sym).code.toNat (e.symAt u.sym).bits.toNat = code) :
    t.encodes ts (ts.flatMap e.tokenBits) := by
  induction ts with
  | nil => rfl
  | cons u ts ih =>
    obtain ⟨code, h1, h2⟩ := hc u (by simp)
    refine ⟨code, ts.flatMap e.tokenBits, HTree.sends_of_codes h1, ih fun v hv => hc v (by simp [hv]), ?_⟩
    rw [List.flatMap_cons, Encoder.tokenBits, h2, List.append_assoc]

/-- A code of at most 32 bits is read back from the fields of `SYM` that hold it. -/
theorem bitsOf_code {code : List Bool} (h : code.length ≤ 32) :
    bitsOf (BitVec.ofNat 32 (bitsValue code)).toNat (BitVec.ofNat 6 code.length).toNat = code := by
  have h1 := bitsValue_lt code
  have h2 : 2 ^ code.length ≤ 2 ^ 32 := Nat.pow_le_pow_right (by omega) h
  rw [BitVec.toNat_ofNat, BitVec.toNat_ofNat, Nat.mod_eq_of_lt (by omega), Nat.mod_eq_of_lt (by omega)]
  exact bitsOf_bitsValue code

end Sys2Proof.Machine
end

