-- ==== Sys2Proof/Laws/TreeRecover.lean ====
section
/-! SUPPORT. The laws of tree recovery: what it changes; that a description in the stream is recovered as its tree, with a
lookup table that agrees with it; and that whatever is recovered was a description. -/

namespace Sys2Proof.Machine

/-! ### The tables -/

@[simp] theorem lutFill_length (code bits : Nat) (x : LutEntry) (i : Nat) (l : List LutEntry) :
    (lutFill code bits x i l).length = l.length := by
  induction l generalizing i with
  | nil => rfl
  | cons y ys ih => simp [lutFill, ih]

theorem lutFill_getElem (code bits : Nat) (x : LutEntry) (i : Nat) (l : List LutEntry) (j : Nat)
    (h : j < (lutFill code bits x i l).length) :
    (lutFill code bits x i l)[j] = if (i + j) % 2 ^ bits = code then x else l[j]'(by simpa using h) := by
  induction l generalizing i j with
  | nil => simp [lutFill] at h
  | cons y ys ih =>
    cases j with
    | zero => simp [lutFill]
    | succ j => simp only [lutFill, List.getElem_cons_succ]; rw [ih, show i + 1 + j = i + (j + 1) by omega]

theorem Decoder.nodeAt_eq {d : Decoder} {i : Nat} (h : i < d.dnode.length) : d.nodeAt i = d.dnode[i] := by
  simp [Decoder.nodeAt, List.getD, h]

theorem Decoder.lutAt_eq {d : Decoder} {i : Nat} (h : i < d.lut.length) : d.lutAt i = d.lut[i] := by
  simp [Decoder.lutAt, List.getD, h]

@[simp] theorem Decoder.alloc_dnode_length (d : Decoder) : d.alloc.dnode.length = d.dnode.length := by
  simp [Decoder.alloc]
@[simp] theorem Decoder.alloc_lut (d : Decoder) : d.alloc.lut = d.lut := rfl
@[simp] theorem Decoder.alloc_treeValid (d : Decoder) : d.alloc.treeValid = d.treeValid := rfl
@[simp] theorem Decoder.alloc_lutAt (d : Decoder) (i : Nat) : d.alloc.lutAt i = d.lutAt i := rfl
@[simp] theorem Decoder.setLeaf_count (d : Decoder) (n x c b : Nat) : (d.setLeaf n x c b).count = d.count := rfl
@[simp] theorem Decoder.setLeaf_treeValid (d : Decoder) (n x c b : Nat) :
    (d.setLeaf n x c b).treeValid = d.treeValid := rfl
@[simp] theorem Decoder.setLeaf_dnode_length (d : Decoder) (n x c b : Nat) :
    (d.setLeaf n x c b).dnode.length = d.dnode.length := by simp [Decoder.setLeaf]
@[simp] theorem Decoder.setLeaf_lut_length (d : Decoder) (n x c b : Nat) :
    (d.setLeaf n x c b).lut.length = d.lut.length := by simp only [Decoder.setLeaf]; split <;> simp
@[simp] theorem Decoder.setJump_count (d : Decoder) (n c b : Nat) : (d.setJump n c b).count = d.count := by
  unfold Decoder.setJump; split <;> rfl
@[simp] theorem Decoder.setJump_treeValid (d : Decoder) (n c b : Nat) : (d.setJump n c b).treeValid = d.treeValid := by
  unfold Decoder.setJump; split <;> rfl
@[simp] theorem Decoder.setJump_dnode (d : Decoder) (n c b : Nat) : (d.setJump n c b).dnode = d.dnode := by
  unfold Decoder.setJump; split <;> rfl
@[simp] theorem Decoder.setJump_nodeAt (d : Decoder) (n c b i : Nat) : (d.setJump n c b).nodeAt i = d.nodeAt i := by
  simp [Decoder.nodeAt]
@[simp] theorem Decoder.setJump_lut_length (d : Decoder) (n c b : Nat) :
    (d.setJump n c b).lut.length = d.lut.length := by unfold Decoder.setJump; split <;> simp
@[simp] theorem Decoder.setChildA_count (d : Decoder) (n a : Nat) : (d.setChildA n a).count = d.count := rfl
@[simp] theorem Decoder.setChildA_treeValid (d : Decoder) (n a : Nat) : (d.setChildA n a).treeValid = d.treeValid := rfl
@[simp] theorem Decoder.setChildA_lut (d : Decoder) (n a : Nat) : (d.setChildA n a).lut = d.lut := rfl
@[simp] theorem Decoder.setChildA_lutAt (d : Decoder) (n a i : Nat) : (d.setChildA n a).lutAt i = d.lutAt i := rfl
@[simp] theorem Decoder.setChildA_dnode_length (d : Decoder) (n a : Nat) :
    (d.setChildA n a).dnode.length = d.dnode.length := by simp [Decoder.setChildA]
@[simp] theorem Decoder.setChildB_count (d : Decoder) (n a : Nat) : (d.setChildB n a).count = d.count := rfl
@[simp] theorem Decoder.setChildB_treeValid (d : Decoder) (n a : Nat) : (d.setChildB n a).treeValid = d.treeValid := rfl
@[simp] theorem Decoder.setChildB_lut (d : Decoder) (n a : Nat) : (d.setChildB n a).lut = d.lut := rfl
@[simp] theorem Decoder.setChildB_lutAt (d : Decoder) (n a i : Nat) : (d.setChildB n a).lutAt i = d.lutAt i := rfl
@[simp] theorem Decoder.setChildB_dnode_length (d : Decoder) (n a : Nat) :
    (d.setChildB n a).dnode.length = d.dnode.length := by simp [Decoder.setChildB]

theorem Decoder.alloc_count {d : Decoder} (h : d.count.toNat < Config.maxTreeNodes) :
    d.alloc.count.toNat = d.count.toNat + 1 := by
  simp only [Decoder.alloc, BitVec.toNat_add, BitVec.toNat_ofNat]
  simp only [Config.maxTreeNodes] at h; omega

theorem Decoder.alloc_nodeAt {d : Decoder} {i : Nat} (hl : d.dnode.length = Config.maxTreeNodes)
    (hi : i < Config.maxTreeNodes) :
    d.alloc.nodeAt i =
      if i = d.count.toNat then ⟨internalSymbol, Config.none16, Config.none16⟩ else d.nodeAt i := by
  rw [Decoder.nodeAt_eq (by simpa [hl] using hi), Decoder.nodeAt_eq (by omega : i < d.dnode.length)]
  simp only [Decoder.alloc, List.getElem_set]
  by_cases h : d.count.toNat = i
  · rw [if_pos h, if_pos h.symm]
  · rw [if_neg h, if_neg (Ne.symm h)]

theorem Decoder.setLeaf_nodeAt (d : Decoder) {n x c b i : Nat} (hi : i < d.dnode.length) :
    (d.setLeaf n x c b).nodeAt i =
      if i = n then { d.nodeAt i with symbol := BitVec.ofNat 16 x } else d.nodeAt i := by
  rw [Decoder.nodeAt_eq (by simpa using hi), Decoder.nodeAt_eq hi]
  simp only [Decoder.setLeaf, List.getElem_modify]
  by_cases h : n = i
  · rw [if_pos h, if_pos h.symm]
  · rw [if_neg h, if_neg (Ne.symm h)]

theorem Decoder.setChildA_nodeAt (d : Decoder) {n a i : Nat} (hi : i < d.dnode.length) :
    (d.setChildA n a).nodeAt i =
      if i = n then { d.nodeAt i with childA := BitVec.ofNat 16 a } else d.nodeAt i := by
  rw [Decoder.nodeAt_eq (by simpa using hi), Decoder.nodeAt_eq hi]
  simp only [Decoder.setChildA, List.getElem_modify]
  by_cases h : n = i
  · rw [if_pos h, if_pos h.symm]
  · rw [if_neg h, if_neg (Ne.symm h)]

theorem Decoder.setChildB_nodeAt (d : Decoder) {n a i : Nat} (hi : i < d.dnode.length) :
    (d.setChildB n a).nodeAt i =
      if i = n then { d.nodeAt i with childB := BitVec.ofNat 16 a } else d.nodeAt i := by
  rw [Decoder.nodeAt_eq (by simpa using hi), Decoder.nodeAt_eq hi]
  simp only [Decoder.setChildB, List.getElem_modify]
  by_cases h : n = i
  · rw [if_pos h, if_pos h.symm]
  · rw [if_neg h, if_neg (Ne.symm h)]

theorem Decoder.setLeaf_lutAt (d : Decoder) {n x c b i : Nat} (hi : i < d.lut.length) :
    (d.setLeaf n x c b).lutAt i =
      if b ≤ Config.lutKeyBits ∧ i % 2 ^ b = c then
        ⟨Config.none16, BitVec.ofNat 9 x, BitVec.ofNat 4 (max b 1)⟩
      else d.lutAt i := by
  rw [Decoder.lutAt_eq (by simpa using hi), Decoder.lutAt_eq hi]
  by_cases hb : b ≤ Config.lutKeyBits
  · simp only [Decoder.setLeaf, hb, if_true, lutFill_getElem, Nat.zero_add, true_and]
  · simp only [Decoder.setLeaf, hb, if_false, false_and]

theorem Decoder.setJump_lutAt (d : Decoder) {n c b i : Nat} (hi : i < d.lut.length) :
    (d.setJump n c b).lutAt i =
      if b = Config.lutKeyBits ∧ i = c then ⟨BitVec.ofNat 16 n, 0#9, BitVec.ofNat 4 Config.lutKeyBits⟩
      else d.lutAt i := by
  rw [Decoder.lutAt_eq (by simpa using hi), Decoder.lutAt_eq hi]
  unfold Decoder.setJump
  by_cases hb : b = Config.lutKeyBits
  · simp only [hb, if_true, true_and, List.getElem_set]
    by_cases h : c = i
    · rw [if_pos h, if_pos h.symm]
    · rw [if_neg h, if_neg (Ne.symm h)]
  · simp only [hb, if_false, false_and]

/-! ### The tree and the table -/

theorem HTree.nodes_pos (t : HTree) : 1 ≤ t.nodes := by cases t <;> simp [HTree.nodes]; omega

/-- A tree of `l` leaves has `2 l − 1` nodes (R145 (a)). -/
theorem HTree.nodes_eq (t : HTree) : t.nodes + 1 = 2 * t.symbols.length := by
  induction t with
  | leaf x => rfl
  | node a b iha ihb => simp only [HTree.nodes, HTree.symbols, List.length_append]; omega

theorem HTree.depth_lt_nodes (t : HTree) : t.depth < t.nodes := by
  induction t with
  | leaf x => simp [HTree.depth, HTree.nodes]
  | node a b iha ihb => simp only [HTree.depth, HTree.nodes]; have := a.nodes_pos; have := b.nodes_pos; omega

/-- What the table says of an 8-bit index that passes through the node at entry `n` and depth `depth` (R156, R157). -/
def HTree.entry (key : Nat) : HTree → Nat → Nat → LutEntry
  | .leaf x, depth, _ => ⟨Config.none16, BitVec.ofNat 9 x, BitVec.ofNat 4 (max depth 1)⟩
  | .node a b, depth, n =>
    if 8 ≤ depth then ⟨BitVec.ofNat 16 n, 0#9, 8#4⟩
    else if key.testBit depth then b.entry key (depth + 1) (n + 1 + a.nodes) else a.entry key (depth + 1) (n + 1)

/-- A tree's place in `DNODE` is judged by its own entries. -/
theorem Decoder.holds_congr {d d' : Decoder} {t : HTree} {n : Nat} (h : d.holds t n)
    (hs : ∀ i, n ≤ i → i < n + t.nodes → d'.nodeAt i = d.nodeAt i) : d'.holds t n := by
  induction t generalizing n with
  | leaf x => exact (hs n (Nat.le_refl _) (by simp [HTree.nodes])).trans h
  | node a b iha ihb =>
    obtain ⟨h1, h2, h3⟩ := h
    simp only [HTree.nodes] at hs
    exact ⟨(hs n (Nat.le_refl _) (by omega)).trans h1, iha h2 fun i k1 k2 => hs i (by omega) (by omega),
      ihb h3 fun i k1 k2 => hs i (by omega) (by omega)⟩

/-- What the recovery of a tree at a node reached by `code` at depth `bits` makes of the decoder's tables. -/
structure Decoder.Recovered (d d' : Decoder) (t : HTree) (code bits : Nat) : Prop where
  dnode : d'.dnode.length = d.dnode.length
  lut : d'.lut.length = d.lut.length
  valid : d'.treeValid = d.treeValid
  count : d'.count.toNat = d.count.toNat + t.nodes
  below : ∀ i < d.count.toNat, d'.nodeAt i = d.nodeAt i
  holds : d'.holds t d.count.toNat
  lutIn : ∀ i < Config.lutSize, bits ≤ 8 → i % 2 ^ bits = code → d'.lutAt i = t.entry i bits d.count.toNat
  lutOut : ∀ i < Config.lutSize, (bits ≤ 8 → i % 2 ^ bits ≠ code) → d'.lutAt i = d.lutAt i

theorem Decoder.recovered_leaf {d : Decoder} (hl : d.dnode.length = Config.maxTreeNodes)
    (hu : d.lut.length = Config.lutSize) (hc : d.count.toNat < Config.maxTreeNodes) (x code bits : Nat) :
    d.Recovered (d.alloc.setLeaf d.count.toNat x code bits) (.leaf x) code bits := by
  refine ⟨by simp, by simp, rfl, ?_, fun i hi => ?_, ?_, fun i hi hb h => ?_, fun i hi h => ?_⟩
  · simp only [Decoder.setLeaf_count, Decoder.alloc_count hc, HTree.nodes]
  · rw [Decoder.setLeaf_nodeAt _ (by simp; omega), if_neg (by omega), Decoder.alloc_nodeAt hl (by omega),
      if_neg (by omega)]
  · show (d.alloc.setLeaf _ _ _ _).nodeAt d.count.toNat = _
    rw [Decoder.setLeaf_nodeAt _ (by simp; omega), if_pos rfl, Decoder.alloc_nodeAt hl hc, if_pos rfl]
  · rw [Decoder.setLeaf_lutAt _ (by simp; omega), if_pos ⟨hb, h⟩]; rfl
  · rw [Decoder.setLeaf_lutAt _ (by simp; omega), if_neg (fun k => h k.1 k.2)]; rfl

theorem mod_two_pow_succ_testBit (i b : Nat) :
    i % 2 ^ (b + 1) = i % 2 ^ b + 2 ^ b * (i.testBit b).toNat := by
  rw [Nat.pow_succ, Nat.mod_mul, Nat.testBit_eq_decide_div_mod_eq]
  congr 2
  by_cases h : i / 2 ^ b % 2 = 1
  · simp [h]
  · have : i / 2 ^ b % 2 = 0 := by omega
    simp [this]

/-- The code of child B: the code with the branch set (R151, R155). -/
theorem childB_code {code bits : Nat} (h : code < 2 ^ bits) : code ||| (1 <<< bits) = code + 2 ^ bits := by
  rw [Nat.or_comm, Nat.shiftLeft_eq, Nat.one_mul, Nat.add_comm]
  have := Nat.two_pow_add_eq_or_of_lt h 1
  rw [Nat.mul_one] at this
  exact this.symm

theorem Decoder.recovered_node {d d2 d3 : Decoder} {a b : HTree} {code bits : Nat}
    (hl : d.dnode.length = Config.maxTreeNodes) (hu : d.lut.length = Config.lutSize)
    (hn : d.count.toNat + (HTree.node a b).nodes ≤ Config.maxTreeNodes) (hcode : bits ≤ 8 → code < 2 ^ bits)
    (ha : (d.alloc.setJump d.count.toNat code bits).Recovered d2 a code (bits + 1))
    (hb : (d2.setChildA d.count.toNat (d.count.toNat + 1)).Recovered d3 b
      (if bits ≤ 7 then code ||| (1 <<< bits) else code) (bits + 1)) :
    d.Recovered (d3.setChildB d.count.toNat (d.count.toNat + 1 + a.nodes)) (.node a b) code bits := by
  simp only [HTree.nodes] at hn
  have hc : d.count.toNat < Config.maxTreeNodes := by omega
  have c1 := Decoder.alloc_count hc
  have ca := ha.count
  have cb := hb.count
  simp only [Decoder.setJump_count, Decoder.setChildA_count, c1] at ca cb
  have la := ha.dnode
  have lb := hb.dnode
  have ua := ha.lut
  have ub := hb.lut
  simp only [Decoder.setJump_dnode, Decoder.alloc_dnode_length, Decoder.setJump_lut_length, Decoder.alloc_lut,
    Decoder.setChildA_dnode_length, Decoder.setChildA_lut] at la lb ua ub
  have below2 : ∀ i < d.count.toNat + 1, d2.nodeAt i = d.alloc.nodeAt i := fun i hi => by
    rw [ha.below i (by simp only [Decoder.setJump_count, c1]; exact hi), Decoder.setJump_nodeAt]
  have below3 : ∀ i < d.count.toNat + 1 + a.nodes,
      d3.nodeAt i = (d2.setChildA d.count.toNat (d.count.toNat + 1)).nodeAt i := fun i hi =>
    hb.below i (by simp only [Decoder.setChildA_count, ca]; exact hi)
  have hA := ha.holds
  have hB := hb.holds
  simp only [Decoder.setJump_count, Decoder.setChildA_count, c1, ca] at hA hB
  have hnpos := a.nodes_pos
  have hnposb := b.nodes_pos
  refine ⟨by simp [lb, la], by simp [ub, ua], ?_, ?_, fun i hi => ?_, ⟨?_, ?_, ?_⟩, fun i hi hb8 h => ?_, fun i hi h => ?_⟩
  · have v1 := ha.valid
    have v2 := hb.valid
    simp only [Decoder.setJump_treeValid, Decoder.alloc_treeValid, Decoder.setChildA_treeValid] at v1 v2
    rw [Decoder.setChildB_treeValid, v2, v1]
  · simp only [Decoder.setChildB_count, HTree.nodes]; omega
  · rw [Decoder.setChildB_nodeAt _ (by omega), if_neg (by omega), below3 i (by omega),
      Decoder.setChildA_nodeAt _ (by omega), if_neg (by omega), below2 i (by omega), Decoder.alloc_nodeAt hl (by omega),
      if_neg (by omega)]
  · rw [Decoder.setChildB_nodeAt _ (by omega), if_pos rfl, below3 _ (by omega), Decoder.setChildA_nodeAt _ (by omega),
      if_pos rfl, below2 _ (by omega), Decoder.alloc_nodeAt hl hc, if_pos rfl]
  · refine Decoder.holds_congr hA fun i k1 k2 => ?_
    rw [Decoder.setChildB_nodeAt _ (by omega), if_neg (by omega), below3 i (by omega),
      Decoder.setChildA_nodeAt _ (by omega), if_neg (by omega)]
  · refine Decoder.holds_congr hB fun i k1 k2 => ?_
    rw [Decoder.setChildB_nodeAt _ (by omega), if_neg (by omega)]
  · -- an index that passes through this node
    rw [Decoder.setChildB_lutAt]
    have hs := mod_two_pow_succ_testBit i bits
    have hclt := hcode hb8
    by_cases h8 : bits = 8
    · have hic : i = code := by
        rw [h8, Nat.mod_eq_of_lt (by simpa using hi)] at h
        exact h
      rw [HTree.entry, if_pos (by omega), hb.lutOut i hi (fun k => by omega), Decoder.setChildA_lutAt,
        ha.lutOut i hi (fun k => by omega), Decoder.setJump_lutAt _ (by simp; omega), if_pos ⟨h8, hic⟩]
    · have h7 : bits ≤ 7 := by omega
      have hb1 := hb.lutIn i hi (by omega)
      have hb2 := hb.lutOut i hi
      rw [if_pos h7, childB_code hclt] at hb1 hb2
      rw [HTree.entry, if_neg (by omega)]
      by_cases hbit : i.testBit bits = true
      · rw [if_pos hbit, hb1 (by rw [hs, hbit, h]; simp), Decoder.setChildA_count, ca]
      · have hpos := Nat.two_pow_pos bits
        rw [Bool.not_eq_true] at hbit
        rw [hbit] at hs
        rw [if_neg (by simp [hbit]), hb2 (fun _ => by rw [hs, h]; simp), Decoder.setChildA_lutAt,
          ha.lutIn i hi (by omega) (by rw [hs, h]; simp), Decoder.setJump_count, c1]
  · -- an index that does not
    rw [Decoder.setChildB_lutAt]
    have hs := mod_two_pow_succ_testBit i bits
    rw [hb.lutOut i hi, Decoder.setChildA_lutAt, ha.lutOut i hi, Decoder.setJump_lutAt _ (by simp; omega), if_neg,
      Decoder.alloc_lutAt]
    · rintro ⟨h8, rfl⟩
      simp only [Config.lutKeyBits] at h8
      subst h8
      exact h (Nat.le_refl _) (Nat.mod_eq_of_lt (by simpa using hi))
    · intro k e
      have := hcode (by omega)
      apply h (by omega)
      rw [← Nat.mod_mod_of_dvd i (Nat.pow_dvd_pow 2 (show bits ≤ bits + 1 by omega)), e, Nat.mod_eq_of_lt this]
    · intro k e
      have hc8 := hcode (by omega)
      rw [if_pos (by omega), childB_code hc8] at e
      apply h (by omega)
      rw [← Nat.mod_mod_of_dvd i (Nat.pow_dvd_pow 2 (show bits ≤ bits + 1 by omega)), e, Nat.add_mod_right,
        Nat.mod_eq_of_lt hc8]

/-! ### `recover_node` -/

/-- A reader operation inside a recovery leaves the tables. -/
theorem State.brReadOrFail_flag {s : State} {f : Bool} (hf : s.br.fail = false) (h1 : s.br.pos + 1 ≤ s.br.limit)
    (h2 : s.sbit s.br.pos = f) : s.brReadOrFail 1 = .ok f.toNat (s.seek (s.br.pos + 1)) := by
  rw [State.brReadOrFail_of_fits hf (by omega) h1]
  simp [State.field, h2]

/-- A description in the stream is recovered as its tree (R155). -/
theorem State.recoverNode_of_hasBits {t : HTree} {fuel code bits : Nat} {s : State}
    (h : s.hasBits s.br.pos t.describe) (hf : s.br.fail = false) (hs : ∀ x ∈ t.symbols, x ≤ 260) (hd : t.depth < fuel)
    (hl : s.dec.dnode.length = Config.maxTreeNodes) (hu : s.dec.lut.length = Config.lutSize)
    (hn : s.dec.count.toNat + t.nodes ≤ Config.maxTreeNodes) (hcode : bits ≤ 8 → code < 2 ^ bits) :
    ∃ d', s.recoverNode fuel code bits =
        .ok s.dec.count.toNat { s.seek (s.br.pos + t.describe.length) with dec := d' } ∧
      s.dec.Recovered d' t code bits := by
  induction t generalizing fuel code bits s with
  | leaf x =>
    obtain ⟨fuel, rfl⟩ : ∃ k, fuel = k + 1 := ⟨fuel - 1, by omega⟩
    have hx : x ≤ 260 := hs x (by simp [HTree.symbols])
    have hc : s.dec.count.toNat < Config.maxTreeNodes := by simp only [HTree.nodes] at hn; omega
    have hlim := s.br.limit_lt
    rw [HTree.describe, State.hasBits_cons] at h
    obtain ⟨⟨h1, h2⟩, h3⟩ := h
    have r1 : (s.withDec Decoder.alloc).brReadOrFail 1 =
        .ok 1 ((s.withDec Decoder.alloc).seek (s.br.pos + 1)) :=
      State.brReadOrFail_flag (s := s.withDec Decoder.alloc) (f := true) hf h1 h2
    have hp : ((s.withDec Decoder.alloc).seek (s.br.pos + 1)).br.pos = s.br.pos + 1 := State.seek_pos _ (by omega)
    have r2 : ((s.withDec Decoder.alloc).seek (s.br.pos + 1)).brReadOrFail Config.symbolBits =
        .ok x ((s.withDec Decoder.alloc).seek (s.br.pos + 1 + Config.symbolBits)) := by
      have := State.brReadOrFail_of_hasBits (s := (s.withDec Decoder.alloc).seek (s.br.pos + 1))
        (bits := bitsOf x Config.symbolBits) hf (by simp) (by rw [hp]; exact h3)
      rw [bitsOf_length, bitsValue_bitsOf, hp, State.seek_seek,
        Nat.mod_eq_of_lt (show x < 2 ^ Config.symbolBits by simp only [Config.symbolBits]; omega)] at this
      exact this
    refine ⟨s.dec.alloc.setLeaf s.dec.count.toNat x code bits, ?_, Decoder.recovered_leaf hl hu hc x code bits⟩
    unfold State.recoverNode
    rw [if_neg (by omega)]
    dsimp only
    rw [r1, Res.bind_ok, if_pos rfl, r2, Res.bind_ok, if_neg (by omega)]
    simp only [HTree.describe, List.length_cons, bitsOf_length]
    rfl
  | node a b iha ihb =>
    obtain ⟨fuel, rfl⟩ : ∃ k, fuel = k + 1 := ⟨fuel - 1, by omega⟩
    have hc : s.dec.count.toNat < Config.maxTreeNodes := by simp only [HTree.nodes] at hn; omega
    have hlim := s.br.limit_lt
    simp only [HTree.depth] at hd
    simp only [HTree.nodes] at hn
    have hn0 := hn
    rw [HTree.describe, State.hasBits_cons, State.hasBits_append] at h
    obtain ⟨⟨h1, h2⟩, h3, h4⟩ := h
    have c1 := Decoder.alloc_count hc
    have r1 : (s.withDec Decoder.alloc).brReadOrFail 1 =
        .ok 0 ((s.withDec Decoder.alloc).seek (s.br.pos + 1)) :=
      State.brReadOrFail_flag (s := s.withDec Decoder.alloc) (f := false) hf h1 h2
    -- child A
    set s1 : State :=
      { (s.withDec Decoder.alloc).seek (s.br.pos + 1) with
        dec := s.dec.alloc.setJump s.dec.count.toNat code bits } with hs1
    have hp1 : s1.br.pos = s.br.pos + 1 := State.seek_pos (s.withDec Decoder.alloc) (by omega)
    obtain ⟨d2, ra, fa⟩ := iha (s := s1) (fuel := fuel) (code := code) (bits := bits + 1)
      (by rw [hp1]; exact h3) hf (fun x hx => hs x (by simp [HTree.symbols, hx])) (by omega)
      (by simpa [hs1] using hl) (by simpa [hs1] using hu)
      (by rw [hs1]; simp only [Decoder.setJump_count, c1]; omega)
      (fun hb => Nat.lt_of_lt_of_le (hcode (by omega)) (Nat.pow_le_pow_right (by omega) (by omega)))
    have hn1 : s1.dec.count.toNat = s.dec.count.toNat + 1 := by rw [hs1]; simp only [Decoder.setJump_count, c1]
    -- child B
    set s2 : State :=
      { s1.seek (s1.br.pos + a.describe.length) with dec := d2.setChildA s.dec.count.toNat (s.dec.count.toNat + 1) }
      with hs2
    have hp2 : s2.br.pos = s.br.pos + 1 + a.describe.length := by
      have h4' := h4.1
      rw [← hp1]; exact State.seek_pos s1 (by rw [hp1]; omega)
    have hd2 : d2.count.toNat = s.dec.count.toNat + 1 + a.nodes := by rw [fa.count, hn1]
    obtain ⟨d3, rb, fb⟩ := ihb (s := s2) (fuel := fuel)
      (code := if bits ≤ 7 then code ||| (1 <<< bits) else code) (bits := bits + 1)
      (by rw [hp2]; exact h4) hf (fun x hx => hs x (by simp [HTree.symbols, hx])) (by omega)
      (by rw [hs2]; simp only [Decoder.setChildA_dnode_length, fa.dnode]; simpa [hs1] using hl)
      (by rw [hs2]; simp only [Decoder.setChildA_lut, fa.lut]; simpa [hs1] using hu)
      (by rw [hs2]; simp only [Decoder.setChildA_count, hd2]; omega)
      (fun hb => by
        have := hcode (by omega)
        rw [if_pos (by omega), childB_code this, Nat.pow_succ]; omega)
    refine ⟨d3.setChildB s.dec.count.toNat (s.dec.count.toNat + 1 + a.nodes), ?_,
      Decoder.recovered_node hl hu (by simp only [HTree.nodes]; omega) hcode fa fb⟩
    unfold State.recoverNode
    rw [if_neg (by omega)]
    dsimp only
    rw [r1, Res.bind_ok, if_neg (by omega)]
    have ra' : State.recoverNode (((s.withDec Decoder.alloc).seek (s.br.pos + 1)).withDec fun d =>
        d.setJump s.dec.count.toNat code bits) fuel code (bits + 1) =
        .ok (s.dec.count.toNat + 1) { s1.seek (s1.br.pos + a.describe.length) with dec := d2 } := by
      rw [← hn1]; exact ra
    rw [ra', Res.bind_ok]
    have rb' : State.recoverNode (State.withDec { s1.seek (s1.br.pos + a.describe.length) with dec := d2 } fun d =>
        d.setChildA s.dec.count.toNat (s.dec.count.toNat + 1)) fuel
        (if bits ≤ 7 then code ||| (1 <<< bits) else code) (bits + 1) =
        .ok (s.dec.count.toNat + 1 + a.nodes) { s2.seek (s2.br.pos + b.describe.length) with dec := d3 } := by
      rw [← hd2]; exact rb
    rw [rb', Res.bind_ok, hp2]
    simp only [HTree.describe, List.length_cons, List.length_append]
    rw [show s.br.pos + 1 + a.describe.length + b.describe.length =
      s.br.pos + (a.describe.length + b.describe.length + 1) by omega]
    rfl

/-! ### What a recovery changes, whether or not it succeeds -/

/-- From `s` to `t` only the reader and the decoder's tables have changed; the reader has only read, and the tables keep
their sizes and their flag. -/
structure State.Recovering (s t : State) : Prop where
  frame : t = { s with br := t.br, dec := t.dec }
  reading : s.Reading t
  dec : s.dec.ok → t.dec.ok
  valid : t.dec.treeValid = s.dec.treeValid

theorem State.Recovering.trans {s t u : State} (h : s.Recovering t) (h' : t.Recovering u) : s.Recovering u :=
  ⟨by rw [h'.frame, h.frame], h.reading.trans h'.reading, fun k => h'.dec (h.dec k), h'.valid.trans h.valid⟩

theorem State.brReadOrFail_recovering (s : State) (n : Nat) : s.Recovering (s.brReadOrFail n).state := by
  rw [State.brReadOrFail_state]
  have hd : (s.brMove n).dec = s.dec := by rw [State.brMove_frame]
  refine ⟨?_, State.brMove_reading s n, by rw [hd]; exact id, by rw [hd]⟩
  rw [hd]; exact State.brMove_frame s n

theorem State.withDec_recovering (s : State) (f : Decoder → Decoder) (h : s.dec.ok → (f s.dec).ok)
    (h' : (f s.dec).treeValid = s.dec.treeValid) : s.Recovering (s.withDec f) :=
  ⟨rfl, (State.Reading.refl s).congr rfl rfl rfl rfl, h, h'⟩

theorem State.recoverNode_recovering (fuel code bits : Nat) (s : State) :
    s.Recovering (s.recoverNode fuel code bits).state := by
  induction fuel generalizing code bits s with
  | zero => exact ⟨rfl, .refl s, id, rfl⟩
  | succ fuel ih =>
    unfold State.recoverNode
    split
    · exact ⟨rfl, .refl s, id, rfl⟩
    · next hc =>
      dsimp only
      have h0 : s.Recovering (s.withDec Decoder.alloc) :=
        State.withDec_recovering s _ (fun h => ⟨by simpa using h.1, h.2.1, by
          rw [Decoder.alloc_count (by omega)]; omega⟩) rfl
      refine h0.trans (Res.bind_rel (R := State.Recovering) State.Recovering.trans (State.brReadOrFail_recovering _ _) fun flag t _ => ?_)
      split
      · refine Res.bind_rel (R := State.Recovering) State.Recovering.trans (State.brReadOrFail_recovering _ _) fun sym u _ => ?_
        split
        · exact ⟨rfl, .refl u, id, rfl⟩
        · exact State.withDec_recovering u (fun d => d.setLeaf s.dec.count.toNat sym code bits)
            (fun h => ⟨by simpa using h.1, by simpa using h.2.1, by simpa using h.2.2⟩) rfl
      · refine (State.withDec_recovering t (fun d => d.setJump s.dec.count.toNat code bits)
          (fun h => ⟨by simpa using h.1, by simpa using h.2.1, by simpa using h.2.2⟩) (by simp)).trans ?_
        refine Res.bind_rel (R := State.Recovering) State.Recovering.trans (ih _ _ _) fun a u _ => ?_
        refine (State.withDec_recovering u (fun d => d.setChildA s.dec.count.toNat a)
          (fun h => ⟨by simpa using h.1, by simpa using h.2.1, by simpa using h.2.2⟩) (by simp)).trans ?_
        refine Res.bind_rel (R := State.Recovering) State.Recovering.trans (ih _ _ _) fun b v _ => ?_
        exact State.withDec_recovering v (fun d => d.setChildB s.dec.count.toNat b)
          (fun h => ⟨by simpa using h.1, by simpa using h.2.1, by simpa using h.2.2⟩) (by simp)

/-- The state in which the subtrees of an internal node are recovered. -/
def State.entered (s : State) (code bits : Nat) : State :=
  { s.seek (s.br.pos + 1) with dec := s.dec.alloc.setJump s.dec.count.toNat code bits }

/-- A node that is recovered is a leaf or an internal node. -/
theorem State.recoverNode_ok_cases {fuel code bits n : Nat} {s u : State}
    (h : s.recoverNode (fuel + 1) code bits = .ok n u) (hf : s.br.fail = false) :
    s.dec.count.toNat < Config.maxTreeNodes ∧ s.br.pos + 1 ≤ s.br.limit ∧
    ((s.sbit s.br.pos = true ∧ s.br.pos + 1 + Config.symbolBits ≤ s.br.limit ∧
        s.field (s.br.pos + 1) Config.symbolBits ≤ 260) ∨
      (s.sbit s.br.pos = false ∧ ∃ a b v w, (s.entered code bits).recoverNode fuel code (bits + 1) = .ok a v ∧
        (v.withDec fun d => d.setChildA s.dec.count.toNat a).recoverNode fuel
          (if bits ≤ 7 then code ||| (1 <<< bits) else code) (bits + 1) = .ok b w)) := by
  have hlim := s.br.limit_lt
  unfold State.recoverNode at h
  split at h
  · simp at h
  · next hc =>
    dsimp only at h
    obtain ⟨flag, t1, e1, h⟩ := Res.bind_eq_ok.1 h
    have hl1 : s.br.pos + 1 ≤ s.br.limit := by
      rcases State.brReadOrFail_cases (s := s.withDec Decoder.alloc) (n := 1) (by omega) with ⟨e, _⟩ | ⟨_, _, hl⟩
      · rw [e] at e1; simp at e1
      · exact hl
    refine ⟨by omega, hl1, ?_⟩
    rw [State.brReadOrFail_flag (s := s.withDec Decoder.alloc) (f := s.sbit s.br.pos) hf hl1 rfl] at e1
    simp only [Res.ok.injEq] at e1
    obtain ⟨rfl, rfl⟩ := e1
    have hp : ((s.withDec Decoder.alloc).seek ((s.withDec Decoder.alloc).br.pos + 1)).br.pos = s.br.pos + 1 :=
      State.seek_pos (s.withDec Decoder.alloc) (q := s.br.pos + 1) (by omega)
    cases hb : s.sbit s.br.pos with
    | true =>
      left
      rw [hb, if_pos (show true.toNat = 1 from rfl)] at h
      obtain ⟨x, t2, e2, h⟩ := Res.bind_eq_ok.1 h
      rcases State.brReadOrFail_cases (s := (s.withDec Decoder.alloc).seek ((s.withDec Decoder.alloc).br.pos + 1))
        (n := Config.symbolBits) (by decide) with ⟨e, _⟩ | ⟨e, _, hl2⟩
      · rw [e] at e2; simp at e2
      · rw [e, hp] at e2
        rw [hp] at hl2
        simp only [Res.ok.injEq] at e2
        refine ⟨rfl, hl2, ?_⟩
        split at h
        · simp at h
        · next hx =>
          rw [← e2.1, State.field_congr (s := s)
            (t := (s.withDec Decoder.alloc).seek ((s.withDec Decoder.alloc).br.pos + 1)) rfl rfl] at hx
          omega
    | false =>
      right
      rw [hb, if_neg (show ¬false.toNat = 1 by decide)] at h
      obtain ⟨a, v, ea, h⟩ := Res.bind_eq_ok.1 h
      obtain ⟨b, w, eb, h⟩ := Res.bind_eq_ok.1 h
      exact ⟨rfl, a, b, v, w, ea, eb⟩

/-- Where the recovery of a description leaves the machine. -/
theorem State.recoverNode_arrives {t : HTree} {fuel code bits n : Nat} {s u : State}
    (e : s.recoverNode fuel code bits = .ok n u) (h : s.hasBits s.br.pos t.describe) (hf : s.br.fail = false)
    (hs : ∀ x ∈ t.symbols, x ≤ 260) (hd : t.depth < fuel) (hok : s.dec.ok)
    (hn : s.dec.count.toNat + t.nodes ≤ Config.maxTreeNodes) (hcode : bits ≤ 8 → code < 2 ^ bits) :
    n = s.dec.count.toNat ∧ u.br.pos = s.br.pos + t.describe.length ∧ u.br.fail = false ∧ u.input = s.input ∧
      u.br.stop = s.br.stop ∧ u.dec.ok ∧ u.dec.count.toNat = s.dec.count.toNat + t.nodes := by
  obtain ⟨d, r, fd⟩ := State.recoverNode_of_hasBits (fuel := fuel) (code := code) (bits := bits) h hf hs hd hok.1 hok.2.1 hn
    hcode
  rw [r] at e
  simp only [Res.ok.injEq] at e
  obtain ⟨rfl, rfl⟩ := e
  have hl := h.1
  have hlim := s.br.limit_lt
  refine ⟨rfl, State.seek_pos s (by omega), hf, rfl, rfl, ⟨fd.dnode.trans hok.1, fd.lut.trans hok.2.1, ?_⟩, fd.count⟩
  have := fd.count
  show d.count.toNat ≤ _
  omega

/-- Whatever is recovered was a description in the stream (R155, R159, R160). -/
theorem State.describe_of_recoverNode {fuel code bits n : Nat} {s u : State}
    (h : s.recoverNode fuel code bits = .ok n u) (hf : s.br.fail = false) (hok : s.dec.ok)
    (hcode : bits ≤ 8 → code < 2 ^ bits) :
    ∃ t : HTree, s.hasBits s.br.pos t.describe ∧ (∀ x ∈ t.symbols, x ≤ 260) ∧ t.depth < fuel ∧
      s.dec.count.toNat + t.nodes ≤ Config.maxTreeNodes := by
  induction fuel generalizing code bits n s u with
  | zero => simp [State.recoverNode] at h
  | succ fuel ih =>
    have hlim := s.br.limit_lt
    obtain ⟨hc, hl1, h⟩ := State.recoverNode_ok_cases h hf
    have c1 := Decoder.alloc_count (d := s.dec) (by omega)
    rcases h with ⟨hb, hl2, hx⟩ | ⟨hb, a, b, v, w, ea, eb⟩
    · refine ⟨.leaf (s.field (s.br.pos + 1) Config.symbolBits), ?_, ?_, by simp [HTree.depth], ?_⟩
      · rw [HTree.describe, State.hasBits_cons]
        refine ⟨⟨hl1, hb⟩, ?_⟩
        rw [State.hasBits_iff]
        refine ⟨by rw [bitsOf_length]; exact hl2, fun i hi => ?_⟩
        rw [bitsOf_getElem, State.field_testBit]
        rw [bitsOf_length] at hi
        simp [hi]
      · intro y hy
        rw [HTree.symbols, List.mem_singleton] at hy
        rw [hy]; exact hx
      · simp only [HTree.nodes]; omega
    · have hcA : bits + 1 ≤ 8 → code < 2 ^ (bits + 1) := fun hb =>
        Nat.lt_of_lt_of_le (hcode (by omega)) (Nat.pow_le_pow_right (by omega) (by omega))
      have hcB : bits + 1 ≤ 8 → (if bits ≤ 7 then code ||| (1 <<< bits) else code) < 2 ^ (bits + 1) := fun hb => by
        have := hcode (by omega)
        rw [if_pos (by omega), childB_code this, Nat.pow_succ]; omega
      have hn1 : (s.entered code bits).dec.count.toNat = s.dec.count.toNat + 1 := by
        simp only [State.entered, Decoder.setJump_count, c1]
      have hok1 : (s.entered code bits).dec.ok :=
        ⟨by simpa [State.entered] using hok.1, by simpa [State.entered] using hok.2.1, by omega⟩
      have hp1 : (s.entered code bits).br.pos = s.br.pos + 1 := State.seek_pos s (by omega)
      have hf1 : (s.entered code bits).br.fail = false := hf
      have hi1 : (s.entered code bits).input = s.input := rfl
      have hm1 : (s.entered code bits).br.stop = s.br.stop := rfl
      generalize s.entered code bits = s1 at *
      obtain ⟨ta, ha1, ha2, ha3, ha4⟩ := ih ea hf1 hok1 hcA
      obtain ⟨-, pv, fv, iv, lv, kv, cv⟩ := State.recoverNode_arrives ea ha1 hf1 ha2 ha3 hok1 ha4 hcA
      have hokv : (v.withDec fun d => d.setChildA s.dec.count.toNat a).dec.ok :=
        ⟨by simpa using kv.1, by simpa using kv.2.1, by simpa using kv.2.2⟩
      obtain ⟨tb, hb1, hb2, hb3, hb4⟩ := ih eb fv hokv hcB
      rw [State.hasBits_congr (s := s) (by exact lv.trans hm1) (by exact iv.trans hi1)] at hb1
      rw [State.hasBits_congr (s := s) hm1 hi1, hp1] at ha1
      simp only [State.withDec_br, State.withDec_dec, Decoder.setChildA_count] at hb1 hb4
      rw [pv, hp1] at hb1
      refine ⟨.node ta tb, ?_, ?_, ?_, ?_⟩
      · rw [HTree.describe, State.hasBits_cons, State.hasBits_append]
        exact ⟨⟨hl1, hb⟩, ha1, hb1⟩
      · intro x hx
        rcases List.mem_append.1 hx with hx | hx
        · exact ha2 x hx
        · exact hb2 x hx
      · simp only [HTree.depth]; omega
      · simp only [HTree.nodes]; omega

end Sys2Proof.Machine
end

