-- ==== Sys2Proof/Laws/TreeTable.lean ====
section
/-! SUPPORT. What a completed tree recovery leaves: a tree in preorder, and a lookup table that agrees with it. -/

namespace Sys2Proof.Machine

theorem setWidth_ofNat_symbol (x : Nat) : (BitVec.ofNat 16 x).setWidth 9 = BitVec.ofNat 9 x := by
  apply BitVec.eq_of_toNat_eq
  simp only [BitVec.toNat_setWidth, BitVec.toNat_ofNat]
  omega

theorem toNat_ofNat_symbol {x : Nat} (h : x ≤ 260) : (BitVec.ofNat 16 x).toNat = x := by
  simp only [BitVec.toNat_ofNat]; omega

/-- The entry of an index is what following its branches through the nodes comes to (R156, R157, R161 (b)). -/
theorem HTree.entry_eq_follow {d : Decoder} {t : HTree} {n key : Nat} (h : d.holds t n) (hs : ∀ x ∈ t.symbols, x ≤ 260)
    (hn : n + t.nodes ≤ Config.maxTreeNodes) (fuel depth : Nat) (hf : fuel + depth = 8) :
    t.entry key depth n = d.follow key fuel n depth := by
  induction t generalizing n fuel depth with
  | leaf x =>
    have hx : x ≤ 260 := hs x (by simp [HTree.symbols])
    have e : d.nodeAt n = _ := h
    cases fuel <;>
    · simp only [Decoder.follow, e, isLeafSymbol_ofNat hx, if_true, HTree.entry, setWidth_ofNat_symbol x]
  | node a b iha ihb =>
    obtain ⟨e, ha, hb⟩ := h
    simp only [HTree.nodes, Config.maxTreeNodes] at hn
    cases fuel with
    | zero =>
      rw [HTree.entry, if_pos (by omega), Decoder.follow, e]
      simp
    | succ fuel =>
      have k1 : (BitVec.ofNat 16 (n + 1)).toNat = n + 1 := by simp only [BitVec.toNat_ofNat]; omega
      have k2 : (BitVec.ofNat 16 (n + 1 + a.nodes)).toNat = n + 1 + a.nodes := by
        simp only [BitVec.toNat_ofNat]; have := b.nodes_pos; omega
      rw [HTree.entry, if_neg (by omega), Decoder.follow, e]
      simp only [isLeafSymbol_internal, Bool.false_eq_true, if_false, DNode.branch, k1, k2]
      have sa := iha ha (fun x hx => hs x (by simp [HTree.symbols, hx])) (by simp only [Config.maxTreeNodes]; omega) fuel
        (depth + 1) (by omega)
      have sb := ihb hb (fun x hx => hs x (by simp [HTree.symbols, hx])) (by simp only [Config.maxTreeNodes]; omega) fuel
        (depth + 1) (by omega)
      split
      · exact sb
      · exact sa

/-- Every node of a tree that `DNODE` holds is a leaf or an internal node with its children behind it (R161 (a)). -/
theorem Decoder.nodes_of_holds {d : Decoder} {t : HTree} {n count : Nat} (h : d.holds t n)
    (hs : ∀ x ∈ t.symbols, x ≤ 260) (hn : n + t.nodes ≤ count) (hc : count ≤ Config.maxTreeNodes) (i : Nat) (h1 : n ≤ i)
    (h2 : i < n + t.nodes) : (d.nodeAt i).leafOk ∨ (d.nodeAt i).innerOk i count := by
  induction t generalizing n with
  | leaf x =>
    have hx : x ≤ 260 := hs x (by simp [HTree.symbols])
    have e : d.nodeAt n = _ := h
    obtain rfl : i = n := by simp only [HTree.nodes] at h2; omega
    left
    rw [e]
    exact ⟨by rw [toNat_ofNat_symbol hx]; exact hx, rfl, rfl⟩
  | node a b iha ihb =>
    obtain ⟨e, ha, hb⟩ := h
    simp only [HTree.nodes] at hn h2
    simp only [Config.maxTreeNodes] at hc
    have pa := a.nodes_pos
    have pb := b.nodes_pos
    by_cases k : i = n
    · subst k
      right
      rw [e]
      refine ⟨rfl, ?_, ?_, ?_⟩ <;> simp only [BitVec.toNat_ofNat] <;> omega
    · by_cases k' : i < n + 1 + a.nodes
      · exact iha ha (fun x hx => hs x (by simp [HTree.symbols, hx])) (by omega) (by omega) (by omega)
      · exact ihb hb (fun x hx => hs x (by simp [HTree.symbols, hx])) (by omega) (by omega) (by omega)

/-- The entry of an index is terminal with 1 to 8 bits, or a jump to an internal node after 8 bits (R161 (c)). -/
theorem HTree.entry_ok {d : Decoder} {t : HTree} {n key : Nat} (h : d.holds t n) (hs : ∀ x ∈ t.symbols, x ≤ 260)
    (hn : n + t.nodes ≤ Config.maxTreeNodes) (depth : Nat) (hd : depth ≤ 8) :
    ((t.entry key depth n).node = Config.none16 ∧ (t.entry key depth n).symbol.toNat ≤ 260 ∧
      1 ≤ (t.entry key depth n).bits.toNat ∧ (t.entry key depth n).bits.toNat ≤ 8) ∨
    ((t.entry key depth n).node.toNat < n + t.nodes ∧
      (d.nodeAt (t.entry key depth n).node.toNat).symbol = internalSymbol ∧
      (t.entry key depth n).symbol = 0#9 ∧ (t.entry key depth n).bits = 8#4) := by
  induction t generalizing n depth with
  | leaf x =>
    have hx : x ≤ 260 := hs x (by simp [HTree.symbols])
    left
    refine ⟨rfl, ?_, ?_, ?_⟩ <;> simp only [HTree.entry, BitVec.toNat_ofNat] <;> omega
  | node a b iha ihb =>
    obtain ⟨e, ha, hb⟩ := h
    simp only [HTree.nodes] at hn ⊢
    simp only [Config.maxTreeNodes] at hn
    have pa := a.nodes_pos
    have pb := b.nodes_pos
    rw [HTree.entry]
    split
    · right
      have k : (BitVec.ofNat 16 n).toNat = n := by simp only [BitVec.toNat_ofNat]; omega
      refine ⟨by dsimp only; rw [k]; omega, ?_, rfl, rfl⟩
      dsimp only
      rw [k, e]
    · split
      · rcases ihb hb (fun x hx => hs x (by simp [HTree.symbols, hx])) (by simp only [Config.maxTreeNodes]; omega)
          (depth + 1) (by omega) with k | ⟨k, k'⟩
        · exact .inl k
        · exact .inr ⟨by omega, k'⟩
      · rcases iha ha (fun x hx => hs x (by simp [HTree.symbols, hx])) (by simp only [Config.maxTreeNodes]; omega)
          (depth + 1) (by omega) with k | ⟨k, k'⟩
        · exact .inl k
        · exact .inr ⟨by omega, k'⟩

/-- The decoder holds a tree from the root on and the table that belongs to it. -/
structure Decoder.Ready (d : Decoder) (t : HTree) : Prop where
  ok : d.ok
  valid : d.treeValid = true
  legal : t.legal
  count : d.count.toNat = t.nodes
  holds : d.holds t 0
  lut : ∀ i < Config.lutSize, d.lutAt i = t.entry i 0 0

theorem Decoder.Ready.treeOk {d : Decoder} {t : HTree} (h : d.Ready t) : d.treeOk := by
  refine fun _ => ⟨⟨t, h.legal, h.holds, h.count⟩, ⟨by rw [h.count]; exact t.nodes_pos, fun n hn => ?_⟩, fun i hi => ?_⟩
  · refine Decoder.nodes_of_holds h.holds h.legal.1 ?_ h.ok.2.2 n (Nat.zero_le _) ?_
    · rw [h.count]; omega
    · rw [h.count] at hn; omega
  · rw [h.lut i hi]
    have := HTree.entry_ok (key := i) h.holds h.legal.1 (by have := h.legal.2; omega) 0 (by omega)
    rw [h.count, Nat.add_comm 0 t.nodes, Nat.add_zero] at *
    exact this

theorem Decoder.Ready.lutAgrees {d : Decoder} {t : HTree} (h : d.Ready t) : d.lutAgrees := fun i hi => by
  rw [h.lut i hi]
  exact HTree.entry_eq_follow h.holds h.legal.1 (by have := h.legal.2; omega) 8 0 (by omega)

/-! ### `tree_recover` -/

/-- The state the walk of `tree_recover` starts in. -/
def State.recoverStart (s : State) : State := s.withDec fun d => { d with treeValid := false, count := 0#10 }

theorem State.treeRecover_eq (s : State) :
    s.treeRecover = (s.recoverStart.recoverNode (Config.maxTreeNodes + 1) 0 0).bind fun _ s =>
      .ok () (s.withDec fun d => { d with treeValid := true }) := rfl

theorem State.recoverStart_dec_ok {s : State} (h : s.dec.ok) : s.recoverStart.dec.ok :=
  ⟨h.1, h.2.1, Nat.zero_le _⟩

theorem HTree.legal_depth {t : HTree} (h : t.legal) : t.depth < Config.maxTreeNodes + 1 := by
  have := t.depth_lt_nodes
  have := h.2
  omega

/-- The description of a legal tree at the reader's position is recovered as that tree (R155, R161). -/
theorem State.treeRecover_of_hasBits {s : State} {t : HTree} (h : s.hasBits s.br.pos t.describe) (hf : s.br.fail = false)
    (ht : t.legal) (hd : s.dec.ok) :
    ∃ d, s.treeRecover = .ok () { s.seek (s.br.pos + t.describe.length) with dec := d } ∧ d.Ready t := by
  obtain ⟨d, e, r⟩ := State.recoverNode_of_hasBits (s := s.recoverStart) (fuel := Config.maxTreeNodes + 1) (code := 0)
    (bits := 0) h hf ht.1 (HTree.legal_depth ht) hd.1 hd.2.1 (by have := ht.2; simp [State.recoverStart]; omega)
    (fun _ => by decide)
  refine ⟨{ d with treeValid := true }, ?_, ⟨⟨r.dnode.trans hd.1, r.lut.trans hd.2.1, ?_⟩, rfl, ht, ?_, ?_, ?_⟩⟩
  · rw [State.treeRecover_eq, e, Res.bind_ok]; rfl
  · show d.count.toNat ≤ _
    have := r.count
    simp only [State.recoverStart, State.withDec_dec, BitVec.toNat_ofNat] at this
    have := ht.2
    omega
  · have := r.count
    simp only [State.recoverStart, State.withDec_dec, BitVec.toNat_ofNat] at this
    show d.count.toNat = _
    omega
  · exact Decoder.holds_congr r.holds fun i _ _ => rfl
  · exact fun i hi => r.lutIn i hi (by omega) (Nat.mod_one i)

/-- What a tree recovery changes, whether or not it succeeds (R155). -/
theorem State.treeRecover_recovering (s : State) :
    s.treeRecover.state = { s with br := s.treeRecover.state.br, dec := s.treeRecover.state.dec } ∧
    s.Reading s.treeRecover.state ∧ (s.dec.ok → s.treeRecover.state.dec.ok) := by
  have h := State.recoverNode_recovering (Config.maxTreeNodes + 1) 0 0 s.recoverStart
  rw [State.treeRecover_eq]
  have hr : s.Reading s.recoverStart := (State.Reading.refl s).congr rfl rfl rfl rfl
  cases e : s.recoverStart.recoverNode (Config.maxTreeNodes + 1) 0 0 with
  | ok n t =>
    rw [e] at h
    refine ⟨?_, hr.trans (h.reading.congr rfl rfl rfl rfl), fun hd => h.dec (State.recoverStart_dec_ok hd)⟩
    have := h.frame
    simp only [Res.state] at this
    simp only [Res.bind_ok, Res.state]
    rw [this]; rfl
  | fail k t =>
    rw [e] at h
    refine ⟨?_, hr.trans h.reading, fun hd => h.dec (State.recoverStart_dec_ok hd)⟩
    have := h.frame
    simp only [Res.state] at this
    show t = _
    rw [this]; rfl

/-- After a failed recovery `DEC_TREE_VALID` is 0 (R155). -/
theorem State.treeRecover_fail_valid {s t : State} {k : Kind} (h : s.treeRecover = .fail k t) :
    t.dec.treeValid = false := by
  have hr := State.recoverNode_recovering (Config.maxTreeNodes + 1) 0 0 s.recoverStart
  rw [State.treeRecover_eq] at h
  cases e : s.recoverStart.recoverNode (Config.maxTreeNodes + 1) 0 0 with
  | ok n u => rw [e] at h; simp at h
  | fail k' u =>
    rw [e] at h hr
    obtain ⟨-, rfl⟩ : k' = k ∧ u = t := by simpa [Res.bind] using h
    exact hr.valid

theorem State.recoverNode_of_fail {s : State} (h : s.br.fail = true) (fuel code bits : Nat) :
    ∃ k t, s.recoverNode fuel code bits = .fail k t := by
  cases fuel with
  | zero => exact ⟨_, _, rfl⟩
  | succ fuel =>
    unfold State.recoverNode
    split
    · exact ⟨_, _, rfl⟩
    · refine ⟨.truncated, s.withDec Decoder.alloc, ?_⟩
      have : (s.withDec Decoder.alloc).brMove 1 = s.withDec Decoder.alloc := by simp [State.brMove, h]
      simp [State.brReadOrFail, this, h, Res.bind]

/-- A recovery that succeeds read the description of a legal tree, and holds it (R155, R159 to R161). -/
theorem State.treeRecover_ok {s u : State} (h : s.treeRecover = .ok () u) (hd : s.dec.ok) :
    s.br.fail = false ∧ ∃ t : HTree, t.legal ∧ s.hasBits s.br.pos t.describe ∧ u.dec.Ready t ∧
      u = { s.seek (s.br.pos + t.describe.length) with dec := u.dec } := by
  have hf : s.br.fail = false := by
    cases k : s.br.fail with
    | false => rfl
    | true =>
      obtain ⟨k', t', e⟩ := State.recoverNode_of_fail (s := s.recoverStart) k (Config.maxTreeNodes + 1) 0 0
      rw [State.treeRecover_eq, e] at h
      simp [Res.bind] at h
  refine ⟨hf, ?_⟩
  have h' := h
  rw [State.treeRecover_eq] at h'
  obtain ⟨n, v, e, -⟩ := Res.bind_eq_ok.1 h'
  obtain ⟨t, t1, t2, t3, t4⟩ := State.describe_of_recoverNode e hf (State.recoverStart_dec_ok hd) (fun _ => by decide)
  have tl : t.legal := ⟨t2, by simp [State.recoverStart] at t4; exact t4⟩
  obtain ⟨d, e2, r⟩ := State.treeRecover_of_hasBits (s := s) t1 hf tl hd
  rw [h] at e2
  simp only [Res.ok.injEq, true_and] at e2
  exact ⟨t, tl, t1, by rw [e2]; exact r, by rw [e2]⟩

end Sys2Proof.Machine
end

