-- ==== Sys2Proof/Laws/BlockEncode.lean ====
section
/-! SUPPORT. The laws of the block encoder: what it changes, and that what it leaves in `OUT` is a block of the format that
stands for the bytes encoded. -/

namespace Sys2Proof.Machine

/-! ### A block of the format -/

/-- Bit `q` of a memory taken as a bit stream (R9). -/
def bitAt (f : Nat → Byte) (q : Nat) : Bool := (f (q / 8)).getLsbD (q % 8)

/-- The `es` payload bytes at `a` are a tree's description and then a row of tokens under that tree, which stand for the
bytes `bs` (R91, R95, R96). -/
def HuffPayload (f : Nat → Byte) (a es : Nat) (bs : List Byte) : Prop :=
  ∃ (t : HTree) (ts : List Token) (bits : List Bool), t.legal ∧ (∀ x ∈ ts, x.legal) ∧ ts.flatMap Token.bytes = bs ∧
    t.encodes ts bits ∧ (t.describe ++ bits).length ≤ 8 * es ∧
    ∀ i (h : i < (t.describe ++ bits).length), bitAt f (8 * a + i) = (t.describe ++ bits)[i]

/-- The payload of each mode (R87 to R96). -/
def PayloadAt (f : Nat → Byte) (a es mode : Nat) (bs : List Byte) : Prop :=
  (mode = 0 ∧ es = bs.length ∧ readList f a es = bs) ∨
  (mode = 2 ∧ es = 1 ∧ bs = List.replicate bs.length (f a)) ∨
  (mode = 1 ∧ HuffPayload f a es bs)

/-- A block at `p`: the header's three fields and the payload they speak of (R86). -/
def BlockAt (crc : CrcFn) (f : Nat → Byte) (p es mode : Nat) (bs : List Byte) : Prop :=
  (1 ≤ es ∧ es ≤ Config.maxBlock ∧ readLE f p 2 + 1 = es) ∧
  readLE f (p + 2) 4 = (crc (readList f (p + 7) es)).toNat ∧ readLE f (p + 6) 1 = mode ∧ PayloadAt f (p + 7) es mode bs

theorem bitAt_congr {f g : Nat → Byte} {q q' : Nat} (h : f (q / 8) = g (q' / 8)) (hq : q % 8 = q' % 8) :
    bitAt f q = bitAt g q' := by simp [bitAt, h, hq]

theorem PayloadAt.congr {f g : Nat → Byte} {a es mode : Nat} {bs : List Byte} (h : PayloadAt f a es mode bs)
    (hg : ∀ x, a ≤ x → x < a + es → g x = f x) : PayloadAt g a es mode bs := by
  rcases h with ⟨h1, h2, h3⟩ | ⟨h1, h2, h3⟩ | ⟨h1, t, ts, bits, h2, h3, h4, h5, h6, h7⟩
  · exact .inl ⟨h1, h2, by rw [readList_congr (g := f) (b := a) fun j hj => hg _ (by omega) (by omega)]; exact h3⟩
  · exact .inr (.inl ⟨h1, h2, by rw [hg a (by omega) (by omega)]; exact h3⟩)
  · refine .inr (.inr ⟨h1, t, ts, bits, h2, h3, h4, h5, h6, fun i hi => ?_⟩)
    rw [← h7 i hi]
    exact bitAt_congr (hg _ (by omega) (by omega)) rfl

/-- A block is judged by its own bytes. -/
theorem BlockAt.congr {crc : CrcFn} {f g : Nat → Byte} {p es mode : Nat} {bs : List Byte} (h : BlockAt crc f p es mode bs)
    (hg : ∀ x, p ≤ x → x < p + 7 + es → g x = f x) : BlockAt crc g p es mode bs := by
  obtain ⟨⟨h1, h2, h3⟩, h4, h5, h6⟩ := h
  refine ⟨⟨h1, h2, ?_⟩, ?_, ?_, h6.congr fun x k1 k2 => hg x (by omega) (by omega)⟩
  · rw [readLE_congr (g := f) (b := p) fun j hj => hg _ (by omega) (by omega)]; exact h3
  · rw [readLE_congr (g := f) (b := p + 2) fun j hj => hg _ (by omega) (by omega), h4,
      readList_congr (f := g) (g := f) (b := p + 7) fun j hj => hg _ (by omega) (by omega)]
  · rw [readLE_congr (g := f) (b := p + 6) fun j hj => hg _ (by omega) (by omega)]; exact h5

/-! ### What the encoder changes -/

/-- From `s` to `t` only the encoder's tables, the writer and `OUT` have changed; the tables and the writer stay well
formed, and stores went to `lo` and up to the end of `OUT`'s room only. -/
structure State.Encoding (lo : Nat) (s t : State) : Prop where
  frame : t = { s with enc := t.enc, bw := t.bw, output := t.output }
  enc : s.enc.ok → t.enc.ok
  bw : s.bw.ok → t.bw.ok
  stores : Mem.Stores lo s.outCap s.output t.output

theorem State.Encoding.refl (lo : Nat) (s : State) : s.Encoding lo s := ⟨rfl, id, id, .refl _⟩

theorem State.Encoding.ops {lo : Nat} {s t : State} (h : s.Encoding lo t) : t.ops = s.ops := by rw [h.frame]

theorem State.Encoding.input {lo : Nat} {s t : State} (h : s.Encoding lo t) : t.input = s.input := by rw [h.frame]

theorem State.Encoding.outCap {lo : Nat} {s t : State} (h : s.Encoding lo t) : t.outCap = s.outCap := by
  rw [State.outCap, h.ops]; rfl

theorem State.Encoding.inLen {lo : Nat} {s t : State} (h : s.Encoding lo t) : t.inLen = s.inLen := by
  rw [State.inLen, h.ops]; rfl

theorem State.Encoding.inByte {lo : Nat} {s t : State} (h : s.Encoding lo t) : t.inByte = s.inByte := by
  funext a; simp [State.inByte, h.input]

theorem State.Encoding.trans {lo : Nat} {s t u : State} (h : s.Encoding lo t) (h' : t.Encoding lo u) :
    s.Encoding lo u :=
  ⟨by rw [h'.frame, h.frame], fun k => h'.enc (h.enc k), fun k => h'.bw (h.bw k),
    h.stores.trans (by have := h'.stores; rwa [h.outCap] at this)⟩

theorem State.Encoding.mono {lo lo' : Nat} {s t : State} (h : s.Encoding lo t) (hl : lo' ≤ lo) : s.Encoding lo' t :=
  ⟨h.frame, h.enc, h.bw, h.stores.mono hl (Nat.le_refl _)⟩

/-- Every byte below the stores is as before. -/
theorem State.Encoding.outByte_below {lo : Nat} {s t : State} (h : s.Encoding lo t) {x : Nat} (hx : x < lo) :
    t.outByte x = s.outByte x := h.stores.read_outside _ (.inl hx)

theorem State.histogram_encoding (lo : Nat) (s : State) (start n : Nat) : s.Encoding lo (s.histogram start n) :=
  ⟨rfl, fun h => State.histogram_enc_ok h start n, id, .refl _⟩

theorem State.bwNew_ok {s : State} {start stop : Nat} (h : start ≤ stop) (hs : stop < 2 ^ 64) :
    (s.bwNew start stop).bw.ok := by
  refine ⟨by simp [State.bwNew], by simp [State.bwNew], ?_⟩
  simp only [State.bwNew, BitVec.toNat_ofNat]; omega

theorem State.bwNew_encoding (lo : Nat) (s : State) {start stop : Nat} (h : start ≤ stop) (hs : stop < 2 ^ 64) :
    s.Encoding lo (s.bwNew start stop) :=
  ⟨rfl, id, fun _ => State.bwNew_ok h hs, .refl _⟩

theorem State.treeBuild_encoding (lo : Nat) (s : State) : s.Encoding lo { s with enc := s.enc.treeBuild } :=
  ⟨rfl, Encoder.treeBuild_ok, id, .refl _⟩

theorem State.confined_encoding {lo : Nat} {s t : State} (h : s.Confined t)
    (hf : t = { s with enc := t.enc, bw := t.bw, output := t.output }) (he : s.enc.ok → t.enc.ok)
    (hb : s.bw.ok → t.bw.ok) (hl : lo ≤ s.bw.ptr.toNat) (hs : s.bw.stop.toNat ≤ s.outCap) : s.Encoding lo t :=
  ⟨hf, he, hb, h.stores.mono hl hs⟩

/-- `try_huff_rle` after its first two steps: the writer is opened and the tree is built (R203). -/
def State.huffOpened (s : State) (outPos : Nat) : State :=
  { s.bwNew (outPos + Config.blockHdr) s.outCap with enc := s.enc.treeBuild }

/-- The state after all three writers of `try_huff_rle`, whether or not one of them ran out of room (R203). -/
def State.huffWritten (s : State) (inStart n outPos : Nat) : State :=
  ((s.huffOpened outPos).treeEmit.symEmit inStart n).bwForceFlush

theorem State.tryHuffRle_cases (s : State) (inStart n outPos : Nat) :
    (∃ t, s.tryHuffRle inStart n outPos = (none, t) ∧ (t = s.huffOpened outPos ∨ t = (s.huffOpened outPos).treeEmit ∨
        t = (s.huffOpened outPos).treeEmit.symEmit inStart n ∨ t = s.huffWritten inStart n outPos)) ∨
    (s.tryHuffRle inStart n outPos = (some ((s.huffWritten inStart n outPos).bw.ptr.toNat - (outPos + Config.blockHdr)),
        s.huffWritten inStart n outPos) ∧ (s.huffOpened outPos).enc.codesFit = true ∧
      (s.huffOpened outPos).treeEmit.bw.fail = false ∧
      ((s.huffOpened outPos).treeEmit.symEmit inStart n).bw.fail = false ∧
      (s.huffWritten inStart n outPos).bw.fail = false ∧
      (s.huffWritten inStart n outPos).bw.ptr.toNat - (outPos + Config.blockHdr) < Config.maxBlock) := by
  have e : s.tryHuffRle inStart n outPos =
      if (s.huffOpened outPos).enc.codesFit = false then (none, s.huffOpened outPos)
      else if (s.huffOpened outPos).treeEmit.bw.fail then (none, (s.huffOpened outPos).treeEmit)
      else if ((s.huffOpened outPos).treeEmit.symEmit inStart n).bw.fail then
        (none, (s.huffOpened outPos).treeEmit.symEmit inStart n)
      else if (s.huffWritten inStart n outPos).bw.fail then (none, s.huffWritten inStart n outPos)
      else if Config.maxBlock ≤ (s.huffWritten inStart n outPos).bw.ptr.toNat - (outPos + Config.blockHdr) then
        (none, s.huffWritten inStart n outPos)
      else (some ((s.huffWritten inStart n outPos).bw.ptr.toNat - (outPos + Config.blockHdr)),
        s.huffWritten inStart n outPos) := rfl
  rw [e]
  split
  · exact .inl ⟨_, rfl, .inl rfl⟩
  · split
    · exact .inl ⟨_, rfl, .inr (.inl rfl)⟩
    · split
      · exact .inl ⟨_, rfl, .inr (.inr (.inl rfl))⟩
      · split
        · exact .inl ⟨_, rfl, .inr (.inr (.inr rfl))⟩
        · split
          · exact .inl ⟨_, rfl, .inr (.inr (.inr rfl))⟩
          · next h1 h2 h3 h4 h5 =>
            refine .inr ⟨rfl, ?_, ?_, ?_, ?_, by omega⟩
            · simpa using h1
            · simpa using h2
            · simpa using h3
            · simpa using h4

theorem State.outCap_lt (s : State) : s.outCap < 2 ^ 64 := s.ops.outCap.isLt

theorem State.huffOpened_ptr {s : State} {outPos : Nat} (h : outPos + 7 ≤ s.outCap) :
    (s.huffOpened outPos).bw.ptr.toNat = outPos + 7 ∧ (s.huffOpened outPos).bw.stop.toNat = s.outCap ∧
      (s.huffOpened outPos).bw.bitpos.toNat = 0 ∧ (s.huffOpened outPos).bw.fail = false ∧
      (s.huffOpened outPos).bw.ok := by
  have := s.outCap_lt
  refine ⟨?_, ?_, rfl, rfl, State.bwNew_ok (s := s) (by simp only [Config.blockHdr]; omega) this⟩ <;>
    simp only [State.huffOpened, State.bwNew, BitVec.toNat_ofNat, Config.blockHdr] <;> omega

theorem State.huffOpened_encoding {s : State} {outPos : Nat} (h : outPos + 7 ≤ s.outCap) (lo : Nat) :
    s.Encoding lo (s.huffOpened outPos) :=
  ⟨rfl, fun k => Encoder.treeBuild_ok k, fun _ => (State.huffOpened_ptr h).2.2.2.2, .refl _⟩

theorem State.huff_encodings {s : State} {outPos : Nat} (inStart n : Nat) (h : outPos + 7 ≤ s.outCap) :
    s.Encoding (outPos + 7) (s.huffOpened outPos).treeEmit ∧
    s.Encoding (outPos + 7) ((s.huffOpened outPos).treeEmit.symEmit inStart n) ∧
    s.Encoding (outPos + 7) (s.huffWritten inStart n outPos) := by
  obtain ⟨h1, h2, _, _, _⟩ := State.huffOpened_ptr h
  have e0 := State.huffOpened_encoding h (outPos + 7)
  have c1 := (s.huffOpened outPos).treeEmit_confined
  have e1 : (s.huffOpened outPos).Encoding (outPos + 7) (s.huffOpened outPos).treeEmit :=
    State.confined_encoding c1 (by rw [State.treeEmit_frame]) State.treeEmit_enc_ok State.treeEmit_bw_ok (by omega)
      (by rw [h2]; exact Nat.le_refl _)
  have c2 := (s.huffOpened outPos).treeEmit.symEmit_confined inStart n
  have he2 : ((s.huffOpened outPos).treeEmit.symEmit inStart n).enc = (s.huffOpened outPos).treeEmit.enc := by
    rw [State.symEmit_frame]
  have e2 : (s.huffOpened outPos).treeEmit.Encoding (outPos + 7) ((s.huffOpened outPos).treeEmit.symEmit inStart n) :=
    State.confined_encoding c2 (by rw [he2]; exact State.symEmit_frame _ _ _) (by rw [he2]; exact id)
      (fun k => State.symEmit_bw_ok k _ _) (by have := c1.ptr; omega)
      (by rw [c1.stop, h2, e1.outCap]; exact Nat.le_refl _)
  have c3 := ((s.huffOpened outPos).treeEmit.symEmit inStart n).bwForceFlush_confined
  have he3 : (s.huffWritten inStart n outPos).enc = ((s.huffOpened outPos).treeEmit.symEmit inStart n).enc := by
    rw [State.huffWritten, State.bwForceFlush_frame]
  have e3 : ((s.huffOpened outPos).treeEmit.symEmit inStart n).Encoding (outPos + 7) (s.huffWritten inStart n outPos) :=
    State.confined_encoding c3 (by rw [he3]; exact State.bwForceFlush_frame _) (by rw [he3]; exact id)
      (fun k => State.bwForceFlush_ok k) (by have := c1.ptr; have := c2.ptr; omega)
      (by rw [c2.stop, c1.stop, h2, e2.outCap, e1.outCap]; exact Nat.le_refl _)
  exact ⟨e0.trans e1, (e0.trans e1).trans e2, ((e0.trans e1).trans e2).trans e3⟩

theorem State.tryHuffRle_encoding {s : State} {outPos : Nat} (inStart n : Nat) (h : outPos + 7 ≤ s.outCap) :
    s.Encoding (outPos + 7) (s.tryHuffRle inStart n outPos).2 := by
  obtain ⟨e1, e2, e3⟩ := State.huff_encodings inStart n h
  rcases s.tryHuffRle_cases inStart n outPos with ⟨t, e, rfl | rfl | rfl | rfl⟩ | ⟨e, _⟩ <;> rw [e]
  · exact State.huffOpened_encoding h _
  · exact e1
  · exact e2
  · exact e3
  · exact e3

theorem State.putOut_encoding {lo : Nat} (s : State) {a : Nat} (b : Byte) (h1 : lo ≤ a) (h2 : a < s.outCap) :
    s.Encoding lo (s.putOut a b) := ⟨rfl, id, id, Mem.Stores.write _ _ h1 h2⟩

theorem State.putOutList_encoding {lo : Nat} (s : State) {a : Nat} (bs : List Byte) (h1 : lo ≤ a)
    (h2 : a + bs.length ≤ s.outCap) : s.Encoding lo (s.putOutList a bs) :=
  ⟨rfl, id, id, Mem.Stores.writeList _ _ h1 h2⟩

theorem State.putOutLE_encoding {lo : Nat} (s : State) {a : Nat} (n v : Nat) (h1 : lo ≤ a) (h2 : a + n ≤ s.outCap) :
    s.Encoding lo (s.putOutLE a n v) := ⟨rfl, id, id, Mem.Stores.writeLE _ _ _ h1 h2⟩

theorem State.emitPayload_encoding {s : State} {outPos : Nat} (inStart n : Nat) (h : outPos + 8 ≤ s.outCap) :
    s.Encoding (outPos + 7) (s.emitPayload inStart n outPos).state := by
  unfold State.emitPayload
  split
  · exact s.putOut_encoding _ (by simp only [Config.blockHdr]; omega) (by simp only [Config.blockHdr]; omega)
  · have k := State.tryHuffRle_encoding (s := s) inStart n (outPos := outPos) (by omega)
    split
    · next e => rw [e] at k; exact k
    · next u e =>
      rw [e] at k
      unfold State.emitCopy
      split
      · exact k
      · next hc =>
        refine k.trans (u.putOutList_encoding _ (by simp only [Config.blockHdr]; omega) ?_)
        rw [State.inBytes_length]; exact Nat.le_of_not_lt hc

theorem State.writeBlockHeader_encoding (crc : CrcFn) (s : State) {outPos : Nat} (es mode : Nat) (h : outPos + 7 ≤ s.outCap) :
    s.Encoding outPos (s.writeBlockHeader crc outPos es mode) := by
  have e1 := s.putOutLE_encoding (lo := outPos) (a := outPos) 2 (es - 1) (by omega) (by omega)
  have e2 := (s.putOutLE outPos 2 (es - 1)).putOutLE_encoding (lo := outPos) (a := outPos + 2) 4
    (s.crcOut crc (outPos + Config.blockHdr) es) (by omega) (by rw [e1.outCap]; omega)
  exact (e1.trans e2).trans (State.putOutLE_encoding _ 1 mode (by omega) (by rw [(e1.trans e2).outCap]; omega))

/-- What the encoding of a block changes, whether or not it succeeds (R200, R207). -/
theorem State.blockEncodeBody_encoding (crc : CrcFn) {s : State} {outPos : Nat} (inStart n : Nat) (h : outPos + 8 ≤ s.outCap) :
    s.Encoding outPos (s.blockEncodeBody crc inStart n outPos).state := by
  have e0 := s.histogram_encoding (outPos + 7) inStart n
  have e1 := e0.trans (State.emitPayload_encoding (s := s.histogram inStart n) inStart n (outPos := outPos)
    (by rw [e0.outCap]; exact h))
  unfold State.blockEncodeBody
  cases e : (s.histogram inStart n).emitPayload inStart n outPos with
  | fail k t => rw [e] at e1; exact e1.mono (by omega)
  | ok p t =>
    rw [e] at e1
    have e1 : s.Encoding (outPos + 7) t := e1
    exact (e1.mono (by omega)).trans (State.writeBlockHeader_encoding crc t p.1 p.2 (by rw [e1.outCap]; omega))

theorem State.blockEncode_encoding (crc : CrcFn) (s : State) (inStart n outPos : Nat) :
    s.Encoding outPos (s.blockEncode crc inStart n outPos).state := by
  unfold State.blockEncode
  split
  · exact .refl _ s
  · exact State.blockEncodeBody_encoding crc inStart n (by omega)

end Sys2Proof.Machine
end

