-- ==== Sys2Proof/Laws/BlockContent.lean ====
section
/-! SUPPORT. What the block encoder leaves in `OUT` when it succeeds: a block of the format that stands for the bytes it was
given. -/

namespace Sys2Proof.Machine

/-! ### FILL -/

theorem Encoder.mem_literalsUsed {e : Encoder} {i : Nat} : i ∈ e.literalsUsed ↔ i ∈ e.used ∧ 1 ≤ i ∧ i ≤ 255 := by
  simp [Encoder.literalsUsed]

theorem flatMap_const {ts : List Token} {v : Byte} (h : ∀ t ∈ ts, ∀ b ∈ t.bytes, b = v) (b : Byte)
    (hb : b ∈ ts.flatMap Token.bytes) : b = v := by
  obtain ⟨t, ht, hbt⟩ := List.mem_flatMap.1 hb
  exact h t ht b hbt

theorem eq_replicate_of_const {bs : List Byte} {v : Byte} (h : ∀ b ∈ bs, b = v) : bs = List.replicate bs.length v :=
  List.eq_replicate_iff.2 ⟨rfl, h⟩

/-- A token whose symbol is a run or the zero literal stands for zeros. -/
theorem Token.bytes_zero {t : Token} (ht : t.legal) (h : t.sym = 0 ∨ 256 ≤ t.sym) : ∀ b ∈ t.bytes, b = 0#8 := by
  intro b hb
  unfold Token.bytes at hb
  split at hb
  · obtain h | h := h
    · rw [h] at hb; simpa using hb
    · omega
  · exact (List.mem_replicate.1 hb).2

/-- `constant_value` of a block's histogram is the byte all its bytes are (R201). -/
theorem State.constantValue_sound {s : State} {inStart n : Nat} {v : Byte} (hn : n ≤ Config.maxBlock)
    (h : (s.histogram inStart n).enc.constantValue = some v) :
    s.inBytes inStart n = List.replicate n v := by
  have hu := fun i => s.histogram_mem_used inStart hn i
  have hl := tokens_legal (s.inBytes inStart n)
  have key : ∀ t ∈ tokens (s.inBytes inStart n), ∀ b ∈ t.bytes, b = v := by
    intro t ht b hb
    have htu : t.sym ∈ (s.histogram inStart n).enc.used := (hu _).2 (List.mem_map_of_mem ht)
    have hleg := hl t ht
    unfold Encoder.constantValue at h
    split at h
    · next hnil =>
      have hv : v = 0#8 := by simpa using h.symm
      rw [hv]
      refine Token.bytes_zero hleg ?_ b hb
      have : ¬(1 ≤ t.sym ∧ t.sym ≤ 255) := fun k => by
        have := Encoder.mem_literalsUsed.2 ⟨htu, k⟩
        rw [hnil] at this; simp at this
      omega
    · next w hw =>
      split at h
      · simp at h
      · next hz =>
        have hv : v = BitVec.ofNat 8 w := by simpa using h.symm
        have hcls : 1 ≤ t.sym ∧ t.sym ≤ 255 := by
          by_contra k
          apply hz
          have hpos := (Encoder.mem_used.1 htu).2
          have h260 := hleg.1
          simp only [Encoder.zeroClassUsed, List.any_eq_true, decide_eq_true_eq]
          refine ⟨t.sym, ?_, by omega⟩
          simp only [List.mem_cons, List.not_mem_nil, or_false]
          omega
        have : t.sym ∈ (s.histogram inStart n).enc.literalsUsed := Encoder.mem_literalsUsed.2 ⟨htu, hcls⟩
        rw [hw, List.mem_singleton] at this
        rw [Token.bytes, if_pos hcls.2, List.mem_singleton] at hb
        rw [hb, hv, this]
    · simp at h
  have hb := eq_replicate_of_const (flatMap_const key)
  rw [tokens_bytes, State.inBytes_length] at hb
  exact hb

theorem Encoder.used_ne_nil_of_constantValue {e : Encoder} (h : e.constantValue = none) : e.used ≠ [] := by
  intro k
  have : e.literalsUsed = [] := by simp [Encoder.literalsUsed, k]
  simp [Encoder.constantValue, this] at h

/-! ### HUFF_RLE -/

/-- The tree the builder leaves is one the format allows (R92). -/
theorem Encoder.treeBuild_legal (e : Encoder) (h : e.used ≠ []) :
    ∃ t : HTree, e.treeBuild.holds t e.treeBuild.root.toNat ∧ e.treeBuild.root ≠ Config.none16 ∧ t.legal ∧
      t.symbols.Nodup ∧ ∀ x, x ∈ t.symbols ↔ x ∈ e.used := by
  obtain ⟨t, r1, r2, r3, -⟩ := e.treeBuild_tree h
  have hr := r1.rooted _ (List.mem_singleton.2 rfl)
  have hlen := r2.length_eq
  have hle := e.used_length_le
  have hnd := t.nodes_eq
  refine ⟨t, Encoder.holds_of_rooted hr, ?_, ⟨fun x hx => ?_, ?_⟩, r2.nodup_iff.2 e.used_nodup, fun x => r2.mem_iff⟩
  · intro k
    have hlt := Encoder.rooted_lt hr
    have hnx := r1.next
    rw [k] at hlt
    simp only [Config.maxTreeNodes] at hnx
    have : (Config.none16).toNat = 65535 := rfl
    omega
  · have := (Encoder.mem_used.1 (r2.mem_iff.1 hx)).1
    simp only [Config.nsym] at this; omega
  · simp only [Config.nsym, Config.maxTreeNodes] at *; omega

theorem HTree.exists_code {t : HTree} {x : Nat} (h : x ∈ t.symbols) : ∃ code, (x, code) ∈ t.codes := by
  rw [← HTree.codes_symbols, List.mem_map] at h
  obtain ⟨⟨y, code⟩, hp, rfl⟩ := h
  exact ⟨code, hp⟩

/-- With a histogram whose symbols in use are those of the tokens, what `try_huff_rle` leaves is a payload of the mode, of
the size it says (R203). -/
theorem State.tryHuffRle_some {s t : State} {inStart n outPos es : Nat} (h : s.tryHuffRle inStart n outPos = (some es, t))
    (ho : outPos + 7 ≤ s.outCap) (he : s.enc.ok) (hne : s.enc.used ≠ [])
    (hu : ∀ u ∈ tokens (s.inBytes inStart n), u.sym ∈ s.enc.used) :
    1 ≤ es ∧ es < Config.maxBlock ∧ outPos + 7 + es ≤ s.outCap ∧
      HuffPayload t.outByte (outPos + 7) es (s.inBytes inStart n) := by
  rcases s.tryHuffRle_cases inStart n outPos with ⟨t', e, _⟩ | ⟨e, c1, c2, c3, c4, c5⟩
  · rw [h] at e; simp at e
  rw [h] at e
  simp only [Prod.mk.injEq, Option.some.injEq] at e
  obtain ⟨rfl, rfl⟩ := e
  obtain ⟨p1, p2, p3, p4, p5⟩ := State.huffOpened_ptr ho
  obtain ⟨tr, q1, q2, q3, q4, q5⟩ := s.enc.treeBuild_legal hne
  have hdep : tr.depth ≤ Config.maxCodeBits := by
    simp only [Encoder.codesFit, Bool.or_eq_true, decide_eq_true_eq] at c1
    rcases c1 with k | k
    · exact absurd k q2
    · rw [show (s.huffOpened outPos).enc = s.enc.treeBuild from rfl, Encoder.depthOk_of_holds q1, decide_eq_true_eq] at k
      omega
  have hopk : (s.huffOpened outPos).enc.ok := Encoder.treeBuild_ok he
  obtain ⟨w1, w2, -⟩ := State.treeEmit_of_holds (s := s.huffOpened outPos) q1 q2 hdep p5 hopk.1 q3.1 q4
  have henc : (s.huffOpened outPos).treeEmit.enc.ok := State.treeEmit_enc_ok hopk
  have w3 := State.symEmit_writes (s := (s.huffOpened outPos).treeEmit) w1.ok henc inStart n
  have hin : (s.huffOpened outPos).treeEmit.inBytes inStart n = s.inBytes inStart n := by
    rw [State.treeEmit_frame]; rfl
  rw [hin] at w3
  have a1 := w1.of_not_fail p4 c2
  have a2 := w3.of_not_fail c2 c3
  have a12 := State.appended_trans a1 a2
  rcases State.bwForceFlush_cases w3.ok c3 with ⟨k, _⟩ | ⟨a3, b3⟩
  · rw [State.huffWritten] at c4; rw [c4] at k; simp at k
  have a := State.appended_trans a12 a3
  have hbits : tr.encodes (tokens (s.inBytes inStart n))
      ((tokens (s.inBytes inStart n)).flatMap (s.huffOpened outPos).treeEmit.enc.tokenBits) := by
    refine HTree.encodes_tokens fun u hu' => ?_
    obtain ⟨code, hcode⟩ := HTree.exists_code ((q5 u.sym).2 (hu u hu'))
    refine ⟨code, hcode, ?_⟩
    have := w2 _ hcode
    rw [this]
    have hlen := (HTree.code_length hcode).2
    simp only [Config.maxCodeBits] at hdep
    exact bitsOf_code (code := code) (by dsimp only at hlen; omega)
  set bits := (tokens (s.inBytes inStart n)).flatMap (s.huffOpened outPos).treeEmit.enc.tokenBits with hb
  obtain ⟨-, -, b4, -, -, b7, -⟩ := a
  have hw : s.huffWritten inStart n outPos = ((s.huffOpened outPos).treeEmit.symEmit inStart n).bwForceFlush := rfl
  rw [← hw] at b3 b4 b7
  rw [p1, p3, b3, List.length_append] at b4
  have hdpos : 0 < tr.describe.length := by cases tr <;> simp [HTree.describe]
  have hbd : 0 < (tr.describe ++ bits).length := by rw [List.length_append]; omega
  have hbound := State.huff_encodings (s := s) inStart n ho
  have hok4 : (s.huffWritten inStart n outPos).bw.ok := State.bwForceFlush_ok w3.ok
  have hstop : (s.huffWritten inStart n outPos).bw.stop.toNat = s.outCap := by
    rw [hw, State.bwForceFlush_stop, w3.stop, w1.stop, p2]
  have hptr := hok4.2.2
  simp only [Config.blockHdr] at c5 ⊢
  refine ⟨by omega, c5, by omega, tr, _, bits, q3, tokens_legal _, tokens_bytes _, hbits, by omega, fun i hi => ?_⟩
  rw [map_range_eq_iff] at b7
  have hbi := b7 i (by rw [List.length_append]; omega)
  rw [List.getElem_append_left hi] at hbi
  rw [← hbi, p1, p3, Nat.add_zero, State.writtenBit, if_pos (by omega)]
  rfl

/-! ### A whole block -/

/-- A payload that `emit_payload` ends with stands at `out_pos + 7` (R200, R202 to R204, R208). -/
theorem State.emitPayload_ok {s t : State} {inStart n outPos es mode : Nat} (hn : 1 ≤ n ∧ n ≤ Config.maxBlock)
    (h : (s.histogram inStart n).emitPayload inStart n outPos = .ok (es, mode) t) (ho : outPos + 8 ≤ s.outCap)
    (he : s.enc.ok) :
    1 ≤ es ∧ es ≤ Config.maxBlock ∧ outPos + 7 + es ≤ s.outCap ∧ mode ≤ 2 ∧
      PayloadAt t.outByte (outPos + 7) es mode (s.inBytes inStart n) := by
  have hlen := s.inBytes_length inStart n
  unfold State.emitPayload at h
  split at h
  · next v hv =>
    simp only [State.emitFill, Res.ok.injEq, Prod.mk.injEq] at h
    obtain ⟨⟨rfl, rfl⟩, rfl⟩ := h
    have hc := State.constantValue_sound hn.2 hv
    refine ⟨by omega, by decide, by omega, by omega, .inr (.inl ⟨rfl, rfl, ?_⟩)⟩
    rw [hlen, hc, State.outByte_putOut, if_pos rfl]
  · next hnone =>
    have henc := State.histogram_enc_ok he inStart n
    have hne := Encoder.used_ne_nil_of_constantValue hnone
    have hcap : (s.histogram inStart n).outCap = s.outCap := rfl
    split at h
    · next es' t' e =>
      simp only [Res.ok.injEq, Prod.mk.injEq] at h
      obtain ⟨⟨rfl, rfl⟩, rfl⟩ := h
      obtain ⟨k1, k2, k3, k4⟩ := State.tryHuffRle_some e (by rw [hcap]; omega) henc hne fun u hu =>
        (s.histogram_mem_used inStart hn.2 _).2 (List.mem_map_of_mem hu)
      exact ⟨k1, by omega, k3, by omega, .inr (.inr ⟨rfl, k4⟩)⟩
    · next t' e =>
      have k := State.tryHuffRle_encoding (s := s.histogram inStart n) inStart n (outPos := outPos) (by rw [hcap]; omega)
      rw [e] at k
      have hcap' : t'.outCap = s.outCap := k.outCap
      have hin : t'.inBytes inStart n = s.inBytes inStart n := by
        simp only [State.inBytes, k.inByte]; rfl
      unfold State.emitCopy at h
      split at h
      · simp at h
      · next hfit =>
        simp only [Config.blockHdr] at hfit h
        simp only [Res.ok.injEq, Prod.mk.injEq] at h
        obtain ⟨⟨rfl, rfl⟩, rfl⟩ := h
        refine ⟨hn.1, hn.2, by omega, by omega, .inl ⟨rfl, hlen.symm, ?_⟩⟩
        rw [hin]
        apply List.ext_getElem (by simp [hlen])
        intro i h1 h2
        rw [readList_getElem, State.outByte_putOutList, dif_pos ⟨by omega, by omega⟩]
        congr 1; omega

theorem State.crcOut_lt (crc : CrcFn) (s : State) (a n : Nat) : s.crcOut crc a n < 2 ^ 32 := (crc _).isLt

/-- The header fields are read back as written, and the payload is left alone (R86, R205). -/
theorem State.writeBlockHeader_reads (crc : CrcFn) (t : State) (p es mode : Nat) (he : 1 ≤ es ∧ es ≤ Config.maxBlock) (hm : mode ≤ 2) :
    readLE (t.writeBlockHeader crc p es mode).outByte p 2 + 1 = es ∧
    readLE (t.writeBlockHeader crc p es mode).outByte (p + 2) 4 = t.crcOut crc (p + 7) es ∧
    readLE (t.writeBlockHeader crc p es mode).outByte (p + 6) 1 = mode ∧
    ∀ x, x < p ∨ p + 7 ≤ x → (t.writeBlockHeader crc p es mode).outByte x = t.outByte x := by
  set s1 := t.putOutLE p 2 (es - 1) with h1
  set s2 := s1.putOutLE (p + 2) 4 (t.crcOut crc (p + 7) es) with h2
  have hw : t.writeBlockHeader crc p es mode = s2.putOutLE (p + 6) 1 mode := rfl
  rw [hw]
  refine ⟨?_, ?_, ?_, fun x hx => ?_⟩
  · rw [readLE_congr (g := s1.outByte) (b := p)]
    · have : readLE s1.outByte p 2 = (es - 1) % 256 ^ 2 := readLE_writeLE _ _ _ _ _
      simp only [Config.maxBlock] at he
      rw [this, Nat.mod_eq_of_lt (by omega)]; omega
    · intro j hj
      rw [State.outByte_putOutLE, if_neg (by omega), h2, State.outByte_putOutLE, if_neg (by omega)]
  · rw [readLE_congr (g := s2.outByte) (b := p + 2)]
    · have : readLE s2.outByte (p + 2) 4 = t.crcOut crc (p + 7) es % 256 ^ 4 := readLE_writeLE _ _ _ _ _
      have := State.crcOut_lt crc t (p + 7) es
      rw [‹readLE s2.outByte (p + 2) 4 = _›, Nat.mod_eq_of_lt (by omega)]
    · intro j hj
      rw [State.outByte_putOutLE, if_neg (by omega)]
  · have : readLE (s2.putOutLE (p + 6) 1 mode).outByte (p + 6) 1 = mode % 256 ^ 1 := readLE_writeLE _ _ _ _ _
    rw [this, Nat.mod_eq_of_lt (by omega)]
  · rw [State.outByte_putOutLE, if_neg (by omega), h2, State.outByte_putOutLE, if_neg (by omega), h1,
      State.outByte_putOutLE, if_neg (by omega)]

/-- A block that is encoded stands at `out_pos` and stands for the bytes encoded (R200, R206). -/
theorem State.blockEncode_ok {crc : CrcFn} {s t : State} {inStart n outPos w mode : Nat} (hn : 1 ≤ n ∧ n ≤ Config.maxBlock)
    (h : s.blockEncode crc inStart n outPos = .ok (w, mode) t) (he : s.enc.ok) :
    ∃ es, w = 7 + es ∧ outPos + w ≤ s.outCap ∧ BlockAt crc t.outByte outPos es mode (s.inBytes inStart n) := by
  unfold State.blockEncode at h
  split at h
  · simp at h
  · next ho =>
    unfold State.blockEncodeBody at h
    obtain ⟨⟨es, md⟩, u, e1, e2⟩ := Res.bind_eq_ok.1 h
    simp only [Res.ok.injEq, Prod.mk.injEq, Config.blockHdr] at e2
    obtain ⟨⟨rfl, rfl⟩, rfl⟩ := e2
    obtain ⟨k1, k2, k3, k4, k5⟩ := State.emitPayload_ok hn e1 (by omega) he
    obtain ⟨r1, r2, r3, r4⟩ := State.writeBlockHeader_reads crc u outPos es md ⟨k1, k2⟩ k4
    refine ⟨es, rfl, by omega, ⟨k1, k2, r1⟩, ?_, r3, k5.congr fun x hx _ => r4 x (by omega)⟩
    rw [r2, State.crcOut, readList_congr (g := u.outByte) (f := (u.writeBlockHeader crc outPos es md).outByte) (b := outPos + 7)
      fun j _ => r4 _ (by omega)]

end Sys2Proof.Machine
end

