-- ==== Sys2Proof/Laws/Payload.lean ====
section
/-! SUPPORT. The laws of the payload decoder: a symbol, a token and a row of tokens that stand in the stream are decoded; and
what the decoder changes whether or not it succeeds. -/

namespace Sys2Proof.Machine

/-! ### One symbol -/

/-- What the table says of an index whose first bits are the path `code` to the leaf `x`, in the tree `t` at entry `n` and
depth `depth`: the leaf, or the node the first eight branches lead to, from where the rest of the path goes on (R156,
R157). -/
def HTree.Looked (d : Decoder) (t : HTree) (key depth n x : Nat) (code : List Bool) : Prop :=
  (depth + code.length ≤ 8 ∧
    t.entry key depth n = ⟨Config.none16, BitVec.ofNat 9 x, BitVec.ofNat 4 (max (depth + code.length) 1)⟩) ∨
  (8 - depth < code.length ∧ ∃ t' n', t.entry key depth n = ⟨BitVec.ofNat 16 n', 0#9, 8#4⟩ ∧ d.holds t' n' ∧
    n' + t'.nodes ≤ n + t.nodes ∧ (x, code.drop (8 - depth)) ∈ t'.paths ∧ ∀ y ∈ t'.symbols, y ∈ t.symbols)

theorem HTree.entry_of_path {d : Decoder} {t : HTree} {n key : Nat} {x : Nat} {code : List Bool} (h : d.holds t n)
    (hp : (x, code) ∈ t.paths) (depth : Nat) (hd : depth ≤ 8)
    (hk : ∀ i (h : i < code.length), depth + i < 8 → key.testBit (depth + i) = code[i]) :
    t.Looked d key depth n x code := by
  induction t generalizing n depth code with
  | leaf y =>
    simp only [HTree.paths, List.mem_singleton, Prod.mk.injEq] at hp
    obtain ⟨rfl, rfl⟩ := hp
    left
    exact ⟨by simpa using hd, rfl⟩
  | node a b iha ihb =>
    by_cases h8 : depth = 8
    · subst h8
      right
      have hlen : 0 < code.length := by
        cases code with
        | nil => simp [HTree.paths] at hp
        | cons _ _ => simp
      refine ⟨hlen, .node a b, n, ?_, h, Nat.le_refl _, by simpa using hp, fun y hy => hy⟩
      rw [HTree.entry, if_pos (by omega)]
    · obtain ⟨_, ha, hb⟩ := h
      have step : ∀ (c : HTree) (m : Nat) (rest : List Bool) (f : Bool), code = f :: rest →
          (HTree.node a b).entry key depth n = c.entry key (depth + 1) m → m + c.nodes ≤ n + (HTree.node a b).nodes →
          (∀ y ∈ c.symbols, y ∈ (HTree.node a b).symbols) →
          c.Looked d key (depth + 1) m x rest → (HTree.node a b).Looked d key depth n x code := by
        intro c m rest f hcode he hm hsy hc
        subst hcode
        unfold HTree.Looked
        rw [he]
        have hx : depth + (f :: rest).length = depth + 1 + rest.length := by rw [List.length_cons]; omega
        rcases hc with ⟨h1, h2⟩ | ⟨h1, t', n', h2, h3, h4, h5, h6⟩
        · exact .inl ⟨by omega, by rw [hx]; exact h2⟩
        · refine .inr ⟨by rw [List.length_cons]; omega, t', n', h2, h3, by omega, ?_, fun y hy => hsy y (h6 y hy)⟩
          rw [show 8 - depth = (8 - (depth + 1)) + 1 by omega, List.drop_succ_cons]
          exact h5
      simp only [HTree.paths, List.mem_append, List.mem_map, Prod.mk.injEq, Prod.exists] at hp
      rcases hp with ⟨y, rest, hy, rfl, rfl⟩ | ⟨y, rest, hy, rfl, rfl⟩
      · have hb0 := hk 0 (by simp) (by omega)
        simp only [Nat.add_zero, List.getElem_cons_zero] at hb0
        refine step a (n + 1) rest false rfl ?_ ?_ ?_ (iha ha hy (depth + 1) (by omega) fun i hi k => ?_)
        · rw [HTree.entry, if_neg (by omega), if_neg (by simp [hb0])]
        · simp only [HTree.nodes]; omega
        · intro z hz; simp [HTree.symbols, hz]
        · have := hk (i + 1) (by simpa using hi) (by omega)
          rw [List.getElem_cons_succ] at this
          rw [← this]; congr 1; omega
      · have hb0 := hk 0 (by simp) (by omega)
        simp only [Nat.add_zero, List.getElem_cons_zero] at hb0
        refine step b (n + 1 + a.nodes) rest true rfl ?_ ?_ ?_ (ihb hb hy (depth + 1) (by omega) fun i hi k => ?_)
        · rw [HTree.entry, if_neg (by omega), if_pos hb0]
        · simp only [HTree.nodes]; omega
        · intro z hz; simp [HTree.symbols, hz]
        · have := hk (i + 1) (by simpa using hi) (by omega)
          rw [List.getElem_cons_succ] at this
          rw [← this]; congr 1; omega

/-- The walk along a path that stands in the stream ends at its leaf (R185). -/
theorem State.walk_of_path {t : HTree} {s : State} {n fuel x : Nat} {code : List Bool} (h : s.dec.holds t n)
    (hs : ∀ y ∈ t.symbols, y ≤ 260) (hn : n + t.nodes ≤ Config.maxTreeNodes) (hp : (x, code) ∈ t.paths)
    (hb : s.hasBits s.br.pos code) (hf : s.br.fail = false) (hr : s.br.ok) (hc : s.cacheFresh)
    (hfuel : code.length < fuel) : s.walk fuel n = .ok x (s.seek (s.br.pos + code.length)) := by
  induction t generalizing s n fuel code with
  | leaf y =>
    simp only [HTree.paths, List.mem_singleton, Prod.mk.injEq] at hp
    obtain ⟨rfl, rfl⟩ := hp
    have hx : x ≤ 260 := hs x (by simp [HTree.symbols])
    have e : s.dec.nodeAt n = _ := h
    obtain ⟨fuel, rfl⟩ : ∃ k, fuel = k + 1 := ⟨fuel - 1, by omega⟩
    simp only [State.walk, e, isLeafSymbol_ofNat hx, if_true, List.length_nil, Nat.add_zero, toNat_ofNat_symbol hx]
    rw [State.seek_self hr hc]
  | node a b iha ihb =>
    obtain ⟨e, ha, hb'⟩ := h
    obtain ⟨fuel, rfl⟩ : ∃ k, fuel = k + 1 := ⟨fuel - 1, by omega⟩
    simp only [HTree.nodes, Config.maxTreeNodes] at hn
    have pb := b.nodes_pos
    have k1 : (BitVec.ofNat 16 (n + 1)).toNat = n + 1 := by simp only [BitVec.toNat_ofNat]; omega
    have k2 : (BitVec.ofNat 16 (n + 1 + a.nodes)).toNat = n + 1 + a.nodes := by
      simp only [BitVec.toNat_ofNat]; omega
    have hlim := s.br.limit_lt
    simp only [HTree.paths, List.mem_append, List.mem_map, Prod.mk.injEq, Prod.exists] at hp
    rcases hp with ⟨y, rest, hy, rfl, rfl⟩ | ⟨y, rest, hy, rfl, rfl⟩ <;>
    · rw [State.hasBits_cons] at hb
      obtain ⟨⟨h1, h2⟩, h3⟩ := hb
      have hp1 : (s.seek (s.br.pos + 1)).br.pos = s.br.pos + 1 := State.seek_pos s (by omega)
      have r1 := State.brReadOrFail_flag hf h1 h2
      rw [List.length_cons] at hfuel ⊢
      simp only [State.walk, e, isLeafSymbol_internal, Bool.false_eq_true, if_false, r1, Res.bind_ok, k1, k2]
      have := (by assumption : (y, rest) ∈ _)
      first
      | rw [if_neg (by decide), iha (s := s.seek (s.br.pos + 1)) ha (fun z hz => hs z (by simp [HTree.symbols, hz]))
          (by simp only [Config.maxTreeNodes]; omega) this (by rw [hp1]; exact h3) hf (State.seek_ok s h1)
          (State.seek_cacheFresh s (by omega)) (by omega), State.seek_seek, hp1]
        congr 2; omega
      | rw [if_pos (by decide), ihb (s := s.seek (s.br.pos + 1)) hb' (fun z hz => hs z (by simp [HTree.symbols, hz]))
          (by simp only [Config.maxTreeNodes]; omega) this (by rw [hp1]; exact h3) hf (State.seek_ok s h1)
          (State.seek_cacheFresh s (by omega)) (by omega), State.seek_seek, hp1]
        congr 2; omega

theorem HTree.nodes_of_path {t : HTree} {x : Nat} {code : List Bool} (h : (x, code) ∈ t.paths) : x ∈ t.symbols := by
  rw [← HTree.paths_symbols, List.mem_map]; exact ⟨_, h, rfl⟩

/-- A leaf's path that stands in the stream is decoded to its symbol, in a tree of two leaves or more (R185). -/
theorem State.decodeSymbol_of_path {s : State} {t : HTree} {x : Nat} {code : List Bool} (hd : s.dec.Ready t)
    (hp : (x, code) ∈ t.paths) (hne : code ≠ []) (hb : s.hasBits s.br.pos code) (hf : s.br.fail = false) (hr : s.br.ok)
    (hc : s.cacheFresh) : s.decodeSymbol = .ok x (s.seek (s.br.pos + code.length)) := by
  have hlim := s.br.limit_lt
  have hx : x ≤ 260 := hd.legal.1 x (HTree.nodes_of_path hp)
  have hkey : s.dec.lutAt s.br.peek8 = t.entry s.br.peek8 0 0 := hd.lut _ (Reader.peek8_lt _)
  have hpos : 0 < code.length := List.length_pos_iff.2 hne
  have hl := hb.1
  have hbits : ∀ i (h : i < code.length), 0 + i < 8 → s.br.peek8.testBit (0 + i) = code[i] := by
    intro i hi h8
    rw [Nat.zero_add, State.peek8_eq_field hr hc, State.field_testBit]
    simp only [show i < 8 by omega, decide_true, Bool.true_and]
    exact ((s.hasBits_iff _ _).1 hb).2 i hi
  rcases HTree.entry_of_path hd.holds hp 0 (by omega) hbits with ⟨h1, h2⟩ | ⟨h1, t', n', h2, h3, h4, h5, h6⟩
  · rw [Nat.zero_add] at h1 h2
    unfold State.decodeSymbol
    simp only [hkey, h2, if_true]
    have e1 : (BitVec.ofNat 4 (max code.length 1)).toNat = code.length := by simp only [BitVec.toNat_ofNat]; omega
    have e2 : (BitVec.ofNat 9 x).toNat = x := by simp only [BitVec.toNat_ofNat]; omega
    rw [e1, e2, State.brAdvanceOrFail_of_fits hf hpos hl, Res.bind_ok]
  · have hcount := hd.legal.2
    have hn' : n' < Config.maxTreeNodes := by have := t'.nodes_pos; omega
    have e1 : (BitVec.ofNat 16 n').toNat = n' := by
      simp only [BitVec.toNat_ofNat]; simp only [Config.maxTreeNodes] at hn'; omega
    have e2 : BitVec.ofNat 16 n' ≠ Config.none16 := by
      intro k
      have := congrArg BitVec.toNat k
      rw [e1] at this
      simp only [Config.maxTreeNodes] at hn'
      have : (Config.none16).toNat = 65535 := rfl
      omega
    unfold State.decodeSymbol
    simp only [hkey, h2, e2, if_false, e1, Nat.sub_zero] at h5 h1 ⊢
    have hsplit : code = code.take 8 ++ code.drop 8 := (List.take_append_drop 8 code).symm
    have htake : (code.take 8).length = 8 := by rw [List.length_take]; omega
    rw [hsplit, State.hasBits_append, htake] at hb
    have hp8 : (s.seek (s.br.pos + 8)).br.pos = s.br.pos + 8 := State.seek_pos s (by omega)
    rw [State.brAdvanceOrFail_of_fits hf (by decide) (by simp only [Config.lutKeyBits]; omega), Res.bind_ok]
    have hwalk := State.walk_of_path (s := s.seek (s.br.pos + 8)) (t := t') (n := n') (x := x) (code := code.drop 8)
      (fuel := (s.seek (s.br.pos + 8)).br.limit - (s.seek (s.br.pos + 8)).br.pos + 1) h3
      (fun y hy => hd.legal.1 y (h6 y hy)) (by omega) h5 (by rw [hp8]; exact hb.2) hf
      (State.seek_ok s (by omega)) (State.seek_cacheFresh s (by omega))
      (by rw [hp8, List.length_drop]; simp only [State.seek_br_limit]; omega)
    rw [hp8, State.seek_seek, List.length_drop, show s.br.pos + 8 + (code.length - 8) = s.br.pos + code.length by omega]
      at hwalk
    rw [← hwalk]
    simp only [hp8]

/-- A code that stands in the stream is decoded to its symbol (R185, R189). -/
theorem State.decodeSymbol_of_sends {s : State} {t : HTree} {x : Nat} {code : List Bool} (hd : s.dec.Ready t)
    (hp : t.sends x code) (hb : s.hasBits s.br.pos code) (hf : s.br.fail = false) (hr : s.br.ok) (hc : s.cacheFresh) :
    s.decodeSymbol = .ok x (s.seek (s.br.pos + code.length)) := by
  cases t with
  | leaf y =>
    obtain ⟨rfl, hl⟩ := hp
    have hx : x ≤ 260 := hd.legal.1 x (by simp [HTree.symbols])
    have hkey : s.dec.lutAt s.br.peek8 = _ := hd.lut _ (Reader.peek8_lt _)
    unfold State.decodeSymbol
    simp only [hkey, HTree.entry, if_true]
    have e1 : (BitVec.ofNat 4 (max 0 1)).toNat = 1 := rfl
    have e2 : (BitVec.ofNat 9 x).toNat = x := by simp only [BitVec.toNat_ofNat]; omega
    rw [e1, e2, State.brAdvanceOrFail_of_fits hf (by omega) (by have := hb.1; omega), Res.bind_ok, hl]
  | node a b =>
    refine State.decodeSymbol_of_path hd hp ?_ hb hf hr hc
    rintro rfl
    simp [HTree.sends, HTree.paths] at hp

/-! ### One token -/

theorem Mem.writeList_append (m : Mem) (a : Nat) (xs ys : List Byte) :
    m.writeList a (xs ++ ys) = (m.writeList a xs).writeList (a + xs.length) ys := by
  induction xs generalizing m a with
  | nil => rfl
  | cons x xs ih =>
    simp only [List.cons_append, Mem.writeList, ih, List.length_cons]
    congr 1; omega

/-- The state after bytes have been decoded: the reader at `q`, the bytes stored at `OUT_PTR`, `OUT_PTR` past them. -/
def State.decoded (s : State) (q : Nat) (bs : List Byte) : State :=
  { s.seek q with
    output := s.output.writeList s.pay.outPtr.toNat bs
    pay := { s.pay with outPtr := s.pay.outPtr + BitVec.ofNat 64 bs.length } }

theorem State.decoded_outPtr {s : State} {q : Nat} {bs : List Byte} (h : s.pay.outPtr.toNat + bs.length < 2 ^ 64) :
    (s.decoded q bs).pay.outPtr.toNat = s.pay.outPtr.toNat + bs.length := by
  simp only [State.decoded, BitVec.toNat_add, BitVec.toNat_ofNat]
  omega

theorem State.decoded_nil {s : State} (hr : s.br.ok) (hc : s.cacheFresh) : s.decoded s.br.pos [] = s := by
  have h1 := hr.1
  have e1 : s.br.pos / 8 = s.br.ptr.toNat := by simp only [Reader.pos]; omega
  have e2 : s.br.pos % 8 = s.br.bitpos.toNat := by simp only [Reader.pos]; omega
  simp only [State.decoded, State.seek, e1, e2, ← hc, BitVec.ofNat_toNat, BitVec.setWidth_eq, Mem.writeList,
    List.length_nil, BitVec.add_zero]

theorem State.decoded_decoded {s : State} {p q : Nat} {xs ys : List Byte}
    (h : s.pay.outPtr.toNat + xs.length < 2 ^ 64) :
    (s.decoded p xs).decoded q ys = s.decoded q (xs ++ ys) := by
  have h1 := State.decoded_outPtr (q := p) h
  unfold State.decoded at h1 ⊢
  simp only [h1]
  rw [Mem.writeList_append, List.length_append]
  have : s.pay.outPtr + BitVec.ofNat 64 xs.length + BitVec.ofNat 64 ys.length =
      s.pay.outPtr + BitVec.ofNat 64 (xs.length + ys.length) := by
    rw [BitVec.add_assoc, ← BitVec.ofNat_add]
  rw [this]
  rfl

/-- A token that stands in the stream is decoded: its symbol is found, its suffix read, its bytes stored (R186). -/
theorem State.decodeOne_of_token {s : State} {t : HTree} {x : Token} {code : List Bool} (hd : s.dec.Ready t)
    (hp : t.sends x.sym code) (hx : x.legal) (hb : s.hasBits s.br.pos (code ++ bitsOf x.suffix x.k))
    (hf : s.br.fail = false) (hr : s.br.ok) (hc : s.cacheFresh)
    (ho : s.pay.outPtr.toNat + x.bytes.length ≤ s.pay.outEnd.toNat) :
    s.decodeOne = .ok x.sym (s.decoded (s.br.pos + (code.length + x.k)) x.bytes) := by
  rw [State.hasBits_append] at hb
  have hl := hb.1.1
  have hlim := s.br.limit_lt
  have hp1 : (s.seek (s.br.pos + code.length)).br.pos = s.br.pos + code.length := State.seek_pos s (by omega)
  have e := State.dispatch_of_token (s := s.seek (s.br.pos + code.length)) hx (State.seek_ok s hl)
    (State.seek_cacheFresh s (by omega)) hf (by rw [hp1]; exact hb.2) ho
  unfold State.decodeOne
  rw [State.decodeSymbol_of_sends hd hp hb.1 hf hr hc, Res.bind_ok, e, Res.bind_ok, hp1, State.seek_seek, Nat.add_assoc]
  rfl

/-! ### The loop -/

/-- The row of bytes a row of tokens stands for. -/
def tokenBytes (ts : List Token) : List Byte := ts.flatMap Token.bytes

theorem State.leaveFast_cases (s : State) : s.leaveFast = s ∨ s.leaveFast = s.setDecState .tail := by
  unfold State.leaveFast; split
  · exact .inr rfl
  · exact .inl rfl

/-- A row of tokens that stands in the stream and fills the output range exactly is decoded whole (R187). -/
theorem State.huffLoop_of_encodes {s : State} {t : HTree} {ts : List Token} {bits : List Bool} {fuel : Nat}
    (hd : s.dec.Ready t) (he : t.encodes ts bits) (hx : ∀ x ∈ ts, x.legal) (hb : s.hasBits s.br.pos bits)
    (hf : s.br.fail = false) (hr : s.br.ok) (hc : s.cacheFresh)
    (ho : s.pay.outPtr.toNat + (tokenBytes ts).length = s.pay.outEnd.toNat) (hfuel : (tokenBytes ts).length ≤ fuel) :
    ∃ st, s.huffLoop fuel = .ok () ((s.setDecState st).decoded (s.br.pos + bits.length) (tokenBytes ts)) := by
  induction ts generalizing s bits fuel with
  | nil =>
    obtain rfl : bits = [] := he
    refine ⟨s.pay.state, ?_⟩
    have e : (s.setDecState s.pay.state).decoded (s.br.pos + 0) (tokenBytes []) = s := State.decoded_nil hr hc
    rw [List.length_nil, e]
    cases fuel with
    | zero => rfl
    | succ fuel =>
      rw [State.huffLoop, if_neg]
      simp only [tokenBytes, List.flatMap_nil, List.length_nil] at ho
      omega
  | cons x ts ih =>
    obtain ⟨code, rest, h1, h2, rfl⟩ := he
    have hpos := x.bytes_length_pos
    have hsplit : tokenBytes (x :: ts) = x.bytes ++ tokenBytes ts := List.flatMap_cons
    rw [hsplit, List.length_append] at ho hfuel
    obtain ⟨fuel, rfl⟩ : ∃ k, fuel = k + 1 := ⟨fuel - 1, by omega⟩
    have hstop := s.pay.outEnd.isLt
    have hlim := s.br.limit_lt
    rw [← List.append_assoc, State.hasBits_append, List.length_append, bitsOf_length] at hb
    have hl := hb.1.1
    rw [List.length_append, bitsOf_length] at hl
    rw [State.huffLoop, if_pos (by omega)]
    -- the turn, from a state that is `s` but for `DEC_STATE`
    have turn : ∀ u : State, (∃ st, u = s.setDecState st) → ∃ st, (u.decodeOne.bind fun _ s => s.huffLoop fuel) =
        .ok () ((s.setDecState st).decoded (s.br.pos + (code ++ (bitsOf x.suffix x.k ++ rest)).length)
          (tokenBytes (x :: ts))) := by
      rintro u ⟨st, rfl⟩
      have e := State.decodeOne_of_token (s := s.setDecState st) hd h1 (hx x (by simp)) hb.1 hf hr hc
        (by show s.pay.outPtr.toNat + _ ≤ s.pay.outEnd.toNat; omega)
      rw [e, Res.bind_ok]
      have hp : ((s.setDecState st).decoded (s.br.pos + (code.length + x.k)) x.bytes).br.pos =
          s.br.pos + (code.length + x.k) := State.seek_pos (s.setDecState st) (by omega)
      have hop : ((s.setDecState st).decoded (s.br.pos + (code.length + x.k)) x.bytes).pay.outPtr.toNat =
          s.pay.outPtr.toNat + x.bytes.length :=
        State.decoded_outPtr (s := s.setDecState st) (by show s.pay.outPtr.toNat + _ < _; omega)
      obtain ⟨st', e'⟩ := ih (s := (s.setDecState st).decoded (s.br.pos + (code.length + x.k)) x.bytes) (fuel := fuel)
        hd h2 (fun y hy => hx y (by simp [hy])) (by rw [hp]; exact hb.2) hf
        (State.seek_ok (s.setDecState st) hl) (State.seek_cacheFresh (s.setDecState st) (by omega))
        (by rw [hop]; show _ = s.pay.outEnd.toNat; omega) (by omega)
      refine ⟨st', ?_⟩
      have hpos' : (s.setDecState st).br.pos + (code.length + x.k) = s.br.pos + (code.length + x.k) := rfl
      rw [hpos', e', hp, hsplit]
      have := State.decoded_decoded (s := s.setDecState st') (p := s.br.pos + (code.length + x.k))
        (q := s.br.pos + (code.length + x.k) + rest.length) (xs := x.bytes) (ys := tokenBytes ts)
        (by show s.pay.outPtr.toNat + _ < _; omega)
      rw [show s.br.pos + (code ++ (bitsOf x.suffix x.k ++ rest)).length = s.br.pos + (code.length + x.k) + rest.length by
        simp only [List.length_append, bitsOf_length]; omega, ← this]
      rfl
    rcases s.leaveFast_cases with k | k <;> rw [k]
    · exact turn s ⟨s.pay.state, rfl⟩
    · exact turn _ ⟨.tail, rfl⟩

/-! ### What the payload decoder changes, whether or not it succeeds -/

/-- From `s` to `t` only the reader, the payload decoder and `OUT` have changed; the reader has only read; `OUT_PTR` has
not gone back nor past `OUT_END`, and only the bytes it has passed were stored to (R174, R186, R187). -/
structure State.Decoding (s t : State) : Prop where
  frame : t = { s with br := t.br, pay := t.pay, output := t.output }
  reading : s.Reading t
  stop : t.pay.outEnd = s.pay.outEnd
  ptr : s.pay.outPtr.toNat ≤ t.pay.outPtr.toNat
  bound : s.pay.outPtr.toNat ≤ s.pay.outEnd.toNat → t.pay.outPtr.toNat ≤ t.pay.outEnd.toNat
  stores : Mem.Stores s.pay.outPtr.toNat t.pay.outPtr.toNat s.output t.output

theorem State.Decoding.refl (s : State) : s.Decoding s :=
  ⟨rfl, .refl s, rfl, Nat.le_refl _, id, .refl _⟩

theorem State.Decoding.trans {s t u : State} (h : s.Decoding t) (h' : t.Decoding u) : s.Decoding u :=
  ⟨by rw [h'.frame, h.frame], h.reading.trans h'.reading, h'.stop.trans h.stop, h.ptr.trans h'.ptr,
    fun k => h'.bound (h.bound k), (h.stores.mono (Nat.le_refl _) h'.ptr).trans (h'.stores.mono h.ptr (Nat.le_refl _))⟩

/-- A step of the reader alone. -/
theorem State.decoding_of_brMove (s : State) (n : Nat) : s.Decoding (s.brMove n) := by
  have e := State.brMove_frame s n
  have ho : (s.brMove n).output = s.output := by rw [e]
  have hp : (s.brMove n).pay = s.pay := by rw [e]
  refine ⟨by rw [ho, hp]; exact e, State.brMove_reading s n, by rw [hp], by rw [hp], by rw [hp]; exact id, ?_⟩
  rw [ho, hp]; exact .refl _

theorem State.walk_decoding (fuel n : Nat) (s : State) : s.Decoding (s.walk fuel n).state := by
  induction fuel generalizing n s with
  | zero => exact .refl s
  | succ fuel ih =>
    simp only [State.walk]
    split
    · exact .refl s
    · exact Res.bind_rel (R := State.Decoding) State.Decoding.trans
        (by rw [State.brReadOrFail_state]; exact s.decoding_of_brMove 1) fun b t _ => ih _ t

theorem State.decodeSymbol_decoding (s : State) : s.Decoding s.decodeSymbol.state := by
  simp only [State.decodeSymbol]
  split
  · exact Res.bind_rel (R := State.Decoding) State.Decoding.trans
      (by rw [State.brAdvanceOrFail_state]; exact s.decoding_of_brMove _) fun _ t _ => .refl t
  · exact Res.bind_rel (R := State.Decoding) State.Decoding.trans
      (by rw [State.brAdvanceOrFail_state]; exact s.decoding_of_brMove _) fun _ t _ => t.walk_decoding _ _

theorem State.putLiteral_decoding (s : State) (b : Byte) : s.Decoding (s.putLiteral b).state := by
  unfold State.putLiteral
  split
  · exact .refl s
  · have hp : (s.pay.outPtr + 1#64).toNat = s.pay.outPtr.toNat + 1 := by
      rw [BitVec.toNat_add]; have := s.pay.outEnd.isLt; simp only [BitVec.toNat_ofNat]; omega
    refine ⟨rfl, (State.Reading.refl s).congr rfl rfl rfl rfl, rfl, ?_, fun h => ?_, ?_⟩ <;> simp only [Res.state, hp]
    · omega
    · omega
    · exact Mem.Stores.write _ _ (Nat.le_refl _) (by omega)

theorem State.putZeros_decoding (s : State) (l : Nat) : s.Decoding (s.putZeros l).state := by
  unfold State.putZeros
  split
  · exact .refl s
  · have hp : (s.pay.outPtr + BitVec.ofNat 64 l).toNat = s.pay.outPtr.toNat + l := by
      rw [BitVec.toNat_add]; have := s.pay.outEnd.isLt; simp only [BitVec.toNat_ofNat]; omega
    refine ⟨rfl, (State.Reading.refl s).congr rfl rfl rfl rfl, rfl, ?_, fun h => ?_, ?_⟩ <;> simp only [Res.state, hp]
    · omega
    · omega
    · exact Mem.Stores.writeList _ _ (Nat.le_refl _) (by simp)

theorem State.dispatch_decoding (s : State) (sym : Nat) : s.Decoding (s.dispatch sym).state := by
  unfold State.dispatch
  split
  · exact s.putLiteral_decoding _
  · split
    · exact Res.bind_rel (R := State.Decoding) State.Decoding.trans
        (by rw [State.brReadOrFail_state]; exact s.decoding_of_brMove _) fun x t _ => t.putZeros_decoding _
    · exact s.putZeros_decoding _

theorem State.decodeOne_decoding (s : State) : s.Decoding s.decodeOne.state :=
  Res.bind_rel (R := State.Decoding) State.Decoding.trans s.decodeSymbol_decoding fun sym t _ =>
    Res.bind_rel (R := State.Decoding) State.Decoding.trans (t.dispatch_decoding sym) fun _ u _ => .refl u

theorem State.setDecState_decoding (s : State) (d : DecState) : s.Decoding (s.setDecState d) :=
  ⟨rfl, (State.Reading.refl s).congr rfl rfl rfl rfl, rfl, Nat.le_refl _, id, .refl _⟩

theorem State.huffLoop_decoding (fuel : Nat) (s : State) : s.Decoding (s.huffLoop fuel).state := by
  induction fuel generalizing s with
  | zero => exact .refl s
  | succ fuel ih =>
    simp only [State.huffLoop]
    split
    · have h0 : s.Decoding s.leaveFast := by
        rcases s.leaveFast_cases with k | k <;> rw [k]
        · exact .refl s
        · exact s.setDecState_decoding _
      exact h0.trans (Res.bind_rel (R := State.Decoding) State.Decoding.trans s.leaveFast.decodeOne_decoding
        fun _ t _ => ih t)
    · exact .refl s

/-- What `huff_decode` changes: as `State.Decoding` says, from the range it sets (R187). -/
theorem State.huffDecode_decoding (s : State) (start stop : Nat) :
    (s.setOut start stop).Decoding (s.huffDecode start stop).state := by
  have h1 := (s.setOut start stop).setDecState_decoding (s.setOut start stop).startState
  have h2 := State.huffLoop_decoding (stop - start) ((s.setOut start stop).setDecState (s.setOut start stop).startState)
  simp only [State.huffDecode]
  cases e : ((s.setOut start stop).setDecState (s.setOut start stop).startState).huffLoop (stop - start) with
  | ok _ t =>
    rw [e] at h2
    exact (h1.trans h2).trans (t.setDecState_decoding _)
  | fail k t =>
    rw [e] at h2
    exact (h1.trans h2).trans (t.setDecState_decoding _)

/-- A dispatch that succeeds has raised `OUT_PTR` (R187: every turn moves on or fails). -/
theorem State.dispatch_ok_ptr {s t : State} {sym : Nat} {u : Unit} (h : s.dispatch sym = .ok u t) :
    s.pay.outPtr.toNat < t.pay.outPtr.toNat := by
  have key : ∀ {v : State} {l : Nat}, 1 ≤ l → v.putZeros l = .ok u t → v.pay.outPtr.toNat < t.pay.outPtr.toNat := by
    intro v l hl e
    unfold State.putZeros at e
    split at e
    · simp at e
    · simp only [Res.ok.injEq, true_and] at e
      rw [← e]
      dsimp only
      rw [BitVec.toNat_add]; have := v.pay.outEnd.isLt; simp only [BitVec.toNat_ofNat]; omega
  have hbase : 1 ≤ runBase sym := by simp only [runBase]; split_ifs <;> omega
  unfold State.dispatch at h
  split at h
  · unfold State.putLiteral at h
    split at h
    · simp at h
    · simp only [Res.ok.injEq, true_and] at h
      rw [← h]
      dsimp only
      rw [BitVec.toNat_add]; have := s.pay.outEnd.isLt; simp only [BitVec.toNat_ofNat]; omega
  · split at h
    · obtain ⟨x, v, e1, e2⟩ := Res.bind_eq_ok.1 h
      have hv : v = (s.brReadOrFail (suffixBits sym)).state := by rw [e1]; rfl
      have hp : v.pay = s.pay := by rw [hv, State.brReadOrFail_state, State.brMove_frame]
      have := key (by omega) e2
      rw [hp] at this; exact this
    · exact key hbase h

/-- A loop with enough fuel that succeeds has reached `OUT_END` (R187). -/
theorem State.huffLoop_ok_ptr {fuel : Nat} {s t : State} {u : Unit} (h : s.huffLoop fuel = .ok u t)
    (hf : s.pay.outEnd.toNat ≤ s.pay.outPtr.toNat + fuel) : t.pay.outEnd.toNat ≤ t.pay.outPtr.toNat := by
  induction fuel generalizing s with
  | zero =>
    simp only [State.huffLoop, Res.ok.injEq, true_and] at h
    rw [← h]; exact hf
  | succ fuel ih =>
    simp only [State.huffLoop] at h
    split at h
    · obtain ⟨sym, v, e1, e2⟩ := Res.bind_eq_ok.1 h
      have e1' := e1
      simp only [State.decodeOne] at e1'
      obtain ⟨x, w, d1, d2⟩ := Res.bind_eq_ok.1 e1'
      obtain ⟨y, z, d3, d4⟩ := Res.bind_eq_ok.1 d2
      simp only [Res.ok.injEq] at d4
      have hlt := State.dispatch_ok_ptr d3
      have hw := State.decodeSymbol_decoding s.leaveFast
      rw [d1] at hw
      have hpl : s.leaveFast.pay.outPtr = s.pay.outPtr ∧ s.leaveFast.pay.outEnd = s.pay.outEnd := by
        rcases s.leaveFast_cases with k | k <;> rw [k] <;> exact ⟨rfl, rfl⟩
      have hv := State.decodeOne_decoding s.leaveFast
      rw [e1] at hv
      have a1 := hw.ptr
      have a2 := hv.stop
      simp only [Res.state] at a1 a2
      rw [hpl.1] at a1
      rw [hpl.2] at a2
      obtain ⟨-, rfl⟩ := d4
      exact ih e2 (by rw [a2]; omega)
    · simp only [Res.ok.injEq, true_and] at h
      rw [← h]; omega

end Sys2Proof.Machine
end

