-- ==== Sys2Proof/Laws/Container.lean ====
section
/-! SUPPORT. The laws of the block decoder, the block verifier and the three loops of the container driver. -/

namespace Sys2Proof.Machine

/-! ### One block -/

theorem State.readBlockHeader_of_block {crc : CrcFn} {u : State} {p es mode : Nat} {bs : List Byte} (h : BlockAt crc u.inByte p es mode bs)
    (hl : p + 7 + es ≤ u.inLen) :
    u.readBlockHeader p = .ok ⟨es, (crc (readList u.inByte (p + 7) es)).toNat, mode⟩ := by
  obtain ⟨⟨h1, h2, h3⟩, h4, h5, h6⟩ := h
  have hm : mode ≤ 2 := by rcases h6 with ⟨k, _⟩ | ⟨k, _⟩ | ⟨k, _⟩ <;> omega
  unfold State.readBlockHeader
  simp only [Config.blockHdr, h3, h4, h5]
  rw [if_neg (by omega), if_neg (by omega), if_neg (by omega)]

/-- A block of the format passes verification (R216). -/
theorem State.blockVerify_of_block {crc : CrcFn} {u : State} {p es mode : Nat} {bs : List Byte} (h : BlockAt crc u.inByte p es mode bs)
    (hl : p + 7 + es ≤ u.inLen) : u.blockVerify crc p = .ok (p + 7 + es, mode) := by
  unfold State.blockVerify
  rw [State.readBlockHeader_of_block h hl]
  simp only [Config.blockHdr, State.crcIn, ne_eq, not_true_eq_false, if_false]

theorem State.inLen_lt (s : State) : s.inLen < 2 ^ 64 := s.ops.inLen.isLt

/-- A stream of the payload's bytes holds the bits the payload's bytes have. -/
theorem State.brNew_hasBits {u : State} {a es : Nat} {bits : List Bool} (hs : a + es < 2 ^ 64)
    (hl : bits.length ≤ 8 * es) (hb : ∀ i (h : i < bits.length), bitAt u.inByte (8 * a + i) = bits[i]) :
    (u.brNew a (a + es)).hasBits (u.brNew a (a + es)).br.pos bits := by
  rw [State.brNew_pos (by omega), State.hasBits_iff, State.brNew_limit hs]
  refine ⟨by omega, fun i hi => ?_⟩
  have hst : (u.brNew a (a + es)).br.stop.toNat = a + es := by
    simp only [State.brNew, State.seek_br_stop, BitVec.toNat_ofNat]; omega
  rw [← hb i hi, State.sbit, State.rangeByte, hst, if_pos (by omega)]
  rfl

/-- `decode_huff_rle` of a payload of its mode (R220). -/
theorem State.decodeHuffRle_of_payload {u : State} {q es start : Nat} {bs : List Byte} (h : HuffPayload u.inByte q es bs)
    (hq : q + es ≤ u.inLen) (ho : start + bs.length ≤ u.outCap) (hd : u.dec.ok) :
    ∃ v, u.decodeHuffRle q es start bs.length = .ok () v ∧ v.output = u.output.writeList start bs ∧
      v = { u with br := v.br, dec := v.dec, pay := v.pay, output := v.output } ∧ v.dec.ok := by
  obtain ⟨t, ts, bits, h1, h2, h3, h4, h5, h6⟩ := h
  have hin := u.inLen_lt
  have hcap := u.outCap_lt
  have hb := State.brNew_hasBits (u := u) (a := q) (es := es) (by omega) h5 h6
  rw [State.hasBits_append] at hb
  obtain ⟨d, e1, e2⟩ := State.treeRecover_of_hasBits (s := u.brNew q (q + es)) hb.1 rfl h1 hd
  unfold State.decodeHuffRle
  rw [e1, Res.bind_ok]
  set s1 : State := { (u.brNew q (q + es)).seek ((u.brNew q (q + es)).br.pos + t.describe.length) with dec := d } with hs1
  have hlim := (u.brNew q (q + es)).br.limit_lt
  have hfit := hb.2.1
  have hp1 : s1.br.pos = (u.brNew q (q + es)).br.pos + t.describe.length :=
    State.seek_pos (u.brNew q (q + es)) (by omega)
  unfold State.huffDecode
  dsimp only
  have e3 : (BitVec.ofNat 64 start).toNat = start := by simp only [BitVec.toNat_ofNat]; omega
  have e4 : (BitVec.ofNat 64 (start + bs.length)).toNat = start + bs.length := by
    simp only [BitVec.toNat_ofNat]; omega
  obtain ⟨st, e5⟩ := State.huffLoop_of_encodes
    (s := (s1.setOut start (start + bs.length)).setDecState (s1.setOut start (start + bs.length)).startState)
    (t := t) (ts := ts) (bits := bits) (fuel := start + bs.length - start) e2 h4 h2
    (by show s1.hasBits s1.br.pos bits; rw [hp1]; exact hb.2) rfl
    (State.seek_ok (u.brNew q (q + es)) (by omega)) (State.seek_cacheFresh (u.brNew q (q + es)) (by omega))
    (by
      show (BitVec.ofNat 64 start).toNat + _ = (BitVec.ofNat 64 (start + bs.length)).toNat
      rw [e3, e4]; simp only [tokenBytes, h3])
    (by simp only [tokenBytes, h3]; omega)
  rw [e5]
  refine ⟨_, rfl, ?_, rfl, e2.ok⟩
  show u.output.writeList (BitVec.ofNat 64 start).toNat (tokenBytes ts) = _
  rw [e3, tokenBytes, h3]

/-- A block of the format is decoded to the bytes it stands for, whatever its mode (R217 to R220). -/
theorem State.blockDecode_of_block {crc : CrcFn} {u : State} {p es mode start : Nat} {bs : List Byte}
    (h : BlockAt crc u.inByte p es mode bs) (hl : p + 7 + es ≤ u.inLen) (ho : start + bs.length ≤ u.outCap) (hd : u.dec.ok) :
    ∃ v, u.blockDecode p start bs.length = .ok (p + 7 + es, mode) v ∧ v.output = u.output.writeList start bs ∧
      v = { u with br := v.br, dec := v.dec, pay := v.pay, output := v.output } ∧ v.dec.ok := by
  have hh := State.readBlockHeader_of_block h hl
  obtain ⟨h1, h2, h3, h4⟩ := h
  unfold State.blockDecode
  rw [hh]
  dsimp only
  unfold State.decodePayload
  simp only [Config.blockHdr]
  rcases h4 with ⟨k1, k2, k3⟩ | ⟨k1, k2, k3⟩ | ⟨k1, k2⟩
  · rw [if_pos k1, State.decodeCopy, if_neg (by simp [k2]), Res.bind_ok]
    exact ⟨_, rfl, by simp only [State.putOutList, State.inBytes]; rw [← k2, k3], rfl, hd⟩
  · rw [if_neg (by omega), if_pos k1, State.decodeFill, if_neg (by simp [k2]), Res.bind_ok]
    exact ⟨_, rfl, by simp only [State.putOutList]; rw [← k3], rfl, hd⟩
  · rw [if_neg (by omega), if_neg (by omega)]
    obtain ⟨v, v1, v2, v3, v4⟩ := State.decodeHuffRle_of_payload k2 hl ho hd
    rw [v1, Res.bind_ok]
    exact ⟨v, rfl, v2, v3, v4⟩

/-! ### What the block decoder changes, whether or not it succeeds -/

/-- From `s` to `t` only the reader, the decoder's tables, the payload decoder and `OUT` have changed, `OUT` by stores
between `lo` and `hi` only; the tables keep their sizes, the reader its invariant. -/
structure State.Unpacking (lo hi : Nat) (s t : State) : Prop where
  frame : t = { s with br := t.br, dec := t.dec, pay := t.pay, output := t.output }
  dec : s.dec.ok → t.dec.ok
  br : s.br.ok → t.br.ok
  stores : Mem.Stores lo hi s.output t.output

theorem State.Unpacking.refl (lo hi : Nat) (s : State) : s.Unpacking lo hi s := ⟨rfl, id, id, .refl _⟩

theorem State.Unpacking.trans {lo hi : Nat} {s t u : State} (h : s.Unpacking lo hi t) (h' : t.Unpacking lo hi u) :
    s.Unpacking lo hi u :=
  ⟨by rw [h'.frame, h.frame], fun k => h'.dec (h.dec k), fun k => h'.br (h.br k), h.stores.trans h'.stores⟩

theorem State.Unpacking.mono {lo hi lo' hi' : Nat} {s t : State} (h : s.Unpacking lo hi t) (h1 : lo' ≤ lo)
    (h2 : hi ≤ hi') : s.Unpacking lo' hi' t := ⟨h.frame, h.dec, h.br, h.stores.mono h1 h2⟩

theorem State.Unpacking.ops {lo hi : Nat} {s t : State} (h : s.Unpacking lo hi t) : t.ops = s.ops := by rw [h.frame]

theorem State.Unpacking.input {lo hi : Nat} {s t : State} (h : s.Unpacking lo hi t) : t.input = s.input := by
  rw [h.frame]

theorem State.Unpacking.inByte {lo hi : Nat} {s t : State} (h : s.Unpacking lo hi t) : t.inByte = s.inByte := by
  funext a; simp [State.inByte, h.input]

theorem State.Unpacking.inLen {lo hi : Nat} {s t : State} (h : s.Unpacking lo hi t) : t.inLen = s.inLen := by
  rw [State.inLen, h.ops]; rfl

theorem State.Unpacking.outCap {lo hi : Nat} {s t : State} (h : s.Unpacking lo hi t) : t.outCap = s.outCap := by
  rw [State.outCap, h.ops]; rfl

/-- `huff_decode` stores between its two bounds. -/
theorem State.huffDecode_unpacking {s : State} {start stop : Nat} (h : start ≤ stop) (hs : stop < 2 ^ 64) :
    s.Unpacking start stop (s.huffDecode start stop).state := by
  have k := s.huffDecode_decoding start stop
  have h1 : (s.setOut start stop).pay.outPtr.toNat = start := by
    simp only [State.setOut, BitVec.toNat_ofNat]; omega
  have h2 : (s.setOut start stop).pay.outEnd.toNat = stop := by
    simp only [State.setOut, BitVec.toNat_ofNat]; omega
  have hd : (s.huffDecode start stop).state.dec = s.dec := by rw [k.frame]; rfl
  have hb := k.bound (by omega)
  rw [k.stop, h2] at hb
  refine ⟨?_, fun z => by rw [hd]; exact z, fun z => k.reading.ok z, k.stores.mono (by omega) hb⟩
  rw [hd]; exact k.frame

theorem State.treeRecover_unpacking (lo hi : Nat) (s : State) : s.Unpacking lo hi s.treeRecover.state := by
  obtain ⟨k1, k2, k3⟩ := s.treeRecover_recovering
  refine ⟨?_, k3, k2.ok, ?_⟩ <;> rw [k1]
  exact .refl _

theorem State.brNew_unpacking (lo hi : Nat) (s : State) {a b : Nat} (h : a ≤ b) (hb : b < 2 ^ 64) :
    s.Unpacking lo hi (s.brNew a b) := ⟨rfl, id, fun _ => State.brNew_ok h hb, .refl _⟩

theorem State.putOutList_unpacking {lo hi : Nat} (s : State) {a : Nat} (bs : List Byte) (h1 : lo ≤ a)
    (h2 : a + bs.length ≤ hi) : s.Unpacking lo hi (s.putOutList a bs) :=
  ⟨rfl, id, id, Mem.Stores.writeList _ _ h1 h2⟩

/-- What the decoding of a block changes, whether or not it succeeds (R217, R221, R224). -/
theorem State.blockDecode_unpacking {s : State} (p : Nat) {start len : Nat} (h : start + len ≤ s.outCap) :
    s.Unpacking start (start + len) (s.blockDecode p start len).state := by
  have hc := s.outCap_lt
  have hi := s.inLen_lt
  unfold State.blockDecode
  cases e : s.readBlockHeader p with
  | error k => exact .refl _ _ s
  | ok hd =>
    have hfit : p + 7 + hd.es ≤ s.inLen := by
      unfold State.readBlockHeader at e
      simp only [Config.blockHdr] at e
      split_ifs at e with k1 k2 k3
      obtain rfl := (Except.ok.injEq _ _ ▸ e).symm
      dsimp only at k3 ⊢
      omega
    dsimp only
    refine Res.bind_rel (R := State.Unpacking start (start + len)) State.Unpacking.trans ?_ fun _ t _ => .refl _ _ t
    unfold State.decodePayload
    simp only [Config.blockHdr]
    split
    · unfold State.decodeCopy
      split
      · exact .refl _ _ s
      · exact s.putOutList_unpacking _ (Nat.le_refl _) (by simp [State.inBytes])
    · split
      · unfold State.decodeFill
        split
        · exact .refl _ _ s
        · exact s.putOutList_unpacking _ (Nat.le_refl _) (by simp)
      · unfold State.decodeHuffRle
        refine (s.brNew_unpacking start (start + len) (by omega) (by omega)).trans
          (Res.bind_rel (R := State.Unpacking start (start + len)) State.Unpacking.trans
            (State.treeRecover_unpacking _ _ _) fun _ t _ => ?_)
        exact t.huffDecode_unpacking (by omega) (by omega)

/-! ### The blocks of a file -/

/-- The bytes `g` at `i`, `n` of them, cut into blocks (R84, R99). -/
def chunks (g : Nat → Byte) : Nat → Nat → Nat → List (List Byte)
  | 0, _, _ => []
  | fuel + 1, i, n =>
    if 0 < n then
      readList g i (min Config.maxBlock n) :: chunks g fuel (i + min Config.maxBlock n) (n - min Config.maxBlock n)
    else []

/-- Blocks one after another from `p` up to `q`, each standing for one row of bytes (R84). -/
def BlocksAt (crc : CrcFn) (f : Nat → Byte) : List (List Byte) → Nat → Nat → Prop
  | [], p, q => p = q
  | bs :: bss, p, q => ∃ es mode, BlockAt crc f p es mode bs ∧ BlocksAt crc f bss (p + 7 + es) q

theorem BlocksAt.le {crc : CrcFn} {f : Nat → Byte} {bss : List (List Byte)} {p q : Nat} (h : BlocksAt crc f bss p q) : p ≤ q := by
  induction bss generalizing p with
  | nil => exact Nat.le_of_eq h
  | cons bs bss ih => obtain ⟨es, mode, _, h2⟩ := h; have := ih h2; omega

/-- Blocks are judged by their own bytes. -/
theorem BlocksAt.congr {crc : CrcFn} {f g : Nat → Byte} {bss : List (List Byte)} {p q : Nat} (h : BlocksAt crc f bss p q)
    (hg : ∀ x, p ≤ x → x < q → g x = f x) : BlocksAt crc g bss p q := by
  induction bss generalizing p with
  | nil => exact h
  | cons bs bss ih =>
    obtain ⟨es, mode, h1, h2⟩ := h
    have hle := h2.le
    exact ⟨es, mode, h1.congr fun x k1 k2 => hg x k1 (by omega), ih h2 fun x k1 k2 => hg x (by omega) k2⟩

/-- Enough turns cut all of the bytes. -/
theorem chunks_flatten (g : Nat → Byte) (fuel i n : Nat) (h : n ≤ fuel * Config.maxBlock) :
    (chunks g fuel i n).flatten = readList g i n := by
  induction fuel generalizing i n with
  | zero =>
    obtain rfl : n = 0 := by omega
    rfl
  | succ fuel ih =>
    rw [Nat.succ_mul] at h
    unfold chunks
    by_cases hn : 0 < n
    · rw [if_pos hn, List.flatten_cons, ih _ _ (by simp only [Config.maxBlock] at *; omega)]
      apply List.ext_getElem (by simp)
      intro j h1 h2
      rw [readList_getElem]
      by_cases hj : j < (readList g i (min Config.maxBlock n)).length
      · rw [List.getElem_append_left hj, readList_getElem]
      · rw [List.getElem_append_right (by omega), readList_getElem]
        simp only [readList_length] at hj ⊢
        congr 1; omega
    · rw [if_neg hn, show n = 0 by omega]; rfl

theorem le_blockCount (n : Nat) : n ≤ blockCount n * Config.maxBlock := by
  simp only [blockCount, Config.maxBlock]; omega

/-- The loop of `ENCODE`: blocks one after another, for the bytes that were left (R232). -/
theorem State.encodeLoop_ok {crc : CrcFn} {fuel n pos i nb : Nat} {s t : State} {r : Nat × Nat}
    (h : s.encodeLoop crc n fuel pos i nb = .ok r t) (he : s.enc.ok) (hp : pos ≤ s.outCap) :
    s.Encoding pos t ∧ BlocksAt crc t.outByte (chunks s.inByte fuel i (n - i)) pos r.1 ∧ r.1 ≤ s.outCap := by
  induction fuel generalizing pos i nb s with
  | zero =>
    simp only [State.encodeLoop, Res.ok.injEq] at h
    obtain ⟨rfl, rfl⟩ := h
    exact ⟨.refl _ s, rfl, hp⟩
  | succ fuel ih =>
    simp only [State.encodeLoop] at h
    unfold chunks
    split at h
    · next hi =>
      obtain ⟨⟨w, mode⟩, u, e1, e2⟩ := Res.bind_eq_ok.1 h
      have k1 := State.blockEncode_encoding crc s i (min Config.maxBlock (n - i)) pos
      rw [e1] at k1
      obtain ⟨es, rfl, hw, hb⟩ := State.blockEncode_ok (by simp only [Config.maxBlock]; omega) e1 he
      have k1 : s.Encoding pos u := k1
      obtain ⟨m1, m2, m3⟩ := ih e2 (k1.enc he) (by rw [k1.outCap]; exact hw)
      rw [k1.inByte, show n - (i + min Config.maxBlock (n - i)) = n - i - min Config.maxBlock (n - i) by omega,
        show pos + (7 + es) = pos + 7 + es by omega] at m2
      rw [k1.outCap] at m3
      rw [if_pos (by omega)]
      refine ⟨k1.trans (m1.mono (by omega)), ⟨es, mode, hb.congr fun x _ hx => m1.outByte_below (by omega), m2⟩, m3⟩
    · next hi =>
      simp only [Res.ok.injEq] at h
      obtain ⟨rfl, rfl⟩ := h
      rw [if_neg (by omega)]
      exact ⟨.refl _ s, rfl, hp⟩

/-- What the loop of `ENCODE` changes, whether or not it succeeds (R232). -/
theorem State.encodeLoop_encoding (crc : CrcFn) (fuel n pos i nb : Nat) (s : State) (lo : Nat) (hl : lo ≤ pos) :
    s.Encoding lo (s.encodeLoop crc n fuel pos i nb).state := by
  induction fuel generalizing pos i nb s with
  | zero => exact .refl _ s
  | succ fuel ih =>
    simp only [State.encodeLoop]
    split
    · exact Res.bind_rel (R := State.Encoding lo) State.Encoding.trans ((State.blockEncode_encoding crc s i _ pos).mono hl)
        fun p t _ => ih _ _ _ t (by omega)
    · exact .refl _ s

/-- Room for the block as a copy is room enough (R204, R206): a block is encoded, of at most 65543 bytes. -/
theorem State.blockEncode_succeeds {crc : CrcFn} {s : State} {inStart n outPos : Nat} (hn : 1 ≤ n ∧ n ≤ Config.maxBlock)
    (ho : outPos + 7 + n ≤ s.outCap) (he : s.enc.ok) :
    ∃ w mode t, s.blockEncode crc inStart n outPos = .ok (w, mode) t ∧ w ≤ Config.blockHdr + Config.maxBlock := by
  cases e : s.blockEncode crc inStart n outPos with
  | ok p t =>
    obtain ⟨es, k1, _, k2⟩ := State.blockEncode_ok (w := p.1) (mode := p.2) hn e he
    refine ⟨p.1, p.2, t, rfl, ?_⟩
    have := k2.1.2.1
    simp only [Config.blockHdr]; omega
  | fail k t =>
    exfalso
    unfold State.blockEncode at e
    rw [if_neg (by omega)] at e
    unfold State.blockEncodeBody at e
    have key : ∃ p u, (s.histogram inStart n).emitPayload inStart n outPos = .ok p u := by
      unfold State.emitPayload
      split
      · exact ⟨_, _, rfl⟩
      · split
        · exact ⟨_, _, rfl⟩
        · next t' e' =>
          have k := State.tryHuffRle_encoding (s := s.histogram inStart n) inStart n (outPos := outPos)
            (by show _ ≤ s.outCap; omega)
          rw [e'] at k
          unfold State.emitCopy
          rw [if_neg (by rw [show t'.outCap = s.outCap from k.outCap]; simp only [Config.blockHdr]; omega)]
          exact ⟨_, _, rfl⟩
    obtain ⟨p, u, hp⟩ := key
    rw [hp] at e
    simp [Res.bind] at e

/-- The loop of `VERIFY` over blocks of the format (R233). -/
theorem State.verifyLoop_of_blocks {crc : CrcFn} {u : State} {g : Nat → Byte} {fuel i rem p q : Nat}
    (h : BlocksAt crc u.inByte (chunks g fuel i rem) p q) (hq : q ≤ u.inLen) : u.verifyLoop crc fuel p rem = .ok q := by
  induction fuel generalizing i rem p with
  | zero => obtain rfl : p = q := h; rfl
  | succ fuel ih =>
    unfold chunks at h
    unfold State.verifyLoop
    split
    · next hr =>
      rw [if_pos hr] at h
      obtain ⟨es, mode, h1, h2⟩ := h
      rw [State.blockVerify_of_block h1 (by have := h2.le; omega)]
      exact ih h2
    · next hr =>
      rw [if_neg hr] at h
      obtain rfl : p = q := h; rfl

/-- The loop of `DECODE` over blocks of the format (R234): the bytes the blocks stand for are stored in order. -/
theorem State.decodeLoop_of_blocks {crc : CrcFn} {u : State} {g : Nat → Byte} {fuel i d o p q : Nat}
    (h : BlocksAt crc u.inByte (chunks g fuel i (d - o)) p q) (hq : q ≤ u.inLen) (hd : u.dec.ok) (ho : o ≤ d)
    (hc : d ≤ u.outCap) :
    ∃ v, u.decodeLoop d fuel p o = .ok q v ∧ v.output = u.output.writeList o (chunks g fuel i (d - o)).flatten ∧
      v = { u with br := v.br, dec := v.dec, pay := v.pay, output := v.output } ∧ v.dec.ok := by
  induction fuel generalizing i o p u with
  | zero => obtain rfl : p = q := h; exact ⟨u, rfl, rfl, rfl, hd⟩
  | succ fuel ih =>
    unfold chunks at h ⊢
    unfold State.decodeLoop
    by_cases hr : o < d
    · rw [if_pos (by omega)] at h
      rw [if_pos hr, if_pos (by omega)]
      obtain ⟨es, mode, h1, h2⟩ := h
      have hlen : (readList g i (min Config.maxBlock (d - o))).length = min Config.maxBlock (d - o) := readList_length _ _ _
      obtain ⟨v, v1, v2, v3, v4⟩ := State.blockDecode_of_block (start := o) h1 (by have := h2.le; omega)
        (by rw [hlen]; omega) hd
      rw [hlen] at v1
      rw [v1, Res.bind_ok]
      have e1 : v.inByte = u.inByte := by rw [v3]; rfl
      have e2 : v.inLen = u.inLen := by rw [v3]; rfl
      have e3 : v.outCap = u.outCap := by rw [v3]; rfl
      rw [show d - o - min Config.maxBlock (d - o) = d - (o + min Config.maxBlock (d - o)) by omega] at h2
      obtain ⟨w, w1, w2, w3, w4⟩ := ih (u := v) (o := o + min Config.maxBlock (d - o)) (by rw [e1]; exact h2) (by omega)
        v4 (by omega) (by omega)
      refine ⟨w, w1, ?_, by rw [w3, v3], w4⟩
      rw [w2, v2, List.flatten_cons, Mem.writeList_append, hlen,
        show d - (o + min Config.maxBlock (d - o)) = d - o - min Config.maxBlock (d - o) by omega]
    · rw [if_neg (by omega)] at h
      rw [if_neg hr, if_neg (by omega)]
      obtain rfl : p = q := h; exact ⟨u, rfl, rfl, rfl, hd⟩

/-- What the loop of `DECODE` changes, whether or not it succeeds (R234). -/
theorem State.decodeLoop_unpacking (fuel d pos o : Nat) (s : State) (hd : d ≤ s.outCap) :
    s.Unpacking 0 d (s.decodeLoop d fuel pos o).state := by
  induction fuel generalizing pos o s with
  | zero => exact .refl _ _ s
  | succ fuel ih =>
    simp only [State.decodeLoop]
    split
    · next ho =>
      have k := s.blockDecode_unpacking pos (start := o) (len := min Config.maxBlock (d - o)) (by omega)
      cases e : s.blockDecode pos o (min Config.maxBlock (d - o)) with
      | fail k' t => rw [e] at k; exact k.mono (by omega) (by omega)
      | ok p t =>
        rw [e] at k
        have k : s.Unpacking o (o + min Config.maxBlock (d - o)) t := k
        exact (k.mono (by omega) (by omega)).trans (ih _ _ t (by rw [k.outCap]; exact hd))
    · exact .refl _ _ s

end Sys2Proof.Machine
end

