-- ==== Sys2Proof/Laws/Failures.lean ====
section
/-! SUPPORT. How a tree recovery and the payload decoder fail: on a description, or a token, of which only a first part stands
in the reader's range, and on a token whose bytes do not fit. -/

namespace Sys2Proof.Machine

/-- The state after a read that passed the end of the range, from the position `q` on: the reader stands at `q` and
`BR_FAIL` is 1 (R113). -/
def State.cutAt (s : State) (q : Nat) : State := { s with br := { (s.seek q).br with fail := true } }

theorem State.cutAt_self {s : State} (hr : s.br.ok) (hc : s.cacheFresh) :
    s.cutAt s.br.pos = { s with br := { s.br with fail := true } } := by
  rw [State.cutAt, State.seek_self hr hc]

theorem State.seek_cutAt (s : State) (p q : Nat) : (s.seek p).cutAt q = s.cutAt q := by
  rw [State.cutAt, State.seek_seek]; rfl

theorem State.brReadOrFail_of_past {s : State} {n : Nat} (hf : s.br.fail = false) (hn : 0 < n)
    (h : s.br.limit < s.br.pos + n) :
    s.brReadOrFail n = .fail .truncated { s with br := { s.br with fail := true } } := by
  unfold State.brReadOrFail
  rw [State.brMove_of_past hf hn h, if_pos rfl]

theorem State.brAdvanceOrFail_of_past {s : State} {n : Nat} (hf : s.br.fail = false) (hn : 0 < n)
    (h : s.br.limit < s.br.pos + n) :
    s.brAdvanceOrFail n = .fail .truncated { s with br := { s.br with fail := true } } := by
  unfold State.brAdvanceOrFail
  rw [State.brMove_of_past hf hn h, if_pos rfl]

/-! ### Tree recovery -/

/-- Where the recovery of a description that has been read up to the start of a node stands: `u` is the state in which that
node comes next, and its failure is the failure of the whole (R155). -/
theorem State.recoverNode_of_open {o : OpenTree} {fuel code bits : Nat} {s : State}
    (h : s.hasBits s.br.pos o.describe) (hf : s.br.fail = false) (hs : ∀ x ∈ o.symbols, x ≤ 260) (hok : s.dec.ok)
    (hn : s.dec.count.toNat + o.nodes ≤ Config.maxTreeNodes)
    (hfuel : Config.maxTreeNodes + 1 ≤ fuel + s.dec.count.toNat) (hcode : bits ≤ 8 → code < 2 ^ bits) :
    ∃ (fuel' code' bits' : Nat) (u : State), u.br.pos = s.br.pos + o.describe.length ∧ u.br.fail = false ∧ u.br.stop = s.br.stop ∧
      u.input = s.input ∧ u.dec.count.toNat = s.dec.count.toNat + o.nodes ∧
      Config.maxTreeNodes + 1 ≤ fuel' + u.dec.count.toNat ∧
      ∀ k v, u.recoverNode fuel' code' bits' = .fail k v → s.recoverNode fuel code bits = .fail k v := by
  induction o generalizing fuel code bits s with
  | here => exact ⟨fuel, code, bits, s, rfl, hf, rfl, rfl, rfl, hfuel, fun k v e => e⟩
  | inA o ih =>
    rw [OpenTree.describe, State.hasBits_cons] at h
    obtain ⟨⟨h1, h2⟩, h3⟩ := h
    simp only [OpenTree.nodes] at hn ⊢
    obtain ⟨fuel, rfl⟩ : ∃ k, fuel = k + 1 := ⟨fuel - 1, by have := hok.2.2; omega⟩
    have hlim := s.br.limit_lt
    have hp1 : (s.entered code bits).br.pos = s.br.pos + 1 := State.seek_pos s (by omega)
    have c1 := Decoder.alloc_count (d := s.dec) (by omega)
    have hn1 : (s.entered code bits).dec.count.toNat = s.dec.count.toNat + 1 := by
      simp only [State.entered, Decoder.setJump_count, c1]
    have hok1 : (s.entered code bits).dec.ok :=
      ⟨by simpa [State.entered] using hok.1, by simpa [State.entered] using hok.2.1, by omega⟩
    obtain ⟨f', c', b', u, e1, e2, e3, e4, e5, e6, e7⟩ := ih (s := s.entered code bits) (fuel := fuel) (code := code)
      (bits := bits + 1) (by rw [hp1]; exact h3) hf hs hok1 (by omega) (by omega)
      (fun hb => Nat.lt_of_lt_of_le (hcode (by omega)) (Nat.pow_le_pow_right (by omega) (by omega)))
    refine ⟨f', c', b', u, by rw [e1, hp1, OpenTree.describe, List.length_cons]; omega, e2, e3, e4, by omega, e6,
      fun k v e => ?_⟩
    have r1 : (s.withDec Decoder.alloc).brReadOrFail 1 = .ok 0 ((s.withDec Decoder.alloc).seek (s.br.pos + 1)) :=
      State.brReadOrFail_flag (s := s.withDec Decoder.alloc) (f := false) hf h1 h2
    unfold State.recoverNode
    rw [if_neg (by omega)]
    dsimp only
    rw [r1, Res.bind_ok, if_neg (by decide)]
    have := e7 k v e
    rw [show ((s.withDec Decoder.alloc).seek (s.br.pos + 1)).withDec
      (fun d => d.setJump s.dec.count.toNat code bits) = s.entered code bits from rfl, this]
    rfl
  | inB a o ih =>
    rw [OpenTree.describe, State.hasBits_cons, State.hasBits_append] at h
    obtain ⟨⟨h1, h2⟩, h3, h4⟩ := h
    simp only [OpenTree.nodes] at hn ⊢
    obtain ⟨fuel, rfl⟩ : ∃ k, fuel = k + 1 := ⟨fuel - 1, by have := hok.2.2; omega⟩
    have hlim := s.br.limit_lt
    have hp1 : (s.entered code bits).br.pos = s.br.pos + 1 := State.seek_pos s (by omega)
    have c1 := Decoder.alloc_count (d := s.dec) (by omega)
    have hn1 : (s.entered code bits).dec.count.toNat = s.dec.count.toNat + 1 := by
      simp only [State.entered, Decoder.setJump_count, c1]
    have hok1 : (s.entered code bits).dec.ok :=
      ⟨by simpa [State.entered] using hok.1, by simpa [State.entered] using hok.2.1, by omega⟩
    have hdep := a.depth_lt_nodes
    have hcA : bits + 1 ≤ 8 → code < 2 ^ (bits + 1) := fun hb =>
      Nat.lt_of_lt_of_le (hcode (by omega)) (Nat.pow_le_pow_right (by omega) (by omega))
    have hcB : bits + 1 ≤ 8 → (if bits ≤ 7 then code ||| (1 <<< bits) else code) < 2 ^ (bits + 1) := fun hb => by
      have := hcode (by omega)
      rw [if_pos (by omega), childB_code this, Nat.pow_succ]; omega
    have hsa : ∀ x ∈ a.symbols, x ≤ 260 := fun x hx => hs x (by simp [OpenTree.symbols, hx])
    obtain ⟨d, ra, -⟩ := State.recoverNode_of_hasBits (s := s.entered code bits) (t := a) (fuel := fuel) (code := code)
      (bits := bits + 1) (by rw [hp1]; exact h3) hf hsa (by omega) hok1.1 hok1.2.1 (by omega) hcA
    obtain ⟨-, pv, fv, iv, lv, kv, cv⟩ := State.recoverNode_arrives ra (by rw [hp1]; exact h3) hf hsa (by omega) hok1
      (by omega) hcA
    generalize hw : ({ (s.entered code bits).seek ((s.entered code bits).br.pos + a.describe.length) with dec := d } :
      State) = w at *
    rw [hp1] at pv
    set w' : State := w.withDec fun d => d.setChildA s.dec.count.toNat (s.entered code bits).dec.count.toNat with hw'
    have hokw : w'.dec.ok := ⟨by simpa [hw'] using kv.1, by simpa [hw'] using kv.2.1, by simpa [hw'] using kv.2.2⟩
    have hcw : w'.dec.count.toNat = s.dec.count.toNat + 1 + a.nodes := by
      show w.dec.count.toNat = _
      rw [cv, hn1]
    have hpw : w'.br.pos = s.br.pos + 1 + a.describe.length := pv
    have hlw : w'.br.stop = s.br.stop := lv
    have hiw : w'.input = s.input := iv
    obtain ⟨f', c', b', u, e1, e2, e3, e4, e5, e6, e7⟩ := ih (s := w') (fuel := fuel)
      (code := if bits ≤ 7 then code ||| (1 <<< bits) else code) (bits := bits + 1)
      (by rw [hpw, State.hasBits_congr (s := s) hlw hiw]; exact h4) fv
      (fun x hx => hs x (by simp [OpenTree.symbols, hx])) hokw (by omega) (by omega) hcB
    refine ⟨f', c', b', u, ?_, e2, e3.trans hlw, e4.trans hiw, by omega, e6, fun k v e => ?_⟩
    · rw [e1, hpw, OpenTree.describe, List.length_cons, List.length_append]; omega
    · have r1 : (s.withDec Decoder.alloc).brReadOrFail 1 = .ok 0 ((s.withDec Decoder.alloc).seek (s.br.pos + 1)) :=
        State.brReadOrFail_flag (s := s.withDec Decoder.alloc) (f := false) hf h1 h2
      unfold State.recoverNode
      rw [if_neg (by omega)]
      dsimp only
      rw [r1, Res.bind_ok, if_neg (by decide)]
      have := e7 k v e
      rw [show ((s.withDec Decoder.alloc).seek (s.br.pos + 1)).withDec
        (fun d => d.setJump s.dec.count.toNat code bits) = s.entered code bits from rfl, ra, Res.bind_ok, ← hw', this]
      rfl

/-- A node that finds 521 nodes in use (R159). -/
theorem State.recoverNode_of_full {s : State} (h : s.dec.count.toNat = Config.maxTreeNodes) (fuel code bits : Nat) :
    s.recoverNode (fuel + 1) code bits = .fail .structural s := by
  unfold State.recoverNode
  rw [if_pos (by omega)]

/-- A node whose flag passes the end of the range (R155). -/
theorem State.recoverNode_of_no_flag {s : State} (hc : s.dec.count.toNat < Config.maxTreeNodes) (hf : s.br.fail = false)
    (h : s.br.limit < s.br.pos + 1) (fuel code bits : Nat) :
    ∃ v, s.recoverNode (fuel + 1) code bits = .fail .truncated v ∧ v.br = { s.br with fail := true } := by
  refine ⟨{ s.withDec Decoder.alloc with br := { s.br with fail := true } }, ?_, rfl⟩
  unfold State.recoverNode
  rw [if_neg (by omega)]
  dsimp only
  rw [State.brReadOrFail_of_past (s := s.withDec Decoder.alloc) hf (by omega) h]
  rfl

/-- A leaf whose symbol passes the end of the range (R155). -/
theorem State.recoverNode_of_no_symbol {s : State} (hc : s.dec.count.toNat < Config.maxTreeNodes)
    (hf : s.br.fail = false) (h1 : s.hasBits s.br.pos [true]) (h : s.br.limit < s.br.pos + 10) (fuel code bits : Nat) :
    ∃ v, s.recoverNode (fuel + 1) code bits = .fail .truncated v ∧ v.br.fail = true ∧ v.br.pos = s.br.pos + 1 := by
  have hlim := s.br.limit_lt
  rw [State.hasBits_cons] at h1
  obtain ⟨⟨h1, h2⟩, -⟩ := h1
  have r1 : (s.withDec Decoder.alloc).brReadOrFail 1 = .ok 1 ((s.withDec Decoder.alloc).seek (s.br.pos + 1)) :=
    State.brReadOrFail_flag (s := s.withDec Decoder.alloc) (f := true) hf h1 h2
  have hp : ((s.withDec Decoder.alloc).seek (s.br.pos + 1)).br.pos = s.br.pos + 1 := State.seek_pos _ (by omega)
  refine ⟨{ (s.withDec Decoder.alloc).seek (s.br.pos + 1) with
    br := { ((s.withDec Decoder.alloc).seek (s.br.pos + 1)).br with fail := true } }, ?_, rfl, hp⟩
  unfold State.recoverNode
  rw [if_neg (by omega)]
  dsimp only
  rw [r1, Res.bind_ok, if_pos rfl, State.brReadOrFail_of_past (s := (s.withDec Decoder.alloc).seek (s.br.pos + 1)) hf
    (by decide) (by rw [hp, State.seek_br_limit]; show s.br.limit < _; simp only [Config.symbolBits]; omega)]
  rfl

/-- A leaf whose symbol is above 260 (R160). -/
theorem State.recoverNode_of_bad_symbol {s : State} {x : Nat} (hc : s.dec.count.toNat < Config.maxTreeNodes)
    (hf : s.br.fail = false) (hx : 260 < x) (hx' : x < 512)
    (h : s.hasBits s.br.pos (true :: bitsOf x Config.symbolBits)) (fuel code bits : Nat) :
    ∃ v, s.recoverNode (fuel + 1) code bits = .fail .structural v ∧ v.br.fail = false ∧ v.br.pos = s.br.pos + 10 := by
  have hlim := s.br.limit_lt
  have hl := h.1
  simp only [List.length_cons, bitsOf_length, Config.symbolBits] at hl
  rw [State.hasBits_cons] at h
  obtain ⟨⟨h1, h2⟩, h3⟩ := h
  have r1 : (s.withDec Decoder.alloc).brReadOrFail 1 = .ok 1 ((s.withDec Decoder.alloc).seek (s.br.pos + 1)) :=
    State.brReadOrFail_flag (s := s.withDec Decoder.alloc) (f := true) hf h1 h2
  have hp : ((s.withDec Decoder.alloc).seek (s.br.pos + 1)).br.pos = s.br.pos + 1 := State.seek_pos _ (by omega)
  have r2 : ((s.withDec Decoder.alloc).seek (s.br.pos + 1)).brReadOrFail Config.symbolBits =
      .ok x ((s.withDec Decoder.alloc).seek (s.br.pos + 1 + Config.symbolBits)) := by
    have := State.brReadOrFail_of_hasBits (s := (s.withDec Decoder.alloc).seek (s.br.pos + 1))
      (bits := bitsOf x Config.symbolBits) hf (by simp) (by rw [hp]; exact h3)
    rw [bitsOf_length, bitsValue_bitsOf, hp, State.seek_seek,
      Nat.mod_eq_of_lt (show x < 2 ^ Config.symbolBits by simp only [Config.symbolBits]; omega)] at this
    exact this
  refine ⟨(s.withDec Decoder.alloc).seek (s.br.pos + 1 + Config.symbolBits), ?_, hf,
    State.seek_pos _ (by simp only [Config.symbolBits]; omega)⟩
  unfold State.recoverNode
  rw [if_neg (by omega)]
  dsimp only
  rw [r1, Res.bind_ok, if_pos rfl, r2, Res.bind_ok, if_pos hx]

/-- The recovery of a description that has been read up to the start of a node comes to that node, and fails as it fails. -/
theorem State.treeRecover_of_open {o : OpenTree} {s : State} (h : s.hasBits s.br.pos o.describe)
    (hf : s.br.fail = false) (hs : ∀ x ∈ o.symbols, x ≤ 260) (hd : s.dec.ok) (hn : o.nodes ≤ Config.maxTreeNodes) :
    ∃ (fuel code bits : Nat) (u : State), u.br.pos = s.br.pos + o.describe.length ∧ u.br.fail = false ∧ u.br.stop = s.br.stop ∧
      u.input = s.input ∧ u.dec.count.toNat = o.nodes ∧
      ∀ k v, u.recoverNode (fuel + 1) code bits = .fail k v → s.treeRecover = .fail k v := by
  obtain ⟨f, c, b, u, e1, e2, e3, e4, e5, e6, e7⟩ := State.recoverNode_of_open (s := s.recoverStart)
    (fuel := Config.maxTreeNodes + 1) (code := 0) (bits := 0) h hf hs (State.recoverStart_dec_ok hd)
    (by simp [State.recoverStart]; omega) (by omega) (fun _ => by decide)
  have e5 : u.dec.count.toNat = o.nodes := by rw [e5]; simp [State.recoverStart]
  obtain ⟨f, rfl⟩ : ∃ k, f = k + 1 := ⟨f - 1, by omega⟩
  refine ⟨f, c, b, u, e1, e2, e3, e4, e5, fun k v e => ?_⟩
  rw [State.treeRecover_eq, e7 k v e]
  rfl

/-! ### One symbol -/

/-- An entry takes at least the bits that lead to the node it was looked up from. -/
theorem HTree.entry_bits (t : HTree) (key depth n : Nat) (hd : depth ≤ 8) :
    max depth 1 ≤ (t.entry key depth n).bits.toNat := by
  induction t generalizing depth n with
  | leaf x => simp only [HTree.entry, BitVec.toNat_ofNat]; omega
  | node a b iha ihb =>
    rw [HTree.entry]
    split
    · show max depth 1 ≤ (8#4).toNat
      simp; omega
    · split
      · have := ihb (depth + 1) (n + 1 + a.nodes) (by omega); omega
      · have := iha (depth + 1) (n + 1) (by omega); omega

/-- Where only a first part of a code is known, fewer than 8 bits, the entry takes more bits than that part (R185). -/
theorem HTree.entry_of_cut {t : HTree} {key : Nat} {x : Nat} {code : List Bool} (hp : (x, code) ∈ t.paths)
    (depth n m : Nat) (hd : depth + m < 8) (hm : m < code.length)
    (hk : ∀ i (h : i < code.length), i < m → key.testBit (depth + i) = code[i]) :
    depth + m < (t.entry key depth n).bits.toNat := by
  induction t generalizing depth n m code with
  | leaf y =>
    simp only [HTree.paths, List.mem_singleton, Prod.mk.injEq] at hp
    obtain ⟨rfl, rfl⟩ := hp
    simp at hm
  | node a b iha ihb =>
    rw [HTree.entry, if_neg (by omega)]
    cases m with
    | zero =>
      split
      · have := b.entry_bits key (depth + 1) (n + 1 + a.nodes) (by omega); omega
      · have := a.entry_bits key (depth + 1) (n + 1) (by omega); omega
    | succ m =>
      simp only [HTree.paths, List.mem_append, List.mem_map, Prod.mk.injEq, Prod.exists] at hp
      rcases hp with ⟨y, rest, hy, rfl, rfl⟩ | ⟨y, rest, hy, rfl, rfl⟩ <;>
      · have hb0 := hk 0 (by simp) (by omega)
        simp only [Nat.add_zero, List.getElem_cons_zero] at hb0
        rw [List.length_cons] at hm
        have hk' : ∀ i (h : i < rest.length), i < m → key.testBit (depth + 1 + i) = rest[i] := fun i hi him => by
          have := hk (i + 1) (by simpa using hi) (by omega)
          rw [List.getElem_cons_succ] at this
          rw [← this]; congr 1; omega
        simp only [hb0, if_true, Bool.false_eq_true, if_false]
        first
        | have := ihb hy (depth + 1) (n + 1 + a.nodes) m (by omega) (by omega) hk'; omega
        | have := iha hy (depth + 1) (n + 1) m (by omega) (by omega) hk'; omega

/-- The walk along a path of which only a first part stands in the range fails at the end of the range (R185). -/
theorem State.walk_of_cut {t : HTree} {s : State} {n fuel x m : Nat} {code : List Bool} (h : s.dec.holds t n)
    (hn : n + t.nodes ≤ Config.maxTreeNodes) (hp : (x, code) ∈ t.paths) (hm : m < code.length)
    (hb : s.hasBits s.br.pos (code.take m)) (hl : s.br.pos + m = s.br.limit) (hf : s.br.fail = false) (hr : s.br.ok)
    (hc : s.cacheFresh) (hfuel : m < fuel) : s.walk fuel n = .fail .truncated (s.cutAt s.br.limit) := by
  induction t generalizing s n fuel code m with
  | leaf y =>
    simp only [HTree.paths, List.mem_singleton, Prod.mk.injEq] at hp
    obtain ⟨rfl, rfl⟩ := hp
    simp at hm
  | node a b iha ihb =>
    obtain ⟨e, ha, hb'⟩ := h
    obtain ⟨fuel, rfl⟩ : ∃ k, fuel = k + 1 := ⟨fuel - 1, by omega⟩
    simp only [HTree.nodes, Config.maxTreeNodes] at hn
    have pb := b.nodes_pos
    have k1 : (BitVec.ofNat 16 (n + 1)).toNat = n + 1 := by simp only [BitVec.toNat_ofNat]; omega
    have k2 : (BitVec.ofNat 16 (n + 1 + a.nodes)).toNat = n + 1 + a.nodes := by
      simp only [BitVec.toNat_ofNat]; omega
    have hlim := s.br.limit_lt
    cases m with
    | zero =>
      simp only [State.walk, e, isLeafSymbol_internal, Bool.false_eq_true, if_false,
        State.brReadOrFail_of_past hf (n := 1) (by omega) (show s.br.limit < s.br.pos + 1 by omega)]
      rw [show s.br.limit = s.br.pos by omega, State.cutAt_self hr hc]
      rfl
    | succ m =>
      simp only [HTree.paths, List.mem_append, List.mem_map, Prod.mk.injEq, Prod.exists] at hp
      rcases hp with ⟨y, rest, hy, rfl, rfl⟩ | ⟨y, rest, hy, rfl, rfl⟩ <;>
      · rw [List.take_succ_cons, State.hasBits_cons] at hb
        obtain ⟨⟨h1, h2⟩, h3⟩ := hb
        have hp1 : (s.seek (s.br.pos + 1)).br.pos = s.br.pos + 1 := State.seek_pos s (by omega)
        have r1 := State.brReadOrFail_flag hf h1 h2
        rw [List.length_cons] at hm
        simp only [State.walk, e, isLeafSymbol_internal, Bool.false_eq_true, if_false, r1, Res.bind_ok, k1, k2]
        have := (by assumption : (y, rest) ∈ _)
        first
        | rw [if_neg (by decide), iha (s := s.seek (s.br.pos + 1)) (m := m) ha (by simp only [Config.maxTreeNodes]; omega)
            this (by omega) (by rw [hp1]; exact h3) (by rw [hp1, State.seek_br_limit]; omega) hf (State.seek_ok s h1)
            (State.seek_cacheFresh s (by omega)) (by omega), State.seek_cutAt, State.seek_br_limit]
        | rw [if_pos (by decide), ihb (s := s.seek (s.br.pos + 1)) (m := m) hb' (by simp only [Config.maxTreeNodes]; omega)
            this (by omega) (by rw [hp1]; exact h3) (by rw [hp1, State.seek_br_limit]; omega) hf (State.seek_ok s h1)
            (State.seek_cacheFresh s (by omega)) (by omega), State.seek_cutAt, State.seek_br_limit]

/-- A code of which only a first part stands in the range is cut off: the reader stands before the code where the table's
advance failed, and at the end of the range where a read of the walk failed (R185). -/
theorem State.decodeSymbol_of_cut {s : State} {t : HTree} {x m : Nat} {code : List Bool} (hd : s.dec.Ready t)
    (hp : t.sends x code) (hm : m < code.length) (hb : s.hasBits s.br.pos (code.take m))
    (hl : s.br.pos + m = s.br.limit) (hf : s.br.fail = false) (hr : s.br.ok) (hc : s.cacheFresh) :
    s.decodeSymbol = .fail .truncated (s.cutAt (if m < 8 then s.br.pos else s.br.limit)) := by
  have hlim := s.br.limit_lt
  have hkey : s.dec.lutAt s.br.peek8 = t.entry s.br.peek8 0 0 := hd.lut _ (Reader.peek8_lt _)
  have hlen : (code.take m).length = m := by rw [List.length_take]; omega
  by_cases h8 : m < 8
  · rw [if_pos h8, State.cutAt_self hr hc]
    have hgt : m < (t.entry s.br.peek8 0 0).bits.toNat := by
      cases t with
      | leaf y =>
        obtain ⟨-, h1⟩ := hp
        have := (HTree.leaf y).entry_bits s.br.peek8 0 0 (by omega)
        omega
      | node a b =>
        have := HTree.entry_of_cut (t := .node a b) (key := s.br.peek8) hp 0 0 m (by omega) hm fun i hi him => by
          rw [Nat.zero_add, State.peek8_eq_field hr hc, State.field_testBit]
          simp only [show i < 8 by omega, decide_true, Bool.true_and]
          have := ((s.hasBits_iff _ _).1 hb).2 i (by omega)
          rw [this, List.getElem_take]
        omega
    unfold State.decodeSymbol
    dsimp only
    rw [hkey]
    split
    · rw [State.brAdvanceOrFail_of_past hf (by omega) (by omega)]; rfl
    · rw [State.brAdvanceOrFail_of_past hf (by decide) (by simp only [Config.lutKeyBits]; omega)]; rfl
  · rw [if_neg h8]
    cases t with
    | leaf y => have := hp.2; omega
    | node a b =>
      have hp : (x, code) ∈ (HTree.node a b).paths := hp
      have hbits : ∀ i (h : i < code.length), 0 + i < 8 → s.br.peek8.testBit (0 + i) = code[i] := by
        intro i hi hi8
        rw [Nat.zero_add, State.peek8_eq_field hr hc, State.field_testBit]
        simp only [show i < 8 by omega, decide_true, Bool.true_and]
        have := ((s.hasBits_iff _ _).1 hb).2 i (by omega)
        rw [this, List.getElem_take]
      rcases HTree.entry_of_path hd.holds hp 0 (by omega) hbits with ⟨h1, -⟩ | ⟨-, t', n', h2, h3, h4, h5, h6⟩
      · omega
      · have hcount := hd.legal.2
        have hn' : n' < Config.maxTreeNodes := by have := t'.nodes_pos; omega
        have e1 : (BitVec.ofNat 16 n').toNat = n' := by
          simp only [BitVec.toNat_ofNat]; simp only [Config.maxTreeNodes] at hn'; omega
        have e2 : BitVec.ofNat 16 n' ≠ Config.none16 := by
          intro k
          have := congrArg BitVec.toNat k
          rw [e1] at this
          simp only [Config.maxTreeNodes] at hn'
          have : (Config.none16).toNat = 65535 := rfl
          omega
        unfold State.decodeSymbol
        simp only [hkey, h2, e2, if_false, e1, Nat.sub_zero] at h5 ⊢
        have hsplit : code.take m = code.take 8 ++ (code.drop 8).take (m - 8) := by
          rw [← List.take_add]; congr 1; omega
        have htake : (code.take 8).length = 8 := by rw [List.length_take]; omega
        rw [hsplit, State.hasBits_append, htake] at hb
        have hp8 : (s.seek (s.br.pos + 8)).br.pos = s.br.pos + 8 := State.seek_pos s (by omega)
        rw [State.brAdvanceOrFail_of_fits hf (by decide) (by simp only [Config.lutKeyBits]; omega), Res.bind_ok]
        have hwalk := State.walk_of_cut (s := s.seek (s.br.pos + 8)) (t := t') (n := n') (x := x) (code := code.drop 8)
          (m := m - 8) (fuel := (s.seek (s.br.pos + 8)).br.limit - (s.seek (s.br.pos + 8)).br.pos + 1) h3 (by omega) h5
          (by rw [List.length_drop]; omega) (by rw [hp8]; exact hb.2) (by rw [hp8, State.seek_br_limit]; omega) hf
          (State.seek_ok s (by omega)) (State.seek_cacheFresh s (by omega))
          (by rw [hp8, State.seek_br_limit]; omega)
        rw [State.seek_cutAt, State.seek_br_limit] at hwalk
        exact hwalk

/-! ### One token -/

/-- Where the reader stands after a token of which only the first `m` bits stand in the range (R174, R185). -/
def State.cutPos (s : State) (code : List Bool) (m : Nat) : Nat :=
  if code.length ≤ m then s.br.pos + code.length else if m < 8 then s.br.pos else s.br.limit

/-- A token of which only a first part stands in the range fails `TRUNCATED` and stores nothing (R174, R186). -/
theorem State.decodeOne_of_cut {s : State} {t : HTree} {x : Token} {code : List Bool} {m : Nat} (hd : s.dec.Ready t)
    (hp : t.sends x.sym code) (hx : x.legal) (hm : m < code.length + x.k)
    (hb : s.hasBits s.br.pos ((code ++ bitsOf x.suffix x.k).take m)) (hl : s.br.pos + m = s.br.limit)
    (hf : s.br.fail = false) (hr : s.br.ok) (hc : s.cacheFresh) :
    s.decodeOne = .fail .truncated (s.cutAt (s.cutPos code m)) := by
  have hlim := s.br.limit_lt
  unfold State.decodeOne State.cutPos
  by_cases hcode : code.length ≤ m
  · rw [if_pos hcode]
    rw [List.take_append, List.take_of_length_le hcode, State.hasBits_append] at hb
    have hp1 : (s.seek (s.br.pos + code.length)).br.pos = s.br.pos + code.length := State.seek_pos s (by omega)
    rw [State.decodeSymbol_of_sends hd hp hb.1 hf hr hc, Res.bind_ok]
    have hk : 0 < suffixBits x.sym := by rw [← hx.2.1]; omega
    have h255 : ¬ x.sym ≤ 255 := fun h => by
      simp only [suffixBits] at hk
      split_ifs at hk <;> omega
    unfold State.dispatch
    rw [if_neg h255, if_pos hk, State.brReadOrFail_of_past (s := s.seek (s.br.pos + code.length)) hf hk
      (by rw [hp1, State.seek_br_limit, ← hx.2.1]; omega)]
    rfl
  · rw [if_neg hcode]
    rw [List.take_append_of_le_length (by omega)] at hb
    rw [State.decodeSymbol_of_cut hd hp (by omega) hb hl hf hr hc]
    rfl

/-- A token whose bytes do not fit fails `OUTPUT_OVERFLOW` behind its suffix and stores nothing (R174, R186). -/
theorem State.decodeOne_of_overflow {s : State} {t : HTree} {x : Token} {code : List Bool} (hd : s.dec.Ready t)
    (hp : t.sends x.sym code) (hx : x.legal) (hb : s.hasBits s.br.pos (code ++ bitsOf x.suffix x.k))
    (hf : s.br.fail = false) (hr : s.br.ok) (hc : s.cacheFresh)
    (ho : s.pay.outEnd.toNat < s.pay.outPtr.toNat + x.bytes.length) :
    s.decodeOne = .fail .outputOverflow (s.seek (s.br.pos + (code.length + x.k))) := by
  have hlim := s.br.limit_lt
  rw [State.hasBits_append] at hb
  have hl := hb.2.1
  rw [bitsOf_length] at hl
  have hp1 : (s.seek (s.br.pos + code.length)).br.pos = s.br.pos + code.length := State.seek_pos s (by omega)
  unfold State.decodeOne
  rw [State.decodeSymbol_of_sends hd hp hb.1 hf hr hc, Res.bind_ok]
  obtain ⟨hx1, hx2, hx3⟩ := hx
  unfold State.dispatch
  by_cases h255 : x.sym ≤ 255
  · have hk : x.k = 0 := by rw [hx2]; simp only [suffixBits]; split_ifs <;> omega
    have hone : x.bytes.length = 1 := by simp [Token.bytes, h255]
    rw [if_pos h255, hk]
    unfold State.putLiteral
    rw [if_pos (by rw [hone] at ho; exact ho)]
    rfl
  · have hlen : x.bytes.length = x.suffix + runBase x.sym := by simp [Token.bytes, h255]
    rw [hlen] at ho
    rw [if_neg h255, ← hx2]
    by_cases hk : 0 < x.k
    · have r := State.brReadOrFail_of_hasBits (s := s.seek (s.br.pos + code.length)) (bits := bitsOf x.suffix x.k) hf
        (by rw [bitsOf_length]; exact hk) (by rw [hp1]; exact hb.2)
      rw [bitsOf_length, bitsValue_bitsOf, Nat.mod_eq_of_lt hx3, hp1, State.seek_seek] at r
      rw [if_pos hk, r, Res.bind_ok, Nat.add_assoc]
      unfold State.putZeros
      rw [if_pos (show (s.seek _).pay.outEnd.toNat < (s.seek _).pay.outPtr.toNat + _ from ho)]
      rfl
    · have h0 : x.k = 0 := by omega
      have hs : x.suffix = 0 := by rw [h0] at hx3; omega
      rw [if_neg hk, h0]
      unfold State.putZeros
      rw [if_pos (show (s.seek _).pay.outEnd.toNat < (s.seek _).pay.outPtr.toNat + _ by
        rw [hs, Nat.zero_add] at ho; exact ho)]
      rfl

/-! ### The loop -/

/-- A row of tokens that leaves room in the output range, and then a token that fails: the loop fails as the token does, in
the state the row has led to (R187). -/
theorem State.huffLoop_of_fail {s : State} {t : HTree} {ts : List Token} {bits : List Bool} {fuel : Nat} {k : Kind}
    {Q : State → Prop} (hd : s.dec.Ready t) (he : t.encodes ts bits) (hx : ∀ x ∈ ts, x.legal)
    (hb : s.hasBits s.br.pos bits) (hf : s.br.fail = false) (hr : s.br.ok) (hc : s.cacheFresh)
    (ho : s.pay.outPtr.toNat + (tokenBytes ts).length < s.pay.outEnd.toNat) (hfuel : (tokenBytes ts).length < fuel)
    (hq : ∀ st, ∃ v, ((s.setDecState st).decoded (s.br.pos + bits.length) (tokenBytes ts)).decodeOne = .fail k v ∧ Q v) :
    ∃ v, s.huffLoop fuel = .fail k v ∧ Q v := by
  induction ts generalizing s bits fuel with
  | nil =>
    obtain rfl : bits = [] := he
    obtain ⟨fuel, rfl⟩ : ∃ k, fuel = k + 1 := ⟨fuel - 1, by omega⟩
    simp only [tokenBytes, List.flatMap_nil, List.length_nil] at ho hq
    rw [State.huffLoop, if_pos (by omega)]
    have turn : ∀ u : State, (∃ st, u = s.setDecState st) →
        ∃ v, (u.decodeOne.bind fun _ s => s.huffLoop fuel) = .fail k v ∧ Q v := by
      rintro u ⟨st, rfl⟩
      obtain ⟨v, e, q⟩ := hq st
      have e0 : (s.setDecState st).decoded (s.br.pos + 0) [] = s.setDecState st := State.decoded_nil hr hc
      rw [e0] at e
      exact ⟨v, by rw [e]; rfl, q⟩
    rcases s.leaveFast_cases with h | h <;> rw [h]
    · exact turn s ⟨s.pay.state, rfl⟩
    · exact turn _ ⟨.tail, rfl⟩
  | cons x ts ih =>
    obtain ⟨code, rest, h1, h2, rfl⟩ := he
    have hpos := x.bytes_length_pos
    have hsplit : tokenBytes (x :: ts) = x.bytes ++ tokenBytes ts := List.flatMap_cons
    rw [hsplit, List.length_append] at ho hfuel
    obtain ⟨fuel, rfl⟩ : ∃ k, fuel = k + 1 := ⟨fuel - 1, by omega⟩
    have hstop := s.pay.outEnd.isLt
    have hlim := s.br.limit_lt
    rw [← List.append_assoc, State.hasBits_append, List.length_append, bitsOf_length] at hb
    have hl := hb.1.1
    rw [List.length_append, bitsOf_length] at hl
    rw [State.huffLoop, if_pos (by omega)]
    have turn : ∀ u : State, (∃ st, u = s.setDecState st) →
        ∃ v, (u.decodeOne.bind fun _ s => s.huffLoop fuel) = .fail k v ∧ Q v := by
      rintro u ⟨st, rfl⟩
      have e := State.decodeOne_of_token (s := s.setDecState st) hd h1 (hx x (by simp)) hb.1 hf hr hc
        (by show s.pay.outPtr.toNat + _ ≤ s.pay.outEnd.toNat; omega)
      rw [e, Res.bind_ok]
      have hp : ((s.setDecState st).decoded (s.br.pos + (code.length + x.k)) x.bytes).br.pos =
          s.br.pos + (code.length + x.k) := State.seek_pos (s.setDecState st) (by omega)
      have hop : ((s.setDecState st).decoded (s.br.pos + (code.length + x.k)) x.bytes).pay.outPtr.toNat =
          s.pay.outPtr.toNat + x.bytes.length :=
        State.decoded_outPtr (s := s.setDecState st) (by show s.pay.outPtr.toNat + _ < _; omega)
      refine ih (s := (s.setDecState st).decoded (s.br.pos + (code.length + x.k)) x.bytes) (fuel := fuel)
        hd h2 (fun y hy => hx y (by simp [hy])) (by rw [hp]; exact hb.2) hf
        (State.seek_ok (s.setDecState st) hl) (State.seek_cacheFresh (s.setDecState st) (by omega))
        (by rw [hop]; show _ < s.pay.outEnd.toNat; omega) (by omega) fun st' => ?_
      obtain ⟨v, e, q⟩ := hq st'
      refine ⟨v, ?_, q⟩
      rw [hp, ← e]
      have := State.decoded_decoded (s := s.setDecState st') (p := s.br.pos + (code.length + x.k))
        (q := s.br.pos + (code.length + x.k) + rest.length) (xs := x.bytes) (ys := tokenBytes ts)
        (by show s.pay.outPtr.toNat + _ < _; omega)
      rw [show s.br.pos + (code ++ (bitsOf x.suffix x.k ++ rest)).length = s.br.pos + (code.length + x.k) + rest.length by
        simp only [List.length_append, bitsOf_length]; omega, hsplit, ← this]
      rfl
    rcases s.leaveFast_cases with h | h <;> rw [h]
    · exact turn s ⟨s.pay.state, rfl⟩
    · exact turn _ ⟨.tail, rfl⟩

end Sys2Proof.Machine
end

