-- ==== Sys2Proof/Laws/ModeChoice.lean ====
section
/-! SUPPORT. When a block that is not constant becomes HUFF_RLE: what the attempt of R203 comes to, said once. -/

namespace Sys2Proof.Machine

/-- What `ENODE` holds is decided by `ENODE` alone. -/
theorem Encoder.holds_congr {e e' : Encoder} (h : e'.enode = e.enode) {t : HTree} {n : Nat} (hh : e.holds t n) :
    e'.holds t n := by
  have key : ∀ i, e'.nodeAt i = e.nodeAt i := fun i => by simp [Encoder.nodeAt, h]
  induction t generalizing n with
  | leaf x => simpa [Encoder.holds, key] using hh
  | node a b iha ihb => exact ⟨by rw [key]; exact hh.1, by rw [key]; exact iha hh.2.1, by rw [key]; exact ihb hh.2.2⟩

/-- All that `try_huff_rle` comes to, from `s` to `t` with the answer `r`: the tree over the symbols in use with its codes,
wherever the attempt ends; and the payload, which is the description, the tokens and padding bits 0, where it is kept, that
is where no leaf is too deep and it is below 65536 bytes and fits (R203, R96). -/
structure State.Attempt (s t : State) (inStart n outPos : Nat) (r : Option Nat) (tr : HTree) : Prop where
  holds : t.enc.holds tr t.enc.root.toNat
  symbols : tr.symbols.Perm s.enc.used
  valid : t.enc.treeValid = true
  counts : ∀ i, (t.enc.symAt i).count = (s.enc.symAt i).count
  codes : tr.depth ≤ 32 → ∀ p ∈ tr.codes, (t.enc.symAt p.1).code = BitVec.ofNat 32 (bitsValue p.2) ∧
    (t.enc.symAt p.1).bits = BitVec.ofNat 6 p.2.length
  some : ∀ payload size, payload = tr.describe ++ (tokens (s.inBytes inStart n)).flatMap t.enc.tokenBits →
    size = (payload.length + 7) / 8 → tr.depth ≤ 32 → size < 65536 → outPos + 7 + size ≤ s.outCap →
    r = some size ∧ (List.range (8 * size)).map (fun q => t.outBit (8 * (outPos + 7) + q)) =
      payload ++ List.replicate (8 * size - payload.length) false
  none : ∀ payload size, payload = tr.describe ++ (tokens (s.inBytes inStart n)).flatMap t.enc.tokenBits →
    size = (payload.length + 7) / 8 → ¬ (tr.depth ≤ 32 ∧ size < 65536 ∧ outPos + 7 + size ≤ s.outCap) → r = .none

/-- `try_huff_rle` with a symbol in use (R203). -/
theorem State.tryHuffRle_attempt {s : State} {inStart n outPos : Nat} (ho : outPos + 7 ≤ s.outCap) (he : s.enc.ok)
    (hne : s.enc.used ≠ []) :
    ∃ tr, s.Attempt (s.tryHuffRle inStart n outPos).2 inStart n outPos (s.tryHuffRle inStart n outPos).1 tr := by
  obtain ⟨p1, p2, p3, p4, p5⟩ := State.huffOpened_ptr ho
  obtain ⟨tr, q1, q2, q3, -⟩ := s.enc.treeBuild_tree hne
  obtain ⟨tr', z1, z2, z3, z4, z5⟩ := s.enc.treeBuild_legal hne
  have hh : s.enc.treeBuild.holds tr s.enc.treeBuild.root.toNat :=
    Encoder.holds_of_rooted (q1.rooted _ (List.mem_singleton.2 rfl))
  have hnd : tr.symbols.Nodup := q2.nodup_iff.2 s.enc.used_nodup
  have hle : ∀ x ∈ tr.symbols, x ≤ 260 := fun x hx => by
    have := (Encoder.mem_used.1 (q2.mem_iff.1 hx)).1
    simp only [Config.nsym] at this; omega
  have hopk : (s.huffOpened outPos).enc.ok := Encoder.treeBuild_ok he
  have hfit : (s.huffOpened outPos).enc.codesFit = decide (tr.depth ≤ 32) := by
    rw [Encoder.codesFit, show (s.huffOpened outPos).enc = s.enc.treeBuild from rfl, Encoder.depthOk_of_holds hh]
    simp only [z2, decide_false, Bool.false_or, Config.maxCodeBits]
    congr 1; apply propext; omega
  have hsym0 : ∀ i, (s.huffOpened outPos).enc.symAt i = s.enc.symAt i := fun i => by
    simp only [State.huffOpened, Encoder.symAt, Encoder.treeBuild_sym]
  by_cases hd : tr.depth ≤ 32
  · rw [show decide (tr.depth ≤ 32) = true by simpa using hd] at hfit
    obtain ⟨w1, w2, w2'⟩ := State.treeEmit_of_holds (s := s.huffOpened outPos) hh z2 hd p5 hopk.1 hle hnd
    have henc : (s.huffOpened outPos).treeEmit.enc.ok := State.treeEmit_enc_ok hopk
    have w3 := State.symEmit_writes (s := (s.huffOpened outPos).treeEmit) w1.ok henc inStart n
    have hin : (s.huffOpened outPos).treeEmit.inBytes inStart n = s.inBytes inStart n := by
      rw [State.treeEmit_frame]; rfl
    rw [hin] at w3
    have w := w1.trans w3
    have hsym : ((s.huffOpened outPos).treeEmit.symEmit inStart n).enc = (s.huffOpened outPos).treeEmit.enc := by
      rw [State.symEmit_frame]
    have hflu : (s.huffWritten inStart n outPos).enc = (s.huffOpened outPos).treeEmit.enc := by
      rw [State.huffWritten, State.bwForceFlush_frame, hsym]
    have hf0 := State.bwForceFlush_cases (s := (s.huffOpened outPos).treeEmit.symEmit inStart n) w3.ok
    have hw : ((s.huffOpened outPos).treeEmit.symEmit inStart n).bwForceFlush = s.huffWritten inStart n outPos := rfl
    rw [hw] at hf0
    have hstop : ((s.huffOpened outPos).treeEmit.symEmit inStart n).bw.stop.toNat = s.outCap := by
      rw [w3.stop, w1.stop, p2]
    have hok4 : (s.huffWritten inStart n outPos).bw.ok := State.bwForceFlush_ok w3.ok
    have hptr4 := hok4.2.2
    rw [← hw, State.bwForceFlush_stop, hstop, hw] at hptr4
    have e : s.tryHuffRle inStart n outPos =
        if (s.huffOpened outPos).enc.codesFit = false then (.none, s.huffOpened outPos)
        else if (s.huffOpened outPos).treeEmit.bw.fail then (.none, (s.huffOpened outPos).treeEmit)
        else if ((s.huffOpened outPos).treeEmit.symEmit inStart n).bw.fail then
          (.none, (s.huffOpened outPos).treeEmit.symEmit inStart n)
        else if (s.huffWritten inStart n outPos).bw.fail then (.none, s.huffWritten inStart n outPos)
        else if Config.maxBlock ≤ (s.huffWritten inStart n outPos).bw.ptr.toNat - (outPos + Config.blockHdr) then
          (.none, s.huffWritten inStart n outPos)
        else (.some ((s.huffWritten inStart n outPos).bw.ptr.toNat - (outPos + Config.blockHdr)),
          s.huffWritten inStart n outPos) := rfl
    rw [hfit, if_neg (by simp)] at e
    generalize hb : (tokens (s.inBytes inStart n)).flatMap (s.huffOpened outPos).treeEmit.enc.tokenBits = bits at *
    have hlive := w.live p4
    have hlive1 := w1.live p4
    rw [p1, p2, p3] at hlive hlive1
    rw [List.length_append] at hlive
    -- what the tables hold does not depend on where the attempt ends
    have mk : ∀ (r : Option Nat) (t : State), t.enc = (s.huffOpened outPos).treeEmit.enc →
        (∀ size, size = ((tr.describe ++ bits).length + 7) / 8 → size < 65536 → outPos + 7 + size ≤ s.outCap →
          r = some size ∧ (List.range (8 * size)).map (fun q => t.outBit (8 * (outPos + 7) + q)) =
            (tr.describe ++ bits) ++ List.replicate (8 * size - (tr.describe ++ bits).length) false) →
        (∀ size, size = ((tr.describe ++ bits).length + 7) / 8 → ¬ (size < 65536 ∧ outPos + 7 + size ≤ s.outCap) →
          r = .none) → s.Attempt t inStart n outPos r tr := by
      intro r t ht h1 h2
      have hen : t.enc.enode = s.enc.treeBuild.enode ∧ t.enc.root = s.enc.treeBuild.root ∧ t.enc.treeValid = true := by
        rw [ht, State.treeEmit_frame]
        exact ⟨rfl, rfl, s.enc.treeBuild_treeValid⟩
      refine ⟨?_, q2, hen.2.2, fun i => ?_, fun _ p hp => ?_, ?_, ?_⟩
      · rw [hen.2.1]; exact Encoder.holds_congr hen.1 hh
      · rw [ht, ← hsym0]
        by_cases hi : i ∈ tr.symbols
        · obtain ⟨code, hc⟩ := HTree.exists_code hi
          rw [w2 _ hc]
        · rw [w2' i hi]
      · rw [ht, w2 p hp]; exact ⟨rfl, rfl⟩
      · rintro payload size hp hs - h3 h4
        rw [ht, hb] at hp
        subst hp
        exact h1 size hs h3 h4
      · rintro payload size hp hs h3
        rw [ht, hb] at hp
        subst hp
        exact h2 size hs fun k => h3 ⟨hd, k⟩
    refine ⟨tr, ?_⟩
    rw [e]
    split
    · next c1 =>
      refine mk _ _ rfl (fun size hs _ h4 => ?_) fun _ _ _ => rfl
      rcases hlive1 with ⟨-, k⟩ | ⟨k, -⟩
      · rw [List.length_append] at hs; omega
      · rw [k.1] at c1; simp at c1
    · next c1 =>
      split
      · next c2 =>
        refine mk _ _ hsym (fun size hs _ h4 => ?_) fun _ _ _ => rfl
        rcases hlive with ⟨-, k⟩ | ⟨k, -⟩
        · rw [List.length_append] at hs; omega
        · rw [k.1] at c2; simp at c2
      · next c2 =>
        have c2' : ((s.huffOpened outPos).treeEmit.symEmit inStart n).bw.fail = false := by simpa using c2
        have a12 := w.of_not_fail p4 c2'
        obtain ⟨-, -, b4, b5, -, -, -⟩ := id a12
        rw [p1, p3, List.length_append] at b4
        rcases hf0 c2' with ⟨k1, k2, k3⟩ | ⟨a3, b3⟩
        · rw [if_pos k1]
          refine mk _ _ hflu (fun size hs _ h4 => ?_) fun _ _ _ => rfl
          rw [List.length_append] at hs
          omega
        · have c4 : ¬ (s.huffWritten inStart n outPos).bw.fail = true := by rw [a3.1]; simp
          have a := State.appended_trans a12 a3
          obtain ⟨-, -, g4, -, -, g7, -⟩ := a
          rw [p1, p3, b3, List.length_append, List.length_append, List.length_replicate] at g4
          have hes : (s.huffWritten inStart n outPos).bw.ptr.toNat - (outPos + Config.blockHdr) =
              ((tr.describe ++ bits).length + 7) / 8 := by
            rw [List.length_append]; simp only [Config.blockHdr]; omega
          have hrep : (8 - ((s.huffOpened outPos).treeEmit.symEmit inStart n).bw.bitpos.toNat) % 8 =
              8 * (((tr.describe ++ bits).length + 7) / 8) - (tr.describe ++ bits).length := by
            rw [List.length_append]; omega
          rw [if_neg c4, hes]
          split
          · next c5 =>
            exact mk _ _ hflu (fun size hs h3 _ => by simp only [Config.maxBlock] at c5; omega) fun _ _ _ => rfl
          · next c5 =>
            refine mk _ _ hflu (fun size hs h3 h4 => ⟨by rw [hs], ?_⟩) fun size hs h3 => ?_
            · subst hs
              rw [← hrep]
              generalize hl : (tr.describe ++ bits) ++
                List.replicate ((8 - ((s.huffOpened outPos).treeEmit.symEmit inStart n).bw.bitpos.toNat) % 8) false = l at *
              have hll : l.length = 8 * (((tr.describe ++ bits).length + 7) / 8) := by
                rw [← hl, List.length_append, List.length_replicate, hrep]; omega
              rw [← hll, map_range_eq_iff]
              rw [map_range_eq_iff] at g7
              intro i hi
              have := g7 i hi
              rw [← this, p1, p3, Nat.add_zero, State.writtenBit, if_pos (by simp only [Config.blockHdr] at hes; omega)]
              rfl
            · exfalso; apply h3
              simp only [Config.maxBlock] at c5
              simp only [Config.blockHdr] at hes
              omega
  · rw [show decide (tr.depth ≤ 32) = false by simpa using hd] at hfit
    have e : s.tryHuffRle inStart n outPos = (.none, s.huffOpened outPos) := by
      unfold State.tryHuffRle
      exact if_pos hfit
    refine ⟨tr, ?_⟩
    rw [e]
    exact ⟨hh, q2, s.enc.treeBuild_treeValid, fun i => by rw [hsym0], fun k => absurd k hd,
      fun _ _ _ _ k => absurd k hd, fun _ _ _ _ _ => rfl⟩

end Sys2Proof.Machine
end

