-- ==== Sys2Proof/Laws/PerInstr.lean ====
section
/-! SUPPORT. One lemma per command: the value the encoder gives names the command, whatever stands in the bits above the
code (R21, R81). -/

namespace Sys2Proof.Laws.EncodeRoundTrip

/-- Every value whose low 8 bits are those of the encoding decodes to the command (R21, R81). -/
def Statement (i : Instr) : Prop := ∀ v : Word, v.toNat % 256 = (Sys2Proof.encode i).toNat → Sys2Proof.decode v = .ok i

theorem maxsize : Statement .maxsize := fun v h => by
  have h : v.toNat % 256 = 0x01 := h
  simp [Sys2Proof.decode, h]

theorem encode : Statement .encode := fun v h => by
  have h : v.toNat % 256 = 0x02 := h
  simp [Sys2Proof.decode, h]

theorem verify : Statement .verify := fun v h => by
  have h : v.toNat % 256 = 0x03 := h
  simp [Sys2Proof.decode, h]

theorem decode : Statement .decode := fun v h => by
  have h : v.toNat % 256 = 0x04 := h
  simp [Sys2Proof.decode, h]

theorem crc32c : Statement .crc32c := fun v h => by
  have h : v.toNat % 256 = 0x05 := h
  simp [Sys2Proof.decode, h]

theorem brNew : Statement .brNew := fun v h => by
  have h : v.toNat % 256 = 0x10 := h
  simp [Sys2Proof.decode, h]

theorem brReadBit : Statement .brReadBit := fun v h => by
  have h : v.toNat % 256 = 0x11 := h
  simp [Sys2Proof.decode, h]

theorem brReadBits : Statement .brReadBits := fun v h => by
  have h : v.toNat % 256 = 0x12 := h
  simp [Sys2Proof.decode, h]

theorem brPeek8 : Statement .brPeek8 := fun v h => by
  have h : v.toNat % 256 = 0x13 := h
  simp [Sys2Proof.decode, h]

theorem brAdvance : Statement .brAdvance := fun v h => by
  have h : v.toNat % 256 = 0x14 := h
  simp [Sys2Proof.decode, h]

theorem brReadBitChk : Statement .brReadBitChk := fun v h => by
  have h : v.toNat % 256 = 0x15 := h
  simp [Sys2Proof.decode, h]

theorem brReadBitsChk : Statement .brReadBitsChk := fun v h => by
  have h : v.toNat % 256 = 0x16 := h
  simp [Sys2Proof.decode, h]

theorem brAdvanceChk : Statement .brAdvanceChk := fun v h => by
  have h : v.toNat % 256 = 0x17 := h
  simp [Sys2Proof.decode, h]

theorem brAdvanceBytesChk : Statement .brAdvanceBytesChk := fun v h => by
  have h : v.toNat % 256 = 0x18 := h
  simp [Sys2Proof.decode, h]

theorem brAtEnd : Statement .brAtEnd := fun v h => by
  have h : v.toNat % 256 = 0x19 := h
  simp [Sys2Proof.decode, h]

theorem bwNew : Statement .bwNew := fun v h => by
  have h : v.toNat % 256 = 0x20 := h
  simp [Sys2Proof.decode, h]

theorem bwWriteBits : Statement .bwWriteBits := fun v h => by
  have h : v.toNat % 256 = 0x21 := h
  simp [Sys2Proof.decode, h]

theorem bwForceFlush : Statement .bwForceFlush := fun v h => by
  have h : v.toNat % 256 = 0x22 := h
  simp [Sys2Proof.decode, h]

theorem histogram : Statement .histogram := fun v h => by
  have h : v.toNat % 256 = 0x30 := h
  simp [Sys2Proof.decode, h]

theorem treeBuild : Statement .treeBuild := fun v h => by
  have h : v.toNat % 256 = 0x31 := h
  simp [Sys2Proof.decode, h]

theorem treeEmit : Statement .treeEmit := fun v h => by
  have h : v.toNat % 256 = 0x32 := h
  simp [Sys2Proof.decode, h]

theorem treeRecover : Statement .treeRecover := fun v h => by
  have h : v.toNat % 256 = 0x33 := h
  simp [Sys2Proof.decode, h]

theorem symEmit : Statement .symEmit := fun v h => by
  have h : v.toNat % 256 = 0x34 := h
  simp [Sys2Proof.decode, h]

theorem symDecode : Statement .symDecode := fun v h => by
  have h : v.toNat % 256 = 0x35 := h
  simp [Sys2Proof.decode, h]

theorem huffDecode : Statement .huffDecode := fun v h => by
  have h : v.toNat % 256 = 0x36 := h
  simp [Sys2Proof.decode, h]

theorem blockEncode : Statement .blockEncode := fun v h => by
  have h : v.toNat % 256 = 0x40 := h
  simp [Sys2Proof.decode, h]

theorem blockDecode : Statement .blockDecode := fun v h => by
  have h : v.toNat % 256 = 0x41 := h
  simp [Sys2Proof.decode, h]

theorem blockVerify : Statement .blockVerify := fun v h => by
  have h : v.toNat % 256 = 0x42 := h
  simp [Sys2Proof.decode, h]

theorem tblRead : Statement .tblRead := fun v h => by
  have h : v.toNat % 256 = 0x50 := h
  simp [Sys2Proof.decode, h]

theorem tblWrite : Statement .tblWrite := fun v h => by
  have h : v.toNat % 256 = 0x51 := h
  simp [Sys2Proof.decode, h]

end Sys2Proof.Laws.EncodeRoundTrip
end

