-- ==== Sys2Proof/Tests/Slice0.lean ====
section
/-! SUPPORT. The model's own tests. The expected values are those of `spec/95_test_vectors.md` (the vector is named beside
each test) and of the table of R81. After them, for every statement with hypotheses, a concrete state that meets them. -/

namespace Sys2Proof.Tests

open Sys2Proof.Machine

-- One theorem after another: with a thread for each kernel evaluation the memory limit of the check is passed.
set_option Elab.async false

/-! ### Well-formedness and decoding -/

theorem test_wf_operand_missing_refused : (AsmLine.command .crc32c [0#64, 0#64]).wf = false := by decide

theorem test_wf_operand_surplus_refused : (AsmLine.command .treeBuild [0#64]).wf = false := by decide

theorem test_wf_store_into_in_past_the_space_refused :
    (AsmLine.inBytes 0xFFFFFFFFFFFFFFFF#64 [1#8, 2#8]).wf = false := by decide

theorem test_wf_store_into_out_past_the_space_refused :
    (AsmLine.outBytes 0xFFFFFFFFFFFFFFFF#64 [1#8, 2#8]).wf = false := by decide

theorem test_wf_last_byte_accepted : (AsmLine.inBytes 0xFFFFFFFFFFFFFFFF#64 [1#8]).wf = true := by decide

/-- The container and checksum commands, written out bit by bit (R81). -/
theorem test_decode_container :
    decode 0b00000001#64 = .ok .maxsize ∧ decode 0b00000010#64 = .ok .encode ∧ decode 0b00000011#64 = .ok .verify ∧
    decode 0b00000100#64 = .ok .decode ∧ decode 0b00000101#64 = .ok .crc32c := by decide

/-- The bit reader's commands (R81). -/
theorem test_decode_reader :
    decode 0b00010000#64 = .ok .brNew ∧ decode 0b00010001#64 = .ok .brReadBit ∧ decode 0b00010010#64 = .ok .brReadBits ∧
    decode 0b00010011#64 = .ok .brPeek8 ∧ decode 0b00010100#64 = .ok .brAdvance ∧
    decode 0b00010101#64 = .ok .brReadBitChk ∧ decode 0b00010110#64 = .ok .brReadBitsChk ∧
    decode 0b00010111#64 = .ok .brAdvanceChk ∧ decode 0b00011000#64 = .ok .brAdvanceBytesChk ∧
    decode 0b00011001#64 = .ok .brAtEnd := by decide

/-- The bit writer's commands (R81). -/
theorem test_decode_writer :
    decode 0b00100000#64 = .ok .bwNew ∧ decode 0b00100001#64 = .ok .bwWriteBits ∧
    decode 0b00100010#64 = .ok .bwForceFlush := by decide

/-- The commands of the tables, the tokens and the payload decoder (R81). -/
theorem test_decode_units :
    decode 0b00110000#64 = .ok .histogram ∧ decode 0b00110001#64 = .ok .treeBuild ∧
    decode 0b00110010#64 = .ok .treeEmit ∧ decode 0b00110011#64 = .ok .treeRecover ∧
    decode 0b00110100#64 = .ok .symEmit ∧ decode 0b00110101#64 = .ok .symDecode ∧
    decode 0b00110110#64 = .ok .huffDecode := by decide

/-- The block commands and table access (R81). -/
theorem test_decode_blocks_and_tables :
    decode 0b01000000#64 = .ok .blockEncode ∧ decode 0b01000001#64 = .ok .blockDecode ∧
    decode 0b01000010#64 = .ok .blockVerify ∧ decode 0b01010000#64 = .ok .tblRead ∧
    decode 0b01010001#64 = .ok .tblWrite := by decide

/-- T98: the bits above the code are ignored; six codes that name nothing. -/
theorem test_decode_illegal :
    decode 0x131#64 = .ok .treeBuild ∧ decode 0x00#64 = .error (.illegalCode 0x00) ∧
    decode 0x06#64 = .error (.illegalCode 0x06) ∧ decode 0x1A#64 = .error (.illegalCode 0x1A) ∧
    decode 0x37#64 = .error (.illegalCode 0x37) ∧ decode 0x52#64 = .error (.illegalCode 0x52) ∧
    decode 0xFF#64 = .error (.illegalCode 0xFF) := by decide

/-- P1: the line `TBL_WRITE 0, 65, 5` is the writes (0x20,0) (0x28,65) (0x30,5) (0x00,0x51). -/
theorem test_assemble_line :
    (AsmLine.command .tblWrite [0#64, 65#64, 5#64]).assemble =
      [.write .arg0 0#64, .write .arg1 65#64, .write .arg2 5#64, .write .cmd 0x51#64] ∧
    PortReg.arg0.offset = 0x20 ∧ PortReg.arg1.offset = 0x28 ∧ PortReg.arg2.offset = 0x30 ∧ PortReg.cmd.offset = 0 := by
  decide

/-! ### Small states -/

/-- A row of bytes. -/
def bytes (l : List Nat) : List Byte := l.map (BitVec.ofNat 8)

/-- A state with other operands. -/
def args (s : State) (a0 a1 a2 : Nat) : State :=
  { s with ops := ⟨s.ops.inLen, s.ops.outCap, BitVec.ofNat 64 a0, BitVec.ofNat 64 a1, BitVec.ofNat 64 a2, 0#64⟩ }

/-- Reset, then bytes stored from address 0 of `IN`, `IN_LEN`, `OUT_CAP` and the operands set. -/
def given (l : List Nat) (inLen outCap a0 a1 a2 : Nat) : State :=
  args { State.reset with
    ops := ⟨BitVec.ofNat 64 inLen, BitVec.ofNat 64 outCap, 0#64, 0#64, 0#64, 0#64⟩
    input := State.reset.input.writeList 0 (bytes l) } a0 a1 a2

/-- The state after a command. -/
def after (i : Instr) (s : State) : State :=
  match exec i s with
  | .next t => t
  | .fault _ => s
  | .refused _ => s

/-- `BR_NEW 0, 3` over `06 08 30`: the common start of T20 to T27. -/
def reading : State := after .brNew (given [0x06, 0x08, 0x30] 3 8 0 3 0)

/-- `BW_NEW 0, end`. -/
def writing (stop : Nat) : State := after .bwNew (given [] 0 stop 0 stop 0)

/-- Counts loaded with `TBL_WRITE`. -/
def counted (l : List (Nat × Nat)) : State := l.foldl (fun s p => after .tblWrite (args s 0 p.1 p.2)) State.reset

/-- T42: counts 3:5 and 9:1, built. -/
def builtTree : State := after .treeBuild (counted [(3, 5), (9, 1)])

/-- T42, with a writer over `OUT[0 .. end)`. -/
def built (stop : Nat) : State := { builtTree with bw := (builtTree.bwNew 0 stop).bw }

theorem built_enc (stop : Nat) : (built stop).enc = builtTree.enc := by simp only [built]

/-- T53: the tree of `06 08 30` recovered. -/
def recovered : State := after .treeRecover reading

/-- P2: the block `00 00 01` counted, its tree built and emitted, the writer over `OUT[11 .. end)`. -/
def emitted (stop : Nat) : State :=
  let s := after .treeBuild (after .histogram (given [0x00, 0x00, 0x01] 3 stop 0 3 0))
  args (after .treeEmit (after .bwNew (args s 11 stop 0))) 0 3 0

/-- The container of T91. -/
def container : List Nat := [3, 0, 0, 0, 2, 0, 0x64, 0xDF, 0x22, 0x1C, 1, 0x06, 0x08, 0x30]

/-! ### One or two steps of each command -/

/-- T90. -/
theorem test_maxsize : (after .maxsize (given [] 0 0 65537 0 0)).result.res0 = 131090#64 := by decide +kernel

/-- T90. -/
theorem test_maxsize_argument : (after .maxsize (given [] 0 0 0x100000000 0 0)).status = 0x11#64 := by decide +kernel

/-- T7: the encoding of the one byte `07`. -/
theorem test_encode_fill :
    readList (after .encode (given [7] 1 12 0 0 0)).outByte 0 12 =
      bytes [1, 0, 0, 0, 0, 0, 0xBA, 0x37, 0xB7, 0x86, 2, 7] := by decide +kernel

/-- T91: with room for 13 bytes the block fits in no mode. -/
theorem test_encode_exhausted : (after .encode (given [0, 0, 1] 3 13 0 0 0)).status = 0x30261#64 := by decide +kernel

/-- T7, T93. -/
theorem test_verify :
    (after .verify (given container 14 0 0 0 0)).result = ⟨false, .none, 3#64, 14#64⟩ := by decide +kernel

/-- T83: one bit of the payload flipped. -/
theorem test_verify_tampered :
    (after .verify (given (container.set 13 0x31) 14 0 0 0 0)).status = 0x41#64 := by decide +kernel

/-- T80, P5. -/
theorem test_decode :
    readList (after .decode (given container 14 3 0 0 0)).outByte 0 3 = bytes [0, 0, 1] ∧
    (after .decode (given container 14 3 0 0 0)).status = 0x43000#64 := by decide +kernel

/-- T84: the second token is a run that does not fit. -/
theorem test_decode_overflow :
    (after .decode (given (container.set 13 0x70) 14 3 0 0 0)).status = 0x44051#64 ∧
    (after .decode (given (container.set 13 0x70) 14 3 0 0 0)).pay.outPtr = 2#64 := by decide +kernel

/-- T95. -/
theorem test_crc32c :
    (after .crc32c (given [0x06, 0x08, 0x30] 3 0 0 0 3)).result.res0 = 0x1C22DF64#64 := by decide +kernel

/-- T95. -/
theorem test_crc32c_range : (after .crc32c (given [0x06, 0x08, 0x30] 3 0 0 1 3)).status = 0x71#64 := by decide +kernel

/-- T21. -/
theorem test_brNew : reading.br = ⟨0#64, 3#64, 0#5, 0x00300806#32, false⟩ := by decide +kernel

/-- T25. -/
theorem test_brNew_illegal : (after .brNew (given [] 3 0 2 1 0)).status = 0x71#64 := by decide +kernel

/-- T27. -/
theorem test_brReadBit :
    (after .brReadBit reading).result.res0 = 0#64 ∧
    (after .brReadBit (after .brReadBit reading)).result.res0 = 1#64 := by decide +kernel

/-- T27. -/
theorem test_brReadBits :
    (after .brReadBits (args (after .brReadBit (after .brReadBit reading)) 9 0 0)).result.res0 = 1#64 ∧
    (after .brReadBits (args (after .brReadBit (after .brReadBit reading)) 9 0 0)).br =
      ⟨1#64, 3#64, 3#5, 0x00003008#32, false⟩ := by decide +kernel

/-- T23. -/
theorem test_brPeek8 : (after .brPeek8 (after .brAdvanceChk (args reading 21 0 0))).result.res0 = 1#64 := by decide +kernel

/-- T27: 11 bits read, then 10 more passed. -/
theorem test_brAdvance : (after .brAdvance (args reading 10 0 0)).br.pos = 10 := by decide +kernel

/-- T21: the third bit of the stream. -/
theorem test_brReadBitChk :
    (after .brReadBitChk (after .brReadBitChk (after .brReadBitChk reading))).result.res0 = 1#64 := by decide +kernel

/-- T99: a read of the empty range of a reset reader. -/
theorem test_brReadBitChk_past_the_end : (after .brReadBitChk State.reset).status = 0x100#64 := by decide +kernel

/-- T28: 32 bits that cross the cache. -/
theorem test_brReadBitsChk :
    let s := after .brNew (given [0xEF, 0xCD, 0xAB, 0x89, 0x67, 0x45] 6 0 0 6 0)
    (after .brReadBitsChk (args (after .brReadBitsChk (args s 4 0 0)) 32 0 0)).result.res0 = 0x789ABCDE#64 ∧
    (after .brReadBitsChk (args (after .brReadBitsChk (args s 4 0 0)) 32 0 0)).br =
      ⟨4#64, 6#64, 4#5, 0x00004567#32, false⟩ := by decide +kernel

/-- T26. -/
theorem test_brReadBitsChk_illegal : (after .brReadBitsChk (args reading 33 0 0)).status = 0x71#64 := by decide +kernel

/-- T23. -/
theorem test_brAdvanceChk :
    (after .brAdvanceChk (args reading 21 0 0)).br = ⟨2#64, 3#64, 5#5, 0x00000030#32, false⟩ ∧
    (after .brAdvanceChk (args (after .brAdvanceChk (args reading 21 0 0)) 4 0 0)).br =
      ⟨2#64, 3#64, 5#5, 0x00000030#32, true⟩ := by decide +kernel

/-- T26: the exact product passes the end; nothing wraps. -/
theorem test_brAdvanceBytesChk :
    (after .brAdvanceBytesChk (args reading 2 0 0)).br = ⟨2#64, 3#64, 0#5, 0x00000030#32, false⟩ ∧
    (after .brAdvanceBytesChk (args reading 0x2000000000000000 0 0)).br.fail = true := by decide +kernel

/-- T23, T21. -/
theorem test_brAtEnd :
    (after .brAtEnd (after .brAdvanceChk (args reading 21 0 0))).result.res0 = 1#64 ∧
    (after .brAtEnd reading).result.res0 = 0#64 := by decide +kernel

/-- T33: a range past `OUT_CAP`. -/
theorem test_bwNew : (writing 2).bw = ⟨0#64, 2#64, 0#6, 0#32, false⟩ ∧
    (after .bwNew (given [] 0 2 0 3 0)).status = 0x71#64 := by decide +kernel

/-- T31: the worst case of the cache. -/
theorem test_bwWriteBits :
    let s := after .bwWriteBits (args (after .bwWriteBits (args (writing 6) 0x7F 7 0)) 0xFFFFFFFF 32 0)
    readList s.outByte 0 4 = bytes [0xFF, 0xFF, 0xFF, 0xFF] ∧ s.bw = ⟨4#64, 6#64, 7#6, 0x7F#32, false⟩ := by decide +kernel

/-- T32: the third byte does not fit. -/
theorem test_bwWriteBits_overflow :
    let s := after .bwWriteBits (args (writing 2) 0xABCDEF 24 0)
    readList s.outByte 0 2 = bytes [0xEF, 0xCD] ∧ s.bw = ⟨2#64, 2#64, 0#6, 0#32, true⟩ ∧ s.status = 0x200#64 := by
  decide +kernel

/-- T33: bits of `x` at and above `n` are ignored. -/
theorem test_bwForceFlush :
    let s := after .bwForceFlush (after .bwWriteBits (args (writing 2) 0xFFFFFFFFFFFFFF05 4 0))
    s.outByte 0 = 0x05#8 ∧ s.bw = ⟨1#64, 2#64, 0#6, 0#32, false⟩ := by decide +kernel

/-- T43. -/
theorem test_histogram :
    let s := after .histogram (given [0, 0, 0, 7, 0, 0, 0, 0, 0, 0, 0, 0, 0, 0, 7, 7] 16 0 0 16 0)
    s.result.res0 = 5#64 ∧ (s.enc.symAt 7).count = 3#32 ∧ (s.enc.symAt 257).count = 1#32 ∧
    (s.enc.symAt 258).count = 1#32 := by decide +kernel

/-- T42: the lighter entry becomes child A. -/
theorem test_treeBuild :
    let s := after .treeBuild (counted [(3, 5), (9, 1)])
    s.result = ⟨false, .none, 2#64, 261#64⟩ ∧ s.enc.nodeAt 261 = ⟨6#64, 0xFFFF#16, 9#16, 3#16⟩ ∧
    (s.enc.nodeAt 9).count = 0#64 := by decide +kernel

/-- T44: a leaf and an internal entry tie, and the lower index wins. -/
theorem test_treeBuild_tie :
    (after .treeBuild (counted [(1, 1), (2, 1), (3, 2)])).enc.nodeAt 262 = ⟨4#64, 0xFFFF#16, 3#16, 261#16⟩ := by
  decide +kernel

/-- T42: the description and the codes. -/
theorem test_treeEmit :
    let s := after .bwForceFlush (after .treeEmit (built 3))
    readList s.outByte 0 3 = bytes [0x26, 0x38, 0x00] ∧ s.enc.symAt 9 = ⟨1#32, 0#32, 1#6⟩ ∧
    s.enc.symAt 3 = ⟨5#32, 1#32, 1#6⟩ := by decide +kernel

/-- T99. -/
theorem test_treeEmit_no_tree : (after .treeEmit State.reset).status = 0x71#64 := by decide +kernel

/-- T53. -/
theorem test_treeRecover :
    recovered.result.res0 = 3#64 ∧ recovered.dec.nodeAt 0 = ⟨0xFFFF#16, 1#16, 2#16⟩ ∧
    recovered.dec.nodeAt 2 = ⟨256#16, 0xFFFF#16, 0xFFFF#16⟩ ∧ recovered.dec.lutAt 255 = ⟨0xFFFF#16, 256#9, 1#4⟩ ∧
    recovered.br.pos = 21 := by decide +kernel

/-- T54: the second leaf's symbol is cut off. -/
theorem test_treeRecover_truncated :
    let s := after .treeRecover (after .brNew (given [0x06, 0x08] 2 0 0 2 0))
    s.status = 0x121#64 ∧ s.br.pos = 12 ∧ s.dec.count = 3#10 := by decide +kernel

/-- P2. -/
theorem test_symEmit :
    let s := after .symEmit (emitted 14)
    s.result.res0 = 2#64 ∧ s.bw = ⟨13#64, 14#64, 7#6, 0x30#32, false⟩ := by decide +kernel

/-- T52: the byte `05` has no code. -/
theorem test_symEmit_uncoded :
    let s := emitted 14
    let s := { s with input := s.input.write 3 5#8, ops := { s.ops with inLen := 4#64, arg1 := 4#64 } }
    (after .symEmit s).status = 0x30071#64 ∧ (after .symEmit s).bw = s.bw := by decide +kernel

/-- T58. -/
theorem test_symDecode :
    let s := after .symDecode (args recovered 0 3 0)
    s.result = ⟨false, .none, 2#64, 256#64⟩ ∧ readList s.outByte 0 2 = bytes [0, 0] ∧ s.br.pos = 22 := by decide +kernel

/-- T58: the second token. -/
theorem test_symDecode_literal :
    let s := after .symDecode (args (after .symDecode (args recovered 0 3 0)) 2 3 0)
    s.result = ⟨false, .none, 3#64, 1#64⟩ ∧ s.outByte 2 = 1#8 ∧ s.pay.state = .idle := by decide +kernel

/-- T59: the padding bit is read as a fourth token, since only the output's length ends the stream. -/
theorem test_huffDecode :
    let s := after .huffDecode (args recovered 0 4 0)
    readList s.outByte 0 4 = bytes [0, 0, 1, 1] ∧ s.status = 0x43000#64 := by decide +kernel

/-- T59: five bytes are not there. -/
theorem test_huffDecode_truncated :
    let s := after .huffDecode (args recovered 0 5 0)
    s.status = 0x44121#64 ∧ s.br.pos = 24 ∧ s.pay.outPtr = 4#64 := by decide +kernel

/-- T61. -/
theorem test_blockEncode :
    let s := after .blockEncode (given [0, 0, 1] 3 14 0 3 4)
    readList s.outByte 4 10 = bytes [2, 0, 0x64, 0xDF, 0x22, 0x1C, 1, 0x06, 0x08, 0x30] ∧
    s.result = ⟨false, .none, 10#64, 1#64⟩ := by decide +kernel

/-- T62: the writer runs out of room, and the block is copied. -/
theorem test_blockEncode_fallback :
    let s := after .blockEncode (given [1, 2] 2 13 0 2 4)
    readList s.outByte 4 9 = bytes [1, 0, 0x52, 0x9F, 0xF8, 3, 0, 1, 2] ∧ s.status = 0x30200#64 := by decide +kernel

/-- T80. -/
theorem test_blockDecode :
    let s := after .blockDecode (given container 14 3 4 0 3)
    readList s.outByte 0 3 = bytes [0, 0, 1] ∧ s.result = ⟨false, .none, 14#64, 1#64⟩ := by decide +kernel

/-- T85: a FILL block with a payload of two bytes. -/
theorem test_blockDecode_structural :
    (after .blockDecode (given [1, 0, 0x65, 0x9A, 0xB8, 0x99, 2, 5, 5] 9 2 0 0 2)).status = 0x31#64 := by decide +kernel

/-- T80. -/
theorem test_blockVerify :
    (after .blockVerify (given container 14 0 4 0 0)).result = ⟨false, .none, 14#64, 1#64⟩ := by decide +kernel

/-- T81: the header is cut off; the payload is absent. -/
theorem test_blockVerify_order :
    (after .blockVerify (given container 10 0 4 0 0)).status = 0x21#64 ∧
    (after .blockVerify (given container 11 0 4 0 0)).status = 0x31#64 := by decide +kernel

/-- T96. -/
theorem test_tblRead :
    (after .tblRead (given [] 0 0 13 0 0)).result.res0 = 0xFFFF#64 ∧
    (after .tblRead (given [] 0 0 3 0 0)).status = 0x71#64 := by decide +kernel

/-- T96, T97. -/
theorem test_tblWrite :
    (after .tblWrite (args (after .treeBuild (counted [(3, 5), (9, 1)])) 0 65 5)).status = 0#64 ∧
    (after .tblWrite (given [] 0 0 0 261 1)).status = 0x71#64 := by decide +kernel

/-! ### Witnesses: states that meet the hypotheses of the statements

A witness names its statement; the clauses stand in the statement's order. -/

/-- The queue holds these actions. -/
def asked (s : State) (l : List HostAction) : State := { s with pending := l }

/-- A tree is held, as a test. -/
def encHolds (e : Encoder) : HTree → Nat → Bool
  | .leaf x, n => decide ((e.nodeAt n).symbol = BitVec.ofNat 16 x ∧ x ≤ 260)
  | .node a b, n =>
    decide ((e.nodeAt n).symbol = internalSymbol) && encHolds e a (e.nodeAt n).childA.toNat &&
      encHolds e b (e.nodeAt n).childB.toNat

theorem holds_of_encHolds {e : Encoder} {t : HTree} {n : Nat} (h : encHolds e t n = true) : e.holds t n := by
  induction t generalizing n with
  | leaf x => simpa [encHolds, Encoder.holds] using h
  | node a b iha ihb =>
    simp only [encHolds, Bool.and_eq_true, decide_eq_true_eq] at h
    exact ⟨h.1.1, iha h.1.2, ihb h.2⟩

/-- The tree of T42. -/
def tree42 : HTree := .node (.leaf 9) (.leaf 3)

/-- The tree of T53. -/
def tree53 : HTree := .node (.leaf 1) (.leaf 256)

/-- A tree with a leaf at depth `n`. -/
def deepTree : Nat → HTree
  | 0 => .leaf 0
  | n + 1 => .node (.leaf 0) (deepTree n)

/-- An encoder that holds `deepTree 33`: entry 261 + k has leaf 0 as child A and the next entry as child B. -/
def deepState : State :=
  { State.reset with enc := { State.reset.enc with
      enode :=
        (List.range 261).map (fun i => ⟨1#64, BitVec.ofNat 16 i, Config.none16, Config.none16⟩) ++
        (List.range 32).map (fun k => ⟨1#64, internalSymbol, 0#16, BitVec.ofNat 16 (262 + k)⟩) ++
        [⟨1#64, internalSymbol, 0#16, 0#16⟩] ++
        List.replicate 227 ⟨0#64, internalSymbol, Config.none16, Config.none16⟩
      root := 261#16
      treeValid := true } }

/-- A state whose tables and unit registers earlier commands have changed. -/
def used (s : State) : State :=
  { s with
    br := ⟨1#64, 2#64, 3#5, 4#32, true⟩, bw := ⟨1#64, 2#64, 3#6, 4#32, true⟩, enc := (built 3).enc
    dec := recovered.dec, pay := ⟨.error, 5#64, 6#64⟩ }

/-- For the statements about every command that answers a next state. -/
theorem exec_after (i : Instr) (s : State) : exec i s = .next (after i s) := by
  unfold after
  cases i <;> first | rfl | (simp only [exec, execTreeRecover]; split <;> rfl)

/-- For the statements about every `crc32c`: `exec` is the machine at the default instance. -/
theorem execWith_after (i : Instr) (s : State) : execWith crc32c i s = .next (after i s) := by
  rw [← exec_after]; cases i <;> rfl

/-- For the statements about every step: the host's write of a command. -/
theorem step_after (i : Instr) (s : State) :
    step (asked s [.write .cmd (encode i)]) = .next (after i (asked s [])) := by
  have hd : decode (encode i) = .ok i := by cases i <;> rfl
  rw [← exec_after]
  simp only [step, State.serveNext, asked, State.serve, State.runCommand, hd]

/-- What the statements about emission ask of the encoder. -/
theorem built_ready :
    builtTree.enc.ok ∧ builtTree.enc.treeValid = true ∧ builtTree.enc.root ≠ Config.none16 ∧
    builtTree.enc.holds tree42 builtTree.enc.root.toNat := by
  have h : builtTree.enc.ok ∧ builtTree.enc.treeValid = true ∧ builtTree.enc.root ≠ Config.none16 ∧
      encHolds builtTree.enc tree42 builtTree.enc.root.toNat = true := by decide +kernel
  exact ⟨h.1, h.2.1, h.2.2.1, holds_of_encHolds h.2.2.2⟩

/-- A decoded tree is held, as a test. -/
def decHolds (d : Decoder) : HTree → Nat → Bool
  | .leaf x, n => decide (d.nodeAt n = ⟨BitVec.ofNat 16 x, Config.none16, Config.none16⟩)
  | .node a b, n =>
    decide (d.nodeAt n = ⟨internalSymbol, BitVec.ofNat 16 (n + 1), BitVec.ofNat 16 (n + 1 + a.nodes)⟩) &&
      decHolds d a (n + 1) && decHolds d b (n + 1 + a.nodes)

theorem holds_of_decHolds {d : Decoder} {t : HTree} {n : Nat} (h : decHolds d t n = true) : d.holds t n := by
  induction t generalizing n with
  | leaf x => simpa [decHolds, Decoder.holds] using h
  | node a b iha ihb =>
    simp only [decHolds, Bool.and_eq_true, decide_eq_true_eq] at h
    exact ⟨h.1.1, iha h.1.2, ihb h.2⟩

/-- What the statements about the payload decoder ask of the decoder and the reader. -/
def Ready (s : State) (t : HTree) : Prop :=
  s.dec.ok ∧ s.dec.treeValid = true ∧ t.legal ∧ s.dec.count.toNat = t.nodes ∧ s.dec.holds t 0 ∧ s.dec.lutAgrees ∧
    s.br.ok ∧ s.cacheFresh ∧ s.br.fail = false

theorem ready_of {s : State} {t : HTree} (h : (s.dec.ok ∧ s.dec.treeValid = true ∧ t.legal ∧
    s.dec.count.toNat = t.nodes) ∧ decHolds s.dec t 0 = true ∧ s.dec.lutAgrees ∧ s.br.ok ∧ s.cacheFresh ∧
    s.br.fail = false) : Ready s t :=
  ⟨h.1.1, h.1.2.1, h.1.2.2.1, h.1.2.2.2, holds_of_decHolds h.2.1, h.2.2⟩

theorem recovered_ready : Ready recovered tree53 := ready_of (by decide +kernel)

/-- The decoder's invariant at the tree of T53. -/
theorem recovered_treeOk : recovered.dec.treeOk := fun _ =>
  ⟨⟨tree53, recovered_ready.2.2.1, recovered_ready.2.2.2.2.1, recovered_ready.2.2.2.1⟩, by decide +kernel⟩

/-- The clauses about `stepWith` have the same hypotheses. -/
theorem witness_StepRunsDecodedCommand :
    (asked State.reset [.write .cmd 0x101#64, .reset]).pending = .write .cmd 0x101#64 :: [.reset] ∧
    decode 0x101#64 = .ok .maxsize ∧ decode 0x52#64 = .error (.illegalCode 0x52) := by decide

theorem witness_UnlistedCodesAreIllegal :
    ∀ c ∈ [0x00, 0x06, 0x0F, 0x1A, 0x1F, 0x23, 0x2F, 0x37, 0x3F, 0x43, 0x4F, 0x52, 0xFF], c < 256 ∧
      (∀ i ∈ [Instr.maxsize, .crc32c, .brNew, .brAtEnd, .bwNew, .bwForceFlush, .histogram, .huffDecode, .blockEncode,
        .blockVerify, .tblRead, .tblWrite], i.code.toNat ≠ c) ∧
      (asked State.reset [.write .cmd (BitVec.ofNat 64 (c + 256))]).pending =
        .write .cmd (BitVec.ofNat 64 (c + 256)) :: [] ∧ (BitVec.ofNat 64 (c + 256)).toNat % 256 = c := by decide

theorem witness_CommandLineRoundTrip :
    (AsmLine.command .tblWrite [0#64, 260#64, 0xFFFFFFFF#64]).wf = true ∧ (AsmLine.command .encode []).wf = true := by
  decide

theorem witness_HostAccesses :
    (∀ r ∈ [PortReg.inLen, .outCap, .arg0, .arg1, .arg2, .arg3],
      r ≠ .cmd ∧ (asked State.reset [.write r 1#64]).pending = .write r 1#64 :: []) ∧
    (∀ r ∈ [PortReg.status, .res0, .res1], (asked State.reset [.write r 1#64]).pending = .write r 1#64 :: []) ∧
    (asked State.reset [.read .cmd]).pending = .read .cmd :: [] ∧
    (asked State.reset [.storeIn 0#64 1#8]).pending = .storeIn 0#64 1#8 :: [] ∧
    (asked State.reset [.storeOut 0xFFFFFFFFFFFFFFFF#64 1#8]).pending = .storeOut 0xFFFFFFFFFFFFFFFF#64 1#8 :: [] ∧
    (asked State.reset [.loadIn 0#64]).pending = .loadIn 0#64 :: [] ∧
    (asked State.reset [.loadOut 0#64]).pending = .loadOut 0#64 :: [] := by decide

/-- The bytes of `OUT` a command may write, at its boundaries: eight bits of the ten fill one byte; a second byte is still
pending; a refused command has none (R82); a cut-off token has none; the token of two zeros has two (R186). -/
theorem test_writeSpan :
    (args (writing 2) 1 10 0).writeSpan .bwWriteBits = (0, 1) ∧ (args (writing 2) 1 7 0).writeSpan .bwWriteBits = (0, 0) ∧
    (writing 2).writeSpan .bwForceFlush = (0, 0) ∧ (given [] 0 3 0 0 0).writeSpan .encode = (0, 0) ∧
    (args State.reset 0 0 0).writeSpan .huffDecode = (0, 0) ∧ (args recovered 0 1 0).writeSpan .symDecode = (0, 0) ∧
    (args recovered 0 3 0).writeSpan .symDecode = (0, 2) ∧ (args recovered 0 3 0).writeSpan .huffDecode = (0, 3) := by
  decide +kernel

/-- The last clause at addresses on both sides of the byte that `BW_WRITE_BITS` stores. -/
theorem witness_ResetRestores :
    (asked State.reset [.reset]).pending = .reset :: [] ∧
    (asked (args (writing 2) 1 8 0) [.abandon 0x21#64]).pending = .abandon 0x21#64 :: [] ∧
    decode 0x21#64 = .ok .bwWriteBits ∧ (args (writing 2) 1 8 0).writeSpan .bwWriteBits = (0, 1) ∧ (1 < 0 ∨ 1 ≤ 1) := by
  decide +kernel

theorem witness_CommandsKeepOperandsAndInput :
    exec .decode (given container 14 3 0 0 0) = .next (after .decode (given container 14 3 0 0 0)) := exec_after _ _

/-- A command that ends ok, and one that fails. -/
theorem witness_CommandOutcomes :
    exec .brAtEnd State.reset = .next (after .brAtEnd State.reset) ∧
    exec .verify State.reset = .next (after .verify State.reset) := ⟨exec_after _ _, exec_after _ _⟩

theorem witness_IllegalChangesNothing :
    exec .brNew (given [] 0 0 1 0 0) = .next (after .brNew (given [] 0 0 1 0 0)) ∧
    (after .brNew (given [] 0 0 1 0 0)).result.err = .illegal := ⟨exec_after _ _, by decide +kernel⟩

theorem witness_UnitsChangedByOwnCommands :
    Instr.maxsize ∉ readerCommands ∧ Instr.maxsize ∉ writerCommands ∧ Instr.maxsize ∉ encoderCommands ∧
    Instr.maxsize ∉ decoderCommands ∧ Instr.maxsize ∉ payloadCommands ∧ Instr.maxsize ∉ decStateCommands ∧
    Instr.maxsize ∉ storingCommands := by decide

theorem witness_StoresStayInRange :
    let s := after .bwWriteBits (args (writing 2) 1 4 0)
    exec .bwForceFlush s = .next (after .bwForceFlush s) ∧ s.writeSpan .bwForceFlush = (0, 1) ∧ (1 < 0 ∨ 1 ≤ 1) :=
  ⟨exec_after _ _, by decide +kernel, by decide⟩

theorem witness_MemoriesStayCanonical :
    (given [1] 1 1 0 1 0).input.wf ∧ (given [1] 1 1 0 1 0).output.wf ∧
    step (asked (given [1] 1 1 0 1 0) [.storeOut 0#64 1#8]) =
      .next { given [1] 1 1 0 1 0 with output := (given [1] 1 1 0 1 0).output.write 0 1#8 } :=
  ⟨by decide +kernel, by decide +kernel, rfl⟩

theorem witness_ReaderInvariantKept :
    reading.br.ok ∧ reading.cacheFresh ∧ exec .brReadBit reading = .next (after .brReadBit reading) ∧
    step (asked reading [.write .cmd (encode .brReadBit)]) = .next (after .brReadBit (asked reading [])) :=
  ⟨by decide +kernel, by decide +kernel, exec_after _ _, step_after _ _⟩

theorem witness_WriterAndEncoderInvariantsKept :
    (writing 2).bw.ok ∧ (built 3).enc.ok ∧
    step (asked (built 3) [.write .cmd (encode .treeEmit)]) = .next (after .treeEmit (asked (built 3) [])) :=
  ⟨by decide +kernel, by rw [built_enc]; exact built_ready.1, step_after _ _⟩

/-- The decoder's invariant at a recovered tree; before one is recovered it holds with the flag 0. -/
theorem witness_DecoderInvariantKept :
    recovered.dec.ok ∧ recovered.dec.treeOk ∧ (recovered.dec.treeValid = true → recovered.dec.lutAgrees) ∧
    recovered.dec.treeValid = true ∧
    step (asked recovered [.write .cmd (encode .huffDecode)]) = .next (after .huffDecode (asked recovered [])) :=
  ⟨by decide +kernel, recovered_treeOk, by decide +kernel, by decide +kernel, step_after _ _⟩

theorem witness_DecStateRests :
    recovered.pay.state.resting ∧
    exec .huffDecode (args recovered 0 3 0) = .next (after .huffDecode (args recovered 0 3 0)) ∧
    (after .huffDecode (args recovered 0 3 0)).result.fail = false ∧
    (after .huffDecode (args recovered 0 5 0)).result.fail = true ∧
    (after .huffDecode (args recovered 0 5 0)).result.err ≠ .illegal :=
  ⟨by decide +kernel, exec_after _ _, by decide +kernel, by decide +kernel, by decide +kernel⟩

theorem witness_StickyFlags :
    (used State.reset).br.fail = true ∧ Instr.brReadBit ∉ [Instr.brNew, .blockDecode, .decode] ∧
    (used State.reset).bw.fail = true ∧ Instr.bwForceFlush ∉ [Instr.bwNew, .blockEncode, .encode] ∧
    Instr.bwForceFlush ∈ writerCommands ∧
    exec .bwForceFlush (used State.reset) = .next (after .bwForceFlush (used State.reset)) :=
  ⟨rfl, by decide, rfl, by decide, by decide, exec_after _ _⟩

theorem witness_ValidityFlags :
    (after .treeBuild State.reset).result.fail = false ∧ (after .histogram State.reset).result.fail = false ∧
    (after .tblWrite State.reset).result.fail = false ∧ (after .treeEmit (built 3)).result.fail = false ∧
    exec .treeRecover reading = .next recovered ∧ State.reset.enc.treeValid = false ∧
    State.reset.enc.codesValid = false ∧ State.reset.dec.treeValid = false :=
  ⟨by decide +kernel, by decide +kernel, by decide +kernel, by decide +kernel, exec_after _ _, rfl, rfl, rfl⟩

theorem witness_CompositesIgnoreUnitState :
    Instr.decode ∈ compositeCommands ∧ (used (given container 14 3 0 0 0)).ops = (given container 14 3 0 0 0).ops ∧
    (used (given container 14 3 0 0 0)).input = (given container 14 3 0 0 0).input ∧
    (used (given container 14 3 0 0 0)).output = (given container 14 3 0 0 0).output ∧
    (used (given container 14 3 0 0 0)).freeCount = (given container 14 3 0 0 0).freeCount ∧
    (used (given container 14 3 0 0 0)).enc.ok ∧ State.reset.enc.ok ∧ (used (given container 14 3 0 0 0)).dec.ok ∧
    State.reset.dec.ok :=
  ⟨by decide, rfl, rfl, rfl, rfl, built_ready.1, by decide +kernel, by decide +kernel, by decide +kernel⟩

/-- One bit, and the last 8 bits of the range. -/
theorem witness_ReadsReturnTheField :
    let s := args (after .brAdvanceChk (args reading 16 0 0)) 8 0 0
    s.br.fail = false ∧ s.br.pos + 1 ≤ s.br.limit ∧ 8 = s.arg0 ∧ 1 ≤ 8 ∧ 8 ≤ 32 ∧ s.br.pos + 8 = s.br.limit := by
  decide +kernel

/-- A move by nothing, by the whole range in bits, and in bytes. -/
theorem witness_AdvancesMove :
    reading.br.fail = false ∧ 0 = (args reading 0 0 0).arg0 ∧ 24 = (args reading 24 0 0).arg0 ∧ 24 ≤ 32 ∧
    24 = 8 * (args reading 3 0 0).arg0 ∧ reading.br.pos + 24 = reading.br.limit := by decide +kernel

/-- One bit past the end for each form; a failed reader; counts at the ends of their ranges and past them. -/
theorem witness_ReadsPastTheEnd :
    let s := after .brAdvanceChk (args reading 24 0 0)
    s.br.fail = false ∧ s.br.limit < s.br.pos + 1 ∧ (args s 1 0 0).arg0 = 1 ∧ (args s 32 0 0).arg0 = 32 ∧
    (after .brReadBit s).br.fail = true ∧ (args s 0 0 0).arg0 = 0 ∧ 32 < (args s 33 0 0).arg0 := by decide +kernel

theorem witness_PeekAndAtEnd : reading.br.ok ∧ reading.cacheFresh := by decide +kernel

/-- 17 bits into two bytes, which fit; 24 bits, which do not; the counts 0 and 33. -/
theorem witness_WriteBitsAppends :
    (writing 2).bw.ok ∧ (writing 2).bw.fail = false ∧ (args (writing 2) 1 17 0).arg1 = 17 ∧
    ((writing 2).bw.pos + 23) / 8 = (writing 2).bw.stop.toNat ∧ (args (writing 2) 1 24 0).arg1 = 24 ∧
    (writing 2).bw.stop.toNat < ((writing 2).bw.pos + 24) / 8 ∧ (args (writing 2) 1 0 0).arg1 = 0 ∧
    32 < (args (writing 2) 1 33 0).arg1 := by decide +kernel

theorem witness_ForceFlushCompletesTheByte :
    let s := after .bwWriteBits (args (writing 1) 1 7 0)
    let u := after .bwWriteBits (args (writing 0) 1 7 0)
    s.bw.ok ∧ s.bw.fail = false ∧ s.bw.bitpos ≠ 0#6 ∧ s.bw.ptr.toNat + 1 = s.bw.stop.toNat ∧ (writing 1).bw.bitpos = 0#6 ∧
    (used s).bw.fail = true ∧ u.bw.fail = false ∧ u.bw.bitpos ≠ 0#6 ∧ u.bw.stop.toNat = u.bw.ptr.toNat := by decide +kernel

theorem witness_SelectsTwoLightest :
    (counted [(3, 5), (9, 1)]).enc.initial.ok ∧ 9 < (counted [(3, 5), (9, 1)]).enc.initial.next.toNat ∧
    0 < ((counted [(3, 5), (9, 1)]).enc.initial.nodeAt 9).count.toNat ∧
    (counted [(3, 5), (9, 1)]).enc.initial.next.toNat < 521 ∧
    (counted [(3, 5), (9, 1)]).enc.initial.first = some (1, 9) ∧
    (counted [(3, 5), (9, 1)]).enc.initial.second 9 = some (5, 3) ∧ 1 + 5 < 2 ^ 64 := by decide +kernel

/-- No symbol, one, and two in use; two states with the same counts. -/
theorem witness_TreeBuildResult :
    State.reset.enc.used = [] ∧ (counted [(260, 7)]).enc.used = [260] ∧ (counted [(3, 5), (9, 1)]).enc.used ≠ [] ∧
    (∀ i < 261, (State.reset.enc.symAt i).count = ((after .treeBuild State.reset).enc.symAt i).count) := by decide +kernel

theorem witness_TreeBuildIsOptimal :
    (counted [(3, 5), (9, 1)]).enc.used ≠ [] ∧
    exec .treeBuild (counted [(3, 5), (9, 1)]) = .next (after .treeBuild (counted [(3, 5), (9, 1)])) :=
  ⟨by decide +kernel, exec_after _ _⟩

/-- The 21 bits of T42 into two bytes and five pending bits. -/
theorem witness_TreeEmitResult :
    (built 2).enc.ok ∧ (built 2).enc.treeValid = true ∧ (built 2).enc.root ≠ Config.none16 ∧
    (built 2).enc.holds tree42 (built 2).enc.root.toNat ∧ tree42.symbols.Nodup ∧ tree42.depth ≤ 32 ∧ (built 2).bw.ok ∧
    (built 2).bw.fail = false ∧ ((built 2).bw.pos + tree42.describe.length) / 8 = (built 2).bw.stop.toNat := by
  rw [built_enc]
  exact ⟨built_ready.1, built_ready.2.1, built_ready.2.2.1, built_ready.2.2.2, by decide, by decide, by decide +kernel,
    by decide +kernel, by decide +kernel⟩

/-- An empty tree; a leaf at depth 33; one byte for 21 bits, and a failed writer. -/
theorem witness_TreeEmitEdges :
    (let s : State := { State.reset with enc := { State.reset.enc with treeValid := true } };
      s.enc.treeValid = true ∧ s.enc.root = Config.none16) ∧
    deepState.enc.holds (deepTree 33) deepState.enc.root.toNat ∧ deepState.enc.root ≠ Config.none16 ∧
    (deepTree 33).depth = 33 ∧ (built 1).enc.ok ∧ (built 1).enc.treeValid = true ∧ (built 1).enc.root ≠ Config.none16 ∧
    (built 1).enc.holds tree42 (built 1).enc.root.toNat ∧ (built 1).bw.ok ∧
    (built 1).bw.stop.toNat < ((built 1).bw.pos + tree42.describe.length) / 8 ∧
    (Writer.mk 1#64 2#64 0#6 0#32 true).ok := by
  rw [built_enc]
  exact ⟨⟨rfl, rfl⟩, holds_of_encHolds (by decide +kernel), by decide +kernel, by decide +kernel, built_ready.1,
    built_ready.2.1, built_ready.2.2.1, built_ready.2.2.2, by decide +kernel, by decide +kernel, by decide +kernel⟩

theorem witness_TreeDescriptionRoundTrip :
    tree53.legal ∧ reading.hasBits reading.br.pos tree53.describe ∧ reading.br.fail = false ∧ reading.dec.ok := by
  decide +kernel

/-- A tree of which `n` nodes have been read, each the child A of the one before. -/
def openChain : Nat → OpenTree
  | 0 => .here
  | n + 1 => .inA (openChain n)

/-- A reader over these bytes, which has read `n` bits. -/
def readingAt (l : List Nat) (n : Nat) : State :=
  after .brAdvance (args (after .brNew (given l l.length 0 0 l.length 0)) n 0 0)

theorem witness_TreeRecoverAcceptsOnlyTrees :
    reading.dec.ok ∧ recovered.result.fail = false ∧ (after .treeRecover recovered).result.fail = true ∧
    (after .brReadBit (readingAt [] 0)).br.fail = true := by decide +kernel

/-- 521 nodes read; the flag, and the symbol, cut off; the symbols 261 and 511. -/
theorem witness_TreeRecoverAcceptsOnlyTrees_kinds :
    ((openChain 521).nodes = 521 ∧ (∀ x ∈ (openChain 521).symbols, x ≤ 260) ∧
      (readingAt (List.replicate 66 0) 0).hasBits 0 (openChain 521).describe) ∧
    (let s := readingAt [0x40, 0x00] 5; let o := OpenTree.inB (.leaf 0) .here;
      s.dec.ok ∧ s.br.fail = false ∧ o.nodes < 521 ∧ (∀ x ∈ o.symbols, x ≤ 260) ∧ s.hasBits s.br.pos o.describe ∧
      s.br.pos + o.describe.length = s.br.limit) ∧
    (let s := readingAt [0x80, 0x00] 7;
      s.hasBits s.br.pos (OpenTree.here.describe ++ [true]) ∧
      s.br.limit < s.br.pos + OpenTree.here.describe.length + 10) ∧
    (let s := readingAt [0x0B, 0x02] 0;
      s.hasBits s.br.pos (OpenTree.here.describe ++ true :: bitsOf 261 9)) ∧
    (let s := readingAt [0xFF, 0x03] 0;
      s.hasBits s.br.pos (OpenTree.here.describe ++ true :: bitsOf 511 9)) := by decide +kernel

theorem witness_RunTokensAreABijection :
    (1 ≤ 16662 ∧ 16662 ≤ 16662) ∧ (⟨260, 14, 16383⟩ : Token).legal ∧ (⟨260, 14, 16383⟩ : Token).isZeros ∧
    (⟨0, 0, 0⟩ : Token).legal ∧ (⟨0, 0, 0⟩ : Token).isZeros := by decide

theorem witness_HistogramCounts :
    (given [] 65536 0 0 65536 0).arg1 ≤ 65536 ∧
    (given [] 65536 0 0 65536 0).arg0 + (given [] 65536 0 0 65536 0).arg1 ≤ (given [] 65536 0 0 65536 0).inLen ∧
    65536 < (given [] 65537 0 0 65537 0).arg1 ∧
    (given [] 3 0 1 3 0).inLen < (given [] 3 0 1 3 0).arg0 + (given [] 3 0 1 3 0).arg1 := by decide +kernel

/-- P2 as it stands; a writer whose range is full, with seven bits pending; a state without codes. -/
theorem witness_SymEmitResult :
    let s := emitted 14
    (s.enc.ok ∧ s.enc.codesValid = true ∧ s.arg1 ≤ 65536 ∧ s.arg0 + s.arg1 ≤ s.inLen ∧
      (∀ x ∈ tokens (s.inBytes s.arg0 s.arg1), 1 ≤ (s.enc.symAt x.sym).bits.toNat) ∧ s.bw.ok ∧ s.bw.fail = false ∧
      (s.bw.pos + ((tokens (s.inBytes s.arg0 s.arg1)).flatMap s.enc.tokenBits).length) / 8 ≤ s.bw.stop.toNat) ∧
    (let u := { s with bw := ⟨14#64, 14#64, 7#6, 0x30#32, false⟩ };
      u.bw.ok ∧ u.bw.stop.toNat <
        (u.bw.pos + ((tokens (u.inBytes u.arg0 u.arg1)).flatMap u.enc.tokenBits).length) / 8) ∧
    65536 < (given [] 65537 0 0 65537 0).arg1 ∧
    (given [] 3 0 1 3 0).inLen < (given [] 3 0 1 3 0).arg0 + (given [] 3 0 1 3 0).arg1 ∧
    ∃ x ∈ tokens ((given [5] 1 0 0 1 0).inBytes (given [5] 1 0 0 1 0).arg0 (given [5] 1 0 0 1 0).arg1),
      ((given [5] 1 0 0 1 0).enc.symAt x.sym).bits = 0#6 := by decide +kernel

/-- The run of two zeros, which fills the range exactly; the rest is `recovered_ready`. -/
theorem witness_SymDecodeResult :
    (args recovered 0 2 0).arg1 ≤ recovered.outCap ∧ (⟨256, 0, 0⟩ : Token).legal ∧ tree53.sends 256 [true] ∧
    recovered.hasBits recovered.br.pos ([true] ++ bitsOf 0 0) ∧
    (args recovered 0 2 0).arg0 + (⟨256, 0, 0⟩ : Token).bytes.length = (args recovered 0 2 0).arg1 :=
  have h : (args recovered 0 2 0).arg1 ≤ recovered.outCap ∧
      recovered.hasBits recovered.br.pos ([true] ++ bitsOf 0 0) ∧
      (args recovered 0 2 0).arg0 + (⟨256, 0, 0⟩ : Token).bytes.length = (args recovered 0 2 0).arg1 := by decide +kernel
  ⟨h.1, by decide, by simp [tree53, HTree.sends, HTree.paths], h.2⟩

/-- A recovered tree, and the reader at the end of its range. -/
def ended : State := args (after .brNew (args recovered 3 3 0)) 0 3 0

/-- The reader at its end; one byte too few; the rest is `recovered_ready`. -/
theorem witness_SymDecodeFailures :
    ended.dec.treeValid = true ∧ ended.arg0 ≤ ended.arg1 ∧ ended.arg1 ≤ ended.outCap ∧ ended.dec.ok ∧ ended.dec.treeOk ∧
    ended.br.ok ∧ ended.br.pos = ended.br.limit ∧ (args recovered 0 1 0).arg0 ≤ (args recovered 0 1 0).arg1 ∧
    (args recovered 0 1 0).arg1 ≤ recovered.outCap ∧
    (args recovered 0 1 0).arg1 < (args recovered 0 1 0).arg0 + (⟨256, 0, 0⟩ : Token).bytes.length :=
  have h : ended.dec.treeValid = true ∧ ended.arg0 ≤ ended.arg1 ∧ ended.arg1 ≤ ended.outCap ∧ ended.dec.ok := by
    decide +kernel
  have h' : ended.br.ok ∧ ended.br.pos = ended.br.limit ∧ (args recovered 0 1 0).arg0 ≤ (args recovered 0 1 0).arg1 ∧
      (args recovered 0 1 0).arg1 ≤ recovered.outCap ∧
      (args recovered 0 1 0).arg1 < (args recovered 0 1 0).arg0 + (⟨256, 0, 0⟩ : Token).bytes.length := by decide +kernel
  ⟨h.1, h.2.1, h.2.2.1, h.2.2.2, recovered_treeOk, h'⟩

/-- The tree of the single leaf 260. -/
def tree260 : HTree := .leaf 260

/-- That tree recovered, six bits before the end of the range. -/
def recovered260 : State := args (after .treeRecover (readingAt [0x09, 0x02] 0)) 0 0 0

theorem recovered260_ready : Ready recovered260 tree260 := ready_of (by decide +kernel)

/-- A tree with codes of two bits. -/
def tree3 : HTree := .node (.leaf 1) (.node (.leaf 2) (.leaf 3))

/-- That tree recovered, one bit before the end of the range. -/
def recovered3 : State := args (after .treeRecover (readingAt [0x00, 0x03, 0x28, 0xE0, 0x80] 7)) 0 0 0

theorem recovered3_ready : Ready recovered3 tree3 := ready_of (by decide +kernel)

/-- A suffix of which five bits stand before the end of the range; a code of which one bit does; operands out of range.
The rest is `recovered260_ready` and `recovered3_ready`. -/
theorem witness_SymDecodeFailures_cut :
    ((⟨260, 14, 0⟩ : Token).legal ∧ tree260.sends 260 [false] ∧ 6 < [false].length + 14 ∧
      recovered260.hasBits recovered260.br.pos (([false] ++ bitsOf 0 14).take 6) ∧
      recovered260.br.pos + 6 = recovered260.br.limit ∧ recovered260.arg0 ≤ recovered260.arg1 ∧
      recovered260.arg1 ≤ recovered260.outCap) ∧
    ((⟨3, 0, 0⟩ : Token).legal ∧ tree3.sends 3 [true, true] ∧ 1 < [true, true].length + 0 ∧
      recovered3.hasBits recovered3.br.pos (([true, true] ++ bitsOf 0 0).take 1) ∧
      recovered3.br.pos + 1 = recovered3.br.limit ∧ recovered3.arg0 ≤ recovered3.arg1 ∧
      recovered3.arg1 ≤ recovered3.outCap) ∧
    (args recovered 2 1 0).arg1 < (args recovered 2 1 0).arg0 ∧ recovered.outCap < (args recovered 0 9 0).arg1 :=
  have h : (recovered260.hasBits recovered260.br.pos (([false] ++ bitsOf 0 14).take 6) ∧
      recovered260.br.pos + 6 = recovered260.br.limit ∧ recovered260.arg0 ≤ recovered260.arg1 ∧
      recovered260.arg1 ≤ recovered260.outCap) ∧
      (recovered3.hasBits recovered3.br.pos (([true, true] ++ bitsOf 0 0).take 1) ∧
      recovered3.br.pos + 1 = recovered3.br.limit ∧ recovered3.arg0 ≤ recovered3.arg1 ∧
      recovered3.arg1 ≤ recovered3.outCap) ∧
      (args recovered 2 1 0).arg1 < (args recovered 2 1 0).arg0 ∧ recovered.outCap < (args recovered 0 9 0).arg1 := by
    decide +kernel
  ⟨⟨by decide, ⟨rfl, rfl⟩, by decide, h.1⟩,
    ⟨by decide, by simp [tree3, HTree.sends, HTree.paths], by decide, h.2.1⟩, h.2.2⟩

/-- The block of P3, and the empty range; the rest is `recovered_ready`. -/
theorem witness_HuffDecodeResult :
    (args recovered 0 3 0).arg1 ≤ recovered.outCap ∧ (∀ x ∈ [(⟨256, 0, 0⟩ : Token), ⟨1, 0, 0⟩], x.legal) ∧
    tree53.encodes [⟨256, 0, 0⟩, ⟨1, 0, 0⟩] [true, false] ∧ recovered.hasBits recovered.br.pos [true, false] ∧
    (args recovered 0 3 0).arg0 + ([(⟨256, 0, 0⟩ : Token), ⟨1, 0, 0⟩].flatMap Token.bytes).length =
      (args recovered 0 3 0).arg1 ∧
    tree53.encodes [] [] ∧ (args recovered 2 2 0).arg0 + (([] : List Token).flatMap Token.bytes).length =
      (args recovered 2 2 0).arg1 :=
  have h : (args recovered 0 3 0).arg1 ≤ recovered.outCap ∧ recovered.hasBits recovered.br.pos [true, false] ∧
      (args recovered 0 3 0).arg0 + ([(⟨256, 0, 0⟩ : Token), ⟨1, 0, 0⟩].flatMap Token.bytes).length =
        (args recovered 0 3 0).arg1 ∧
      (args recovered 2 2 0).arg0 + (([] : List Token).flatMap Token.bytes).length = (args recovered 2 2 0).arg1 := by
    decide +kernel
  ⟨h.1, by decide,
    ⟨[true], [false], by simp [tree53, HTree.sends, HTree.paths],
      ⟨[false], [], by simp [tree53, HTree.sends, HTree.paths], rfl, rfl⟩, rfl⟩,
    h.2.1, h.2.2.1, rfl, h.2.2.2⟩

/-- The tree of T53 before two tokens of two zeros. -/
def recoveredRuns : State := args (after .treeRecover (after .brNew (given [0x06, 0x08, 0x70] 3 8 0 3 0))) 0 3 0

theorem recoveredRuns_ready : Ready recoveredRuns tree53 := ready_of (by decide +kernel)

/-- T84: a second run that does not fit; T59: a fourth token that is not there; operands out of range. The rest is
`recoveredRuns_ready` and `recovered_ready`. -/
theorem witness_HuffDecodeResult_fails :
    (tree53.encodes [⟨256, 0, 0⟩] [true] ∧ tree53.sends 256 [true] ∧ (⟨256, 0, 0⟩ : Token).legal ∧
      recoveredRuns.hasBits recoveredRuns.br.pos ([true] ++ ([true] ++ bitsOf 0 0)) ∧
      recoveredRuns.arg0 + ([(⟨256, 0, 0⟩ : Token)].flatMap Token.bytes).length < recoveredRuns.arg1 ∧
      recoveredRuns.arg1 < recoveredRuns.arg0 + ([(⟨256, 0, 0⟩ : Token)].flatMap Token.bytes).length +
        (⟨256, 0, 0⟩ : Token).bytes.length) ∧
    (tree53.encodes [⟨256, 0, 0⟩, ⟨1, 0, 0⟩, ⟨1, 0, 0⟩] [true, false, false] ∧ tree53.sends 1 [false] ∧
      recovered.hasBits recovered.br.pos ([true, false, false] ++ ([false] ++ bitsOf 0 0).take 0) ∧
      (args recovered 0 5 0).arg0 + ([(⟨256, 0, 0⟩ : Token), ⟨1, 0, 0⟩, ⟨1, 0, 0⟩].flatMap Token.bytes).length <
        (args recovered 0 5 0).arg1 ∧ recovered.br.pos + [true, false, false].length + 0 = recovered.br.limit) ∧
    (args recovered 2 1 0).arg1 < (args recovered 2 1 0).arg0 ∧ recovered.outCap < (args recovered 0 9 0).arg1 :=
  have h1 : tree53.sends 256 [true] := by simp [tree53, HTree.sends, HTree.paths]
  have h2 : tree53.sends 1 [false] := by simp [tree53, HTree.sends, HTree.paths]
  ⟨⟨⟨[true], [], h1, rfl, rfl⟩, h1, by decide, by decide +kernel⟩,
    ⟨⟨[true], [false, false], h1, ⟨[false], [false], h2, ⟨[false], [], h2, rfl, rfl⟩, rfl⟩, rfl⟩, h2, by decide +kernel⟩,
    by decide +kernel⟩

/-- A block with exactly the room of its copy; a constant block with room for 8 bytes; one with room for 7. -/
theorem witness_BlockEncodeResult :
    (let s := given [0, 0, 1] 3 14 0 3 4;
      s.enc.ok ∧ 1 ≤ s.arg1 ∧ s.arg1 ≤ 65536 ∧ s.arg0 + s.arg1 ≤ s.inLen ∧ s.arg2 + 7 + s.arg1 ≤ s.outCap) ∧
    (let s := given [5] 1 12 0 1 4;
      1 ≤ s.arg1 ∧ s.arg1 ≤ 65536 ∧ s.arg0 + s.arg1 ≤ s.inLen ∧ s.arg2 + 8 = s.outCap) ∧
    (let s := given [5] 1 11 0 1 4;
      1 ≤ s.arg1 ∧ s.arg0 + s.arg1 ≤ s.inLen ∧ s.arg2 ≤ s.outCap ∧ s.outCap < s.arg2 + 8) ∧
    (given [5] 1 65543 0 65536 0).arg1 = 65536 ∧ (given [5] 1 12 0 0 4).arg1 = 0 ∧
    65536 < (given [5] 65537 12 0 65537 0).arg1 ∧
    (given [5] 1 12 1 1 0).inLen < (given [5] 1 12 1 1 0).arg0 + (given [5] 1 12 1 1 0).arg1 ∧
    (given [5] 1 3 0 1 4).outCap < (given [5] 1 3 0 1 4).arg2 := by decide +kernel

theorem witness_BlockEncodeResult_constant :
    constantBytes ((given [5] 1 12 0 1 4).inBytes (given [5] 1 12 0 1 4).arg0 (given [5] 1 12 0 1 4).arg1) :=
  ⟨5#8, by decide +kernel⟩

/-- The payload of a block under the tree `t`, with the codes that `BLOCK_ENCODE` left, in whole bytes. -/
def payloadSize (s : State) (t : HTree) : Nat :=
  ((t.describe ++ (tokens (s.inBytes s.arg0 s.arg1)).flatMap (after .blockEncode s).enc.tokenBits).length + 7) / 8

/-- A payload of three bytes that just fits; one that does not, with the room of the copy and with the room of none. -/
theorem witness_BlockEncodeResult_mode :
    (let s := given [0, 0, 1] 3 14 0 3 4;
      ¬ constantBytes (s.inBytes s.arg0 s.arg1) ∧ s.arg2 + 8 ≤ s.outCap ∧ tree53.depth ≤ 32 ∧
      s.arg2 + 7 + payloadSize s tree53 = s.outCap) ∧
    (let s := given [1, 2] 2 13 0 2 4;
      ¬ constantBytes (s.inBytes s.arg0 s.arg1) ∧ s.outCap < s.arg2 + 7 + payloadSize s (.node (.leaf 1) (.leaf 2)) ∧
      s.arg2 + 7 + s.arg1 = s.outCap) ∧
    (let s := given [1, 2] 2 12 0 2 4;
      ¬ constantBytes (s.inBytes s.arg0 s.arg1) ∧ s.arg2 + 8 ≤ s.outCap ∧
      s.outCap < s.arg2 + 7 + payloadSize s (.node (.leaf 1) (.leaf 2)) ∧ s.outCap < s.arg2 + 7 + s.arg1) := by
  have nc : ∀ (l : List Byte) (a b : Byte), a ∈ l → b ∈ l → a ≠ b → ¬ constantBytes l := fun l a b ha hb hne ⟨v, h⟩ => by
    rw [h] at ha hb
    exact hne ((List.eq_of_mem_replicate ha).trans (List.eq_of_mem_replicate hb).symm)
  exact ⟨⟨nc _ 0#8 1#8 (by decide +kernel) (by decide +kernel) (by decide), by decide +kernel⟩,
    ⟨nc _ 1#8 2#8 (by decide +kernel) (by decide +kernel) (by decide), by decide +kernel⟩,
    nc _ 1#8 2#8 (by decide +kernel) (by decide +kernel) (by decide), by decide +kernel⟩

/-- A COPY block and a FILL block, right and wrong; the CRC is not looked at. -/
theorem witness_BlockDecodeCopyAndFill :
    (let s := given [1, 0, 0, 0, 0, 0, 0, 1, 2] 9 2 0 0 2;
      s.arg0 + 7 + 2 ≤ s.inLen ∧ 1 ≤ s.arg2 ∧ s.arg1 + s.arg2 ≤ s.outCap ∧ 2 = readLE s.inByte s.arg0 2 + 1 ∧
      readLE s.inByte (s.arg0 + 6) 1 = 0 ∧ 2 = s.arg2 ∧ 2 ≠ (args s 0 0 1).arg2) ∧
    (let s := given [0, 0, 0, 0, 0, 0, 2, 5] 8 65536 0 0 65536;
      s.arg0 + 7 + 1 ≤ s.inLen ∧ s.arg2 = 65536 ∧ s.arg1 + s.arg2 ≤ s.outCap ∧ 1 = readLE s.inByte s.arg0 2 + 1 ∧
      readLE s.inByte (s.arg0 + 6) 1 = 2) ∧
    (let s := given [1, 0, 0, 0, 0, 0, 2, 5, 5] 9 2 0 0 2;
      s.arg0 + 7 + 2 ≤ s.inLen ∧ 2 = readLE s.inByte s.arg0 2 + 1 ∧ readLE s.inByte (s.arg0 + 6) 1 = 2 ∧ 2 ≠ 1) := by
  decide +kernel

/-- A header that is cut off, at its last byte; mode 3; a payload whose last byte is missing; operands out of range. -/
theorem witness_BlockDecodeCopyAndFill_fails :
    (let s := given [0, 0, 0, 0, 0, 0] 6 1 0 0 1;
      s.arg0 ≤ s.inLen ∧ 1 ≤ s.arg2 ∧ s.arg2 ≤ 65536 ∧ s.arg1 + s.arg2 ≤ s.outCap ∧ s.inLen < s.arg0 + 7) ∧
    (let s := given [0, 0, 0, 0, 0, 0, 3] 7 1 0 0 1;
      s.arg0 + 7 ≤ s.inLen ∧ 2 < readLE s.inByte (s.arg0 + 6) 1) ∧
    (let s := given [0, 0, 0, 0, 0, 0, 2] 7 1 0 0 1;
      s.arg0 + 7 ≤ s.inLen ∧ s.inLen < s.arg0 + 7 + (readLE s.inByte s.arg0 2 + 1)) ∧
    (given [] 0 1 1 0 1).inLen < (given [] 0 1 1 0 1).arg0 ∧ (given [] 0 1 0 0 0).arg2 = 0 ∧
    65536 < (given [] 0 65537 0 0 65537).arg2 ∧
    (given [] 0 1 0 1 1).outCap < (given [] 0 1 0 1 1).arg1 + (given [] 0 1 0 1 1).arg2 := by decide +kernel

/-- The HUFF_RLE block of T61, moved from address 4 of `OUT` to address 4 of `IN`. -/
theorem witness_BlockRoundTrip :
    let s := given [0, 0, 1] 3 14 0 3 4
    let t := after .blockEncode s
    let u := given container 14 3 4 0 3
    execWith crc32c .blockEncode s = .next t ∧ s.enc.ok ∧ t.result.fail = false ∧
    (∀ j < t.result.res0.toNat, u.inByte (u.arg0 + j) = t.outByte (s.arg2 + j)) ∧
    u.arg0 + t.result.res0.toNat ≤ u.inLen ∧ u.arg2 = s.arg1 ∧ u.arg1 + u.arg2 ≤ u.outCap ∧ u.dec.ok :=
  ⟨execWith_after _ _, by decide +kernel⟩

theorem witness_Crc32cResult :
    Instr.decode ∉ [Instr.crc32c, .encode, .verify, .blockEncode, .blockVerify] ∧
    execWith crc32c .blockVerify (given container 14 0 4 0 0) =
      .next (after .blockVerify (given container 14 0 4 0 0)) := ⟨by decide, execWith_after _ _⟩

/-- No input with the room of the bound, and the longest. -/
theorem witness_EncodeSucceeds :
    (let s := given [] 0 4 0 0 0;
      s.enc.ok ∧ s.inLen ≤ 2 ^ 32 - 1 ∧ 4 + (s.inLen + 65535) / 65536 * 65543 = s.outCap) ∧
    (let s := given [] 4294967295 4295426052 0 0 0;
      s.inLen = 2 ^ 32 - 1 ∧ 4 + (s.inLen + 65535) / 65536 * 65543 = s.outCap) ∧
    2 ^ 32 - 1 < (given [] 4294967296 0 0 0 0).inLen ∧ (given [] 0 3 0 0 0).outCap < 4 := by decide +kernel

theorem witness_EncodeIsAFunction :
    let s := given [7] 1 65547 0 0 0
    let u := used (given [7] 1 65548 0 0 0)
    s.enc.ok ∧ u.enc.ok ∧ s.inLen = u.inLen ∧ (∀ a < s.inLen, s.inByte a = u.inByte a) ∧ s.inLen ≤ 2 ^ 32 - 1 ∧
    4 + (s.inLen + 65535) / 65536 * 65543 ≤ s.outCap ∧ 4 + (s.inLen + 65535) / 65536 * 65543 ≤ u.outCap ∧
    execWith crc32c .encode s = .next (after .encode s) ∧ execWith crc32c .encode u = .next (after .encode u) :=
  ⟨by decide +kernel, built_ready.1, by decide +kernel, by decide +kernel, by decide +kernel, by decide +kernel,
    by decide +kernel, execWith_after _ _, execWith_after _ _⟩

theorem witness_VerifyResult :
    let s := given container 14 0 0 0 0
    4 ≤ s.inLen ∧ s.blocksSound crc32c ((readLE s.inByte 0 4 + 65535) / 65536) 4 ∧
    exec .verify s = .next (after .verify s) ∧ (after .verify s).result.fail = false ∧
    (given [0, 0, 0] 3 0 0 0 0).inLen < 4 := by
  have h : (readLE (given container 14 0 0 0 0).inByte 0 4 + 65535) / 65536 = 1 := by decide +kernel
  refine ⟨by decide +kernel, ?_, exec_after _ _, by decide +kernel, by decide +kernel⟩
  rw [h]
  exact ⟨by decide +kernel, by decide +kernel, by decide +kernel, trivial⟩

/-- For the two statements about what `ENCODE` made: the container of T91. -/
theorem witness_DecodeInvertsEncode :
    let s := given [0, 0, 1] 3 14 0 0 0
    let t := after .encode s
    let u := given container 14 3 0 0 0
    execWith crc32c .encode s = .next t ∧ s.enc.ok ∧ t.result.fail = false ∧ u.inLen = t.result.res0.toNat ∧
    (∀ a < u.inLen, u.inByte a = t.outByte a) ∧ s.inLen ≤ u.outCap ∧ u.dec.ok :=
  ⟨execWith_after _ _, by decide +kernel⟩

/-- The container of T7. -/
theorem witness_VerifyAcceptsEncoded :
    let s := given [7] 1 12 0 0 0
    let t := after .encode s
    let u := given [1, 0, 0, 0, 0, 0, 0xBA, 0x37, 0xB7, 0x86, 2, 7] 12 0 0 0 0
    execWith crc32c .encode s = .next t ∧ s.enc.ok ∧ t.result.fail = false ∧ u.inLen = t.result.res0.toNat ∧
    ∀ a < u.inLen, u.inByte a = t.outByte a :=
  ⟨execWith_after _ _, by decide +kernel⟩

/-- No bytes; a COPY block of two; a FILL block of 65536; no header; more announced than fits. -/
theorem witness_DecodeResult :
    (let s := given [0, 0, 0, 0] 4 0 0 0 0;
      4 ≤ s.inLen ∧ readLE s.inByte 0 4 = 0) ∧
    (let s := given [2, 0, 0, 0, 1, 0, 0, 0, 0, 0, 0, 1, 2] 13 2 0 0 0;
      2 = readLE s.inByte 0 4 ∧ 2 ≤ s.outCap ∧ 11 + 2 ≤ s.inLen ∧ readLE s.inByte 4 2 + 1 = 2 ∧
      readLE s.inByte 10 1 = 0) ∧
    (let s := given [0, 0, 1, 0, 0, 0, 0, 0, 0, 0, 2, 5] 12 65536 0 0 0;
      65536 = readLE s.inByte 0 4 ∧ 65536 ≤ s.outCap ∧ 12 ≤ s.inLen ∧ readLE s.inByte 4 2 = 0 ∧
      readLE s.inByte 10 1 = 2) ∧
    (given [] 3 0 0 0 0).inLen < 4 ∧
    (given [1, 0, 0, 0] 4 0 0 0 0).outCap < readLE (given [1, 0, 0, 0] 4 0 0 0 0).inByte 0 4 := by decide +kernel

theorem witness_TblWriteResult :
    (let s := given [] 0 0 0 260 4294967295;
      s.enc.ok ∧ s.arg0 = 0 ∧ s.arg1 ≤ 260 ∧ s.arg2 ≤ 4294967295) ∧
    (given [] 0 0 1 0 0).arg0 ≠ 0 ∧ 260 < (given [] 0 0 0 261 0).arg1 ∧
    4294967295 < (given [] 0 0 0 0 4294967296).arg2 := by decide +kernel

end Sys2Proof.Tests
end

section
/-! SUPPORT. What every command and every step does to the host's side, and which commands use `crc32c`
(`spec/00_scope.md` R6, R7): the commands answer, keep the operands, `IN` and the queue, and a step serves one action. -/

namespace Sys2Proof.Machine

/-! ### The host's side -/

/-- From `s` to `t` the host's side is as it was: the operands, `IN`, the actions not yet served, what was last read
(R21, R38; log 1, log 5). -/
structure State.HostKept (s t : State) : Prop where
  ops : t.ops = s.ops
  input : t.input = s.input
  pending : t.pending = s.pending
  readData : t.readData = s.readData

theorem State.HostKept.refl (s : State) : s.HostKept s := ⟨rfl, rfl, rfl, rfl⟩

theorem State.HostKept.trans {s t u : State} (h : s.HostKept t) (h' : t.HostKept u) : s.HostKept u :=
  ⟨h'.ops.trans h.ops, h'.input.trans h.input, h'.pending.trans h.pending, h'.readData.trans h.readData⟩

theorem State.HostKept.finishOk {s t : State} (h : s.HostKept t) (r0 r1 : Nat) : s.HostKept (t.finishOk r0 r1) :=
  h.trans ⟨rfl, rfl, rfl, rfl⟩

theorem State.HostKept.failWith {s t : State} (h : s.HostKept t) (k : Kind) : s.HostKept (t.failWith k) :=
  h.trans ⟨rfl, rfl, rfl, rfl⟩

theorem State.HostKept.failOver {s t : State} (h : s.HostKept t) (k : Kind) (lo hi : Nat) :
    s.HostKept (t.failOver k lo hi) := h.trans ⟨rfl, rfl, rfl, rfl⟩

theorem State.hostKept_checked {s : State} {p : Prop} [Decidable p] {run : State → State} (h : p → s.HostKept (run s)) :
    s.HostKept (s.checked p run) := by
  by_cases hp : p
  · rw [State.checked_of s hp]; exact h hp
  · rw [State.checked_of_not s hp]; exact (State.HostKept.refl s).failWith _

/-! ### What keeps the host's side -/

theorem State.brNew_hostKept (s : State) (start stop : Nat) : s.HostKept (s.brNew start stop) := ⟨rfl, rfl, rfl, rfl⟩

theorem State.bwNew_hostKept (s : State) (start stop : Nat) : s.HostKept (s.bwNew start stop) := ⟨rfl, rfl, rfl, rfl⟩

theorem State.histogram_hostKept (s : State) (start n : Nat) : s.HostKept (s.histogram start n) := ⟨rfl, rfl, rfl, rfl⟩

theorem State.brMove_hostKept (s : State) (n : Nat) : s.HostKept (s.brMove n) := by
  rw [State.brMove_frame]; exact ⟨rfl, rfl, rfl, rfl⟩

theorem State.bwWriteBits_hostKept (s : State) (x n : Nat) : s.HostKept (s.bwWriteBits x n) := by
  rw [State.bwWriteBits_frame]; exact ⟨rfl, rfl, rfl, rfl⟩

theorem State.bwForceFlush_hostKept (s : State) : s.HostKept s.bwForceFlush := by
  rw [State.bwForceFlush_frame]; exact ⟨rfl, rfl, rfl, rfl⟩

theorem State.treeEmit_hostKept (s : State) : s.HostKept s.treeEmit := by
  rw [State.treeEmit_frame]; exact ⟨rfl, rfl, rfl, rfl⟩

theorem State.symEmit_hostKept (s : State) (start n : Nat) : s.HostKept (s.symEmit start n) := by
  rw [State.symEmit_frame]; exact ⟨rfl, rfl, rfl, rfl⟩

theorem State.treeRecover_hostKept (s : State) : s.HostKept s.treeRecover.state := by
  rw [s.treeRecover_recovering.1]; exact ⟨rfl, rfl, rfl, rfl⟩

theorem State.Decoding.hostKept {s t : State} (h : s.Decoding t) : s.HostKept t := by
  rw [h.frame]; exact ⟨rfl, rfl, rfl, rfl⟩

theorem State.Encoding.hostKept {lo : Nat} {s t : State} (h : s.Encoding lo t) : s.HostKept t := by
  rw [h.frame]; exact ⟨rfl, rfl, rfl, rfl⟩

theorem State.Unpacking.hostKept {lo hi : Nat} {s t : State} (h : s.Unpacking lo hi t) : s.HostKept t := by
  rw [h.frame]; exact ⟨rfl, rfl, rfl, rfl⟩

theorem State.setOut_hostKept (s : State) (ptr stop : Nat) : s.HostKept (s.setOut ptr stop) := ⟨rfl, rfl, rfl, rfl⟩

/-! ### The commands that can fail after they have begun -/

/-- A command answers from `s` with the host's side kept (R6, R21, R38). -/
def State.Answers (s : State) (r : Host.Outcome State Fault Refusal) : Prop := ∃ t, r = .next t ∧ s.HostKept t

theorem State.answers_checked {s : State} {p : Prop} [Decidable p] {run : State → State}
    (h : p → s.HostKept (run s)) : s.Answers (.next (s.checked p run)) := ⟨_, rfl, State.hostKept_checked h⟩

theorem State.answers_readCommand (s : State) (n : Nat) : s.Answers (.next (s.readCommand n)) :=
  ⟨_, rfl, (s.brMove_hostKept n).finishOk _ _⟩

theorem State.answers_moveCommand (s : State) (n : Nat) : s.Answers (.next (s.moveCommand n)) :=
  ⟨_, rfl, (s.brMove_hostKept n).finishOk _ _⟩

theorem execMaxsize_answers (s : State) : s.Answers (execMaxsize s) := by
  refine ⟨_, rfl, ?_⟩
  split
  · exact (State.HostKept.refl s).failWith _
  · exact (State.HostKept.refl s).finishOk _ _

theorem execEncodeWith_answers (crc : CrcFn) (s : State) : s.Answers (execEncodeWith crc s) := by
  have h0 := s.putOutLE_encoding (lo := 0) (a := 0) Config.masterHdr s.inLen (Nat.le_refl _)
  have h1 := (s.putOutLE 0 Config.masterHdr s.inLen).encodeLoop_encoding crc (blockCount s.inLen) s.inLen
    Config.masterHdr 0 0
  refine ⟨_, rfl, ?_⟩
  split
  · exact (State.HostKept.refl s).failWith _
  · split
    · exact (State.HostKept.refl s).failWith _
    · next hc =>
      have h : s.HostKept (s.encodeAll crc).state := ((h0 (by omega)).trans (h1 0 (by omega))).hostKept
      split
      · next e => rw [e] at h; exact h.finishOk _ _
      · next e => rw [e] at h; exact h.failOver _ _ _

theorem execVerifyWith_answers (crc : CrcFn) (s : State) : s.Answers (execVerifyWith crc s) := by
  refine ⟨_, rfl, ?_⟩
  split
  · exact (State.HostKept.refl s).failWith _
  · split
    · exact (State.HostKept.refl s).finishOk _ _
    · exact (State.HostKept.refl s).failWith _

theorem execDecode_answers (s : State) : s.Answers (execDecode s) := by
  refine ⟨_, rfl, ?_⟩
  split
  · exact (State.HostKept.refl s).failWith _
  · split
    · exact (State.HostKept.refl s).failWith _
    · next hd =>
      have h := (s.decodeLoop_unpacking (blockCount s.announced) s.announced Config.masterHdr 0 (by omega)).hostKept
      split
      · next e => rw [e] at h; exact h.finishOk _ _
      · next e => rw [e] at h; exact h.failOver _ _ _

theorem execTreeRecover_answers (s : State) : s.Answers (execTreeRecover s) := by
  have h := s.treeRecover_hostKept
  unfold execTreeRecover
  split
  · next e => rw [e] at h; exact ⟨_, rfl, h.finishOk _ _⟩
  · next e => rw [e] at h; exact ⟨_, rfl, h.failWith _⟩

theorem execSymDecode_answers (s : State) : s.Answers (execSymDecode s) := by
  refine State.answers_checked fun _ => ?_
  have h := (s.setOut_hostKept s.arg0 s.arg1).trans (State.decodeOne_decoding _).hostKept
  split
  · next e => rw [e] at h; exact h.finishOk _ _
  · next e => rw [e] at h; exact h.failWith _

theorem execHuffDecode_answers (s : State) : s.Answers (execHuffDecode s) := by
  refine State.answers_checked fun _ => ?_
  have h := (s.setOut_hostKept s.arg0 s.arg1).trans (s.huffDecode_decoding s.arg0 s.arg1).hostKept
  split
  · next e => rw [e] at h; exact h.finishOk _ _
  · next e => rw [e] at h; exact h.failOver _ _ _

theorem execBlockEncodeWith_answers (crc : CrcFn) (s : State) : s.Answers (execBlockEncodeWith crc s) := by
  refine State.answers_checked fun _ => ?_
  split
  · exact (State.HostKept.refl s).failWith _
  · have h := (State.blockEncodeBody_encoding crc (s := s) s.arg0 s.arg1 (outPos := s.arg2) (by omega)).hostKept
    split
    · next e => rw [e] at h; exact h.finishOk _ _
    · next e => rw [e] at h; exact h.failOver _ _ _

theorem execBlockDecode_answers (s : State) : s.Answers (execBlockDecode s) := by
  refine State.answers_checked fun hp => ?_
  obtain ⟨-, -, hroom⟩ := hp
  have h := (State.blockDecode_unpacking s.arg0 hroom).hostKept
  split
  · next e => rw [e] at h; exact h.finishOk _ _
  · next e => rw [e] at h; exact h.failOver _ _ _

theorem execBlockVerifyWith_answers (crc : CrcFn) (s : State) : s.Answers (execBlockVerifyWith crc s) := by
  refine State.answers_checked fun _ => ?_
  split
  · exact (State.HostKept.refl s).finishOk _ _
  · exact (State.HostKept.refl s).failWith _

/-! ### Every command, every step -/

/-- Every command answers a next state, whatever function `crc32c` is, and keeps the host's side (R6, R21, R38). -/
theorem execWith_answers (crc : CrcFn) (i : Instr) (s : State) : s.Answers (execWith crc i s) := by
  have hs := State.HostKept.refl s
  cases i with
  | maxsize => exact execMaxsize_answers s
  | encode => exact execEncodeWith_answers crc s
  | verify => exact execVerifyWith_answers crc s
  | decode => exact execDecode_answers s
  | crc32c => exact State.answers_checked fun _ => hs.finishOk _ _
  | brNew => exact State.answers_checked fun _ => (s.brNew_hostKept _ _).finishOk _ _
  | brReadBit => exact s.answers_readCommand 1
  | brReadBits => exact State.answers_checked fun _ => (s.brMove_hostKept _).finishOk _ _
  | brPeek8 => exact ⟨_, rfl, hs.finishOk _ _⟩
  | brAdvance => exact State.answers_checked fun _ => (s.brMove_hostKept _).finishOk _ _
  | brReadBitChk => exact s.answers_readCommand 1
  | brReadBitsChk => exact State.answers_checked fun _ => (s.brMove_hostKept _).finishOk _ _
  | brAdvanceChk => exact State.answers_checked fun _ => (s.brMove_hostKept _).finishOk _ _
  | brAdvanceBytesChk => exact s.answers_moveCommand _
  | brAtEnd => exact ⟨_, rfl, hs.finishOk _ _⟩
  | bwNew => exact State.answers_checked fun _ => (s.bwNew_hostKept _ _).finishOk _ _
  | bwWriteBits => exact State.answers_checked fun _ => (s.bwWriteBits_hostKept _ _).finishOk _ _
  | bwForceFlush => exact ⟨_, rfl, s.bwForceFlush_hostKept.finishOk _ _⟩
  | histogram => exact State.answers_checked fun _ => (s.histogram_hostKept _ _).finishOk _ _
  | treeBuild => exact ⟨_, rfl, rfl, rfl, rfl, rfl⟩
  | treeEmit => exact State.answers_checked fun _ => s.treeEmit_hostKept.finishOk _ _
  | treeRecover => exact execTreeRecover_answers s
  | symEmit => exact State.answers_checked fun _ => (s.symEmit_hostKept _ _).finishOk _ _
  | symDecode => exact execSymDecode_answers s
  | huffDecode => exact execHuffDecode_answers s
  | blockEncode => exact execBlockEncodeWith_answers crc s
  | blockDecode => exact execBlockDecode_answers s
  | blockVerify => exact execBlockVerifyWith_answers crc s
  | tblRead => exact State.answers_checked fun _ => hs.finishOk _ _
  | tblWrite => exact State.answers_checked fun _ => ⟨rfl, rfl, rfl, rfl⟩

/-- `exec` is the machine at the default `crc32c` (R7, R230; log 7). -/
theorem exec_eq_execWith (i : Instr) (s : State) : exec i s = execWith crc32c i s := by
  cases i <;> rfl

theorem exec_answers (i : Instr) (s : State) : s.Answers (exec i s) := by
  rw [exec_eq_execWith]; exact execWith_answers crc32c i s

/-- A served action answers and leaves the queue alone, given that the commands do. -/
theorem State.serve_answers {run : Runner} (hrun : ∀ i (s : State), s.Answers (run i s)) (s : State) (a : HostAction) :
    ∃ t, s.serve run a = .next t ∧ t.pending = s.pending := by
  cases a with
  | write r v =>
    cases r with
    | cmd =>
      simp only [State.serve, State.runCommand]
      split
      · next i _ =>
        obtain ⟨t, e, k⟩ := hrun i s
        exact ⟨t, e, k.pending⟩
      · exact ⟨_, rfl, rfl⟩
    | _ => exact ⟨_, rfl, rfl⟩
  | abandon v =>
    refine ⟨_, rfl, ?_⟩
    unfold State.abandon
    split <;> rfl
  | _ => exact ⟨_, rfl, rfl⟩

/-- The waiting engine, or one action served (R286; log 1). -/
theorem State.serveNext_answers {run : Runner} (hrun : ∀ i (s : State), s.Answers (run i s)) (s : State) :
    ∃ t, s.serveNext run = .next t ∧ t.pending = s.pending.tail := by
  unfold State.serveNext
  split
  · next h => exact ⟨s, rfl, by rw [h]; rfl⟩
  · next a rest h =>
    obtain ⟨t, e, k⟩ := State.serve_answers hrun { s with pending := rest } a
    exact ⟨t, e, by rw [k, h]; rfl⟩

/-- Settles O11: a step with an empty queue waits, and any other serves the oldest action, which answers. -/
theorem stepAnswersNext : Obligations.StepAnswersNext := State.serveNext_answers exec_answers

/-! ### A write to `CMD` -/

/-- A value whose low 8 bits are a command's code names that command (R21, R81). -/
theorem decode_of_low_bits : ∀ i, Laws.EncodeRoundTrip.Statement i
  | .maxsize => Laws.EncodeRoundTrip.maxsize
  | .encode => Laws.EncodeRoundTrip.encode
  | .verify => Laws.EncodeRoundTrip.verify
  | .decode => Laws.EncodeRoundTrip.decode
  | .crc32c => Laws.EncodeRoundTrip.crc32c
  | .brNew => Laws.EncodeRoundTrip.brNew
  | .brReadBit => Laws.EncodeRoundTrip.brReadBit
  | .brReadBits => Laws.EncodeRoundTrip.brReadBits
  | .brPeek8 => Laws.EncodeRoundTrip.brPeek8
  | .brAdvance => Laws.EncodeRoundTrip.brAdvance
  | .brReadBitChk => Laws.EncodeRoundTrip.brReadBitChk
  | .brReadBitsChk => Laws.EncodeRoundTrip.brReadBitsChk
  | .brAdvanceChk => Laws.EncodeRoundTrip.brAdvanceChk
  | .brAdvanceBytesChk => Laws.EncodeRoundTrip.brAdvanceBytesChk
  | .brAtEnd => Laws.EncodeRoundTrip.brAtEnd
  | .bwNew => Laws.EncodeRoundTrip.bwNew
  | .bwWriteBits => Laws.EncodeRoundTrip.bwWriteBits
  | .bwForceFlush => Laws.EncodeRoundTrip.bwForceFlush
  | .histogram => Laws.EncodeRoundTrip.histogram
  | .treeBuild => Laws.EncodeRoundTrip.treeBuild
  | .treeEmit => Laws.EncodeRoundTrip.treeEmit
  | .treeRecover => Laws.EncodeRoundTrip.treeRecover
  | .symEmit => Laws.EncodeRoundTrip.symEmit
  | .symDecode => Laws.EncodeRoundTrip.symDecode
  | .huffDecode => Laws.EncodeRoundTrip.huffDecode
  | .blockEncode => Laws.EncodeRoundTrip.blockEncode
  | .blockDecode => Laws.EncodeRoundTrip.blockDecode
  | .blockVerify => Laws.EncodeRoundTrip.blockVerify
  | .tblRead => Laws.EncodeRoundTrip.tblRead
  | .tblWrite => Laws.EncodeRoundTrip.tblWrite

/-- A code fits the 8 bits of a table word. -/
theorem encode_lt (i : Instr) : (encode i).toNat < 2 ^ 8 := by
  rw [encode, BitVec.toNat_setWidth, Nat.mod_eq_of_lt (i.code.isLt.trans (by decide))]
  exact i.code.isLt

theorem State.serveNext_of_command {run : Runner} {s : State} {v : Word} {rest : List HostAction} {i : Instr}
    (hp : s.pending = .write .cmd v :: rest) (hd : decode v = .ok i) :
    s.serveNext run = run i { s with pending := rest } := by
  simp only [State.serveNext, hp, State.serve, State.runCommand, hd]

theorem State.serveNext_of_no_command {run : Runner} {s : State} {v : Word} {rest : List HostAction} {e : DecodeError}
    (hp : s.pending = .write .cmd v :: rest) (hd : decode v = .error e) :
    s.serveNext run = .next (({ s with pending := rest } : State).failWith .illegal) := by
  simp only [State.serveNext, hp, State.serve, State.runCommand, hd]

/-- The step that `withFetchWord` places runs the command on the state as it was (log 1). -/
theorem step_withFetchWord (s : State) (i : Instr) : step (s.withFetchWord 8 (encode i).toNat) = exec i s := by
  have hlt := encode_lt i
  refine State.serveNext_of_command (s := s.withFetchWord 8 (encode i).toNat) rfl (decode_of_low_bits i _ ?_)
  rw [BitVec.toNat_ofNat]; omega

/-- Settles O1: the head of the queue is decoded and run, for `exec` and for `execWith` alike. -/
theorem stepRunsDecodedCommand : Obligations.StepRunsDecodedCommand := by
  refine ⟨fun s v rest i => State.serveNext_of_command, fun s v rest e => State.serveNext_of_no_command,
    step_withFetchWord, fun crc s v rest i => State.serveNext_of_command, fun s => ?_⟩
  rw [step, stepWith, show exec = execWith crc32c from funext₂ exec_eq_execWith]

/-! ### The function `crc32c` -/

/-- The command at any `crc32c`, with its two spaces and their bounds written out (R230). -/
theorem execCrc32cWith_eq (crc : CrcFn) (s : State) : execCrc32cWith crc s = .next { s with
    result :=
      if s.arg0 = 0 ∧ s.arg1 + s.arg2 ≤ s.inLen then Result.okOf (crc (readList s.inByte s.arg1 s.arg2)).toNat 0
      else if s.arg0 = 1 ∧ s.arg1 + s.arg2 ≤ s.outCap then Result.okOf (crc (readList s.outByte s.arg1 s.arg2)).toNat 0
      else Result.failed .illegal } := by
  unfold execCrc32cWith State.checked State.spaceBound
  by_cases h0 : s.arg0 = 0
  · by_cases hb : s.arg1 + s.arg2 ≤ s.inLen <;> simp [h0, hb] <;> rfl
  · by_cases h1 : s.arg0 = 1
    · by_cases hb : s.arg1 + s.arg2 ≤ s.outCap <;> simp [h1, hb] <;> rfl
    · have h2 : ¬ s.arg0 ≤ 1 := by omega
      simp [h0, h1, h2]; rfl

/-- The commands other than the five take no `crc32c` (R61, R221). -/
theorem execWith_of_not_crc (crc : CrcFn) {i : Instr} (s : State)
    (h : i ∉ [.crc32c, .encode, .verify, .blockEncode, .blockVerify]) : execWith crc i s = exec i s := by
  cases i with
  | crc32c | encode | verify | blockEncode | blockVerify => exact absurd h (by decide)
  | _ => rfl

/-- The size of a payload as the header at `p` gives it, the stored field plus one (R86). -/
def State.storedSize (s : State) (p : Nat) : Nat := readLE s.inByte p 2 + 1

/-- A header is read exactly when it and its payload lie inside the input and its mode is known (R215). -/
theorem State.readBlockHeader_eq_ok {s : State} {p : Nat} {h : BlockHeader} :
    s.readBlockHeader p = .ok h ↔ (p + 7 + s.storedSize p ≤ s.inLen ∧ readLE s.inByte (p + 6) 1 ≤ 2) ∧
      h = ⟨s.storedSize p, readLE s.inByte (p + 2) 4, readLE s.inByte (p + 6) 1⟩ := by
  unfold State.readBlockHeader
  simp only [Config.blockHdr, State.storedSize]
  split_ifs with h1 h2 h3
  · simp; omega
  · simp; omega
  · simp; omega
  · rw [and_iff_right (by omega), Except.ok.injEq, eq_comm]

/-- A block passes verification exactly when its header is read and the `crc32c` of its payload is the stored one (R216). -/
theorem State.blockVerify_eq_ok {s : State} {crc : CrcFn} {p : Nat} {r : Nat × Nat} :
    s.blockVerify crc p = .ok r ↔ (p + 7 + s.storedSize p ≤ s.inLen ∧ readLE s.inByte (p + 6) 1 ≤ 2 ∧
      (crc (readList s.inByte (p + 7) (s.storedSize p))).toNat = readLE s.inByte (p + 2) 4) ∧
      r = (p + 7 + s.storedSize p, readLE s.inByte (p + 6) 1) := by
  unfold State.blockVerify
  cases e : s.readBlockHeader p with
  | error k =>
    refine iff_of_false nofun fun ⟨⟨h1, h2, _⟩, _⟩ => ?_
    rw [State.readBlockHeader_eq_ok.2 ⟨⟨h1, h2⟩, rfl⟩] at e
    exact nomatch e
  | ok h =>
    obtain ⟨⟨h1, h2⟩, rfl⟩ := State.readBlockHeader_eq_ok.1 e
    by_cases hc : (crc (readList s.inByte (p + 7) (s.storedSize p))).toNat = readLE s.inByte (p + 2) 4
    · simp [Config.blockHdr, State.crcIn, hc, h1, h2, eq_comm]
    · simp [Config.blockHdr, State.crcIn, hc]

/-- `BLOCK_VERIFY` ends ok exactly over a block that is whole, of a known mode and with the right CRC (R216). -/
theorem execBlockVerifyWith_ok_iff {crc : CrcFn} {s t : State} (h : execBlockVerifyWith crc s = .next t) :
    t.result.fail = false ↔ s.arg0 ≤ s.inLen ∧ s.arg0 + 7 + s.storedSize s.arg0 ≤ s.inLen ∧
      readLE s.inByte (s.arg0 + 6) 1 ≤ 2 ∧
      (crc (readList s.inByte (s.arg0 + 7) (s.storedSize s.arg0))).toNat = readLE s.inByte (s.arg0 + 2) 4 := by
  simp only [execBlockVerifyWith, Host.Outcome.next.injEq] at h
  subst h
  by_cases hp : s.arg0 ≤ s.inLen
  · rw [State.checked_of s hp]
    cases e : s.blockVerify crc s.arg0 with
    | ok r => exact iff_of_true rfl ⟨hp, (State.blockVerify_eq_ok.1 e).1⟩
    | error k =>
      refine iff_of_false nofun fun ⟨_, k⟩ => ?_
      rw [State.blockVerify_eq_ok.2 ⟨k, rfl⟩] at e
      exact nomatch e
  · rw [State.checked_of_not s hp]
    exact iff_of_false nofun fun k => hp k.1

/-- Settles O52; the three values of the default function are computed. -/
theorem crc32cResult : Obligations.Crc32cResult := by
  refine ⟨execCrc32cWith_eq, fun s => execCrc32cWith_eq crc32c s, exec_eq_execWith, fun crc i s => execWith_of_not_crc crc s,
    fun crc s t => execBlockVerifyWith_ok_iff, ?_, ?_, ?_⟩ <;> decide +kernel

end Sys2Proof.Machine
end

section
/-! SUPPORT. What the block and container encoders leave in `OUT`, moved to `IN`, is verified and decoded (R235). -/

namespace Sys2Proof.Machine

/-! ### What the encoders end ok with -/

theorem toNat_ofNat_word {r : Nat} (h : r < 2 ^ 64) : (BitVec.ofNat 64 r).toNat = r := by
  rw [BitVec.toNat_ofNat, Nat.mod_eq_of_lt h]

/-- `BLOCK_ENCODE` that ends ok has met its operand checks and encoded the block (R200). -/
theorem execBlockEncodeWith_ok {crc : CrcFn} {s t : State} (h : execBlockEncodeWith crc s = .next t)
    (hf : t.result.fail = false) : s.blockEncodeOk ∧ ∃ w mode u,
      s.blockEncode crc s.arg0 s.arg1 s.arg2 = .ok (w, mode) u ∧ t = u.finishOk w mode := by
  simp only [execBlockEncodeWith, Host.Outcome.next.injEq] at h
  subst h
  by_cases hp : s.blockEncodeOk
  · rw [State.checked_of s hp] at hf ⊢
    by_cases hc : s.outCap < s.arg2 + 8
    · rw [if_pos hc] at hf; exact nomatch hf
    · rw [if_neg hc] at hf ⊢
      refine ⟨hp, ?_⟩
      rw [State.blockEncode, if_neg hc]
      cases e : s.blockEncodeBody crc s.arg0 s.arg1 s.arg2 with
      | ok r u => exact ⟨r.1, r.2, u, rfl, rfl⟩
      | fail k u => rw [e] at hf; exact nomatch hf
  · rw [State.checked_of_not s hp] at hf; exact nomatch hf

/-- `ENCODE` that ends ok has passed its two tests and encoded every block (R232). -/
theorem execEncodeWith_ok {crc : CrcFn} {s t : State} (h : execEncodeWith crc s = .next t)
    (hf : t.result.fail = false) : s.inLen ≤ Config.maxInput ∧ Config.masterHdr ≤ s.outCap ∧ ∃ pos nb u,
      s.encodeAll crc = .ok (pos, nb) u ∧ t = u.finishOk pos nb := by
  simp only [execEncodeWith, Host.Outcome.next.injEq] at h
  subst h
  by_cases hi : Config.maxInput < s.inLen
  · rw [if_pos hi] at hf; exact nomatch hf
  · by_cases hc : s.outCap < Config.masterHdr
    · rw [if_neg hi, if_pos hc] at hf; exact nomatch hf
    · rw [if_neg hi, if_neg hc] at hf ⊢
      refine ⟨Nat.le_of_not_lt hi, Nat.le_of_not_lt hc, ?_⟩
      cases e : s.encodeAll crc with
      | ok r u => exact ⟨r.1, r.2, u, rfl, rfl⟩
      | fail k u => rw [e] at hf; exact nomatch hf

/-! ### One block -/

/-- Bytes moved from `p` to `q` hold at `q` the payload they held at `p`. -/
theorem PayloadAt.moved {f g : Nat → Byte} {p q es mode : Nat} {bs : List Byte} (h : PayloadAt f p es mode bs)
    (hg : ∀ j < es, g (q + j) = f (p + j)) : PayloadAt g q es mode bs := by
  rcases h with ⟨h1, h2, h3⟩ | ⟨h1, h2, h3⟩ | ⟨h1, t, ts, bits, h2, h3, h4, h5, h6, h7⟩
  · exact .inl ⟨h1, h2, (readList_congr hg).trans h3⟩
  · have := hg 0 (by omega)
    rw [Nat.add_zero, Nat.add_zero] at this
    exact .inr (.inl ⟨h1, h2, by rw [this]; exact h3⟩)
  · refine .inr (.inr ⟨h1, t, ts, bits, h2, h3, h4, h5, h6, fun i hi => ?_⟩)
    rw [← h7 i hi]
    refine bitAt_congr ?_ (by omega)
    rw [show (8 * q + i) / 8 = q + i / 8 by omega, show (8 * p + i) / 8 = p + i / 8 by omega]
    exact hg _ (by omega)

/-- A block moved to another place is the same block there (R84, R86). -/
theorem BlockAt.moved {crc : CrcFn} {f g : Nat → Byte} {p q es mode : Nat} {bs : List Byte}
    (h : BlockAt crc f p es mode bs) (hg : ∀ j < 7 + es, g (q + j) = f (p + j)) : BlockAt crc g q es mode bs := by
  obtain ⟨⟨h1, h2, h3⟩, h4, h5, h6⟩ := h
  have shift : ∀ k j, k + j < 7 + es → g (q + k + j) = f (p + k + j) := fun k j hj => by
    rw [Nat.add_assoc, Nat.add_assoc]; exact hg _ hj
  refine ⟨⟨h1, h2, ?_⟩, ?_, ?_, h6.moved fun j hj => shift 7 j (by omega)⟩
  · rw [readLE_congr fun j (hj : j < 2) => hg j (by omega)]; exact h3
  · rw [readLE_congr fun j hj => shift 2 j (by omega), h4, readList_congr fun j hj => shift 7 j (by omega)]
  · rw [readLE_congr fun j hj => shift 6 j (by omega)]; exact h5

theorem BlockAt.mode_le {crc : CrcFn} {f : Nat → Byte} {p es mode : Nat} {bs : List Byte}
    (h : BlockAt crc f p es mode bs) : mode ≤ 2 := by
  rcases h.2.2.2 with ⟨k, _⟩ | ⟨k, _⟩ | ⟨k, _⟩ <;> omega

/-- What a byte of `OUT` reads as after a row of bytes of a space was stored there. -/
theorem outByte_of_writeList {u v : State} {g : Nat → Byte} {a b n : Nat}
    (h : v.output = u.output.writeList a (readList g b n)) (x : Nat) :
    v.outByte x = if a ≤ x ∧ x < a + n then g (b + (x - a)) else u.outByte x := by
  rw [State.outByte, h, Mem.read_writeList]
  by_cases hx : a ≤ x ∧ x < a + n
  · rw [dif_pos (by simpa using hx), if_pos hx, readList_getElem]
  · rw [dif_neg (by simpa using hx), if_neg hx]; rfl

/-- `BLOCK_DECODE` over a block of the format, with its length for the operand (R217 to R220). -/
theorem execBlockDecode_of_block {crc : CrcFn} {u : State} {es mode : Nat} {bs : List Byte}
    (h : BlockAt crc u.inByte u.arg0 es mode bs) (hl : u.arg0 + 7 + es ≤ u.inLen) (hn : u.arg2 = bs.length)
    (hb : 1 ≤ u.arg2 ∧ u.arg2 ≤ Config.maxBlock) (ho : u.arg1 + u.arg2 ≤ u.outCap) (hd : u.dec.ok) :
    ∃ v, exec .blockDecode u = .next v ∧ v.output = u.output.writeList u.arg1 bs ∧
      v = { u with
        result := Result.okOf (u.arg0 + 7 + es) mode
        br := v.br, dec := v.dec, pay := v.pay, output := v.output } := by
  obtain ⟨v, e, ho', hfr, -⟩ := State.blockDecode_of_block h hl (start := u.arg1) (by omega) hd
  have hok : u.blockDecodeOk := ⟨by omega, hb, ho⟩
  refine ⟨v.finishOk (u.arg0 + 7 + es) mode, ?_, ho', by rw [hfr]; rfl⟩
  show Host.Outcome.next (u.checked u.blockDecodeOk _) = _
  rw [State.checked_of u hok, hn, e]

/-- Settles O50: `BLOCK_ENCODE` leaves a block of the format in `OUT`, a moved block is the same block, and `BLOCK_DECODE`
stores the bytes a block stands for. -/
theorem blockRoundTrip : Obligations.BlockRoundTrip := by
  intro crc s t u he h hf hmoved hlen hn hroom hd
  obtain ⟨⟨hb, hin, -⟩, w, mode, t', e, rfl⟩ := execBlockEncodeWith_ok h hf
  obtain ⟨es, rfl, -, hblock⟩ := State.blockEncode_ok hb e he
  have hes := hblock.1.2.1
  have hmode := hblock.mode_le
  simp only [Config.maxBlock] at hes
  have h0 : (t'.finishOk (7 + es) mode).result.res0.toNat = 7 + es := by
    simp only [State.finishOk_result]; exact toNat_ofNat_word (by omega)
  have h1 : (t'.finishOk (7 + es) mode).result.res1.toNat = mode := by
    simp only [State.finishOk_result]; exact toNat_ofNat_word (by omega)
  rw [h0] at hmoved hlen
  simp only [State.outByte_finishOk] at hmoved
  obtain ⟨v, ev, hout, hv⟩ := execBlockDecode_of_block (hblock.moved hmoved) (by omega)
    (by rw [s.inBytes_length, hn]) (hn ▸ hb) hroom hd
  rw [h0, h1, ← Nat.add_assoc]
  exact ⟨v, ev, hv, fun a => by rw [hn]; exact outByte_of_writeList hout a⟩

/-! ### A container -/

/-- A container of the first `n` bytes of `g`, up to position `q`: the master header, and the blocks of those bytes one
after another (R84, R85). -/
def ContainerAt (crc : CrcFn) (f g : Nat → Byte) (n q : Nat) : Prop :=
  readLE f 0 4 = n ∧ BlocksAt crc f (chunks g (blockCount n) 0 n) 4 q

/-- A container is judged by its own bytes. -/
theorem ContainerAt.congr {crc : CrcFn} {f f' g : Nat → Byte} {n q : Nat} (h : ContainerAt crc f g n q)
    (hf : ∀ a < q, f' a = f a) : ContainerAt crc f' g n q := by
  obtain ⟨header, blocks⟩ := h
  have hq := blocks.le
  exact ⟨(readLE_congr fun j hj => hf _ (by omega)).trans header, blocks.congr fun x _ hx => hf x hx⟩

/-- The bytes of a container's blocks are all the bytes. -/
theorem chunks_blockCount_flatten (g : Nat → Byte) (n : Nat) : (chunks g (blockCount n) 0 n).flatten = readList g 0 n :=
  chunks_flatten g _ 0 n (le_blockCount n)

/-- What `encode()` leaves in `OUT` is a container of the input (R232). -/
theorem State.encodeAll_container {crc : CrcFn} {s t : State} {pos nb : Nat} (h : s.encodeAll crc = .ok (pos, nb) t)
    (he : s.enc.ok) (hi : s.inLen ≤ Config.maxInput) (hc : Config.masterHdr ≤ s.outCap) :
    ContainerAt crc t.outByte s.inByte s.inLen pos ∧ pos ≤ s.outCap := by
  obtain ⟨henc, hblocks, hpos⟩ := State.encodeLoop_ok (s := s.putOutLE 0 Config.masterHdr s.inLen) h he hc
  refine ⟨⟨?_, hblocks⟩, hpos⟩
  have hle : readLE (s.putOutLE 0 4 s.inLen).outByte 0 4 = s.inLen % 256 ^ 4 := readLE_writeLE _ _ _ _ _
  rw [readLE_congr fun j hj => henc.outByte_below (x := 0 + j) (by simp only [Config.masterHdr]; omega), hle]
  simp only [Config.maxInput] at hi
  omega

/-- What `ENCODE` ended ok with: the encoded size, and a container of the input up to it (R232). -/
theorem execEncodeWith_container {crc : CrcFn} {s t : State} (he : s.enc.ok) (h : execEncodeWith crc s = .next t)
    (hf : t.result.fail = false) : ContainerAt crc t.outByte s.inByte s.inLen t.result.res0.toNat := by
  obtain ⟨hi, hc, pos, nb, u, e, rfl⟩ := execEncodeWith_ok h hf
  obtain ⟨hcont, hpos⟩ := State.encodeAll_container e he hi hc
  have hlt := s.outCap_lt
  simp only [State.finishOk_result]
  rw [toNat_ofNat_word (by omega)]
  exact hcont

/-- `VERIFY` accepts an input that is a container (R233). -/
theorem execVerifyWith_of_container {crc : CrcFn} {u : State} {g : Nat → Byte} {n : Nat}
    (h : ContainerAt crc u.inByte g n u.inLen) : execVerifyWith crc u = .next (u.finishOk n u.inLen) := by
  obtain ⟨ha, blocks⟩ := h
  have hq := blocks.le
  change u.announced = n at ha
  unfold execVerifyWith
  rw [if_neg (by simp only [Config.masterHdr]; omega), ha,
    State.verifyLoop_of_blocks (p := Config.masterHdr) blocks (Nat.le_refl _)]

/-- `DECODE` stores the bytes an input that is a container stands for (R234). -/
theorem execDecode_of_container {crc : CrcFn} {u : State} {g : Nat → Byte} {n : Nat}
    (h : ContainerAt crc u.inByte g n u.inLen) (hc : n ≤ u.outCap) (hd : u.dec.ok) :
    ∃ v, execDecode u = .next v ∧ v.output = u.output.writeList 0 (readList g 0 n) ∧
      v = { u with
        result := Result.okOf n u.inLen, br := v.br, dec := v.dec, pay := v.pay, output := v.output } := by
  obtain ⟨ha, blocks⟩ := h
  have hq := blocks.le
  change u.announced = n at ha
  obtain ⟨v, e, ho, hfr, -⟩ := State.decodeLoop_of_blocks (u := u) (o := 0) (d := n) (p := Config.masterHdr) blocks
    (Nat.le_refl _) hd (Nat.zero_le _) hc
  refine ⟨v.finishOk n u.inLen, ?_, ?_, by rw [hfr]; rfl⟩
  · unfold execDecode
    rw [if_neg (by simp only [Config.masterHdr]; omega), ha, if_neg (by omega), e]
  · exact ho.trans (by rw [Nat.sub_zero, chunks_blockCount_flatten])

/-- Settles O56: what `ENCODE` leaves is a container, and so are its bytes in `IN`. -/
theorem verifyAcceptsEncoded : Obligations.VerifyAcceptsEncoded := by
  intro crc s t u he h hf hlen hbytes
  have hc := execEncodeWith_container he h hf
  rw [← hlen] at hc
  exact execVerifyWith_of_container (hc.congr hbytes)

/-- Settles O57: what `ENCODE` leaves is a container, whose blocks stand for the input. -/
theorem decodeInvertsEncode : Obligations.DecodeInvertsEncode := by
  intro crc s t u he h hf hlen hbytes hroom hd
  have hc := execEncodeWith_container he h hf
  rw [← hlen] at hc
  obtain ⟨v, ev, ho, hv⟩ := execDecode_of_container (hc.congr hbytes) hroom hd
  refine ⟨v, ev, hv, fun a => ?_⟩
  rw [outByte_of_writeList ho]
  simp

end Sys2Proof.Machine
end

section
/-! SUPPORT. `ENCODE` is a function of the input bytes (R235 (d), R209): two runs over the same bytes, each with room for the
bound, store the same bytes, whatever the engine and `OUT` held before. -/

namespace Sys2Proof.Machine

/-- The two states hold the same bytes of `OUT` from `lo` up to and without `hi`. -/
def State.SameOut (s u : State) (lo hi : Nat) : Prop := ∀ a, lo ≤ a → a < hi → s.outByte a = u.outByte a

/-- Two stores of the same value at the same place agree there, and elsewhere where they agreed before. -/
theorem State.putOutLE_agree {s u : State} {a n x : Nat} (v : Nat)
    (h : x < a ∨ a + n ≤ x → s.outByte x = u.outByte x) :
    (s.putOutLE a n v).outByte x = (u.putOutLE a n v).outByte x := by
  rw [State.outByte_putOutLE, State.outByte_putOutLE]
  split
  · rfl
  · exact h (by omega)

/-- Bytes with equal bits are equal. -/
theorem State.outByte_eq_of_outBit {s u : State} {a : Nat} (h : ∀ i < 8, s.outBit (8 * a + i) = u.outBit (8 * a + i)) :
    s.outByte a = u.outByte a := by
  refine BitVec.eq_of_getLsbD_eq fun i hi => ?_
  have := h i hi
  rwa [State.outBit, State.outBit, show (8 * a + i) / 8 = a by omega, show (8 * a + i) % 8 = i by omega] at this

/-! ### What depends on `SYM` alone -/

section Counts

variable {e e' : Encoder}

theorem Encoder.symAt_congr (h : e.sym = e'.sym) (i : Nat) : e.symAt i = e'.symAt i := by
  rw [Encoder.symAt, h, Encoder.symAt]

theorem Encoder.used_congr (h : e.sym = e'.sym) : e.used = e'.used := by
  simp only [Encoder.used, Encoder.symAt_congr h]

theorem Encoder.constantValue_congr (h : e.sym = e'.sym) : e.constantValue = e'.constantValue := by
  have hl : e.literalsUsed = e'.literalsUsed := by rw [Encoder.literalsUsed, Encoder.used_congr h, Encoder.literalsUsed]
  have hz : e.zeroClassUsed = e'.zeroClassUsed := by
    simp only [Encoder.zeroClassUsed, Encoder.symAt_congr h]
  rw [Encoder.constantValue, Encoder.constantValue, hl, hz]

/-- The builder starts afresh, so that what it leaves is a function of the counts (R140, R209). -/
theorem Encoder.treeBuild_congr (h : e.sym = e'.sym) : e.treeBuild = e'.treeBuild := by
  have hi : e.initial = e'.initial := by
    simp only [Encoder.initial, Encoder.initialNodes, Encoder.symAt_congr h, Encoder.used_congr h, h]
  rw [Encoder.treeBuild, Encoder.treeBuild, hi, Encoder.used_congr h]

end Counts

/-- `ENODE` holds at most one tree at an entry. -/
theorem Encoder.holds_unique {e : Encoder} {t t' : HTree} {n : Nat} (h : e.holds t n) (h' : e.holds t' n) : t = t' := by
  have disjoint : ∀ {x : Nat}, x ≤ 260 → BitVec.ofNat 16 x ≠ internalSymbol := fun hx k => by
    have := isLeafSymbol_ofNat hx
    rw [k, isLeafSymbol_internal] at this
    exact nomatch this
  induction t generalizing t' n with
  | leaf x =>
    cases t' with
    | leaf y =>
      have hxy := congrArg BitVec.toNat (h.1.symm.trans h'.1)
      rw [toNat_ofNat_symbol h.2, toNat_ofNat_symbol h'.2] at hxy
      rw [hxy]
    | node a b => exact absurd (h.1.symm.trans h'.1) (disjoint h.2)
  | node a b iha ihb =>
    cases t' with
    | leaf y => exact absurd (h'.1.symm.trans h.1) (disjoint h'.2)
    | node a' b' => rw [iha h.2.1 h'.2.1, ihb h.2.2 h'.2.2]

/-! ### The attempt at HUFF_RLE -/

/-- Wherever the attempt ends, `ENODE` and `ENC_ROOT` are as the builder left them (R203). -/
theorem State.tryHuffRle_tree (s : State) (inStart n outPos : Nat) :
    (s.tryHuffRle inStart n outPos).2.enc.enode = s.enc.treeBuild.enode ∧
    (s.tryHuffRle inStart n outPos).2.enc.root = s.enc.treeBuild.root := by
  have h1 : (s.huffOpened outPos).treeEmit.enc.enode = s.enc.treeBuild.enode ∧
      (s.huffOpened outPos).treeEmit.enc.root = s.enc.treeBuild.root := by
    rw [State.treeEmit_frame]; exact ⟨rfl, rfl⟩
  have h2 : ((s.huffOpened outPos).treeEmit.symEmit inStart n).enc = (s.huffOpened outPos).treeEmit.enc := by
    rw [State.symEmit_frame]
  have h3 : (s.huffWritten inStart n outPos).enc = (s.huffOpened outPos).treeEmit.enc := by
    rw [State.huffWritten, State.bwForceFlush_frame, h2]
  rcases s.tryHuffRle_cases inStart n outPos with ⟨t, e, rfl | rfl | rfl | rfl⟩ | ⟨e, -⟩ <;> rw [e]
  · exact ⟨rfl, rfl⟩
  · exact h1
  · rw [h2]; exact h1
  · rw [h3]; exact h1
  · rw [h3]; exact h1

/-- The bits of a token under the codes of a tree that are recorded in `SYM` are those of the tree. -/
theorem State.Attempt.tokenBits_eq {s u t v : State} {inStart n outPos : Nat} {r r' : Option Nat} {tr : HTree}
    (h : s.Attempt t inStart n outPos r tr) (h' : u.Attempt v inStart n outPos r' tr) (hd : tr.depth ≤ 32) {x : Token}
    (hx : x.sym ∈ s.enc.used) : t.enc.tokenBits x = v.enc.tokenBits x := by
  obtain ⟨code, hcode⟩ := HTree.exists_code (h.symbols.mem_iff.2 hx)
  obtain ⟨c1, b1⟩ := h.codes hd _ hcode
  obtain ⟨c2, b2⟩ := h'.codes hd _ hcode
  dsimp only at c1 b1 c2 b2
  rw [Encoder.tokenBits, Encoder.tokenBits, c1, b1, c2, b2]

/-- Two attempts with the same tree, over the same bytes, and each with room for 65536 bytes: both are kept or neither is,
and the payloads are the same. -/
theorem State.Attempt.agree {s u t v : State} {inStart n outPos : Nat} {r r' : Option Nat} {tr : HTree}
    (h : s.Attempt t inStart n outPos r tr) (h' : u.Attempt v inStart n outPos r' tr)
    (hb : s.inBytes inStart n = u.inBytes inStart n)
    (hu : ∀ x ∈ tokens (s.inBytes inStart n), x.sym ∈ s.enc.used)
    (hs : outPos + 65543 ≤ s.outCap) (hc : outPos + 65543 ≤ u.outCap) :
    r = r' ∧ ∀ es, r = .some es → t.SameOut v (outPos + 7) (outPos + 7 + es) := by
  by_cases hd : tr.depth ≤ 32
  · have hbits : (tokens (s.inBytes inStart n)).flatMap t.enc.tokenBits =
        (tokens (u.inBytes inStart n)).flatMap v.enc.tokenBits := by
      rw [← hb]
      exact List.flatMap_congr fun x hx => h.tokenBits_eq h' hd (hu x hx)
    generalize hp : tr.describe ++ (tokens (s.inBytes inStart n)).flatMap t.enc.tokenBits = payload
    have hp' : payload = tr.describe ++ (tokens (u.inBytes inStart n)).flatMap v.enc.tokenBits := by rw [← hp, hbits]
    generalize hsize : (payload.length + 7) / 8 = size
    by_cases hfit : size < 65536
    · obtain ⟨e1, m1⟩ := h.some payload size hp.symm hsize.symm hd hfit (by omega)
      obtain ⟨e2, m2⟩ := h'.some payload size hp' hsize.symm hd hfit (by omega)
      refine ⟨e1.trans e2.symm, fun es hes a h1 h2 => State.outByte_eq_of_outBit fun i hi => ?_⟩
      obtain rfl : size = es := Option.some.inj (e1.symm.trans hes)
      have hq := List.map_inj_left.1 (m1.trans m2.symm) (8 * (a - (outPos + 7)) + i) (by rw [List.mem_range]; omega)
      rwa [show 8 * (outPos + 7) + (8 * (a - (outPos + 7)) + i) = 8 * a + i by omega] at hq
    · have e1 := h.none payload size hp.symm hsize.symm fun k => hfit k.2.1
      have e2 := h'.none payload size hp' hsize.symm fun k => hfit k.2.1
      exact ⟨e1.trans e2.symm, fun es hes => nomatch e1.symm.trans hes⟩
  · have e1 := h.none _ _ rfl rfl fun k => hd k.1
    have e2 := h'.none _ _ rfl rfl fun k => hd k.1
    exact ⟨e1.trans e2.symm, fun es hes => nomatch e1.symm.trans hes⟩

/-- `try_huff_rle` is a function of the counts and the bytes where 65536 bytes have room (R203, R209). -/
theorem State.tryHuffRle_agree {s u : State} {inStart n outPos : Nat} (hsym : s.enc.sym = u.enc.sym)
    (hb : s.inBytes inStart n = u.inBytes inStart n) (he : s.enc.ok) (he' : u.enc.ok) (hne : s.enc.used ≠ [])
    (hu : ∀ x ∈ tokens (s.inBytes inStart n), x.sym ∈ s.enc.used)
    (hs : outPos + 65543 ≤ s.outCap) (hc : outPos + 65543 ≤ u.outCap) :
    (s.tryHuffRle inStart n outPos).1 = (u.tryHuffRle inStart n outPos).1 ∧
    ∀ es, (s.tryHuffRle inStart n outPos).1 = some es →
      (s.tryHuffRle inStart n outPos).2.SameOut (u.tryHuffRle inStart n outPos).2 (outPos + 7) (outPos + 7 + es) := by
  obtain ⟨tr, h⟩ := State.tryHuffRle_attempt (inStart := inStart) (n := n) (show outPos + 7 ≤ s.outCap by omega) he hne
  obtain ⟨tr', h'⟩ := State.tryHuffRle_attempt (inStart := inStart) (n := n) (show outPos + 7 ≤ u.outCap by omega) he'
    (Encoder.used_congr hsym ▸ hne)
  obtain ⟨n1, r1⟩ := s.tryHuffRle_tree inStart n outPos
  obtain ⟨n2, r2⟩ := u.tryHuffRle_tree inStart n outPos
  rw [← Encoder.treeBuild_congr hsym] at n2 r2
  have hroot : (u.tryHuffRle inStart n outPos).2.enc.root = (s.tryHuffRle inStart n outPos).2.enc.root := r2.trans r1.symm
  have hh := Encoder.holds_congr (n2.trans n1.symm) h.holds
  rw [← hroot] at hh
  obtain rfl := Encoder.holds_unique hh h'.holds
  exact h.agree h' hb hu hs hc

/-! ### One block -/

theorem State.histogram_sym_congr {s u : State} {inStart n : Nat} (hb : s.inBytes inStart n = u.inBytes inStart n) :
    (s.histogram inStart n).enc.sym = (u.histogram inStart n).enc.sym := by
  simp only [State.histogram, hb]

/-- The payload of a block is a function of the block's bytes where 65536 bytes have room (R200, R208, R209). -/
theorem State.emitPayload_agree {s u : State} {inStart n outPos : Nat} (hn : 1 ≤ n ∧ n ≤ Config.maxBlock)
    (hb : s.inBytes inStart n = u.inBytes inStart n) (he : s.enc.ok) (he' : u.enc.ok)
    (hs : outPos + 65543 ≤ s.outCap) (hc : outPos + 65543 ≤ u.outCap) :
    ∃ es mode t v, (s.histogram inStart n).emitPayload inStart n outPos = .ok (es, mode) t ∧
      (u.histogram inStart n).emitPayload inStart n outPos = .ok (es, mode) v ∧
      t.SameOut v (outPos + 7) (outPos + 7 + es) := by
  have hsym := State.histogram_sym_congr hb
  unfold State.emitPayload
  rw [← Encoder.constantValue_congr hsym]
  cases hcv : (s.histogram inStart n).enc.constantValue with
  | some v =>
    refine ⟨1, 2, _, _, rfl, rfl, fun a h1 h2 => ?_⟩
    obtain rfl : a = outPos + Config.blockHdr := by simp only [Config.blockHdr]; omega
    rw [State.outByte_putOut, State.outByte_putOut, if_pos rfl, if_pos rfl]
  | none =>
    obtain ⟨hr, hout⟩ := State.tryHuffRle_agree (s := s.histogram inStart n) (u := u.histogram inStart n)
      (inStart := inStart) (n := n) hsym hb (State.histogram_enc_ok he _ _) (State.histogram_enc_ok he' _ _)
      (Encoder.used_ne_nil_of_constantValue hcv)
      (fun x hx => (s.histogram_mem_used inStart hn.2 _).2 (List.mem_map_of_mem hx)) hs hc
    have hs' := State.tryHuffRle_encoding (s := s.histogram inStart n) inStart n (outPos := outPos)
      (by show _ ≤ s.outCap; omega)
    have hu' := State.tryHuffRle_encoding (s := u.histogram inStart n) inStart n (outPos := outPos)
      (by show _ ≤ u.outCap; omega)
    revert hr hout hs' hu'
    rcases (s.histogram inStart n).tryHuffRle inStart n outPos with ⟨r, t⟩
    rcases (u.histogram inStart n).tryHuffRle inStart n outPos with ⟨r', v⟩
    rintro rfl hout hs' hu'
    cases r with
    | some es => exact ⟨es, 1, t, v, rfl, rfl, hout es rfl⟩
    | none =>
      have ht : t.inBytes inStart n = s.inBytes inStart n := by simp only [State.inBytes, hs'.inByte]; rfl
      have hv : v.inBytes inStart n = s.inBytes inStart n := by
        rw [hb]; simp only [State.inBytes, hu'.inByte]; rfl
      have hct : t.outCap = s.outCap := hs'.outCap
      have hcu : v.outCap = u.outCap := hu'.outCap
      have hn2 : n ≤ 65536 := hn.2
      refine ⟨n, 0, t.putOutList (outPos + 7) (s.inBytes inStart n), v.putOutList (outPos + 7) (s.inBytes inStart n),
        ?_, ?_, fun a h1 h2 => ?_⟩
      · show t.emitCopy inStart n outPos = _
        rw [State.emitCopy, if_neg (by rw [hct]; simp only [Config.blockHdr]; omega), ht]
      · show v.emitCopy inStart n outPos = _
        rw [State.emitCopy, if_neg (by rw [hcu]; simp only [Config.blockHdr]; omega), hv]
      · have hin : outPos + 7 ≤ a ∧ a < outPos + 7 + (s.inBytes inStart n).length := by
          rw [State.inBytes_length]; exact ⟨h1, h2⟩
        rw [State.outByte_putOutList, State.outByte_putOutList, dif_pos hin, dif_pos hin]

/-- The header is a function of the payload (R205). -/
theorem State.writeBlockHeader_agree (crc : CrcFn) {t v : State} {p es mode : Nat}
    (h : t.SameOut v (p + 7) (p + 7 + es)) :
    (t.writeBlockHeader crc p es mode).SameOut (v.writeBlockHeader crc p es mode) p (p + 7 + es) := by
  have hcrc : t.crcOut crc (p + Config.blockHdr) es = v.crcOut crc (p + Config.blockHdr) es := by
    rw [State.crcOut, State.crcOut, readList_congr fun j hj => h (p + 7 + j) (by omega) (by omega)]
  intro a h1 h2
  unfold State.writeBlockHeader
  rw [hcrc]
  exact State.putOutLE_agree _ fun k3 => State.putOutLE_agree _ fun k2 => State.putOutLE_agree _ fun k1 =>
    h a (by omega) h2

/-- A block is a function of its bytes where 65536 bytes of payload have room (R200, R209). -/
theorem State.blockEncode_agree (crc : CrcFn) {s u : State} {inStart n outPos : Nat} (hn : 1 ≤ n ∧ n ≤ Config.maxBlock)
    (hb : s.inBytes inStart n = u.inBytes inStart n) (he : s.enc.ok) (he' : u.enc.ok)
    (hs : outPos + 65543 ≤ s.outCap) (hc : outPos + 65543 ≤ u.outCap) :
    ∃ w mode t v, s.blockEncode crc inStart n outPos = .ok (w, mode) t ∧
      u.blockEncode crc inStart n outPos = .ok (w, mode) v ∧ w ≤ 65543 ∧ t.SameOut v outPos (outPos + w) := by
  obtain ⟨es, mode, t, v, e1, e2, hout⟩ := State.emitPayload_agree hn hb he he' hs hc
  obtain ⟨-, hes, -⟩ := State.emitPayload_ok hn e1 (by omega) he
  simp only [Config.maxBlock] at hes
  refine ⟨7 + es, mode, t.writeBlockHeader crc outPos es mode, v.writeBlockHeader crc outPos es mode, ?_, ?_, by omega, ?_⟩
  · rw [State.blockEncode, if_neg (by omega), State.blockEncodeBody, e1]; rfl
  · rw [State.blockEncode, if_neg (by omega), State.blockEncodeBody, e2]; rfl
  · rw [← Nat.add_assoc]; exact State.writeBlockHeader_agree crc hout

/-! ### The container -/

/-- The loop of `ENCODE` over the same bytes, with room for the blocks to come: both runs end ok, with the same position and
number of blocks, and with the same bytes up to that position where they began with the same (R232, R209). -/
theorem State.encodeLoop_agree (crc : CrcFn) {n : Nat} (fuel : Nat) {pos i nb : Nat} {s u : State}
    (hin : ∀ a < n, s.inByte a = u.inByte a) (he : s.enc.ok) (he' : u.enc.ok)
    (hs : pos + fuel * 65543 ≤ s.outCap) (hc : pos + fuel * 65543 ≤ u.outCap) (hout : s.SameOut u 0 pos) :
    ∃ r t v, s.encodeLoop crc n fuel pos i nb = .ok r t ∧ u.encodeLoop crc n fuel pos i nb = .ok r v ∧
      t.SameOut v 0 r.1 := by
  induction fuel generalizing pos i nb s u with
  | zero => exact ⟨_, s, u, rfl, rfl, hout⟩
  | succ fuel ih =>
    simp only [State.encodeLoop]
    by_cases hi : i < n
    · rw [if_pos hi, if_pos hi]
      have rs : pos + 65543 ≤ s.outCap := by omega
      have ru : pos + 65543 ≤ u.outCap := by omega
      have hlen : 1 ≤ min Config.maxBlock (n - i) ∧ min Config.maxBlock (n - i) ≤ Config.maxBlock := by
        simp only [Config.maxBlock]; omega
      obtain ⟨w, mode, t, v, e1, e2, hw, hblock⟩ := State.blockEncode_agree crc hlen
        (readList_congr fun j hj => hin (i + j) (by omega)) he he' rs ru
      have k1 := State.blockEncode_encoding crc s i (min Config.maxBlock (n - i)) pos
      have k2 := State.blockEncode_encoding crc u i (min Config.maxBlock (n - i)) pos
      rw [e1, Res.state_ok] at k1
      rw [e2, Res.state_ok] at k2
      rw [e1, e2, Res.bind_ok, Res.bind_ok]
      have ct := k1.outCap
      have cv := k2.outCap
      refine ih (fun a ha => ?_) (k1.enc he) (k2.enc he') (by omega) (by omega) fun a _ ha => ?_
      · rw [k1.inByte, k2.inByte]; exact hin a ha
      · by_cases hp : a < pos
        · rw [k1.outByte_below hp, k2.outByte_below hp]; exact hout a (Nat.zero_le _) hp
        · exact hblock a (by omega) ha
    · rw [if_neg hi, if_neg hi]
      exact ⟨_, s, u, rfl, rfl, hout⟩

/-- The bound of R231 in numerals. -/
theorem maxSize_eq (n : Nat) : maxSize n = 4 + (n + 65535) / 65536 * 65543 := by
  simp only [maxSize, blockCount, Config.masterHdr, Config.blockHdr, Config.maxBlock]; omega

/-- `ENCODE` over the same bytes, with room for the bound: the same outcome and the same encoded bytes (R235 (d)). -/
theorem execEncodeWith_agree (crc : CrcFn) {s u : State} (he : s.enc.ok) (he' : u.enc.ok) (hl : s.inLen = u.inLen)
    (hin : ∀ a < s.inLen, s.inByte a = u.inByte a) (hi : s.inLen ≤ Config.maxInput)
    (hs : maxSize s.inLen ≤ s.outCap) (hc : maxSize s.inLen ≤ u.outCap) :
    ∃ (pos nb : Nat) (t v : State), execEncodeWith crc s = .next (t.finishOk pos nb) ∧
      execEncodeWith crc u = .next (v.finishOk pos nb) ∧ t.SameOut v 0 pos := by
  simp only [maxSize, Config.masterHdr, Config.blockHdr, Config.maxBlock] at hs hc
  obtain ⟨⟨pos, nb⟩, t, v, e1, e2, hout⟩ := State.encodeLoop_agree crc (blockCount s.inLen) (i := 0) (nb := 0)
    (s := s.putOutLE 0 Config.masterHdr s.inLen) (u := u.putOutLE 0 Config.masterHdr s.inLen) (pos := Config.masterHdr)
    hin he he' hs hc fun a _ ha => State.putOutLE_agree _ fun k => by omega
  refine ⟨pos, nb, t, v, ?_, ?_, hout⟩
  · rw [execEncodeWith, if_neg (by omega), if_neg (by simp only [Config.masterHdr]; omega), State.encodeAll, e1]
  · rw [execEncodeWith, if_neg (by omega), if_neg (by simp only [Config.masterHdr]; omega), State.encodeAll, ← hl, e2]

/-- Settles O54: the two runs are compared block by block, each block being a function of its bytes. -/
theorem encodeIsAFunction : Obligations.EncodeIsAFunction := by
  intro crc s u t v he he' hl hin hi hs hc h h'
  obtain ⟨pos, nb, t', v', e1, e2, hout⟩ := execEncodeWith_agree crc he he' hl hin hi
    (by rw [maxSize_eq]; exact hs) (by rw [maxSize_eq]; exact hc)
  obtain rfl := Host.Outcome.next.inj (h.symm.trans e1)
  obtain rfl := Host.Outcome.next.inj (h'.symm.trans e2)
  refine ⟨rfl, fun a ha => ?_⟩
  simp only [State.finishOk_result, BitVec.toNat_ofNat] at ha
  rw [State.outByte_finishOk, State.outByte_finishOk]
  exact hout a (Nat.zero_le _) (Nat.lt_of_lt_of_le ha (Nat.mod_le _ _))

end Sys2Proof.Machine
end

section
/-! SUPPORT. What each command changes, said once: the fields it touches (`spec/10_state.md` R21, R26, R29 to R37, R61,
R294). -/

namespace Sys2Proof.Machine

/-! ### The outcome of a checked command -/

/-- What holds of a refusal and of every accepted run holds of a checked command (R82). -/
theorem State.checked_rec {motive : State → Prop} {s : State} {p : Prop} [Decidable p] {run : State → State}
    (refused : motive (s.failWith .illegal)) (accepted : p → motive (run s)) : motive (s.checked p run) := by
  by_cases hp : p
  · rw [State.checked_of s hp]; exact accepted hp
  · rw [State.checked_of_not s hp]; exact refused

/-! ### The fields a command touches -/

/-- From `s` to `t` a command has changed no field other than the ones named for it (R26, R37, R61, R294). -/
def State.Touched (s t : State) : Instr → Prop
  | .maxsize | .verify | .crc32c | .blockVerify | .brPeek8 | .brAtEnd | .tblRead => t = { s with result := t.result }
  | .brNew | .brReadBit | .brReadBits | .brAdvance | .brReadBitChk | .brReadBitsChk | .brAdvanceChk
  | .brAdvanceBytesChk => t = { s with result := t.result, br := t.br }
  | .bwNew => t = { s with result := t.result, bw := t.bw }
  | .bwWriteBits | .bwForceFlush | .symEmit => t = { s with result := t.result, bw := t.bw, output := t.output }
  | .treeEmit => t = { s with result := t.result, bw := t.bw, enc := t.enc, output := t.output }
  | .histogram | .treeBuild | .tblWrite => t = { s with result := t.result, enc := t.enc }
  | .treeRecover => t = { s with result := t.result, br := t.br, dec := t.dec }
  | .symDecode =>
    t = { s with
      result := t.result, br := t.br, pay := { t.pay with state := s.pay.state }, output := t.output }
  | .huffDecode =>
    t = { s with result := t.result, br := t.br, pay := t.pay, output := t.output, freeCount := t.freeCount }
  | .blockEncode | .encode =>
    t = { s with result := t.result, bw := t.bw, enc := t.enc, output := t.output, freeCount := t.freeCount }
  | .blockDecode | .decode =>
    t = { s with
      result := t.result, br := t.br, dec := t.dec, pay := t.pay, output := t.output, freeCount := t.freeCount }

theorem State.readCommand_touched (s : State) (n : Nat) :
    s.readCommand n = { s with result := (s.readCommand n).result, br := (s.readCommand n).br } := by
  unfold State.readCommand; rw [State.brMove_frame]; rfl

theorem State.moveCommand_touched (s : State) (n : Nat) :
    s.moveCommand n = { s with result := (s.moveCommand n).result, br := (s.moveCommand n).br } := by
  unfold State.moveCommand; rw [State.brMove_frame]; rfl

/-! `DEC_STATE` is `HUFF_DECODE`'s own: the decoding of one token leaves it (R37, R186). -/

theorem State.brMove_pay (s : State) (n : Nat) : (s.brMove n).pay = s.pay := by rw [State.brMove_frame]

theorem State.walk_pay (fuel n : Nat) (s : State) : (s.walk fuel n).state.pay = s.pay := by
  induction fuel generalizing n s with
  | zero => rfl
  | succ fuel ih =>
    simp only [State.walk]
    split
    · rfl
    · refine Res.bind_rel (R := fun s t => t.pay = s.pay) (fun h h' => h'.trans h) ?_ fun b t _ => ih _ t
      rw [State.brReadOrFail_state, State.brMove_pay]

theorem State.decodeSymbol_pay (s : State) : s.decodeSymbol.state.pay = s.pay := by
  have advance : ∀ n, (s.brAdvanceOrFail n).state.pay = s.pay := fun n => by
    rw [State.brAdvanceOrFail_state, State.brMove_pay]
  simp only [State.decodeSymbol]
  split
  · exact Res.bind_rel (R := fun s t => t.pay = s.pay) (fun h h' => h'.trans h) (advance _) fun _ t _ => rfl
  · exact Res.bind_rel (R := fun s t => t.pay = s.pay) (fun h h' => h'.trans h) (advance _) fun _ t _ => t.walk_pay _ _

theorem State.putLiteral_decState (s : State) (b : Byte) : (s.putLiteral b).state.pay.state = s.pay.state := by
  unfold State.putLiteral; split <;> rfl

theorem State.putZeros_decState (s : State) (l : Nat) : (s.putZeros l).state.pay.state = s.pay.state := by
  unfold State.putZeros; split <;> rfl

theorem State.dispatch_decState (s : State) (sym : Nat) : (s.dispatch sym).state.pay.state = s.pay.state := by
  unfold State.dispatch
  split
  · exact s.putLiteral_decState _
  · split
    · refine Res.bind_rel (R := fun s t => t.pay.state = s.pay.state) (fun h h' => h'.trans h) ?_ fun x t _ =>
        t.putZeros_decState _
      rw [State.brReadOrFail_state, State.brMove_pay]
    · exact s.putZeros_decState _

theorem State.decodeOne_decState (s : State) : s.decodeOne.state.pay.state = s.pay.state :=
  Res.bind_rel (R := fun s t => t.pay.state = s.pay.state) (fun h h' => h'.trans h) (by rw [s.decodeSymbol_pay])
    fun sym t _ => Res.bind_rel (R := fun s t => t.pay.state = s.pay.state) (fun h h' => h'.trans h)
      (t.dispatch_decState sym) fun _ u _ => rfl

/-! ### The outcomes of a command that has run -/

/-- The results are every command's to write (R21, R25). -/
theorem State.Touched.setResult {s t : State} {i : Instr} (h : s.Touched t i) (r : Result) :
    s.Touched { t with result := r } i := by
  cases i <;> exact congrArg (fun u : State => { u with result := r }) h

/-- A failure that forgets bytes of `OUT` touches no more than its command does (R266). -/
theorem State.Touched.failOver {s t : State} {i : Instr} (h : s.Touched t i)
    (hc : i ∈ [.huffDecode, .blockEncode, .encode, .blockDecode, .decode]) (k : Kind) (lo hi : Nat) :
    s.Touched (t.failOver k lo hi) i := by
  cases i with
  | huffDecode | blockEncode | encode | blockDecode | decode =>
    exact congrArg (fun u : State => { u with
      result := (t.failOver k lo hi).result
      output := (t.failOver k lo hi).output
      freeCount := (t.failOver k lo hi).freeCount }) h
  | _ => exact absurd hc (by decide)

theorem State.treeRecover_touched (s : State) : s.Touched s.treeRecover.state .treeRecover := by
  show _ = _
  rw [s.treeRecover_recovering.1]

theorem State.decodeOne_touched (s : State) (start stop : Nat) :
    s.Touched (s.setOut start stop).decodeOne.state .symDecode := by
  show _ = _
  have k := (s.setOut start stop).decodeOne_decState
  generalize e : (s.setOut start stop).decodeOne.state = t at k ⊢
  have h := e ▸ (State.decodeOne_decoding (s.setOut start stop)).frame
  change _ = s.pay.state at k
  rw [h, ← k]; rfl

theorem State.huffDecode_touched (s : State) (start stop : Nat) :
    s.Touched (s.huffDecode start stop).state .huffDecode := by
  show _ = _
  rw [(s.huffDecode_decoding start stop).frame]; rfl

theorem State.Encoding.touched {lo : Nat} {s t : State} (h : s.Encoding lo t) : s.Touched t .encode := by
  show _ = _
  rw [h.frame]

theorem State.Unpacking.touched {lo hi : Nat} {s t : State} (h : s.Unpacking lo hi t) : s.Touched t .decode := by
  show _ = _
  rw [h.frame]

/-! ### The container and block commands -/

/-- Once past the operand checks, `encode()` stores from address 0 upward (R232). -/
theorem State.encodeAll_encoding (crc : CrcFn) {s : State} (h : Config.masterHdr ≤ s.outCap) :
    s.Encoding 0 (s.encodeAll crc).state :=
  (s.putOutLE_encoding _ _ (Nat.le_refl 0) (by omega)).trans (State.encodeLoop_encoding _ _ _ _ _ _ _ _ (Nat.zero_le _))

theorem execEncode_touched {s t : State} (h : exec .encode s = .next t) : s.Touched t .encode := by
  obtain rfl := Host.Outcome.next.inj h
  split
  · rfl
  · split
    · rfl
    · have k := (State.encodeAll_encoding crc32c (s := s) (by omega)).touched
      split
      · next e => rw [e] at k; exact k.setResult _
      · next e => rw [e] at k; exact k.failOver (by decide) _ _ _

theorem execDecode_touched {s t : State} (h : exec .decode s = .next t) : s.Touched t .decode := by
  obtain rfl := Host.Outcome.next.inj h
  split
  · rfl
  · split
    · rfl
    · have k := (s.decodeLoop_unpacking (blockCount s.announced) s.announced Config.masterHdr 0 (by omega)).touched
      split
      · next e => rw [e] at k; exact k.setResult _
      · next e => rw [e] at k; exact k.failOver (by decide) _ _ _

theorem execBlockEncode_touched {s t : State} (h : exec .blockEncode s = .next t) : s.Touched t .blockEncode := by
  obtain rfl := Host.Outcome.next.inj h
  refine State.checked_rec (motive := fun t => s.Touched t .blockEncode) rfl fun _ => ?_
  split
  · rfl
  · have k : s.Touched _ .blockEncode :=
      (State.blockEncodeBody_encoding crc32c (s := s) s.arg0 s.arg1 (outPos := s.arg2) (by omega)).touched
    split
    · next e => rw [e] at k; exact k.setResult _
    · next e => rw [e] at k; exact k.failOver (by decide) _ _ _

theorem execBlockDecode_touched {s t : State} (h : exec .blockDecode s = .next t) : s.Touched t .blockDecode := by
  obtain rfl := Host.Outcome.next.inj h
  refine State.checked_rec (motive := fun t => s.Touched t .blockDecode) rfl fun ⟨_, _, room⟩ => ?_
  have k : s.Touched _ .blockDecode := (State.blockDecode_unpacking s.arg0 room).touched
  split
  · next e => rw [e] at k; exact k.setResult _
  · next e => rw [e] at k; exact k.failOver (by decide) _ _ _

/-! ### The unit commands that can fail after they have begun -/

theorem execTreeRecover_touched {s t : State} (h : exec .treeRecover s = .next t) : s.Touched t .treeRecover := by
  have k := s.treeRecover_touched
  change execTreeRecover s = _ at h
  unfold execTreeRecover at h
  split at h
  · next e => rw [e] at k; obtain rfl := Host.Outcome.next.inj h; exact k.setResult _
  · next e => rw [e] at k; obtain rfl := Host.Outcome.next.inj h; exact k.setResult _

theorem execSymDecode_touched {s t : State} (h : exec .symDecode s = .next t) : s.Touched t .symDecode := by
  obtain rfl := Host.Outcome.next.inj h
  refine State.checked_rec (motive := fun t => s.Touched t .symDecode) rfl fun _ => ?_
  have k := s.decodeOne_touched s.arg0 s.arg1
  split
  · next e => rw [e] at k; exact k.setResult _
  · next e => rw [e] at k; exact k.setResult _

theorem execHuffDecode_touched {s t : State} (h : exec .huffDecode s = .next t) : s.Touched t .huffDecode := by
  obtain rfl := Host.Outcome.next.inj h
  refine State.checked_rec (motive := fun t => s.Touched t .huffDecode) rfl fun _ => ?_
  have k := s.huffDecode_touched s.arg0 s.arg1
  split
  · next e => rw [e] at k; exact k.setResult _
  · next e => rw [e] at k; exact k.failOver (by decide) _ _ _

/-! ### Every command -/

/-- No command changes a field that is not named for it in `State.Touched`. -/
theorem exec_touched {i : Instr} {s t : State} (h : exec i s = .next t) : s.Touched t i := by
  cases i with
  | encode => exact execEncode_touched h
  | decode => exact execDecode_touched h
  | treeRecover => exact execTreeRecover_touched h
  | symDecode => exact execSymDecode_touched h
  | huffDecode => exact execHuffDecode_touched h
  | blockEncode => exact execBlockEncode_touched h
  | blockDecode => exact execBlockDecode_touched h
  | maxsize => obtain rfl := Host.Outcome.next.inj h; split <;> rfl
  | verify =>
    obtain rfl := Host.Outcome.next.inj h
    split
    · rfl
    · split <;> rfl
  | blockVerify =>
    obtain rfl := Host.Outcome.next.inj h
    refine State.checked_rec (motive := fun t => s.Touched t .blockVerify) rfl fun _ => ?_
    split <;> rfl
  | brReadBit | brReadBitChk => obtain rfl := Host.Outcome.next.inj h; exact s.readCommand_touched _
  | brAdvanceBytesChk => obtain rfl := Host.Outcome.next.inj h; exact s.moveCommand_touched _
  | brReadBits | brReadBitsChk =>
    obtain rfl := Host.Outcome.next.inj h
    exact State.checked_rec (motive := fun t => s.Touched t .brReadBits) rfl fun _ => s.readCommand_touched _
  | brAdvance | brAdvanceChk =>
    obtain rfl := Host.Outcome.next.inj h
    exact State.checked_rec (motive := fun t => s.Touched t .brAdvance) rfl fun _ => s.moveCommand_touched _
  | bwWriteBits =>
    obtain rfl := Host.Outcome.next.inj h
    refine State.checked_rec (motive := fun t => s.Touched t .bwWriteBits) rfl fun _ => ?_
    rw [State.bwWriteBits_frame]; rfl
  | symEmit =>
    obtain rfl := Host.Outcome.next.inj h
    refine State.checked_rec (motive := fun t => s.Touched t .symEmit) rfl fun _ => ?_
    rw [State.symEmit_frame]; rfl
  | treeEmit =>
    obtain rfl := Host.Outcome.next.inj h
    refine State.checked_rec (motive := fun t => s.Touched t .treeEmit) rfl fun _ => ?_
    rw [State.treeEmit_frame]; rfl
  | bwForceFlush => obtain rfl := Host.Outcome.next.inj h; rw [State.bwForceFlush_frame]; rfl
  | brPeek8 | brAtEnd | treeBuild => obtain rfl := Host.Outcome.next.inj h; rfl
  | crc32c | tblRead =>
    obtain rfl := Host.Outcome.next.inj h
    exact State.checked_rec (motive := fun t => s.Touched t .crc32c) rfl fun _ => rfl
  | brNew =>
    obtain rfl := Host.Outcome.next.inj h
    exact State.checked_rec (motive := fun t => s.Touched t .brNew) rfl fun _ => rfl
  | bwNew =>
    obtain rfl := Host.Outcome.next.inj h
    exact State.checked_rec (motive := fun t => s.Touched t .bwNew) rfl fun _ => rfl
  | histogram | tblWrite =>
    obtain rfl := Host.Outcome.next.inj h
    exact State.checked_rec (motive := fun t => s.Touched t .histogram) rfl fun _ => rfl

/-- Settles O12: every command keeps the host's side. -/
theorem commandsKeepOperandsAndInput : Obligations.CommandsKeepOperandsAndInput := by
  intro i s t h
  obtain ⟨u, e, k⟩ := exec_answers i s
  obtain rfl := Host.Outcome.next.inj (h.symm.trans e)
  exact ⟨k.ops, k.input, k.pending, k.readData⟩

/-- Settles O15: the lists name the commands that touch a unit. -/
theorem unitsChangedByOwnCommands : Obligations.UnitsChangedByOwnCommands := by
  intro i s t h
  have k := exec_touched h
  cases i <;>
    · dsimp only [State.Touched] at k
      rw [k]
      simp [readerCommands, writerCommands, encoderCommands, decoderCommands, payloadCommands, decStateCommands,
        storingCommands]

end Sys2Proof.Machine
end

section
/-! SUPPORT. Which bytes of `OUT` each command stores to, and that a failed unit stores none (`spec/20_memory.md` R61;
`spec/10_state.md` R28; R122, R134, R266). -/

namespace Sys2Proof.Machine

/-! ### The writer's stores -/

/-- From `s` to `t` the writer has stored to just the bytes its position has moved past, and nothing has happened while
`BW_FAIL` was 1 (R132 to R134). -/
structure State.Flushes (s t : State) : Prop where
  ptr : s.bw.ptr.toNat ≤ t.bw.ptr.toNat
  stores : Mem.Stores s.bw.ptr.toNat t.bw.ptr.toNat s.output t.output
  sticky : s.bw.fail = true → t.bw = s.bw ∧ t.output = s.output

theorem State.Flushes.of_eq {s t : State} (h1 : t.bw = s.bw) (h2 : t.output = s.output) : s.Flushes t :=
  ⟨by rw [h1], by rw [h2]; exact .refl _, fun _ => ⟨h1, h2⟩⟩

theorem State.Flushes.refl (s : State) : s.Flushes s := .of_eq rfl rfl

theorem State.Flushes.trans {s t u : State} (h : s.Flushes t) (h' : t.Flushes u) : s.Flushes u where
  ptr := h.ptr.trans h'.ptr
  stores := (h.stores.mono (Nat.le_refl _) h'.ptr).trans (h'.stores.mono h.ptr (Nat.le_refl _))
  sticky hf := by
    obtain ⟨e1, e2⟩ := h.sticky hf
    obtain ⟨k1, k2⟩ := h'.sticky (by rw [e1]; exact hf)
    exact ⟨k1.trans e1, k2.trans e2⟩

theorem State.bwOverflow_flushes {s : State} (hf : s.bw.fail = false) : s.Flushes s.bwOverflow :=
  ⟨Nat.le_refl _, .refl _, fun k => absurd k (by simp [hf])⟩

theorem State.bwPut_flushes {s : State} (hf : s.bw.fail = false) (h : s.bw.ptr.toNat < s.bw.stop.toNat) (b : Byte) :
    s.Flushes (s.bwPut b) := by
  have hn : (s.bw.ptr + 1#64).toNat = s.bw.ptr.toNat + 1 := by
    have := s.bw.stop.isLt
    rw [BitVec.toNat_add]; simp only [BitVec.toNat_ofNat]; omega
  refine ⟨?_, ?_, fun k => absurd k (by simp [hf])⟩ <;> simp only [State.bwPut_bw, hn]
  · omega
  · exact Mem.Stores.write _ _ (Nat.le_refl _) (by omega)

theorem State.bwFlush_flushes (k acc cnt : Nat) {s : State} (hf : s.bw.fail = false) : s.Flushes (s.bwFlush k acc cnt) := by
  induction k generalizing acc cnt s with
  | zero => exact ⟨Nat.le_refl _, .refl _, fun k => absurd k (by simp [hf])⟩
  | succ k ih =>
    unfold State.bwFlush
    split
    · exact State.bwOverflow_flushes hf
    · exact (State.bwPut_flushes hf (by omega) _).trans (ih _ _ hf)

theorem State.bwWriteBits_flushes (s : State) (x n : Nat) : s.Flushes (s.bwWriteBits x n) := by
  unfold State.bwWriteBits
  split
  · exact .refl s
  · next hf => exact State.bwFlush_flushes _ _ _ (by simpa using hf)

theorem State.bwForceFlush_flushes (s : State) : s.Flushes s.bwForceFlush := by
  unfold State.bwForceFlush
  split_ifs with h1 h2 h3
  · exact .refl s
  · exact .refl s
  · exact State.bwOverflow_flushes (by simpa using h1)
  · have k := State.bwPut_flushes (s := s) (by simpa using h1) (by omega) (s.bw.cache.setWidth 8)
    exact ⟨k.ptr, k.stores, fun hf => absurd hf h1⟩

theorem State.emitNode_flushes (fuel n : Nat) (code : BitVec 32) (bits : Nat) (s : State) :
    s.Flushes (s.emitNode fuel n code bits) := by
  induction fuel generalizing n code bits s with
  | zero => exact .refl s
  | succ fuel ih =>
    unfold State.emitNode
    dsimp only
    split
    · exact ((s.bwWriteBits_flushes _ _).trans (State.bwWriteBits_flushes _ _ _)).trans (.of_eq rfl rfl)
    · exact (s.bwWriteBits_flushes _ _).trans ((ih _ _ _ _).trans (ih _ _ _ _))

theorem State.treeEmit_flushes (s : State) : s.Flushes s.treeEmit := by
  have h0 : s.Flushes s.cleared := .of_eq rfl rfl
  rcases s.treeEmit_cases with ⟨_, h⟩ | ⟨_, h⟩ <;> rw [h]
  · exact .of_eq rfl rfl
  · exact (h0.trans (State.emitNode_flushes _ _ _ _ _)).trans (.of_eq rfl rfl)

theorem State.emitToken_flushes (s : State) (t : Token) : s.Flushes (s.emitToken t) := by
  unfold State.emitToken
  dsimp only
  split
  · exact (s.bwWriteBits_flushes _ _).trans (State.bwWriteBits_flushes _ _ _)
  · exact s.bwWriteBits_flushes _ _

theorem State.symEmit_flushes (s : State) (start n : Nat) : s.Flushes (s.symEmit start n) := by
  unfold State.symEmit
  generalize tokens (s.inBytes start n) = ts
  induction ts generalizing s with
  | nil => exact .refl s
  | cons t ts ih => exact (s.emitToken_flushes t).trans (ih _)

/-! ### The stores of every command -/

/-- From `s` to `t` a command has stored to bytes of the span only, and may then have forgotten the bytes of the span
(R266). -/
def State.Stored (s t : State) (span : Nat × Nat) : Prop :=
  ∃ m, Mem.Stores span.1 span.2 s.output m ∧ (t.output = m ∨ ∃ tag, t.output = m.forget span.1 span.2 tag)

theorem State.Stored.of_stores {s t : State} {span : Nat × Nat} (h : Mem.Stores span.1 span.2 s.output t.output) :
    s.Stored t span := ⟨_, h, .inl rfl⟩

theorem State.Stored.of_eq {s t : State} {span : Nat × Nat} (h : t.output = s.output) : s.Stored t span :=
  .of_stores (by rw [h]; exact .refl _)

/-- A failure over the span that was stored to. -/
theorem State.Stored.failOver {s t : State} {lo hi : Nat} (h : Mem.Stores lo hi s.output t.output) (k : Kind) :
    s.Stored (t.failOver k lo hi) (lo, hi) := ⟨_, h, .inr ⟨_, rfl⟩⟩

theorem State.Stored.wf {s t : State} {span : Nat × Nat} (h : s.Stored t span) (hw : s.output.wf) : t.output.wf := by
  obtain ⟨m, hm, e | ⟨tag, e⟩⟩ := h <;> rw [e]
  · exact hm.wf hw
  · exact Mem.forget_wf (hm.wf hw) _ _ _

theorem State.Stored.outByte_outside {s t : State} {span : Nat × Nat} (h : s.Stored t span) {a : Nat}
    (ha : a < span.1 ∨ span.2 ≤ a) : t.outByte a = s.outByte a := by
  obtain ⟨m, hm, e | ⟨tag, e⟩⟩ := h <;> rw [State.outByte, e]
  · exact hm.read_outside _ ha
  · rw [Mem.read_forget_outside _ _ _ ha]; exact hm.read_outside _ ha

/-- The stores of a checked command: those of its run where it is accepted, none where it is refused (R82). -/
theorem State.Stored.checked {s : State} {p : Prop} [Decidable p] {run : State → State} {span : Nat × Nat}
    (h : p → s.Stored (run s) span) : s.Stored (s.checked p run) (spanIf p span) := by
  by_cases hp : p
  · rw [State.checked_of s hp, spanIf, if_pos hp]; exact h hp
  · rw [State.checked_of_not s hp]; exact .of_eq rfl

theorem execSymDecode_stored {s t : State} (h : exec .symDecode s = .next t) :
    s.Stored t (s.writeSpan .symDecode) := by
  obtain rfl := Host.Outcome.next.inj h
  refine State.Stored.checked fun _ => ?_
  have k := (State.decodeOne_decoding (s.setOut s.arg0 s.arg1)).stores
  have e0 : (s.setOut s.arg0 s.arg1).pay.outPtr.toNat = s.arg0 := toNat_ofNat_word s.ops.arg0.isLt
  rw [e0] at k
  split
  · next e => rw [e] at k ⊢; exact .of_stores k
  · next e => rw [e] at k ⊢; exact .of_stores k

theorem execHuffDecode_stored {s t : State} (h : exec .huffDecode s = .next t) :
    s.Stored t (s.writeSpan .huffDecode) := by
  obtain rfl := Host.Outcome.next.inj h
  refine State.Stored.checked fun ⟨_, h1, h2⟩ => ?_
  have k := (State.huffDecode_unpacking (s := s) h1 s.ops.arg1.isLt).stores
  split
  · next e => rw [e] at k; exact .of_stores k
  · next e => rw [e] at k; exact .failOver k _

theorem execBlockEncode_stored {s t : State} (h : exec .blockEncode s = .next t) :
    s.Stored t (s.writeSpan .blockEncode) := by
  obtain rfl := Host.Outcome.next.inj h
  by_cases hp : s.blockEncodeOk
  · rw [State.checked_of s hp]
    split
    · exact .of_eq rfl
    · next room =>
      have hspan : s.writeSpan .blockEncode = (s.arg2, s.outCap) := if_pos ⟨hp, by omega⟩
      have k := (State.blockEncodeBody_encoding crc32c (s := s) s.arg0 s.arg1 (outPos := s.arg2) (by omega)).stores
      rw [hspan]
      split
      · next e => rw [e] at k; exact .of_stores k
      · next e => rw [e] at k; exact .failOver k _
  · rw [State.checked_of_not s hp]; exact .of_eq rfl

theorem execBlockDecode_stored {s t : State} (h : exec .blockDecode s = .next t) :
    s.Stored t (s.writeSpan .blockDecode) := by
  obtain rfl := Host.Outcome.next.inj h
  refine State.Stored.checked fun ⟨_, _, room⟩ => ?_
  have k := (State.blockDecode_unpacking s.arg0 room).stores
  split
  · next e => rw [e] at k; exact .of_stores k
  · next e => rw [e] at k; exact .failOver k _

theorem execEncode_stored {s t : State} (h : exec .encode s = .next t) : s.Stored t (s.writeSpan .encode) := by
  obtain rfl := Host.Outcome.next.inj h
  split
  · exact .of_eq rfl
  · split
    · exact .of_eq rfl
    · next size room =>
      have hspan : s.writeSpan .encode = (0, s.outCap) := if_pos ⟨by omega, by omega⟩
      have k := (State.encodeAll_encoding crc32c (s := s) (by omega)).stores
      rw [hspan]
      split
      · next e => rw [e] at k; exact .of_stores k
      · next e => rw [e] at k; exact .failOver k _

theorem execDecode_stored {s t : State} (h : exec .decode s = .next t) : s.Stored t (s.writeSpan .decode) := by
  obtain rfl := Host.Outcome.next.inj h
  split
  · exact .of_eq rfl
  · split
    · exact .of_eq rfl
    · next size room =>
      have hspan : s.writeSpan .decode = (0, s.announced) := if_pos ⟨by omega, by omega⟩
      have k := (s.decodeLoop_unpacking (blockCount s.announced) s.announced Config.masterHdr 0 (by omega)).stores
      rw [hspan]
      split
      · next e => rw [e] at k; exact .of_stores k
      · next e => rw [e] at k; exact .failOver k _

/-- Every command stores to, and forgets, bytes of its span only (R61, R266; log 10). -/
theorem exec_stored {i : Instr} {s t : State} (h : exec i s = .next t) : s.Stored t (s.writeSpan i) := by
  by_cases hs : i ∈ storingCommands
  · simp only [storingCommands, List.mem_cons, List.not_mem_nil, or_false] at hs
    obtain rfl | rfl | rfl | rfl | rfl | rfl | rfl | rfl | rfl | rfl := hs
    · obtain rfl := Host.Outcome.next.inj h
      exact .checked fun _ => .of_stores (s.bwWriteBits_flushes _ _).stores
    · obtain rfl := Host.Outcome.next.inj h
      exact .of_stores s.bwForceFlush_flushes.stores
    · obtain rfl := Host.Outcome.next.inj h
      exact .checked fun _ => .of_stores s.treeEmit_flushes.stores
    · obtain rfl := Host.Outcome.next.inj h
      exact .checked fun _ => .of_stores (s.symEmit_flushes _ _).stores
    · exact execSymDecode_stored h
    · exact execHuffDecode_stored h
    · exact execBlockEncode_stored h
    · exact execBlockDecode_stored h
    · exact execEncode_stored h
    · exact execDecode_stored h
  · obtain ⟨-, -, -, -, -, -, hout⟩ := unitsChangedByOwnCommands i s t h
    exact .of_eq (hout hs).1

/-- Settles O16: the bytes outside the span are neither stored to nor forgotten. -/
theorem storesStayInRange : Obligations.StoresStayInRange :=
  fun _ _ _ _ h ha => (exec_stored h).outByte_outside ha

/-! ### The canonical form -/

/-- Both memories are canonical (log 2, log 3). -/
def State.memoriesOk (s : State) : Prop := s.input.wf ∧ s.output.wf

theorem exec_memoriesOk {i : Instr} {s t : State} (h : exec i s = .next t) (hw : s.memoriesOk) : t.memoriesOk := by
  obtain ⟨-, hin, -, -⟩ := commandsKeepOperandsAndInput i s t h
  exact ⟨hin ▸ hw.1, (exec_stored h).wf hw.2⟩

theorem State.abandon_memoriesOk {s : State} (hw : s.memoriesOk) (v : Word) : (s.abandon v).memoriesOk := by
  unfold State.abandon
  split
  · exact ⟨hw.1, Mem.forget_wf hw.2 _ _ _⟩
  · exact hw

/-- One action of the host, or one command, keeps both memories canonical. -/
theorem State.serve_memoriesOk {s t : State} {a : HostAction} (h : s.serve exec a = .next t) (hw : s.memoriesOk) :
    t.memoriesOk := by
  cases a with
  | write r v =>
    cases r with
    | cmd =>
      simp only [State.serve, State.runCommand] at h
      split at h
      · exact exec_memoriesOk h hw
      · obtain rfl := Host.Outcome.next.inj h; exact hw
    | _ => obtain rfl := Host.Outcome.next.inj h; exact hw
  | storeIn a b => obtain rfl := Host.Outcome.next.inj h; exact ⟨Mem.write_wf hw.1 _ _, hw.2⟩
  | storeOut a b => obtain rfl := Host.Outcome.next.inj h; exact ⟨hw.1, Mem.write_wf hw.2 _ _⟩
  | abandon v => obtain rfl := Host.Outcome.next.inj h; exact State.abandon_memoriesOk hw v
  | read | loadIn | loadOut | reset => obtain rfl := Host.Outcome.next.inj h; exact hw

/-- Settles O17: a step serves one action or waits, and each operation on a memory keeps its form. -/
theorem memoriesStayCanonical : Obligations.MemoriesStayCanonical := by
  intro s t h1 h2 h
  rw [step, State.serveNext] at h
  split at h
  · obtain rfl := Host.Outcome.next.inj h; exact ⟨h1, h2⟩
  · exact State.serve_memoriesOk h ⟨h1, h2⟩

/-! ### The sticky flags -/

theorem State.Reading.of_eq {s t : State} (h1 : t.br = s.br) (h2 : t.input = s.input) : s.Reading t :=
  (State.Reading.refl s).congr rfl rfl h1 h2

/-- Every command but those that set up the reader anew only reads through it (R122, R264). -/
theorem exec_reading {i : Instr} {s t : State} (h : exec i s = .next t) (hi : i ∉ [.brNew, .blockDecode, .decode]) :
    s.Reading t := by
  have refused : s.Reading (s.failWith .illegal) := .of_eq rfl rfl
  have read : ∀ n, s.Reading (s.readCommand n) := fun n => (s.brMove_reading n).congr rfl rfl rfl rfl
  have move : ∀ n, s.Reading (s.moveCommand n) := fun n => (s.brMove_reading n).congr rfl rfl rfl rfl
  by_cases hr : i ∈ readerCommands
  · cases i with
    | brReadBit | brReadBitChk => obtain rfl := Host.Outcome.next.inj h; exact read 1
    | brReadBits | brReadBitsChk =>
      obtain rfl := Host.Outcome.next.inj h
      exact State.checked_rec (motive := s.Reading) refused fun _ => read _
    | brAdvance | brAdvanceChk =>
      obtain rfl := Host.Outcome.next.inj h
      exact State.checked_rec (motive := s.Reading) refused fun _ => move _
    | brAdvanceBytesChk => obtain rfl := Host.Outcome.next.inj h; exact move _
    | treeRecover =>
      obtain ⟨-, k, -⟩ := s.treeRecover_recovering
      change execTreeRecover s = _ at h
      unfold execTreeRecover at h
      split at h
      · next e => rw [e] at k; obtain rfl := Host.Outcome.next.inj h; exact k.congr rfl rfl rfl rfl
      · next e => rw [e] at k; obtain rfl := Host.Outcome.next.inj h; exact k.congr rfl rfl rfl rfl
    | symDecode =>
      obtain rfl := Host.Outcome.next.inj h
      refine State.checked_rec (motive := s.Reading) refused fun _ => ?_
      have k := (State.decodeOne_decoding (s.setOut s.arg0 s.arg1)).reading
      split
      · next e => rw [e] at k; exact k.congr rfl rfl rfl rfl
      · next e => rw [e] at k; exact k.congr rfl rfl rfl rfl
    | huffDecode =>
      obtain rfl := Host.Outcome.next.inj h
      refine State.checked_rec (motive := s.Reading) refused fun _ => ?_
      have k := (s.huffDecode_decoding s.arg0 s.arg1).reading
      split
      · next e => rw [e] at k; exact k.congr rfl rfl rfl rfl
      · next e => rw [e] at k; exact k.congr rfl rfl rfl rfl
    | brNew | blockDecode | decode => exact absurd (by decide) hi
    | _ => exact absurd hr (by decide)
  · obtain ⟨hbr, -⟩ := unitsChangedByOwnCommands i s t h
    obtain ⟨-, hin, -, -⟩ := commandsKeepOperandsAndInput i s t h
    exact .of_eq (hbr hr) hin

/-- Every writer's command but those that set up the writer anew only flushes through it (R132, R133). -/
theorem exec_flushes {i : Instr} {s t : State} (h : exec i s = .next t) (hw : i ∈ writerCommands)
    (hi : i ∉ [.bwNew, .blockEncode, .encode]) : s.Flushes t := by
  have refused : s.Flushes (s.failWith .illegal) := .of_eq rfl rfl
  have finish : ∀ {u : State}, s.Flushes u → ∀ r0 r1, s.Flushes (u.finishOk r0 r1) := fun k _ _ => k.trans (.of_eq rfl rfl)
  cases i with
  | bwWriteBits =>
    obtain rfl := Host.Outcome.next.inj h
    exact State.checked_rec (motive := s.Flushes) refused fun _ => finish (s.bwWriteBits_flushes _ _) _ _
  | bwForceFlush => obtain rfl := Host.Outcome.next.inj h; exact finish s.bwForceFlush_flushes _ _
  | treeEmit =>
    obtain rfl := Host.Outcome.next.inj h
    exact State.checked_rec (motive := s.Flushes) refused fun _ => finish s.treeEmit_flushes _ _
  | symEmit =>
    obtain rfl := Host.Outcome.next.inj h
    exact State.checked_rec (motive := s.Flushes) refused fun _ => finish (s.symEmit_flushes _ _) _ _
  | bwNew | blockEncode | encode => exact absurd (by decide) hi
  | _ => exact absurd hw (by decide)

/-- Settles O22: a reader that only reads, and a writer that only flushes, do nothing while their flag is set. -/
theorem stickyFlags : Obligations.StickyFlags := by
  intro i s t h
  refine ⟨fun hf hi => (exec_reading h hi).sticky hf, fun hf hi => ?_⟩
  by_cases hw : i ∈ writerCommands
  · obtain ⟨h1, h2⟩ := (exec_flushes h hw hi).sticky hf
    exact ⟨h1, fun _ => h2⟩
  · obtain ⟨-, hbw, -⟩ := unitsChangedByOwnCommands i s t h
    exact ⟨hbw hw, fun k => absurd k hw⟩

end Sys2Proof.Machine
end

section
/-! SUPPORT. What a step can do to the units, the decoder's invariant (R36, R161), the values at reset (`spec/10_state.md`
R41) and the validity flags (R36). -/

namespace Sys2Proof.Machine

/-! ### A step and the units -/

/-- All that a step can do to the units: a command runs on them, they stay as they are, or they take their reset values
(R20, R67, R285). -/
theorem step_cases {s t : State} (h : step s = .next t) :
    (∃ i, exec i { s with pending := s.pending.tail } = .next t) ∨
    (t.br = s.br ∧ t.bw = s.bw ∧ t.enc = s.enc ∧ t.dec = s.dec ∧ t.pay = s.pay) ∨
    (t.br = State.reset.br ∧ t.bw = State.reset.bw ∧ t.enc = State.reset.enc ∧ t.dec = State.reset.dec ∧
      t.pay = State.reset.pay) := by
  have kept : (s.br = s.br ∧ s.bw = s.bw ∧ s.enc = s.enc ∧ s.dec = s.dec ∧ s.pay = s.pay) := ⟨rfl, rfl, rfl, rfl, rfl⟩
  rw [step, State.serveNext] at h
  split at h
  · obtain rfl := Host.Outcome.next.inj h; exact .inr (.inl kept)
  · next a rest hp =>
    rw [hp, List.tail_cons]
    cases a with
    | write r v =>
      cases r with
      | cmd =>
        simp only [State.serve, State.runCommand] at h
        split at h
        · next i _ => exact .inl ⟨i, h⟩
        · obtain rfl := Host.Outcome.next.inj h; exact .inr (.inl kept)
      | _ => obtain rfl := Host.Outcome.next.inj h; exact .inr (.inl kept)
    | abandon v =>
      obtain rfl := Host.Outcome.next.inj h
      refine .inr (.inr ?_)
      unfold State.abandon
      split <;> exact ⟨rfl, rfl, rfl, rfl, rfl⟩
    | reset => obtain rfl := Host.Outcome.next.inj h; exact .inr (.inr ⟨rfl, rfl, rfl, rfl, rfl⟩)
    | _ => obtain rfl := Host.Outcome.next.inj h; exact .inr (.inl kept)

/-! ### The decoder's invariant -/

/-- The decoder's tables have their sizes, and while `DEC_TREE_VALID` is 1 they hold one legal tree and the lookup table
that agrees with it (R36, R161). -/
def Decoder.Sound (d : Decoder) : Prop := d.ok ∧ d.treeOk ∧ (d.treeValid = true → d.lutAgrees)

theorem Decoder.Sound.of_not_valid {d : Decoder} (h : d.ok) (hv : d.treeValid = false) : d.Sound :=
  ⟨h, fun k => absurd k (by simp [hv]), fun k => absurd k (by simp [hv])⟩

theorem Decoder.Ready.sound {d : Decoder} {t : HTree} (h : d.Ready t) : d.Sound := ⟨h.ok, h.treeOk, fun _ => h.lutAgrees⟩

/-- A recovery needs no more than tables of the right sizes: it clears the flag, and sets it over a whole tree only
(R155, R161). -/
theorem State.treeRecover_sound {s : State} (h : s.dec.ok) : s.treeRecover.state.dec.Sound := by
  cases e : s.treeRecover with
  | ok u t =>
    obtain ⟨-, tree, -, -, ready, -⟩ := State.treeRecover_ok e h
    exact ready.sound
  | fail k t =>
    obtain ⟨-, -, hok⟩ := s.treeRecover_recovering
    rw [e] at hok
    exact .of_not_valid (hok h) (State.treeRecover_fail_valid e)

/-- From `s` to `t` the decoder's invariant is kept. -/
def State.SoundKept (s t : State) : Prop := s.dec.Sound → t.dec.Sound

theorem State.SoundKept.of_eq {s t : State} (h : t.dec = s.dec) : s.SoundKept t := fun k => h ▸ k

theorem State.SoundKept.trans {s t u : State} (h : s.SoundKept t) (h' : t.SoundKept u) : s.SoundKept u := h' ∘ h

theorem State.huffDecode_dec (s : State) (start stop : Nat) : (s.huffDecode start stop).state.dec = s.dec := by
  rw [(s.huffDecode_decoding start stop).frame]; rfl

theorem State.decodePayload_soundKept (s : State) (h : BlockHeader) (q start len : Nat) :
    s.SoundKept (s.decodePayload h q start len).state := by
  unfold State.decodePayload
  split
  · unfold State.decodeCopy; split <;> exact .of_eq rfl
  · split
    · unfold State.decodeFill; split <;> exact .of_eq rfl
    · exact Res.bind_rel (R := State.SoundKept) State.SoundKept.trans
        (fun k => State.treeRecover_sound (s := s.brNew q (q + h.es)) k.1)
        fun _ t _ => .of_eq (t.huffDecode_dec _ _)

theorem State.blockDecode_soundKept (s : State) (p start len : Nat) : s.SoundKept (s.blockDecode p start len).state := by
  unfold State.blockDecode
  split
  · exact .of_eq rfl
  · exact Res.bind_rel (R := State.SoundKept) State.SoundKept.trans (s.decodePayload_soundKept _ _ _ _)
      fun _ _ _ => .of_eq rfl

theorem State.decodeLoop_soundKept (d fuel pos o : Nat) (s : State) : s.SoundKept (s.decodeLoop d fuel pos o).state := by
  induction fuel generalizing pos o s with
  | zero => exact .of_eq rfl
  | succ fuel ih =>
    unfold State.decodeLoop
    split
    · exact Res.bind_rel (R := State.SoundKept) State.SoundKept.trans (s.blockDecode_soundKept _ _ _) fun _ t _ => ih _ _ t
    · exact .of_eq rfl

/-- Every command keeps the decoder's invariant (R36, R161). -/
theorem exec_soundKept {i : Instr} {s t : State} (h : exec i s = .next t) : s.SoundKept t := by
  by_cases hd : i ∈ decoderCommands
  · simp only [decoderCommands, List.mem_cons, List.not_mem_nil, or_false] at hd
    obtain rfl | rfl | rfl := hd
    · have k : s.SoundKept s.treeRecover.state := fun k => State.treeRecover_sound k.1
      change execTreeRecover s = _ at h
      unfold execTreeRecover at h
      split at h
      · next e => rw [e] at k; obtain rfl := Host.Outcome.next.inj h; exact k
      · next e => rw [e] at k; obtain rfl := Host.Outcome.next.inj h; exact k
    · obtain rfl := Host.Outcome.next.inj h
      refine State.checked_rec (motive := s.SoundKept) (.of_eq rfl) fun _ => ?_
      have k := s.blockDecode_soundKept s.arg0 s.arg1 s.arg2
      split
      · next e => rw [e] at k; exact k
      · next e => rw [e] at k; exact k
    · obtain rfl := Host.Outcome.next.inj h
      have k := s.decodeLoop_soundKept s.announced (blockCount s.announced) Config.masterHdr 0
      split_ifs
      · exact .of_eq rfl
      · exact .of_eq rfl
      · split
        · next e => rw [e] at k; exact k
        · next e => rw [e] at k; exact k
  · obtain ⟨-, -, -, hdec, -⟩ := unitsChangedByOwnCommands i s t h
    exact .of_eq (hdec hd)

/-! ### Reset -/

theorem State.reset_symAt {i : Nat} (h : i < Config.nsym) : State.reset.enc.symAt i = ⟨0#32, 0#32, 0#6⟩ :=
  List.getD_replicate _ h

theorem State.reset_enc_ok : State.reset.enc.ok := by
  refine ⟨List.length_replicate, by simp [State.reset], by decide, fun x hx => ?_⟩
  rw [List.eq_of_mem_replicate hx]; decide

theorem State.reset_dec_ok : State.reset.dec.ok := ⟨by simp [State.reset], by simp [State.reset], by decide⟩

theorem State.reset_dec_sound : State.reset.dec.Sound := .of_not_valid State.reset_dec_ok rfl

theorem State.reset_cacheFresh : State.reset.cacheFresh := by
  decide

/-- Settles O8: the fields of the reset state are read off; `SYM` is all zero. -/
theorem resetValues : Obligations.ResetValues :=
  ⟨rfl, rfl, rfl, rfl, fun _ => State.reset_symAt, rfl, rfl, rfl, rfl, rfl, rfl, rfl, by decide⟩

/-- Settles O10: the tables have their sizes, the flags are 0 and every register is 0. -/
theorem resetMeetsInvariants : Obligations.ResetMeetsInvariants := by
  obtain ⟨hin, hout⟩ := State.reset_memories_wf
  obtain ⟨dok, dtree, dlut⟩ := State.reset_dec_sound
  exact ⟨hin, hout, by decide, State.reset_cacheFresh, by decide, State.reset_enc_ok, dok, dtree, dlut, .inl rfl⟩

/-- Settles O20: a step runs a command, leaves the decoder alone or resets it. -/
theorem decoderInvariantKept : Obligations.DecoderInvariantKept := by
  intro s t hok htree hlut h
  have hs : s.dec.Sound := ⟨hok, htree, hlut⟩
  obtain ⟨i, e⟩ | ⟨-, -, -, e, -⟩ | ⟨-, -, -, e, -⟩ := step_cases h
  · exact exec_soundKept e hs
  · rw [e]; exact hs
  · rw [e]; exact State.reset_dec_sound

/-! ### The validity flags -/

theorem execTreeRecover_valid {s t : State} (h : exec .treeRecover s = .next t) : t.dec.treeValid = !t.result.fail := by
  change execTreeRecover s = _ at h
  unfold execTreeRecover at h
  split at h
  · next u e =>
    obtain rfl := Host.Outcome.next.inj h
    rw [State.treeRecover_eq] at e
    obtain ⟨n, v, -, e⟩ := Res.bind_eq_ok.1 e
    obtain ⟨-, rfl⟩ := Res.ok.inj e
    rfl
  · next k u e =>
    have hv : u.dec.treeValid = false := State.treeRecover_fail_valid e
    obtain rfl := Host.Outcome.next.inj h
    exact hv

/-- A checked command that ends ok has met its checks (R82). -/
theorem State.checked_ok {s : State} {p : Prop} [Decidable p] {run : State → State}
    (h : (s.checked p run).result.fail = false) : p ∧ s.checked p run = run s := by
  by_cases hp : p
  · exact ⟨hp, State.checked_of s hp⟩
  · rw [State.checked_of_not s hp] at h; exact nomatch h

/-- A command with a guard that is 0 is refused (R36, R82). -/
theorem State.checked_of_not_valid {s : State} {b : Bool} {p : Prop} [Decidable p] {run : State → State} (hb : b = false)
    (hp : p → b = true) : Host.Outcome.next (ρ := Refusal) (φ := Fault) (s.checked p run) =
      .next { s with result := Result.failed .illegal } := by
  rw [State.checked_of_not s fun k => absurd (hp k) (by simp [hb])]; rfl

/-- Settles O23: the encoder's flags are read off the runs that pass their checks, `DEC_TREE_VALID` off the two ends of a
recovery, and each guard is one of its command's checks. -/
theorem validityFlags : Obligations.ValidityFlags := by
  refine ⟨fun i s t h hf => ⟨?_, ?_, ?_⟩, fun s t => execTreeRecover_valid, fun s hv => ?_, fun s hv => ?_, fun s hv => ?_,
    fun s hv => ?_⟩
  · rintro rfl
    obtain rfl := Host.Outcome.next.inj h
    exact ⟨s.enc.treeBuild_treeValid, s.enc.treeBuild_codesValid⟩
  · rintro (rfl | rfl) <;>
    · obtain rfl := Host.Outcome.next.inj h
      obtain ⟨-, e⟩ := State.checked_ok hf
      rw [e]; exact ⟨rfl, rfl⟩
  · rintro rfl
    obtain rfl := Host.Outcome.next.inj h
    obtain ⟨⟨hv, -⟩, e⟩ := State.checked_ok hf
    rw [e, State.finishOk_enc, State.treeEmit_frame]; exact ⟨hv, rfl⟩
  · exact State.checked_of_not_valid hv And.left
  · exact State.checked_of_not_valid hv And.left
  · exact State.checked_of_not_valid hv And.left
  · exact State.checked_of_not_valid hv And.left

end Sys2Proof.Machine
end

section
/-! SUPPORT. The host's side: command codes (`spec/30_encoding.md` R81), the ten registers (`spec/10_state.md` R20, R22) and
the host's loads and stores (`spec/20_memory.md` R67). -/

namespace Sys2Proof.Machine

/-! ### Command codes -/

/-- Settles O2: the decoder is run on each word. -/
theorem decodesCommandWords : Obligations.DecodesCommandWords :=
  ⟨rfl, rfl, rfl, rfl, rfl, rfl, rfl, rfl⟩

/-- A value that names a command has that command's code in its low 8 bits (R21, R81). -/
theorem low_bits_of_decode {v : Word} {i : Instr} (h : decode v = .ok i) : v.toNat % 256 = (encode i).toNat := by
  unfold decode at h
  split at h <;> cases h <;> assumption

/-- Settles O3: a code names its command, and a named command has its code. -/
theorem codesNameCommands : Obligations.CodesNameCommands := fun v i => ⟨low_bits_of_decode, decode_of_low_bits i v⟩

/-! ### Registers -/

/-- What a register reads after another, or the same, was written (R20). -/
theorem State.readPort_writePort (s : State) (v : Word) {r : PortReg}
    (h : r ∈ [.inLen, .outCap, .arg0, .arg1, .arg2, .arg3]) (q : PortReg) :
    (s.writePort v r).readPort q = if q = r then v else s.readPort q := by
  simp only [List.mem_cons, List.not_mem_nil, or_false] at h
  obtain rfl | rfl | rfl | rfl | rfl | rfl := h <;> cases q <;> rfl

/-- A write to a read-only register changes nothing (R20). -/
theorem State.writePort_readOnly (s : State) (v : Word) {r : PortReg} (h : r ∈ [.status, .res0, .res1]) :
    s.writePort v r = s := by
  simp only [List.mem_cons, List.not_mem_nil, or_false] at h
  obtain rfl | rfl | rfl := h <;> rfl

/-! ### Actions -/

/-- A step serves the oldest action. -/
theorem step_of_pending {s : State} {a : HostAction} {rest : List HostAction} (h : s.pending = a :: rest) :
    step s = State.serve { s with pending := rest } exec a := by
  rw [step, State.serveNext, h]

theorem step_write {s : State} {v : Word} {r : PortReg} {rest : List HostAction} (hr : r ≠ .cmd)
    (h : s.pending = .write r v :: rest) : step s = .next { (s.writePort v r) with pending := rest } := by
  rw [step_of_pending h]
  cases r with
  | cmd => exact absurd rfl hr
  | _ => rfl

/-- Settles O6: a step serves the oldest action, and each action is one update of the state. -/
theorem hostAccesses : Obligations.HostAccesses := by
  refine ⟨fun s v r q hr => s.readPort_writePort v hr q, fun s v r rest => step_write, fun s v r rest hr h => ?_,
    fun s r rest h => ?_, fun s => rfl, fun s a b rest h => ?_, fun s a b rest h => ?_, fun s a rest h => ?_,
    fun s a rest h => ?_⟩
  · rw [step_write (by rintro rfl; exact absurd hr (by decide)) h, s.writePort_readOnly v hr]
  · rw [step_of_pending h]; cases r <;> rfl
  · exact ⟨_, step_of_pending h, rfl, fun x => Mem.read_write _ _ _ _ _⟩
  · exact ⟨_, step_of_pending h, rfl, fun x => Mem.read_write _ _ _ _ _⟩
  · rw [step_of_pending h]; rfl
  · rw [step_of_pending h]; rfl

/-! ### `STATUS` -/

/-- A code of `w` bits at place `p` of `STATUS` is bits `p` up to and without `p + w` of the register. -/
theorem statusCode_getLsbD {w : Nat} (c : BitVec w) {p : Nat} (i : Nat) (hp : p + w ≤ 64) :
    (c.setWidth 64 <<< p).getLsbD i = (decide (p ≤ i ∧ i < p + w) && c.getLsbD (i - p)) := by
  rw [BitVec.getLsbD_shiftLeft, BitVec.getLsbD_setWidth]
  by_cases h : p ≤ i ∧ i < p + w
  · have h1 : i < 64 := by omega
    have h2 : ¬ i < p := by omega
    have h3 : i - p < 64 := by omega
    simp [h, h1, h2, h3]
  · by_cases hi : i < p
    · simp [h, hi]
    · simp [h, BitVec.getLsbD_of_ge c (i - p) (by omega)]

/-- A one-bit field of `STATUS` is the bit at its place. -/
theorem statusBit_getLsbD {p : Nat} (i : Nat) (b : Bool) (hp : p + 1 ≤ 64) :
    (statusBit p b).getLsbD i = (decide (i = p) && b) := by
  rw [statusBit, statusCode_getLsbD _ _ hp]
  by_cases h : i = p
  · simp [h]
  · rw [decide_eq_false h, decide_eq_false (by omega)]; rfl

/-- Settles O7: each field reads at its own place, which is below bit 19. -/
theorem statusFields : Obligations.StatusFields := by
  refine ⟨rfl, rfl, fun s i => ?_⟩
  simp (disch := decide) only [State.status, BitVec.getLsbD_or, statusBit_getLsbD, statusCode_getLsbD]
  by_cases h : i < 19
  · interval_cases i <;> simp
  · have above : ∀ n < 19, i ≠ n ∧ ¬ i ≤ n ∧ ¬ i < n := fun n hn => by omega
    simp [above]

end Sys2Proof.Machine
end

section
/-! SUPPORT. Two runs of the operations of the decoder and of the encoder: what they leave depends on no more of the state
than they read (`spec/10_state.md` R40; R209). -/

namespace Sys2Proof.Machine

/-! ### What two runs have in common -/

/-- The two states hold the same operands, memories and counter of free spans: all that a composite command may depend on
(R40; log 6). -/
structure State.SameData (s u : State) : Prop where
  ops : s.ops = u.ops
  input : s.input = u.input
  output : s.output = u.output
  freeCount : s.freeCount = u.freeCount

/-- Two runs of an operation end alike: both ok with the same value or both in the same failure, in related states. -/
inductive Res.Alike {α : Type} (R : State → State → Prop) : Res α → Res α → Prop where
  | ok (a : α) {s u : State} (h : R s u) : Res.Alike R (.ok a s) (.ok a u)
  | fail (k : Kind) {s u : State} (h : R s u) : Res.Alike R (.fail k s) (.fail k u)

theorem Res.Alike.bind {α β : Type} {R : State → State → Prop} {r r' : Res α} {f g : α → State → Res β}
    (h : r.Alike R r') (hfg : ∀ a {s u}, R s u → (f a s).Alike R (g a u)) : (r.bind f).Alike R (r'.bind g) := by
  cases h with
  | ok a h => exact hfg a h
  | fail k h => exact .fail k h

theorem Res.Alike.state {α : Type} {R : State → State → Prop} {r r' : Res α} (h : r.Alike R r') : R r.state r'.state := by
  cases h with
  | ok a h => exact h
  | fail k h => exact h

section Data

variable {s u : State} (h : s.SameData u)
include h

theorem State.SameData.arg0 : s.arg0 = u.arg0 := by rw [State.arg0, h.ops]; rfl
theorem State.SameData.arg1 : s.arg1 = u.arg1 := by rw [State.arg1, h.ops]; rfl
theorem State.SameData.arg2 : s.arg2 = u.arg2 := by rw [State.arg2, h.ops]; rfl
theorem State.SameData.inLen : s.inLen = u.inLen := by rw [State.inLen, h.ops]; rfl
theorem State.SameData.outCap : s.outCap = u.outCap := by rw [State.outCap, h.ops]; rfl
theorem State.SameData.inByte : s.inByte = u.inByte := funext fun a => State.inByte_of_input_eq h.input a
theorem State.SameData.outByte : s.outByte = u.outByte := funext fun a => State.outByte_of_output_eq h.output a
theorem State.SameData.announced : s.announced = u.announced := by rw [State.announced, h.inByte]; rfl

theorem State.SameData.inBytes (start n : Nat) : s.inBytes start n = u.inBytes start n := by
  rw [State.inBytes, h.inByte]; rfl

theorem State.SameData.readBlockHeader (p : Nat) : s.readBlockHeader p = u.readBlockHeader p := by
  simp only [State.readBlockHeader, h.inByte, h.inLen]

theorem State.SameData.putOut (a : Nat) (b : Byte) : (s.putOut a b).SameData (u.putOut a b) :=
  ⟨h.ops, h.input, congrArg (Mem.write · a b) h.output, h.freeCount⟩

theorem State.SameData.putOutList (a : Nat) (bs : List Byte) : (s.putOutList a bs).SameData (u.putOutList a bs) :=
  ⟨h.ops, h.input, congrArg (Mem.writeList · a bs) h.output, h.freeCount⟩

theorem State.SameData.putOutLE (a n v : Nat) : (s.putOutLE a n v).SameData (u.putOutLE a n v) :=
  ⟨h.ops, h.input, congrArg (Mem.writeLE · a n v) h.output, h.freeCount⟩

end Data

/-! ### The reader -/

section Reader

variable {s u : State} (hb : s.br = u.br) (hi : s.input = u.input)
include hb hi

theorem State.load4_same (p : Nat) : s.load4 p = u.load4 p := State.load4_congr (by rw [hb]) hi p

theorem State.seek_br_same (q : Nat) : (s.seek q).br = (u.seek q).br := by
  simp only [State.seek, hb, State.load4_same hb hi]

theorem State.brMove_br_same (n : Nat) : (s.brMove n).br = (u.brMove n).br := by
  unfold State.brMove
  rw [hb]
  split_ifs
  · exact hb
  · rfl
  · exact State.seek_br_same hb hi _

theorem State.brValue_same (n : Nat) : s.brValue n = u.brValue n := by
  unfold State.brValue
  rw [hb, State.field_congr (by rw [hb]) hi]

end Reader

/-- A reader set up anew does not depend on the one before (R111). -/
theorem State.brNew_br_same {s u : State} (hi : s.input = u.input) (start stop : Nat) :
    (s.brNew start stop).br = (u.brNew start stop).br := by
  have hc : (s.brNew start stop).br.cache = (u.brNew start stop).br.cache :=
    State.load4_congr (s := { u with br := { u.br with stop := BitVec.ofNat 64 stop, fail := false } })
      (t := { s with br := { s.br with stop := BitVec.ofNat 64 stop, fail := false } }) rfl hi _
  exact congrArg (fun c => (⟨_, _, _, c, _⟩ : Reader)) hc

/-- A move leaves the data as it is. -/
theorem State.SameData.brMove {s u : State} (h : s.SameData u) (n : Nat) : (s.brMove n).SameData (u.brMove n) := by
  rw [State.brMove_frame, State.brMove_frame u]; exact ⟨h.ops, h.input, h.output, h.freeCount⟩

/-! ### The payload decoder -/

/-- On the nodes of `P`, which the walks below the root stay in, and on the lookup table the two decoders are the same
(R161, R185). -/
structure Decoder.AgreeOn (P : Nat → Prop) (d d' : Decoder) : Prop where
  root : P 0
  node : ∀ n, P n → d.nodeAt n = d'.nodeAt n
  inner : ∀ n, P n → isLeafSymbol (d.nodeAt n).symbol = false →
    P (d.nodeAt n).childA.toNat ∧ P (d.nodeAt n).childB.toNat
  lut : ∀ i < Config.lutSize, d.lutAt i = d'.lutAt i
  jump : ∀ i < Config.lutSize, (d.lutAt i).node ≠ Config.none16 → P (d.lutAt i).node.toNat

theorem Decoder.AgreeOn.refl (d : Decoder) : d.AgreeOn (fun _ => True) d :=
  ⟨trivial, fun _ _ => rfl, fun _ _ _ => ⟨trivial, trivial⟩, fun _ _ => rfl, fun _ _ _ => trivial⟩

/-- Two runs of the payload decoder: the same data, reader and registers, and decoders that agree on the nodes of `P`. -/
structure State.SameDecoding (P : Nat → Prop) (s u : State) : Prop where
  data : s.SameData u
  br : s.br = u.br
  pay : s.pay = u.pay
  dec : s.dec.AgreeOn P u.dec

section Decoding

variable {P : Nat → Prop} {s u : State} (h : s.SameDecoding P u)
include h

theorem State.SameDecoding.brMove (n : Nat) : (s.brMove n).SameDecoding P (u.brMove n) := by
  have hd : ∀ w : State, (w.brMove n).dec = w.dec := fun w => by rw [State.brMove_frame]
  refine ⟨h.data.brMove n, State.brMove_br_same h.br h.data.input n, ?_, ?_⟩
  · rw [State.brMove_pay, State.brMove_pay]; exact h.pay
  · rw [hd, hd]; exact h.dec

theorem State.SameDecoding.brReadOrFail (n : Nat) : (s.brReadOrFail n).Alike (State.SameDecoding P) (u.brReadOrFail n) := by
  unfold State.brReadOrFail
  rw [State.brMove_br_same h.br h.data.input, State.brValue_same h.br h.data.input]
  split
  · exact .fail _ (h.brMove n)
  · exact .ok _ (h.brMove n)

theorem State.SameDecoding.brAdvanceOrFail (n : Nat) :
    (s.brAdvanceOrFail n).Alike (State.SameDecoding P) (u.brAdvanceOrFail n) := by
  unfold State.brAdvanceOrFail
  rw [State.brMove_br_same h.br h.data.input]
  split
  · exact .fail _ (h.brMove n)
  · exact .ok _ (h.brMove n)

theorem State.SameDecoding.setDecState (d : DecState) : (s.setDecState d).SameDecoding P (u.setDecState d) :=
  ⟨⟨h.data.ops, h.data.input, h.data.output, h.data.freeCount⟩, h.br, by
    rw [State.setDecState_pay, State.setDecState_pay, h.pay], h.dec⟩

theorem State.SameDecoding.putLiteral (b : Byte) : (s.putLiteral b).Alike (State.SameDecoding P) (u.putLiteral b) := by
  unfold State.putLiteral
  rw [h.pay]
  split
  · exact .fail _ h
  · have k := h.data.putOut u.pay.outPtr.toNat b
    exact .ok _ ⟨⟨k.ops, k.input, k.output, k.freeCount⟩, h.br, rfl, h.dec⟩

theorem State.SameDecoding.putZeros (l : Nat) : (s.putZeros l).Alike (State.SameDecoding P) (u.putZeros l) := by
  unfold State.putZeros
  rw [h.pay]
  split
  · exact .fail _ h
  · have k := h.data.putOutList u.pay.outPtr.toNat (List.replicate l 0#8)
    exact .ok _ ⟨⟨k.ops, k.input, k.output, k.freeCount⟩, h.br, rfl, h.dec⟩

theorem State.SameDecoding.dispatch (sym : Nat) : (s.dispatch sym).Alike (State.SameDecoding P) (u.dispatch sym) := by
  unfold State.dispatch
  split_ifs
  · exact h.putLiteral _
  · exact (h.brReadOrFail _).bind fun x _ _ k => k.putZeros _
  · exact h.putZeros _

theorem State.SameDecoding.leaveFast : s.leaveFast.SameDecoding P u.leaveFast := by
  unfold State.leaveFast
  rw [h.pay, h.br]
  split
  · exact h.setDecState _
  · exact h

end Decoding

theorem State.SameDecoding.walk {P : Nat → Prop} (fuel : Nat) {n : Nat} {s u : State} (h : s.SameDecoding P u) (hn : P n) :
    (s.walk fuel n).Alike (State.SameDecoding P) (u.walk fuel n) := by
  induction fuel generalizing n s u with
  | zero => exact .fail _ h
  | succ fuel ih =>
    simp only [State.walk, ← h.dec.node n hn]
    split
    · exact .ok _ h
    · next hl =>
      obtain ⟨ha, hb⟩ := h.dec.inner n hn (by simpa using hl)
      refine (h.brReadOrFail 1).bind fun b _ _ k => ih k ?_
      split
      · exact hb
      · exact ha

theorem State.SameDecoding.decodeSymbol {P : Nat → Prop} {s u : State} (h : s.SameDecoding P u) :
    s.decodeSymbol.Alike (State.SameDecoding P) u.decodeSymbol := by
  have hk := u.br.peek8_lt
  unfold State.decodeSymbol
  rw [h.br, ← h.dec.lut _ hk]
  dsimp only
  split
  · exact (h.brAdvanceOrFail _).bind fun _ _ _ k => .ok _ k
  · next hj =>
    refine (h.brAdvanceOrFail _).bind fun _ _ _ k => ?_
    rw [k.br]
    exact k.walk _ (h.dec.jump _ hk hj)

theorem State.SameDecoding.decodeOne {P : Nat → Prop} {s u : State} (h : s.SameDecoding P u) :
    s.decodeOne.Alike (State.SameDecoding P) u.decodeOne :=
  h.decodeSymbol.bind fun sym _ _ k => (k.dispatch sym).bind fun _ _ _ k => .ok _ k

theorem State.SameDecoding.huffLoop {P : Nat → Prop} (fuel : Nat) {s u : State} (h : s.SameDecoding P u) :
    (s.huffLoop fuel).Alike (State.SameDecoding P) (u.huffLoop fuel) := by
  induction fuel generalizing s u with
  | zero => exact .ok _ h
  | succ fuel ih =>
    unfold State.huffLoop
    rw [h.pay]
    split
    · exact h.leaveFast.decodeOne.bind fun _ _ _ k => ih k
    · exact .ok _ h

theorem State.startState_same {s u : State} (hn : s.dec.nodeAt 0 = u.dec.nodeAt 0) (hb : s.br = u.br) :
    s.startState = u.startState := by
  unfold State.startState; rw [hn, hb]

/-- `huff_decode` sets its own registers, so they may differ before it (R187). -/
theorem State.huffDecode_alike {P : Nat → Prop} {s u : State} (h : s.SameData u) (hb : s.br = u.br)
    (hd : s.dec.AgreeOn P u.dec) (start stop : Nat) :
    (s.huffDecode start stop).Alike State.SameData (u.huffDecode start stop) := by
  have k : ∀ st, (((s.setOut start stop).setDecState st).huffLoop (stop - start)).Alike (State.SameDecoding P)
      (((u.setOut start stop).setDecState st).huffLoop (stop - start)) := fun st =>
    State.SameDecoding.huffLoop _ ⟨⟨h.ops, h.input, h.output, h.freeCount⟩, hb, rfl, hd⟩
  have e : (s.setOut start stop).startState = (u.setOut start stop).startState :=
    State.startState_same (hd.node 0 hd.root) hb
  simp only [State.huffDecode, e]
  have k := k (u.setOut start stop).startState
  generalize ((s.setOut start stop).setDecState _).huffLoop (stop - start) = r,
    ((u.setOut start stop).setDecState _).huffLoop (stop - start) = r' at k ⊢
  cases k with
  | ok _ k => exact .ok _ (k.setDecState .completed).data
  | fail _ k => exact .fail _ (k.setDecState .error).data

/-! ### Tree recovery -/

/-- Two runs of tree recovery: the same data and reader, and as many nodes allocated; the tables may differ. -/
structure State.SameRecovering (s u : State) : Prop where
  data : s.SameData u
  br : s.br = u.br
  count : s.dec.count = u.dec.count

section Recovering

variable {s u : State} (h : s.SameRecovering u)
include h

theorem State.SameRecovering.withDec {f g : Decoder → Decoder} (hc : (f s.dec).count = (g u.dec).count) :
    (s.withDec f).SameRecovering (u.withDec g) :=
  ⟨⟨h.data.ops, h.data.input, h.data.output, h.data.freeCount⟩, h.br, hc⟩

theorem State.SameRecovering.brReadOrFail (n : Nat) :
    (s.brReadOrFail n).Alike State.SameRecovering (u.brReadOrFail n) := by
  have k : (s.brMove n).SameRecovering (u.brMove n) := by
    have hd : ∀ w : State, (w.brMove n).dec = w.dec := fun w => by rw [State.brMove_frame]
    exact ⟨h.data.brMove n, State.brMove_br_same h.br h.data.input n, by rw [hd, hd]; exact h.count⟩
  unfold State.brReadOrFail
  rw [k.br, State.brValue_same h.br h.data.input]
  split
  · exact .fail _ k
  · exact .ok _ k

end Recovering

theorem State.SameRecovering.recoverNode (fuel code bits : Nat) {s u : State} (h : s.SameRecovering u) :
    (s.recoverNode fuel code bits).Alike State.SameRecovering (u.recoverNode fuel code bits) := by
  induction fuel generalizing code bits s u with
  | zero => exact .fail _ h
  | succ fuel ih =>
    unfold State.recoverNode
    rw [h.count]
    split
    · exact .fail _ h
    · have h0 : (s.withDec Decoder.alloc).SameRecovering (u.withDec Decoder.alloc) :=
        h.withDec (congrArg (· + 1#10) h.count)
      refine (h0.brReadOrFail 1).bind fun flag _ _ h1 => ?_
      split
      · refine (h1.brReadOrFail _).bind fun sym _ _ h2 => ?_
        split
        · exact .fail _ h2
        · exact .ok _ (h2.withDec (by simpa using h2.count))
      · refine (ih _ _ (h1.withDec (by simpa using h1.count))).bind fun a _ _ h2 => ?_
        refine (ih _ _ (h2.withDec (by simpa using h2.count))).bind fun b _ _ h3 => ?_
        exact .ok _ (h3.withDec (by simpa using h3.count))

/-- Two decoders that hold the same tree and its table agree on the nodes of that tree (R161). -/
theorem Decoder.nodeAt_eq_of_holds {d d' : Decoder} {t : HTree} {n : Nat} (h : d.holds t n) (h' : d'.holds t n) {i : Nat}
    (h1 : n ≤ i) (h2 : i < n + t.nodes) : d.nodeAt i = d'.nodeAt i := by
  induction t generalizing n with
  | leaf x =>
    obtain rfl : i = n := by simp only [HTree.nodes] at h2; omega
    exact h.trans h'.symm
  | node a b iha ihb =>
    obtain ⟨e, ha, hb⟩ := h
    obtain ⟨e', ha', hb'⟩ := h'
    simp only [HTree.nodes] at h2
    rcases Nat.lt_trichotomy i (n + 1 + a.nodes) with k | k | k
    · by_cases hi : i = n
      · rw [hi]; exact e.trans e'.symm
      · exact iha ha ha' (by omega) k
    · exact ihb hb hb' (by omega) (by omega)
    · exact ihb hb hb' (by omega) (by omega)

/-- A node of a sound tree that is no leaf has its children in the tree (R161 (a)). -/
theorem Decoder.children_lt {d : Decoder} (h : d.nodesOk) {n : Nat} (hn : n < d.count.toNat)
    (hl : isLeafSymbol (d.nodeAt n).symbol = false) :
    (d.nodeAt n).childA.toNat < d.count.toNat ∧ (d.nodeAt n).childB.toNat < d.count.toNat := by
  rcases h.2 n hn with ⟨hx, -, -⟩ | ⟨-, ha, hab, hb⟩
  · have := isLeafSymbol_ofNat hx
    rw [BitVec.ofNat_toNat, BitVec.setWidth_eq, hl] at this
    exact nomatch this
  · omega

theorem Decoder.Ready.agreeOn {d d' : Decoder} {t : HTree} (h : d.Ready t) (h' : d'.Ready t) :
    d.AgreeOn (· < d.count.toNat) d' := by
  obtain ⟨-, hnodes, hlut⟩ := h.treeOk h.valid
  refine ⟨hnodes.1, fun n hn => ?_, fun n hn hl => Decoder.children_lt hnodes hn hl, fun i hi => ?_, fun i hi hj => ?_⟩
  · exact Decoder.nodeAt_eq_of_holds h.holds h'.holds (Nat.zero_le n) (by rw [Nat.zero_add, ← h.count]; exact hn)
  · rw [h.lut i hi, h'.lut i hi]
  · rcases hlut i hi with ⟨k, -⟩ | ⟨k, -⟩
    · exact absurd k hj
    · exact k

/-- `tree_recover` ends alike in both runs, whatever the tables held before (R155). -/
theorem State.treeRecover_alike {s u : State} (h : s.SameData u) (hb : s.br = u.br) :
    s.treeRecover.Alike State.SameRecovering u.treeRecover := by
  have h0 : s.recoverStart.SameRecovering u.recoverStart := ⟨⟨h.ops, h.input, h.output, h.freeCount⟩, hb, rfl⟩
  rw [State.treeRecover_eq, State.treeRecover_eq]
  exact (h0.recoverNode _ 0 0).bind fun _ _ _ k => .ok _ (k.withDec k.count)

/-- Where `tree_recover` succeeds in both runs, they have read the same description, and hold its tree and its table
(R155, R161). -/
theorem State.treeRecover_agreeOn {s u t v : State} (h : s.SameData u) (hb : s.br = u.br) (hs : s.dec.ok) (hu : u.dec.ok)
    (e : s.treeRecover = .ok () t) (e' : u.treeRecover = .ok () v) : ∃ P, t.dec.AgreeOn P v.dec := by
  obtain ⟨hf, tree, legal, bits, ready, -⟩ := State.treeRecover_ok e hs
  rw [hb] at hf bits
  obtain ⟨d, e2, ready'⟩ := State.treeRecover_of_hasBits
    ((State.hasBits_congr (by rw [hb]) h.input _ _).1 bits) hf legal hu
  obtain ⟨-, rfl⟩ := Res.ok.inj (e'.symm.trans e2)
  exact ⟨_, ready.agreeOn ready'⟩

/-! ### The block decoder and `DECODE` -/

section Blocks

variable {s u : State} (h : s.SameData u)
include h

theorem State.SameData.decodeCopy (q es start len : Nat) :
    (s.decodeCopy q es start len).Alike State.SameData (u.decodeCopy q es start len) := by
  unfold State.decodeCopy
  rw [h.inBytes]
  split
  · exact .fail _ h
  · exact .ok _ (h.putOutList _ _)

theorem State.SameData.decodeFill (q es start len : Nat) :
    (s.decodeFill q es start len).Alike State.SameData (u.decodeFill q es start len) := by
  unfold State.decodeFill
  rw [h.inByte]
  split
  · exact .fail _ h
  · exact .ok _ (h.putOutList _ _)

theorem State.SameData.decodeHuffRle (hs : s.dec.ok) (hu : u.dec.ok) (q es start len : Nat) :
    (s.decodeHuffRle q es start len).Alike State.SameData (u.decodeHuffRle q es start len) := by
  have h0 : (s.brNew q (q + es)).SameData (u.brNew q (q + es)) := ⟨h.ops, h.input, h.output, h.freeCount⟩
  have hb := State.brNew_br_same h.input q (q + es)
  have k := State.treeRecover_alike h0 hb
  have agree := fun t v => State.treeRecover_agreeOn (t := t) (v := v) h0 hb hs hu
  unfold State.decodeHuffRle
  generalize (s.brNew q (q + es)).treeRecover = r, (u.brNew q (q + es)).treeRecover = r' at k agree ⊢
  cases k with
  | fail _ k => exact .fail _ k.data
  | ok _ k =>
    obtain ⟨P, hd⟩ := agree _ _ rfl rfl
    exact State.huffDecode_alike k.data k.br hd _ _

theorem State.SameData.decodePayload (hs : s.dec.ok) (hu : u.dec.ok) (b : BlockHeader) (q start len : Nat) :
    (s.decodePayload b q start len).Alike State.SameData (u.decodePayload b q start len) := by
  unfold State.decodePayload
  split_ifs
  · exact h.decodeCopy _ _ _ _
  · exact h.decodeFill _ _ _ _
  · exact h.decodeHuffRle hs hu _ _ _ _

theorem State.SameData.blockDecode (hs : s.dec.ok) (hu : u.dec.ok) (p start len : Nat) :
    (s.blockDecode p start len).Alike State.SameData (u.blockDecode p start len) := by
  unfold State.blockDecode
  rw [h.readBlockHeader]
  split
  · exact .fail _ h
  · exact (h.decodePayload hs hu _ _ _ _).bind fun _ _ _ k => .ok _ k

end Blocks

theorem State.SameData.decodeLoop (fuel d pos o : Nat) {s u : State} (h : s.SameData u) (hs : s.dec.ok) (hu : u.dec.ok)
    (hd : d ≤ u.outCap) : (s.decodeLoop d fuel pos o).Alike State.SameData (u.decodeLoop d fuel pos o) := by
  induction fuel generalizing pos o s u with
  | zero => exact .ok _ h
  | succ fuel ih =>
    have hc := h.outCap
    unfold State.decodeLoop
    split
    · have k := h.blockDecode hs hu pos o (min Config.maxBlock (d - o))
      have k1 := s.blockDecode_unpacking pos (start := o) (len := min Config.maxBlock (d - o)) (by omega)
      have k2 := u.blockDecode_unpacking pos (start := o) (len := min Config.maxBlock (d - o)) (by omega)
      generalize s.blockDecode pos o _ = r, u.blockDecode pos o _ = r' at k k1 k2 ⊢
      cases k with
      | fail _ k => exact .fail _ k
      | ok _ k => exact ih _ _ k (k1.dec hs) (k2.dec hu) (k2.outCap.symm ▸ hd)
    · exact .ok _ h

end Sys2Proof.Machine
end

section
/-! SUPPORT. Two runs of the writer and of the encoder, and what follows: a composite command does not depend on the units
(`spec/10_state.md` R40), and what an abandoned command was writing does not depend on the queue (R285; log 10). -/

namespace Sys2Proof.Machine

/-! ### The writer -/

/-- Two runs of the writer: the same data, writer and encoder's tables. -/
structure State.SameWriting (s u : State) : Prop where
  data : s.SameData u
  bw : s.bw = u.bw
  enc : s.enc = u.enc

section Writing

variable {s u : State} (h : s.SameWriting u)
include h

theorem State.SameWriting.withEnc (f : Encoder → Encoder) :
    State.SameWriting { s with enc := f s.enc } { u with enc := f u.enc } :=
  ⟨⟨h.data.ops, h.data.input, h.data.output, h.data.freeCount⟩, h.bw, congrArg f h.enc⟩

theorem State.SameWriting.withBw (f : Writer → Writer) :
    State.SameWriting { s with bw := f s.bw } { u with bw := f u.bw } :=
  ⟨⟨h.data.ops, h.data.input, h.data.output, h.data.freeCount⟩, congrArg f h.bw, h.enc⟩

theorem State.SameWriting.bwPut (b : Byte) : (s.bwPut b).SameWriting (u.bwPut b) := by
  have k := h.data.putOut u.bw.ptr.toNat b
  unfold State.bwPut
  rw [h.bw]
  exact ⟨⟨k.ops, k.input, k.output, k.freeCount⟩, rfl, h.enc⟩

theorem State.SameWriting.bwForceFlush : s.bwForceFlush.SameWriting u.bwForceFlush := by
  unfold State.bwForceFlush
  rw [h.bw]
  split_ifs
  · exact h
  · exact h
  · exact h.withBw fun w => { w with fail := true, cache := 0#32, bitpos := 0#6 }
  · exact (h.bwPut _).withBw fun w => { w with cache := 0#32, bitpos := 0#6 }

end Writing

theorem State.SameWriting.bwFlush (k acc cnt : Nat) {s u : State} (h : s.SameWriting u) :
    (s.bwFlush k acc cnt).SameWriting (u.bwFlush k acc cnt) := by
  induction k generalizing acc cnt s u with
  | zero => exact h.withBw fun w => { w with cache := BitVec.ofNat 32 acc, bitpos := BitVec.ofNat 6 cnt }
  | succ k ih =>
    unfold State.bwFlush
    rw [h.bw]
    split
    · exact h.withBw fun w => { w with fail := true, cache := 0#32, bitpos := 0#6 }
    · exact ih _ _ (h.bwPut _)

theorem State.SameWriting.bwWriteBits {s u : State} (h : s.SameWriting u) (x n : Nat) :
    (s.bwWriteBits x n).SameWriting (u.bwWriteBits x n) := by
  unfold State.bwWriteBits
  rw [h.bw]
  split
  · exact h
  · exact h.bwFlush _ _ _

theorem State.SameWriting.emitNode (fuel n : Nat) (code : BitVec 32) (bits : Nat) {s u : State} (h : s.SameWriting u) :
    (s.emitNode fuel n code bits).SameWriting (u.emitNode fuel n code bits) := by
  induction fuel generalizing n code bits s u with
  | zero => exact h
  | succ fuel ih =>
    simp only [State.emitNode, h.enc]
    split
    · exact ((h.bwWriteBits _ _).bwWriteBits _ _).withEnc fun e => e.setCode _ _ _
    · exact ih _ _ _ (ih _ _ _ (h.bwWriteBits _ _))

theorem State.SameWriting.treeEmit {s u : State} (h : s.SameWriting u) : s.treeEmit.SameWriting u.treeEmit := by
  have h0 : s.cleared.SameWriting u.cleared := h.withEnc Encoder.clearCodes
  refine State.SameWriting.withEnc (?_ : State.SameWriting s.cleared.emitTree u.cleared.emitTree)
    fun e => { e with codesValid := true }
  unfold State.emitTree
  rw [h0.enc]
  split
  · exact h0
  · exact h0.emitNode _ _ _ _

theorem State.SameWriting.emitToken {s u : State} (h : s.SameWriting u) (t : Token) :
    (s.emitToken t).SameWriting (u.emitToken t) := by
  simp only [State.emitToken, h.enc]
  split
  · exact (h.bwWriteBits _ _).bwWriteBits _ _
  · exact h.bwWriteBits _ _

theorem State.SameWriting.symEmit {s u : State} (h : s.SameWriting u) (start n : Nat) :
    (s.symEmit start n).SameWriting (u.symEmit start n) := by
  unfold State.symEmit
  rw [h.data.inBytes]
  generalize tokens (u.inBytes start n) = ts
  induction ts generalizing s u with
  | nil => exact h
  | cons t ts ih => exact ih (h.emitToken t)

/-! ### The block encoder and `ENCODE` -/

/-- The attempt at HUFF_RLE from the state in which writer and builder are set up (R203). -/
def State.huffRun (t : State) (inStart n outPos : Nat) : Option Nat × State :=
  if t.enc.codesFit = false then (none, t)
  else if t.treeEmit.bw.fail then (none, t.treeEmit)
  else if (t.treeEmit.symEmit inStart n).bw.fail then (none, t.treeEmit.symEmit inStart n)
  else
    let v := (t.treeEmit.symEmit inStart n).bwForceFlush
    if v.bw.fail then (none, v)
    else if Config.maxBlock ≤ v.bw.ptr.toNat - (outPos + Config.blockHdr) then (none, v)
    else (some (v.bw.ptr.toNat - (outPos + Config.blockHdr)), v)

theorem State.tryHuffRle_eq (s : State) (inStart n outPos : Nat) :
    s.tryHuffRle inStart n outPos = (s.huffOpened outPos).huffRun inStart n outPos := rfl

theorem State.SameWriting.huffRun {s u : State} (h : s.SameWriting u) (inStart n outPos : Nat) :
    (s.huffRun inStart n outPos).1 = (u.huffRun inStart n outPos).1 ∧
    (s.huffRun inStart n outPos).2.SameData (u.huffRun inStart n outPos).2 := by
  have h1 := h.treeEmit
  have h2 := h1.symEmit inStart n
  have h3 := h2.bwForceFlush
  unfold State.huffRun
  rw [h.enc, h1.bw, h2.bw]
  dsimp only
  rw [h3.bw]
  split_ifs
  exacts [⟨rfl, h.data⟩, ⟨rfl, h1.data⟩, ⟨rfl, h2.data⟩, ⟨rfl, h3.data⟩, ⟨rfl, h3.data⟩, ⟨rfl, h3.data⟩]

section Blocks

variable {s u : State} (h : s.SameData u)
include h

/-- The attempt at HUFF_RLE sets up the writer and the builder's tables itself, from the counts in `SYM` (R203). -/
theorem State.SameData.huffOpened (hsym : s.enc.sym = u.enc.sym) (outPos : Nat) :
    (s.huffOpened outPos).SameWriting (u.huffOpened outPos) :=
  ⟨⟨h.ops, h.input, h.output, h.freeCount⟩, by simp only [State.huffOpened, State.bwNew_bw, h.outCap],
    Encoder.treeBuild_congr hsym⟩

theorem State.SameData.tryHuffRle (hsym : s.enc.sym = u.enc.sym) (inStart n outPos : Nat) :
    (s.tryHuffRle inStart n outPos).1 = (u.tryHuffRle inStart n outPos).1 ∧
    (s.tryHuffRle inStart n outPos).2.SameData (u.tryHuffRle inStart n outPos).2 := by
  rw [State.tryHuffRle_eq, State.tryHuffRle_eq]
  exact (h.huffOpened hsym outPos).huffRun _ _ _

theorem State.SameData.emitCopy (inStart n outPos : Nat) :
    (s.emitCopy inStart n outPos).Alike State.SameData (u.emitCopy inStart n outPos) := by
  unfold State.emitCopy
  rw [h.inBytes, h.outCap]
  split
  · exact .fail _ h
  · exact .ok _ (h.putOutList _ _)

theorem State.SameData.emitPayload (hsym : s.enc.sym = u.enc.sym) (inStart n outPos : Nat) :
    (s.emitPayload inStart n outPos).Alike State.SameData (u.emitPayload inStart n outPos) := by
  obtain ⟨he, hd⟩ := h.tryHuffRle hsym inStart n outPos
  unfold State.emitPayload
  rw [Encoder.constantValue_congr hsym]
  split
  · exact .ok _ (h.putOut _ _)
  · revert he hd
    rcases s.tryHuffRle inStart n outPos with ⟨r, t⟩
    rcases u.tryHuffRle inStart n outPos with ⟨r', v⟩
    rintro rfl hd
    cases r with
    | some es => exact .ok _ hd
    | none => exact hd.emitCopy _ _ _

theorem State.SameData.writeBlockHeader (crc : CrcFn) (outPos es mode : Nat) :
    (s.writeBlockHeader crc outPos es mode).SameData (u.writeBlockHeader crc outPos es mode) := by
  unfold State.writeBlockHeader State.crcOut
  rw [h.outByte]
  exact ((h.putOutLE _ _ _).putOutLE _ _ _).putOutLE _ _ _

theorem State.SameData.blockEncodeBody (crc : CrcFn) (inStart n outPos : Nat) :
    (s.blockEncodeBody crc inStart n outPos).Alike State.SameData (u.blockEncodeBody crc inStart n outPos) := by
  have h0 : (s.histogram inStart n).SameData (u.histogram inStart n) := ⟨h.ops, h.input, h.output, h.freeCount⟩
  exact (h0.emitPayload (State.histogram_sym_congr (h.inBytes _ _)) inStart n outPos).bind
    fun r _ _ k => .ok _ (k.writeBlockHeader crc outPos r.1 r.2)

theorem State.SameData.blockEncode (crc : CrcFn) (inStart n outPos : Nat) :
    (s.blockEncode crc inStart n outPos).Alike State.SameData (u.blockEncode crc inStart n outPos) := by
  unfold State.blockEncode
  rw [h.outCap]
  split
  · exact .fail _ h
  · exact h.blockEncodeBody _ _ _ _

end Blocks

theorem State.SameData.encodeLoop (crc : CrcFn) (fuel n pos i nb : Nat) {s u : State} (h : s.SameData u) :
    (s.encodeLoop crc n fuel pos i nb).Alike State.SameData (u.encodeLoop crc n fuel pos i nb) := by
  induction fuel generalizing pos i nb s u with
  | zero => exact .ok _ h
  | succ fuel ih =>
    unfold State.encodeLoop
    split
    · exact (h.blockEncode crc _ _ _).bind fun r _ _ k => ih _ _ _ k
    · exact .ok _ h

/-! ### The verifier -/

theorem State.SameData.blockVerify {s u : State} (h : s.SameData u) (crc : CrcFn) (p : Nat) :
    s.blockVerify crc p = u.blockVerify crc p := by
  have hc : s.crcIn crc = u.crcIn crc := by funext a n; rw [State.crcIn, h.inByte]; rfl
  rw [State.blockVerify, State.blockVerify, h.readBlockHeader, hc]

theorem State.SameData.verifyLoop {s u : State} (h : s.SameData u) (crc : CrcFn) (fuel pos rem : Nat) :
    s.verifyLoop crc fuel pos rem = u.verifyLoop crc fuel pos rem := by
  induction fuel generalizing pos rem with
  | zero => rfl
  | succ fuel ih => simp only [State.verifyLoop, h.blockVerify, ih]

/-! ### The composite commands -/

/-- Two runs of a command have the same outcome: the same results and the same `OUT` (R40). -/
def State.SameOutcome (t v : State) : Prop := t.result = v.result ∧ t.output = v.output

section Outcomes

variable {s u : State} (h : s.SameData u)
include h

theorem State.SameData.finishOk (r0 r1 : Nat) : (s.finishOk r0 r1).SameOutcome (u.finishOk r0 r1) := ⟨rfl, h.output⟩

theorem State.SameData.failWith (k : Kind) : (s.failWith k).SameOutcome (u.failWith k) := ⟨rfl, h.output⟩

/-- Equal counters of free spans forget to equal values (log 6). -/
theorem State.SameData.failOver (k : Kind) (lo hi : Nat) : (s.failOver k lo hi).SameOutcome (u.failOver k lo hi) :=
  ⟨rfl, by rw [State.failOver_output, State.failOver_output, h.output, h.freeCount]⟩

theorem State.SameData.checked {p q : Prop} [Decidable p] [Decidable q] {run run' : State → State} (hpq : p ↔ q)
    (hrun : p → (run s).SameOutcome (run' u)) : (s.checked p run).SameOutcome (u.checked q run') := by
  by_cases hp : p
  · rw [State.checked_of s hp, State.checked_of u (hpq.1 hp)]; exact hrun hp
  · rw [State.checked_of_not s hp, State.checked_of_not u (hp ∘ hpq.2)]; exact h.failWith _

theorem State.SameData.execEncode : ∃ t v, exec .encode s = .next t ∧ exec .encode u = .next v ∧ t.SameOutcome v := by
  refine ⟨_, _, rfl, rfl, ?_⟩
  have k : (s.encodeAll crc32c).Alike State.SameData (u.encodeAll crc32c) := by
    unfold State.encodeAll
    rw [h.inLen]
    exact (h.putOutLE 0 _ _).encodeLoop _ _ _ _ _ _
  rw [h.inLen, h.outCap]
  split_ifs
  · exact h.failWith _
  · exact h.failWith _
  · generalize s.encodeAll crc32c = r, u.encodeAll crc32c = r' at k ⊢
    cases k with
    | ok r k => exact k.finishOk _ _
    | fail _ k => exact k.failOver _ _ _

theorem State.SameData.execVerify : ∃ t v, exec .verify s = .next t ∧ exec .verify u = .next v ∧ t.SameOutcome v := by
  refine ⟨_, _, rfl, rfl, ?_⟩
  rw [h.inLen, h.announced, h.verifyLoop]
  split_ifs
  · exact h.failWith _
  · split
    · exact h.finishOk _ _
    · exact h.failWith _

theorem State.SameData.execDecode (hs : s.dec.ok) (hu : u.dec.ok) :
    ∃ t v, exec .decode s = .next t ∧ exec .decode u = .next v ∧ t.SameOutcome v := by
  refine ⟨_, _, rfl, rfl, ?_⟩
  rw [h.inLen, h.outCap, h.announced]
  split_ifs
  · exact h.failWith _
  · exact h.failWith _
  · have k := State.SameData.decodeLoop (blockCount u.announced) u.announced Config.masterHdr 0 h hs hu (by omega)
    generalize s.decodeLoop _ _ _ _ = r, u.decodeLoop _ _ _ _ = r' at k ⊢
    cases k with
    | ok r k => exact k.finishOk _ _
    | fail _ k => exact k.failOver _ _ _

theorem State.SameData.execBlockEncode :
    ∃ t v, exec .blockEncode s = .next t ∧ exec .blockEncode u = .next v ∧ t.SameOutcome v := by
  refine ⟨_, _, rfl, rfl, h.checked ?_ fun _ => ?_⟩
  · rw [State.blockEncodeOk, h.arg0, h.arg1, h.arg2, h.inLen, h.outCap]
  · have k := h.blockEncodeBody crc32c u.arg0 u.arg1 u.arg2
    rw [h.arg0, h.arg1, h.arg2, h.outCap]
    split
    · exact h.failWith _
    · generalize s.blockEncodeBody _ _ _ _ = r, u.blockEncodeBody _ _ _ _ = r' at k ⊢
      cases k with
      | ok r k => exact k.finishOk _ _
      | fail _ k => exact k.failOver _ _ _

theorem State.SameData.execBlockDecode (hs : s.dec.ok) (hu : u.dec.ok) :
    ∃ t v, exec .blockDecode s = .next t ∧ exec .blockDecode u = .next v ∧ t.SameOutcome v := by
  refine ⟨_, _, rfl, rfl, h.checked ?_ fun _ => ?_⟩
  · rw [State.blockDecodeOk, h.arg0, h.arg1, h.arg2, h.inLen, h.outCap]
  · have k := h.blockDecode hs hu u.arg0 u.arg1 u.arg2
    rw [h.arg0, h.arg1, h.arg2]
    generalize s.blockDecode _ _ _ = r, u.blockDecode _ _ _ = r' at k ⊢
    cases k with
    | ok r k => exact k.finishOk _ _
    | fail _ k => exact k.failOver _ _ _

theorem State.SameData.execBlockVerify :
    ∃ t v, exec .blockVerify s = .next t ∧ exec .blockVerify u = .next v ∧ t.SameOutcome v := by
  refine ⟨_, _, rfl, rfl, h.checked (by rw [h.arg0, h.inLen]) fun _ => ?_⟩
  rw [h.arg0, h.blockVerify]
  split
  · exact h.finishOk _ _
  · exact h.failWith _

end Outcomes

/-- Settles O24: two runs over the same operands, memories and counter of free spans end alike. -/
theorem compositesIgnoreUnitState : Obligations.CompositesIgnoreUnitState := by
  intro i hi s u hops hin hout hfree _ _ hs hu
  have h : s.SameData u := ⟨hops, hin, hout, hfree⟩
  simp only [compositeCommands, List.mem_cons, List.not_mem_nil, or_false] at hi
  obtain rfl | rfl | rfl | rfl | rfl | rfl := hi
  · exact h.execBlockEncode
  · exact h.execBlockDecode hs hu
  · exact h.execBlockVerify
  · exact h.execEncode
  · exact h.execVerify
  · exact h.execDecode hs hu

/-! ### A reset -/

/-- What a command writes does not depend on the actions that wait (log 1, log 10). -/
theorem State.writeSpan_pending (s : State) (rest : List HostAction) (i : Instr) :
    ({ s with pending := rest } : State).writeSpan i = s.writeSpan i := by
  have hw : State.SameWriting { s with pending := rest } s := ⟨⟨rfl, rfl, rfl, rfl⟩, rfl, rfl⟩
  have hd : State.SameDecoding (fun _ => True) (State.setOut { s with pending := rest } s.arg0 s.arg1)
      (s.setOut s.arg0 s.arg1) := ⟨⟨rfl, rfl, rfl, rfl⟩, rfl, rfl, .refl _⟩
  have span : ∀ {t v : State}, t.SameWriting v → State.flushedSpan { s with pending := rest } t = s.flushedSpan v :=
    fun k => by rw [State.flushedSpan, k.bw]; rfl
  cases i with
  | bwWriteBits => exact congrArg (spanIf _) (span (hw.bwWriteBits _ _))
  | bwForceFlush => exact span hw.bwForceFlush
  | treeEmit => exact congrArg (spanIf _) (span hw.treeEmit)
  | symEmit => exact congrArg (spanIf _) (span (hw.symEmit _ _))
  | symDecode =>
    exact congrArg (fun p : Payload => spanIf s.payloadOk (s.arg0, p.outPtr.toNat)) hd.decodeOne.state.pay
  | _ => rfl

/-- A reset that abandons a command: the engine at its reset values, and `OUT` outside the span of the command as it was
(R285; log 10). -/
theorem State.abandon_reset (s : State) (v : Word) :
    s.abandon v = { State.reset with
      input := s.input, output := (s.abandon v).output, pending := s.pending, readData := s.readData,
      freeCount := (s.abandon v).freeCount } := by
  unfold State.abandon
  split <;> rfl

theorem State.outByte_abandon (s : State) (v : Word) {a : Nat}
    (ha : ∀ i, decode v = .ok i → a < (s.writeSpan i).1 ∨ (s.writeSpan i).2 ≤ a) :
    (s.abandon v).outByte a = s.outByte a := by
  unfold State.abandon
  split
  · next i e => exact Mem.read_forget_outside _ _ _ (ha i e)
  · rfl

/-- Settles O9: a reset keeps the memories, and one that abandons a command forgets that command's span only. -/
theorem resetRestores : Obligations.ResetRestores := by
  refine ⟨fun s rest h => by rw [step_of_pending h]; rfl, fun s v rest h => ⟨_, step_of_pending h, ?_, fun a ha => ?_⟩⟩
  · exact State.abandon_reset { s with pending := rest } v
  · exact State.outByte_abandon { s with pending := rest } v fun i e => by rw [State.writeSpan_pending]; exact ha i e

end Sys2Proof.Machine
end

section
/-! SUPPORT. The command line read back from its register writes (`spec/30_encoding.md` R80, R81, R98), and the codes that
name no command (R83). -/

namespace Sys2Proof.Machine

/-! ### A command line -/

/-- The decoder is a left inverse of the encoder (R80, R81). -/
theorem decode_encode (i : Instr) : decode (encode i) = .ok i :=
  decode_of_low_bits i _ (Nat.mod_eq_of_lt (encode_lt i))

/-- The operand writes of a line are read back up to the write to `CMD` that follows them, also where the line has fewer
operands than there are registers (R98). -/
theorem readOperands_operandWrites {regs : List PortReg} {ops : List Word} (hc : .cmd ∉ regs)
    (hl : ops.length ≤ regs.length) (v : Word) (rest : List HostAction) :
    readOperands regs (operandWrites regs ops ++ .write .cmd v :: rest) = (ops, .write .cmd v :: rest) := by
  induction regs generalizing ops with
  | nil =>
    obtain rfl := List.eq_nil_of_length_eq_zero (Nat.le_zero.1 hl)
    rfl
  | cons r rs ih =>
    rw [List.mem_cons, not_or] at hc
    cases ops with
    | nil => simp [operandWrites, readOperands, hc.1]
    | cons x xs => simp [operandWrites, readOperands, ih hc.2 (Nat.le_of_succ_le_succ hl)]

theorem arity_le (i : Instr) : i.arity ≤ 3 := by cases i <;> decide

/-- Settles O5: the operand writes end at the write to `CMD`, whose value names the command, and the number of operands is
the command's. -/
theorem commandLineRoundTrip : Obligations.CommandLineRoundTrip := by
  intro i ops rest hwf
  have hl : ops.length = i.arity := eq_of_beq hwf
  have hr := readOperands_operandWrites (regs := [.arg0, .arg1, .arg2]) (ops := ops) (by decide)
    (hl.trans_le (arity_le i)) (encode i) rest
  rw [readCommandLine, AsmLine.assemble, List.append_assoc, List.singleton_append, hr]
  simp only [decode_encode, hl, if_true]

/-! ### The codes that name no command -/

/-- The seven ranges of R83. -/
abbrev Unlisted (c : Nat) : Prop := c = 0x00 ∨ (0x06 ≤ c ∧ c ≤ 0x0F) ∨ (0x1A ≤ c ∧ c ≤ 0x1F) ∨ (0x23 ≤ c ∧ c ≤ 0x2F) ∨
  (0x37 ≤ c ∧ c ≤ 0x3F) ∨ (0x43 ≤ c ∧ c ≤ 0x4F) ∨ (0x52 ≤ c ∧ c ≤ 0xFF)

theorem Unlisted.lt {c : Nat} (h : Unlisted c) : c < 256 := by unfold Unlisted at h; omega

/-- The decoder looks at the low 8 bits only (R21). -/
theorem decode_low_bits (v : Word) : decode v = decode (BitVec.ofNat 64 (v.toNat % 256)) := by
  unfold decode
  rw [BitVec.toNat_ofNat, Nat.mod_eq_of_lt (a := v.toNat % 256) (by omega), Nat.mod_mod]

/-- The decoder, run on every code, refuses just the codes of the seven ranges. -/
theorem decode_isNone_iff : ∀ c < 256, (decode (BitVec.ofNat 64 c)).toOption.isNone = true ↔ Unlisted c := by
  decide +kernel

theorem decode_of_unlisted {v : Word} (h : Unlisted (v.toNat % 256)) : ∃ e, decode v = .error e := by
  have hn := (decode_isNone_iff _ h.lt).2 h
  rw [← decode_low_bits] at hn
  cases e : decode v with
  | error k => exact ⟨k, rfl⟩
  | ok i => rw [e] at hn; exact nomatch hn

/-- A code is unlisted exactly when it is no command's (R81, R83). -/
theorem unlisted_iff (c : Nat) : Unlisted c ↔ c < 256 ∧ ∀ i : Instr, i.code.toNat ≠ c := by
  have hcode (i : Instr) : (encode i).toNat = i.code.toNat := by
    rw [encode, BitVec.toNat_setWidth, Nat.mod_eq_of_lt (i.code.isLt.trans (by decide))]
  constructor
  · refine fun h => ⟨h.lt, ?_⟩
    rintro i rfl
    have hn := (decode_isNone_iff _ h.lt).2 h
    rw [← hcode, BitVec.ofNat_toNat, BitVec.setWidth_eq, decode_encode] at hn
    exact nomatch hn
  · rintro ⟨hlt, hne⟩
    refine (decode_isNone_iff c hlt).1 ?_
    cases e : decode (BitVec.ofNat 64 c) with
    | error k => rfl
    | ok i =>
      have hl := low_bits_of_decode e
      rw [BitVec.toNat_ofNat, hcode] at hl
      exact absurd hl.symm (by have := hne i; omega)

/-- Settles O4: the decoder is run on the 256 codes, and a value it refuses fails `ILLEGAL`. -/
theorem unlistedCodesAreIllegal : Obligations.UnlistedCodesAreIllegal := by
  refine ⟨unlisted_iff, by decide +kernel, fun s v rest hp hu => ?_⟩
  obtain ⟨e, he⟩ := decode_of_unlisted hu
  exact State.serveNext_of_no_command hp he

end Sys2Proof.Machine
end

section
/-! SUPPORT. Reads and advances that fail, and tree emission and recovery as commands (`spec/40_bitreader.md` R113 to R122;
`spec/43_tree_emit_recover.md` R150 to R161). -/

namespace Sys2Proof.Machine

/-! ### Refusals -/

/-- A command whose checks are not met is refused (R82). -/
theorem next_checked_of_not {s : State} {p : Prop} [Decidable p] {run : State → State} (hp : ¬ p) :
    (Host.Outcome.next (s.checked p run) : Host.Outcome State Fault Refusal) =
      .next { s with result := Result.failed .illegal } := by
  rw [State.checked_of_not s hp]; rfl

/-! ### Reads and advances past the end -/

/-- The commands that read or advance by `n` bits, each with its count in range (R112 to R118). -/
abbrev State.movesBy (s : State) (i : Instr) (n : Nat) : Prop :=
  ((i = .brReadBit ∨ i = .brReadBitChk) ∧ n = 1) ∨
    ((i = .brReadBits ∨ i = .brReadBitsChk) ∧ n = s.arg0 ∧ 1 ≤ n ∧ n ≤ 32) ∨
    ((i = .brAdvance ∨ i = .brAdvanceChk) ∧ n = s.arg0 ∧ 1 ≤ n ∧ n ≤ 32) ∨
    (i = .brAdvanceBytesChk ∧ n = 8 * s.arg0 ∧ 1 ≤ n)

/-- A read or an advance is one checked move; its result is the value read, and 0 for an advance (R113, R114). -/
theorem exec_of_movesBy {i : Instr} {s : State} {n : Nat} (h : s.movesBy i n) :
    1 ≤ n ∧ (exec i s = .next (s.readCommand n) ∨ exec i s = .next (s.moveCommand n)) := by
  obtain ⟨hi, rfl⟩ | ⟨hi, rfl, h1, h2⟩ | ⟨hi, rfl, h1, h2⟩ | ⟨rfl, rfl, h1⟩ := h
  · exact ⟨Nat.le_refl 1, by obtain rfl | rfl := hi <;> exact .inl rfl⟩
  · have e : s.checked (bitCountOk s.arg0) (fun s => s.readCommand s.arg0) = s.readCommand s.arg0 :=
      State.checked_of s ⟨h1, h2⟩
    exact ⟨h1, by obtain rfl | rfl := hi <;> exact .inl (congrArg _ e)⟩
  · have e : s.checked (s.arg0 ≤ 32) (fun s => s.moveCommand s.arg0) = s.moveCommand s.arg0 := State.checked_of s h2
    exact ⟨h1, by obtain rfl | rfl := hi <;> exact .inr (congrArg _ e)⟩
  · exact ⟨h1, .inr rfl⟩

/-- A checked read returns 0 where its bounds test fails (R113, R122). -/
theorem State.brValue_of_no_read {s : State} {n : Nat} (h : s.br.fail = true ∨ s.br.limit < s.br.pos + n) :
    s.brValue n = 0 := by
  unfold State.brValue
  split
  · rfl
  · next hf => exact if_pos (h.resolve_left hf)

/-- Where the value read is 0 a read and an advance are the same: the move, and the result 0 (R113, R114). -/
theorem exec_of_no_read {i : Instr} {s : State} {n : Nat} (h : s.movesBy i n)
    (hno : s.br.fail = true ∨ s.br.limit < s.br.pos + n) : exec i s = .next ((s.brMove n).finishOk 0 0) := by
  obtain ⟨-, e | e⟩ := exec_of_movesBy h
  · rw [e, State.readCommand, State.brValue_of_no_read hno]
  · exact e

/-- Settles O28: a move that does not fit sets the flag, a failed reader does not move, and the counts are checked first. -/
theorem readsPastTheEnd : Obligations.ReadsPastTheEnd := by
  refine ⟨fun i s n h => ⟨fun hf hl => ?_, fun hf => ?_⟩, fun i s hi hn => ?_, fun i s hi hn => ?_⟩
  · rw [exec_of_no_read h (.inr hl), State.brMove_of_past hf (exec_of_movesBy h).1 hl]; rfl
  · rw [exec_of_no_read h (.inl hf), State.brMove, if_pos (.inl hf)]; rfl
  · obtain rfl | rfl := hi <;> exact next_checked_of_not (by omega)
  · obtain rfl | rfl := hi <;> exact next_checked_of_not (by omega)

/-! ### Tree emission and recovery -/

theorem Encoder.symbols_le_of_holds {e : Encoder} {t : HTree} {n : Nat} (h : e.holds t n) : ∀ x ∈ t.symbols, x ≤ 260 := by
  induction t generalizing n with
  | leaf y =>
    intro x hx
    obtain rfl := List.mem_singleton.1 hx
    exact h.2
  | node a b iha ihb =>
    obtain ⟨-, ha, hb⟩ := h
    intro x hx
    rcases List.mem_append.1 hx with hx | hx
    · exact iha ha x hx
    · exact ihb hb x hx

/-- A tree no deeper than 32 passes the depth check of `TREE_EMIT` (R152). -/
theorem Encoder.codesFit_of_holds {e : Encoder} {t : HTree} (h : e.holds t e.root.toNat)
    (hd : t.depth ≤ Config.maxCodeBits) : e.codesFit = true := by
  rw [Encoder.codesFit, Encoder.depthOk_of_holds h, decide_eq_true (Nat.lt_succ_of_le hd), Bool.or_true]

/-- Settles O36: the checks are met, the walk writes the description, which fits, and records the codes. -/
theorem treeEmitResult : Obligations.TreeEmitResult := by
  intro s tree he hv hr hh hn hd hok hf hfit
  obtain ⟨hw, hcodes, hothers⟩ := State.treeEmit_of_holds hh hr hd hok he.1 (Encoder.symbols_le_of_holds hh) hn
  have happ := hw.of_fits hf (by simp only [Writer.pos] at hfit; omega)
  have hchecks : s.treeEmitOk := ⟨hv, Encoder.codesFit_of_holds hh hd⟩
  refine ⟨s.treeEmit.finishOk 0 0, ?_, State.appended_congr_right happ rfl rfl, ?_, hcodes, hothers⟩
  · exact congrArg _ (State.checked_of s hchecks)
  · conv_lhs => rw [State.treeEmit_frame]
    rfl

/-- Settles O38: a description at the reader's position is recovered as its tree, with the table that belongs to it. -/
theorem treeDescriptionRoundTrip : Obligations.TreeDescriptionRoundTrip := by
  intro s tree hlegal hbits hf hd
  obtain ⟨d, e, hready⟩ := State.treeRecover_of_hasBits hbits hf hlegal hd
  refine ⟨State.finishOk { s.seek (s.br.pos + tree.describe.length) with dec := d } tree.nodes 0, ?_, rfl, hready.holds,
    hready.count, hready.valid, hready.lutAgrees⟩
  show execTreeRecover s = _
  simp only [execTreeRecover, e, hready.count]

end Sys2Proof.Machine
end

section
/-! SUPPORT. How a command can end (`spec/60_exceptions.md` R260 to R266): the kinds each operation fails with, and from them
the three ends of every command. -/

namespace Sys2Proof.Machine

/-! ### The kinds of an operation -/

/-- An operation fails with one of these kinds, if it fails (R263). -/
def Res.FailsIn {α : Type} (ks : List Kind) (r : Res α) : Prop := ∀ k t, r = .fail k t → k ∈ ks

theorem Res.failsIn_ok {α : Type} {ks : List Kind} (a : α) (s : State) : (Res.ok a s).FailsIn ks := by
  intro _ _ h
  cases h

theorem Res.failsIn_fail {α : Type} {ks : List Kind} {k : Kind} (h : k ∈ ks) (s : State) :
    (Res.fail k s : Res α).FailsIn ks := by
  rintro _ _ ⟨⟩
  exact h

theorem Res.FailsIn.bind {α β : Type} {ks : List Kind} {r : Res α} {f : α → State → Res β} (h : r.FailsIn ks)
    (hf : ∀ a t, (f a t).FailsIn ks) : (r.bind f).FailsIn ks := by
  cases r with
  | ok a t => exact hf a t
  | fail k t => exact Res.failsIn_fail (h k t rfl) t

/-! ### The decoder's operations -/

section Decoder

variable {ks : List Kind} (ht : Kind.truncated ∈ ks) (hs : Kind.structural ∈ ks) (ho : Kind.outputOverflow ∈ ks)

include ht in
theorem State.brReadOrFail_failsIn (s : State) (n : Nat) : (s.brReadOrFail n).FailsIn ks := by
  unfold State.brReadOrFail
  split
  · exact Res.failsIn_fail ht _
  · exact Res.failsIn_ok _ _

include ht in
theorem State.brAdvanceOrFail_failsIn (s : State) (n : Nat) : (s.brAdvanceOrFail n).FailsIn ks := by
  unfold State.brAdvanceOrFail
  split
  · exact Res.failsIn_fail ht _
  · exact Res.failsIn_ok _ _

include ho in
theorem State.putLiteral_failsIn (s : State) (b : Byte) : (s.putLiteral b).FailsIn ks := by
  unfold State.putLiteral
  split
  · exact Res.failsIn_fail ho _
  · exact Res.failsIn_ok _ _

include ho in
theorem State.putZeros_failsIn (s : State) (l : Nat) : (s.putZeros l).FailsIn ks := by
  unfold State.putZeros
  split
  · exact Res.failsIn_fail ho _
  · exact Res.failsIn_ok _ _

include ht ho in
theorem State.dispatch_failsIn (s : State) (sym : Nat) : (s.dispatch sym).FailsIn ks := by
  unfold State.dispatch
  split
  · exact State.putLiteral_failsIn ho _ _
  · split
    · exact (State.brReadOrFail_failsIn ht _ _).bind fun _ _ => State.putZeros_failsIn ho _ _
    · exact State.putZeros_failsIn ho _ _

include ht in
theorem State.walk_failsIn (fuel n : Nat) (s : State) : (s.walk fuel n).FailsIn ks := by
  induction fuel generalizing n s with
  | zero => exact Res.failsIn_fail ht _
  | succ fuel ih =>
    unfold State.walk
    dsimp only
    split
    · exact Res.failsIn_ok _ _
    · exact (State.brReadOrFail_failsIn ht _ _).bind fun _ _ => ih _ _

include ht in
theorem State.decodeSymbol_failsIn (s : State) : s.decodeSymbol.FailsIn ks := by
  unfold State.decodeSymbol
  dsimp only
  split
  · exact (State.brAdvanceOrFail_failsIn ht _ _).bind fun _ _ => Res.failsIn_ok _ _
  · exact (State.brAdvanceOrFail_failsIn ht _ _).bind fun _ _ => State.walk_failsIn ht _ _ _

include ht ho in
theorem State.decodeOne_failsIn (s : State) : s.decodeOne.FailsIn ks :=
  (State.decodeSymbol_failsIn ht s).bind fun _ _ => (State.dispatch_failsIn ht ho _ _).bind fun _ _ => Res.failsIn_ok _ _

include ht ho in
theorem State.huffLoop_failsIn (fuel : Nat) (s : State) : (s.huffLoop fuel).FailsIn ks := by
  induction fuel generalizing s with
  | zero => exact Res.failsIn_ok _ _
  | succ fuel ih =>
    unfold State.huffLoop
    split
    · exact (State.decodeOne_failsIn ht ho _).bind fun _ _ => ih _
    · exact Res.failsIn_ok _ _

include ht ho in
theorem State.huffDecode_failsIn (s : State) (start stop : Nat) : (s.huffDecode start stop).FailsIn ks := by
  unfold State.huffDecode
  dsimp only
  split
  · exact Res.failsIn_ok _ _
  · next e => exact Res.failsIn_fail (State.huffLoop_failsIn ht ho _ _ _ _ e) _

include ht hs in
theorem State.recoverNode_failsIn (fuel code bits : Nat) (s : State) : (s.recoverNode fuel code bits).FailsIn ks := by
  induction fuel generalizing code bits s with
  | zero => exact Res.failsIn_fail hs _
  | succ fuel ih =>
    unfold State.recoverNode
    split
    · exact Res.failsIn_fail hs _
    · refine (State.brReadOrFail_failsIn ht _ _).bind fun flag u => ?_
      split
      · refine (State.brReadOrFail_failsIn ht _ _).bind fun sym v => ?_
        split
        · exact Res.failsIn_fail hs _
        · exact Res.failsIn_ok _ _
      · exact (ih _ _ _).bind fun _ _ => (ih _ _ _).bind fun _ _ => Res.failsIn_ok _ _

include ht hs in
theorem State.treeRecover_failsIn (s : State) : s.treeRecover.FailsIn ks :=
  (State.recoverNode_failsIn ht hs _ _ _ _).bind fun _ _ => Res.failsIn_ok _ _

include ht hs in
theorem State.readBlockHeader_error {s : State} {p : Nat} {k : Kind} (h : s.readBlockHeader p = .error k) : k ∈ ks := by
  unfold State.readBlockHeader at h
  dsimp only at h
  split_ifs at h <;> cases h <;> assumption

include ht hs ho in
theorem State.decodePayload_failsIn (s : State) (h : BlockHeader) (q start len : Nat) :
    (s.decodePayload h q start len).FailsIn ks := by
  unfold State.decodePayload
  split
  · unfold State.decodeCopy
    split
    · exact Res.failsIn_fail hs _
    · exact Res.failsIn_ok _ _
  · split
    · unfold State.decodeFill
      split
      · exact Res.failsIn_fail hs _
      · exact Res.failsIn_ok _ _
    · exact (State.treeRecover_failsIn ht hs _).bind fun _ _ => State.huffDecode_failsIn ht ho _ _ _

include ht hs ho in
theorem State.blockDecode_failsIn (s : State) (p start len : Nat) : (s.blockDecode p start len).FailsIn ks := by
  unfold State.blockDecode
  split
  · next e => exact Res.failsIn_fail (State.readBlockHeader_error ht hs e) _
  · exact (State.decodePayload_failsIn ht hs ho _ _ _ _ _).bind fun _ _ => Res.failsIn_ok _ _

include ht hs ho in
theorem State.decodeLoop_failsIn (d fuel pos o : Nat) (s : State) : (s.decodeLoop d fuel pos o).FailsIn ks := by
  induction fuel generalizing pos o s with
  | zero => exact Res.failsIn_ok _ _
  | succ fuel ih =>
    unfold State.decodeLoop
    split
    · exact (State.blockDecode_failsIn ht hs ho _ _ _ _).bind fun _ _ => ih _ _ _
    · exact Res.failsIn_ok _ _

end Decoder

/-! ### The verifier -/

theorem State.blockVerify_error {s : State} {crc : CrcFn} {p : Nat} {k : Kind} (h : s.blockVerify crc p = .error k) :
    k ∈ [Kind.truncated, .structural, .integrity] := by
  unfold State.blockVerify at h
  split at h
  · next e =>
    cases h
    exact State.readBlockHeader_error (by decide) (by decide) e
  · split_ifs at h
    cases h
    decide

theorem State.verifyLoop_error {s : State} {crc : CrcFn} {fuel pos rem : Nat} {k : Kind}
    (h : s.verifyLoop crc fuel pos rem = .error k) : k ∈ [Kind.truncated, .structural, .integrity] := by
  induction fuel generalizing pos rem with
  | zero => exact nomatch h
  | succ fuel ih =>
    unfold State.verifyLoop at h
    split_ifs at h
    split at h
    · next e =>
      cases h
      exact State.blockVerify_error e
    · exact ih h

/-! ### The encoder -/

theorem State.emitPayload_failsIn (s : State) (inStart n outPos : Nat) :
    (s.emitPayload inStart n outPos).FailsIn [.encodeExhausted] := by
  unfold State.emitPayload
  split
  · exact Res.failsIn_ok _ _
  · split
    · exact Res.failsIn_ok _ _
    · unfold State.emitCopy
      split
      · exact Res.failsIn_fail (by decide) _
      · exact Res.failsIn_ok _ _

theorem State.blockEncodeBody_failsIn (s : State) (crc : CrcFn) (inStart n outPos : Nat) :
    (s.blockEncodeBody crc inStart n outPos).FailsIn [.encodeExhausted] :=
  (State.emitPayload_failsIn _ _ _ _).bind fun _ _ => Res.failsIn_ok _ _

theorem State.blockEncode_failsIn (s : State) (crc : CrcFn) (inStart n outPos : Nat) :
    (s.blockEncode crc inStart n outPos).FailsIn [.encodeExhausted] := by
  unfold State.blockEncode
  split
  · exact Res.failsIn_fail (by decide) _
  · exact s.blockEncodeBody_failsIn crc _ _ _

theorem State.encodeLoop_failsIn (crc : CrcFn) (n fuel pos i nb : Nat) (s : State) :
    (s.encodeLoop crc n fuel pos i nb).FailsIn [.encodeExhausted] := by
  induction fuel generalizing pos i nb s with
  | zero => exact Res.failsIn_ok _ _
  | succ fuel ih =>
    unfold State.encodeLoop
    split
    · exact (s.blockEncode_failsIn crc _ _ _).bind fun _ _ => ih _ _ _ _
    · exact Res.failsIn_ok _ _

/-! ### The ends of a command -/

/-- The three ends of a command whose kinds are `ks`: it ends ok, or it is refused with nothing else changed, or it fails
with another of its kinds (R82, R260, R263). -/
inductive State.Ends (s t : State) (ks : List Kind) : Prop where
  | ok (hf : t.result.fail = false) (he : t.result.err = .none)
  | refused (h : Kind.illegal ∈ ks) (e : t = s.failWith .illegal)
  | failed (k : Kind) (hk : k ∈ ks) (hne : k ≠ .illegal) (e : t.result = Result.failed k)

theorem State.Ends.of_kind {s t : State} {ks ks' : List Kind} {k : Kind} (hk : k ∈ ks')
    (hsub : ∀ k ∈ ks', k ∈ ks ∧ k ≠ .illegal) (e : t.result = Result.failed k) : s.Ends t ks :=
  .failed k (hsub k hk).1 (hsub k hk).2 e

theorem State.ends_checked {s : State} {ks : List Kind} {p : Prop} [Decidable p] {run : State → State}
    (h : Kind.illegal ∈ ks) (hrun : s.Ends (run s) ks) : s.Ends (s.checked p run) ks :=
  State.checked_rec (motive := fun t => s.Ends t ks) (.refused h rfl) fun _ => hrun

/-- How every command ends (R263). -/
theorem exec_ends {i : Instr} {s t : State} (h : exec i s = .next t) : s.Ends t (failureKinds i) := by
  cases i with
  | maxsize =>
    obtain rfl := Host.Outcome.next.inj h
    split
    · exact .failed .argument (by decide) (by decide) rfl
    · exact .ok rfl rfl
  | encode =>
    obtain rfl := Host.Outcome.next.inj h
    split
    · exact .failed .argument (by decide) (by decide) rfl
    · split
      · exact .failed .encodeExhausted (by decide) (by decide) rfl
      · split
        · exact .ok rfl rfl
        · next e => exact .of_kind (State.encodeLoop_failsIn _ _ _ _ _ _ _ _ _ e) (by decide) rfl
  | verify =>
    obtain rfl := Host.Outcome.next.inj h
    split
    · exact .failed .argument (by decide) (by decide) rfl
    · split
      · exact .ok rfl rfl
      · next e => exact .of_kind (State.verifyLoop_error e) (by decide) rfl
  | decode =>
    obtain rfl := Host.Outcome.next.inj h
    split
    · exact .failed .argument (by decide) (by decide) rfl
    · split
      · exact .failed .argument (by decide) (by decide) rfl
      · split
        · exact .ok rfl rfl
        · next e =>
          exact .of_kind (ks' := [.truncated, .structural, .outputOverflow])
            (State.decodeLoop_failsIn (by decide) (by decide) (by decide) _ _ _ _ _ _ _ e) (by decide) rfl
  | treeRecover =>
    change execTreeRecover s = _ at h
    unfold execTreeRecover at h
    split at h
    · obtain rfl := Host.Outcome.next.inj h
      exact .ok rfl rfl
    · next e =>
      obtain rfl := Host.Outcome.next.inj h
      exact .of_kind (ks' := [.truncated, .structural])
        (State.treeRecover_failsIn (by decide) (by decide) _ _ _ e) (by decide) rfl
  | symDecode =>
    obtain rfl := Host.Outcome.next.inj h
    refine State.ends_checked (by decide) ?_
    split
    · exact .ok rfl rfl
    · next e =>
      exact .of_kind (ks' := [.truncated, .outputOverflow])
        (State.decodeOne_failsIn (by decide) (by decide) _ _ _ e) (by decide) rfl
  | huffDecode =>
    obtain rfl := Host.Outcome.next.inj h
    refine State.ends_checked (by decide) ?_
    split
    · exact .ok rfl rfl
    · next e =>
      exact .of_kind (ks' := [.truncated, .outputOverflow])
        (State.huffDecode_failsIn (by decide) (by decide) _ _ _ _ _ e) (by decide) rfl
  | blockEncode =>
    obtain rfl := Host.Outcome.next.inj h
    refine State.ends_checked (by decide) ?_
    split
    · exact .failed .encodeExhausted (by decide) (by decide) rfl
    · split
      · exact .ok rfl rfl
      · next e => exact .of_kind (State.blockEncodeBody_failsIn _ _ _ _ _ _ _ e) (by decide) rfl
  | blockDecode =>
    obtain rfl := Host.Outcome.next.inj h
    refine State.ends_checked (by decide) ?_
    split
    · exact .ok rfl rfl
    · next e =>
      exact .of_kind (ks' := [.truncated, .structural, .outputOverflow])
        (State.blockDecode_failsIn (by decide) (by decide) (by decide) _ _ _ _ _ _ e) (by decide) rfl
  | blockVerify =>
    obtain rfl := Host.Outcome.next.inj h
    refine State.ends_checked (by decide) ?_
    split
    · exact .ok rfl rfl
    · next e => exact .of_kind (State.blockVerify_error e) (by decide) rfl
  | brReadBit | brPeek8 | brReadBitChk | brAdvanceBytesChk | brAtEnd | bwForceFlush | treeBuild =>
    obtain rfl := Host.Outcome.next.inj h
    exact .ok rfl rfl
  | crc32c | brNew | brReadBits | brAdvance | brReadBitsChk | brAdvanceChk | bwNew | bwWriteBits | histogram | treeEmit
  | symEmit | tblRead | tblWrite =>
    obtain rfl := Host.Outcome.next.inj h
    exact State.ends_checked (by decide) (.ok rfl rfl)

/-- Settles O14: of the ends of a command only a refusal is `ILLEGAL`. -/
theorem illegalChangesNothing : Obligations.IllegalChangesNothing := by
  intro i s t h hill
  cases exec_ends h with
  | ok hf he => rw [he] at hill; exact nomatch hill
  | refused _ e => exact e
  | failed k _ hne e => rw [e] at hill; exact absurd hill hne

end Sys2Proof.Machine
end

section
/-! SUPPORT. Tokens through the commands: the run tokens (`spec/44_rle.md` R170), the symbol emitter (R173) and the decoding
of one token (`spec/45_payload_decode.md` R185, R186). -/

namespace Sys2Proof.Machine

/-! ### Run tokens -/

theorem tokenForRun_isZeros (l : Nat) : (tokenForRun l).isZeros := (tokenForRun_sym l).imp_right And.left

/-- Each run symbol's suffixes reach from its base up to the next symbol's base, so a run length has one token (R170). -/
theorem tokenForRun_of_suffix {sym suffix : Nat} (h1 : 256 ≤ sym) (h2 : sym ≤ 260) (hs : suffix < 2 ^ suffixBits sym) :
    suffix + runBase sym ≤ Config.maxRun ∧ tokenForRun (suffix + runBase sym) = ⟨sym, suffixBits sym, suffix⟩ := by
  obtain rfl | rfl | rfl | rfl | rfl : sym = 256 ∨ sym = 257 ∨ sym = 258 ∨ sym = 259 ∨ sym = 260 := by omega
  all_goals
    simp only [suffixBits, Nat.reduceEqDiff, if_true, if_false, Nat.reducePow] at hs
    simp only [suffixBits, runBase, tokenForRun, Config.maxRun, Nat.reduceEqDiff, if_true, if_false]
    refine ⟨by omega, ?_⟩
    split_ifs <;> simp only [Token.mk.injEq, Nat.reduceEqDiff, true_and, false_and] <;> omega

/-- A token of the zero class is the token of the run it stands for, of 1 to 16662 zeros (R170). -/
theorem Token.run_of_isZeros {x : Token} (hx : x.legal) (hz : x.isZeros) :
    1 ≤ x.bytes.length ∧ x.bytes.length ≤ Config.maxRun ∧ tokenForRun x.bytes.length = x := by
  obtain ⟨sym, k, suffix⟩ := x
  obtain ⟨hsym : sym ≤ 260, hk : k = suffixBits sym, hsuf : suffix < 2 ^ k⟩ := hx
  subst hk
  refine ⟨Token.bytes_length_pos _, ?_⟩
  obtain rfl | hrun : sym = 0 ∨ 256 ≤ sym := hz
  · obtain rfl : suffix = 0 := Nat.lt_one_iff.1 hsuf
    exact ⟨by decide, rfl⟩
  · have hlen : (Token.bytes ⟨sym, suffixBits sym, suffix⟩).length = suffix + runBase sym := by
      rw [Token.bytes, if_neg (Nat.not_le_of_lt hrun), List.length_replicate]
    rw [hlen]
    exact tokenForRun_of_suffix hrun hsym hsuf

/-- Settles O40: a run has a token of the zero class, and such a token is that of its run. -/
theorem runTokensAreABijection : Obligations.RunTokensAreABijection :=
  ⟨fun l h1 h2 => ⟨tokenForRun_legal h1 h2, tokenForRun_isZeros l, tokenForRun_bytes h1 h2⟩,
    fun _ hx hz => Token.run_of_isZeros hx hz⟩

/-! ### The symbol emitter -/

/-- A writer that had failed, or that has no room for the bits, has failed afterwards (R132, R134). -/
theorem State.Writes.fail_of_no_room {s t : State} {xs : List Bool} (h : s.Writes t xs)
    (hno : s.bw.fail = true ∨ s.bw.stop.toNat < (s.bw.pos + xs.length) / 8) : t.bw.fail = true := by
  cases hf : s.bw.fail with
  | true => rw [(h.sticky hf).1, hf]
  | false =>
    have hroom := hno.resolve_left (by simp [hf])
    simp only [Writer.pos] at hroom
    obtain ⟨ht, -⟩ | ⟨-, hfit⟩ := h.live hf
    · exact ht
    · omega

/-- `SYM_EMIT` whose checks are met runs the emitter, and changes the writer and `OUT` only (R173). -/
theorem execSymEmit_of_ok {s : State} (h : s.symEmitOk) :
    ∃ t, exec .symEmit s = .next t ∧ t.bw = (s.symEmit s.arg0 s.arg1).bw ∧
      t.output = (s.symEmit s.arg0 s.arg1).output ∧
      t = { s with
        result := Result.okOf (tokens (s.inBytes s.arg0 s.arg1)).length 0, bw := t.bw, output := t.output } := by
  refine ⟨_, congrArg Host.Outcome.next (State.checked_of s h), rfl, rfl, ?_⟩
  conv_lhs => rw [State.symEmit_frame]
  rfl

theorem State.allCoded_iff {s : State} {start n : Nat} :
    s.allCoded start n = true ↔ ∀ x ∈ tokens (s.inBytes start n), 1 ≤ (s.enc.symAt x.sym).bits.toNat := by
  simp only [State.allCoded, List.all_eq_true, decide_eq_true_eq]

/-- Settles O43: the emitter writes the bits of the tokens, in order, which fit or do not. -/
theorem symEmitResult : Obligations.SymEmitResult := by
  refine ⟨fun s he hv hn hl hc hok hf hfit => ?_, fun s he hv hn hl hc hok hno => ?_, fun s h => ?_⟩
  · obtain ⟨t, e, hbw, hout, hframe⟩ := execSymEmit_of_ok ⟨hv, ⟨hn, hl⟩, State.allCoded_iff.2 hc⟩
    have happ := (State.symEmit_writes hok he s.arg0 s.arg1).of_fits hf (by simp only [Writer.pos] at hfit; omega)
    exact ⟨t, e, State.appended_congr_right happ hbw hout, hframe⟩
  · obtain ⟨t, e, hbw, -, hframe⟩ := execSymEmit_of_ok ⟨hv, ⟨hn, hl⟩, State.allCoded_iff.2 hc⟩
    exact ⟨t, e, by rw [hbw]; exact (State.symEmit_writes hok he _ _).fail_of_no_room hno, hframe⟩
  · refine next_checked_of_not ?_
    rintro ⟨-, ⟨hn, hl⟩, hc⟩
    obtain hn' | hl' | ⟨x, hx, hb⟩ := h
    · exact absurd hn (Nat.not_le_of_lt hn')
    · exact absurd hl (Nat.not_le_of_lt hl')
    · have := State.allCoded_iff.1 hc x hx
      rw [hb] at this
      exact absurd this (by decide)

/-! ### One token decoded -/

/-- The tables of a decoder that holds a tree, in the terms of the recovery's laws (R161). -/
theorem Decoder.ready_of_lutAgrees {d : Decoder} {t : HTree} (hok : d.ok) (hv : d.treeValid = true) (hl : t.legal)
    (hc : d.count.toNat = t.nodes) (hh : d.holds t 0) (hlut : d.lutAgrees) : d.Ready t :=
  ⟨hok, hv, hl, hc, hh, fun i hi => by
    rw [hlut i hi, HTree.entry_eq_follow hh hl.1 (by have := hl.2; omega) 8 0 (by omega)]⟩

/-- The state in which `SYM_DECODE` starts: the operands as they stand are `OUT_PTR` and `OUT_END` (R186). -/
def State.tokenStart (s : State) : State :=
  { s with pay := { s.pay with outPtr := s.ops.arg0, outEnd := s.ops.arg1 } }

theorem State.setOut_args (s : State) : s.setOut s.arg0 s.arg1 = s.tokenStart := by
  simp only [State.setOut, State.tokenStart, State.arg0, State.arg1, BitVec.ofNat_toNat, BitVec.setWidth_eq]

theorem execSymDecode_of_ok {s t : State} {sym : Nat} (h : s.payloadOk) (e : s.tokenStart.decodeOne = .ok sym t) :
    exec .symDecode s = .next (t.finishOk t.pay.outPtr.toNat sym) := by
  show Host.Outcome.next (s.checked s.payloadOk _) = _
  rw [State.checked_of s h, State.setOut_args, e]

theorem execSymDecode_of_fail {s t : State} {k : Kind} (h : s.payloadOk) (e : s.tokenStart.decodeOne = .fail k t) :
    exec .symDecode s = .next (t.failWith k) := by
  show Host.Outcome.next (s.checked s.payloadOk _) = _
  rw [State.checked_of s h, State.setOut_args, e]

/-- Settles O44: the token is found, its suffix read and its bytes stored from `ARG0` on. -/
theorem symDecodeResult : Obligations.SymDecodeResult := by
  intro s tree x code hd hv hl hc hh hlut hr hfresh hf ho hx hp hb hroom
  have hready := Decoder.ready_of_lutAgrees hd hv hl hc hh hlut
  have e : s.tokenStart.decodeOne = .ok x.sym (s.tokenStart.decoded (s.br.pos + (code.length + x.k)) x.bytes) :=
    State.decodeOne_of_token hready hp hx hb hf hr hfresh hroom
  have hend : s.arg1 < 2 ^ 64 := s.ops.arg1.isLt
  have hptr : (s.tokenStart.decoded (s.br.pos + (code.length + x.k)) x.bytes).pay.outPtr.toNat = s.arg0 + x.bytes.length :=
    State.decoded_outPtr (s := s.tokenStart) (hroom.trans_lt hend)
  refine ⟨_, execSymDecode_of_ok ⟨hv, by omega, ho⟩ e, ?_, fun a => ?_⟩
  · rw [Nat.add_assoc s.br.pos]
    have hword : BitVec.ofNat 64 (s.arg0 + x.bytes.length) = s.ops.arg0 + BitVec.ofNat 64 x.bytes.length := by
      rw [BitVec.ofNat_add, State.arg0, BitVec.ofNat_toNat, BitVec.setWidth_eq]
    rw [hptr, hword]
    rfl
  · show Mem.read _ (s.output.writeList s.arg0 x.bytes) a = _
    rw [Mem.read_writeList]
    split
    · next h => exact (List.getD_eq_getElem _ _ (by omega)).symm
    · rfl

/-! ### One token that fails -/

/-- At the end of the range the table's advance fails, since every entry takes a bit (R185, R161 (c)). -/
theorem State.decodeOne_of_end {s : State} (hlut : s.dec.lutOk) (hl : s.br.pos = s.br.limit) :
    s.decodeOne = .fail .truncated { s with br := { s.br with fail := true } } := by
  have advance : ∀ n, 1 ≤ n → s.brAdvanceOrFail n = .fail .truncated { s with br := { s.br with fail := true } } := by
    intro n hn
    cases hf : s.br.fail with
    | false => exact State.brAdvanceOrFail_of_past hf hn (by omega)
    | true =>
      have hstay : s.brMove n = s := if_pos (.inl hf)
      rw [State.brAdvanceOrFail, hstay, if_pos hf, ← hf]
  have hsymbol : s.decodeSymbol = .fail .truncated { s with br := { s.br with fail := true } } := by
    unfold State.decodeSymbol
    dsimp only
    split
    · next hnode =>
      obtain ⟨-, -, hbits, -⟩ | ⟨-, -, -, hbits⟩ := hlut _ s.br.peek8_lt
      · rw [advance _ hbits]; rfl
      · rw [hbits, advance _ (by decide)]; rfl
    · rw [advance _ (by decide)]; rfl
  rw [State.decodeOne, hsymbol]; rfl

/-- Settles O45: a token fails in its code, in its suffix or in its dispatch, and none of the three stores. -/
theorem symDecodeFailures : Obligations.SymDecodeFailures := by
  refine ⟨fun s hv h1 h2 hd htree hr hl => ?_,
    fun s tree x code hd hv hl hc hh hlut hr hfresh hf h1 h2 hx hp => ⟨fun hb ho => ?_, fun m hm hb hend => ?_⟩,
    fun s h => next_checked_of_not (by rintro ⟨-, h1, h2⟩; omega)⟩
  · obtain ⟨-, -, hlut⟩ := htree hv
    have e := State.decodeOne_of_end (s := s.tokenStart) hlut hl
    exact ⟨_, execSymDecode_of_fail ⟨hv, h1, h2⟩ e, rfl, rfl, rfl, rfl⟩
  · have hready := Decoder.ready_of_lutAgrees hd hv hl hc hh hlut
    have e := State.decodeOne_of_overflow (s := s.tokenStart) hready hp hx hb hf hr hfresh ho
    rw [Nat.add_assoc s.br.pos]
    exact ⟨_, execSymDecode_of_fail ⟨hv, h1, h2⟩ e, rfl, rfl, rfl, rfl⟩
  · have hready := Decoder.ready_of_lutAgrees hd hv hl hc hh hlut
    have e := State.decodeOne_of_cut (s := s.tokenStart) hready hp hx hm hb hend hf hr hfresh
    exact ⟨_, execSymDecode_of_fail ⟨hv, h1, h2⟩ e, rfl, rfl, rfl, rfl⟩

end Sys2Proof.Machine
end

section
/-! SUPPORT. The commands over blocks and over a container: `BLOCK_DECODE` of COPY and FILL blocks
(`spec/47_block_decoder_verifier.md` R215 to R219) and `ENCODE` with room for its bound (`spec/48_container.md` R232,
R235). -/

namespace Sys2Proof.Machine

/-! ### `BLOCK_DECODE` -/

/-- A header that is cut off, and then an unknown mode or a payload past the end of the input, in this order (R215). -/
theorem State.readBlockHeader_eq_error {s : State} {p : Nat} {k : Kind}
    (h : (s.inLen < p + 7 ∧ k = .truncated) ∨ (p + 7 ≤ s.inLen ∧ k = .structural ∧
      (2 < readLE s.inByte (p + 6) 1 ∨ s.inLen < p + 7 + s.storedSize p))) : s.readBlockHeader p = .error k := by
  obtain ⟨hcut, rfl⟩ | ⟨hin, rfl, hbad⟩ := h
  · exact if_pos hcut
  · cases e : s.readBlockHeader p with
    | ok b =>
      obtain ⟨⟨hend, hmode⟩, -⟩ := State.readBlockHeader_eq_ok.1 e
      omega
    | error k =>
      unfold State.readBlockHeader at e
      rw [if_neg (Nat.not_lt.2 hin)] at e
      dsimp only at e
      split_ifs at e <;> cases e <;> rfl

section BlockDecode

variable {s : State} (hok : s.blockDecodeOk)

include hok in
theorem execBlockDecode_of_ok {t : State} {p mode : Nat} (e : s.blockDecode s.arg0 s.arg1 s.arg2 = .ok (p, mode) t) :
    exec .blockDecode s = .next (t.finishOk p mode) := by
  show Host.Outcome.next (s.checked s.blockDecodeOk _) = _
  rw [State.checked_of s hok, e]

include hok in
theorem execBlockDecode_of_fail {t : State} {k : Kind} (e : s.blockDecode s.arg0 s.arg1 s.arg2 = .fail k t) :
    exec .blockDecode s = .next (t.failOver k s.arg1 (s.arg1 + s.arg2)) := by
  show Host.Outcome.next (s.checked s.blockDecodeOk _) = _
  rw [State.checked_of s hok, e]

end BlockDecode

/-- What a byte of `OUT` reads as after a row of one byte was stored (R219). -/
theorem State.outByte_putOutList_replicate (s : State) (a n x : Nat) (b : Byte) :
    (s.putOutList a (List.replicate n b)).outByte x = if a ≤ x ∧ x < a + n then b else s.outByte x := by
  rw [State.outByte_putOutList]
  by_cases h : a ≤ x ∧ x < a + n
  · rw [dif_pos (by simpa using h), if_pos h, List.getElem_replicate]
  · rw [dif_neg (by simpa using h), if_neg h]

/-- Settles O49: the header is read or is not, and a COPY or FILL payload has the right size or has not. -/
theorem blockDecodeCopyAndFill : Obligations.BlockDecodeCopyAndFill := by
  refine ⟨fun s h => next_checked_of_not ?_, fun s k h0 h1 h2 h3 h => ?_, fun s es hend h1 h2 h3 hes => ?_⟩
  · rintro ⟨k0, ⟨k1, k2⟩, k3⟩
    simp only [Config.maxBlock] at k2
    omega
  · have e : s.blockDecode s.arg0 s.arg1 s.arg2 = .fail k s := by
      rw [State.blockDecode, State.readBlockHeader_eq_error h]
    refine ⟨_, execBlockDecode_of_fail ⟨h0, ⟨h1, h2⟩, h3⟩ e, rfl, fun a ha => ?_⟩
    rw [State.outByte_failOver, if_neg (by omega)]
  · subst hes
    have hok : s.blockDecodeOk := ⟨by omega, ⟨h1, h2⟩, h3⟩
    -- with its header read, a block of mode 0 or 2 comes to its payload
    have decode (mode : Nat) (hm : readLE s.inByte (s.arg0 + 6) 1 = mode) (hmode : mode ≤ 2) :
        s.blockDecode s.arg0 s.arg1 s.arg2 =
          (s.decodePayload ⟨s.storedSize s.arg0, readLE s.inByte (s.arg0 + 2) 4, mode⟩ (s.arg0 + 7) s.arg1 s.arg2).bind
            fun _ t => .ok (s.arg0 + 7 + s.storedSize s.arg0, mode) t := by
      rw [State.blockDecode, State.readBlockHeader_eq_ok.2 ⟨⟨hend, hm.trans_le hmode⟩, rfl⟩, hm]
    refine ⟨fun hm hsize => ?_, fun hm hsize => ?_, fun hm hsize => ?_, fun hm hsize => ?_⟩
    · have e := (decode 0 hm (by decide)).trans (congrArg (Res.bind · _) (if_neg (not_not.2 hsize)))
      exact ⟨_, execBlockDecode_of_ok hok e, rfl, fun a => outByte_of_writeList rfl a⟩
    · have e := (decode 2 hm (by decide)).trans (congrArg (Res.bind · _) (if_neg (not_not.2 hsize)))
      refine ⟨_, execBlockDecode_of_ok hok e, ?_, fun a => State.outByte_putOutList_replicate _ _ _ _ _⟩
      rw [State.storedSize, hsize]; rfl
    · have e := (decode 0 hm (by decide)).trans (congrArg (Res.bind · _) (if_pos hsize))
      exact ⟨_, execBlockDecode_of_fail hok e, rfl⟩
    · have e := (decode 2 hm (by decide)).trans (congrArg (Res.bind · _) (if_pos hsize))
      exact ⟨_, execBlockDecode_of_fail hok e, rfl⟩

/-! ### `ENCODE` -/

/-- One block less is left after a whole block, or the last one (R84). -/
theorem blockCount_sub {n : Nat} (h : 0 < n) : blockCount n = blockCount (n - min Config.maxBlock n) + 1 := by
  simp only [blockCount, Config.maxBlock]; omega

/-- The loop of `ENCODE` with room for every block at its largest: one block is encoded for each 65536 bytes that are left
(R232, R237). -/
theorem State.encodeLoop_succeeds (crc : CrcFn) {n : Nat} (fuel : Nat) {pos i nb : Nat} {s : State} (he : s.enc.ok)
    (hfuel : fuel = blockCount (n - i)) (hroom : pos + fuel * 65543 ≤ s.outCap) :
    ∃ e t, s.encodeLoop crc n fuel pos i nb = .ok (e, nb + fuel) t ∧ e ≤ pos + fuel * 65543 := by
  induction fuel generalizing pos i nb s with
  | zero => exact ⟨pos, s, rfl, by omega⟩
  | succ fuel ih =>
    have hi : i < n := by
      by_contra hle
      rw [Nat.sub_eq_zero_of_le (Nat.le_of_not_lt hle)] at hfuel
      exact absurd hfuel (by simp [blockCount, Config.maxBlock])
    have hlen : 1 ≤ min Config.maxBlock (n - i) ∧ min Config.maxBlock (n - i) ≤ Config.maxBlock := by
      simp only [Config.maxBlock]; omega
    have hcopy : pos + 7 + min Config.maxBlock (n - i) ≤ s.outCap := by
      simp only [Config.maxBlock] at hlen ⊢; omega
    obtain ⟨w, mode, t, e, hw⟩ := State.blockEncode_succeeds (crc := crc) (inStart := i) hlen hcopy he
    simp only [Config.blockHdr, Config.maxBlock] at hw
    have hblock := State.blockEncode_encoding crc s i (min Config.maxBlock (n - i)) pos
    rw [e, Res.state_ok] at hblock
    have hcap := hblock.outCap
    rw [blockCount_sub (by omega), Nat.sub_sub] at hfuel
    obtain ⟨e', t', hloop, he'⟩ := ih (pos := pos + w) (nb := nb + 1) (hblock.enc he) (Nat.succ.inj hfuel) (by omega)
    refine ⟨e', t', ?_, by omega⟩
    rw [State.encodeLoop, if_pos hi, e, Res.bind_ok]
    dsimp only
    rw [hloop, Nat.add_assoc, Nat.add_comm 1]

/-- Settles O53: the loop encodes every block behind the master header, which no block touches. -/
theorem encodeSucceeds : Obligations.EncodeSucceeds := by
  refine ⟨fun s h => ?_, fun s h h4 => ?_, fun s he hi hroom => ?_⟩
  · exact congrArg Host.Outcome.next (if_pos h)
  · exact congrArg Host.Outcome.next ((if_neg (Nat.not_lt.2 h)).trans (if_pos h4))
  · have hcount : blockCount s.inLen = (s.inLen + 65535) / 65536 := by simp only [blockCount, Config.maxBlock]; omega
    have hmax : ¬ Config.maxInput < s.inLen := Nat.not_lt.2 hi
    have h4 : Config.masterHdr ≤ s.outCap := by simp only [Config.masterHdr]; omega
    obtain ⟨e, t, hloop, hle⟩ := State.encodeLoop_succeeds crc32c (blockCount s.inLen) (pos := 4) (i := 0) (nb := 0)
      (s := s.putOutLE 0 Config.masterHdr s.inLen) (n := s.inLen) he rfl (by rw [hcount]; exact hroom)
    rw [Nat.zero_add] at hloop
    rw [hcount] at hle
    have hheader := s.putOutLE_encoding Config.masterHdr s.inLen (Nat.le_refl 0) (by omega)
    have hblocks := (s.putOutLE 0 Config.masterHdr s.inLen).encodeLoop_encoding crc32c (blockCount s.inLen) s.inLen 4 0 0 4
      (Nat.le_refl _)
    rw [hloop, Res.state_ok] at hblocks
    have hall := hheader.trans (hblocks.mono (Nat.zero_le _))
    refine ⟨t.finishOk e (blockCount s.inLen), e, ?_, ?_, hle, ?_, fun a ha => ?_⟩
    · show execEncodeWith crc32c s = _
      rw [execEncodeWith, if_neg hmax, if_neg (Nat.not_lt.2 h4), State.encodeAll, hloop]
    · rw [hcount]
      conv_lhs => rw [hall.frame]
      rfl
    · calc readLE t.outByte 0 4 = readLE (s.putOutLE 0 Config.masterHdr s.inLen).outByte 0 4 :=
            readLE_congr fun j hj => hblocks.outByte_below (by omega)
        _ = s.inLen % 256 ^ 4 := readLE_writeLE _ _ _ _ _
        _ = s.inLen := Nat.mod_eq_of_lt (by omega)
    · exact hall.stores.read_outside _ (.inr ha)

end Sys2Proof.Machine
end

section
/-! SUPPORT. Which mode `BLOCK_ENCODE` gives a block (`spec/46_block_encoder.md` R200 to R208): FILL exactly for a constant
block, HUFF_RLE where the payload is kept, else COPY. -/

namespace Sys2Proof.Machine

/-! ### Constant blocks -/

/-- Every token of a constant block stands for its one byte: the literal, or zeros where the byte is 0 (R201). -/
theorem sym_of_tokens_replicate {n : Nat} {v : Byte} {x : Token} (hx : x ∈ tokens (List.replicate n v)) :
    x.sym = v.toNat ∨ v = 0#8 ∧ 256 ≤ x.sym := by
  have hv : ∀ b ∈ x.bytes, b = v := fun b hb => by
    refine List.eq_of_mem_replicate (n := n) (a := v) ?_
    rw [← tokens_bytes (List.replicate n v)]
    exact List.mem_flatMap.2 ⟨x, hx, hb⟩
  obtain ⟨hsym, -, -⟩ := tokens_legal _ x hx
  by_cases hlit : x.sym ≤ 255
  · refine .inl ?_
    rw [← hv (BitVec.ofNat 8 x.sym) (by rw [Token.bytes, if_pos hlit]; exact List.mem_singleton.2 rfl), BitVec.toNat_ofNat]
    omega
  · refine .inr ⟨(hv 0#8 ?_).symm, by omega⟩
    have hpos := x.bytes_length_pos
    rw [Token.bytes, if_neg hlit, List.length_replicate] at hpos
    rw [Token.bytes, if_neg hlit]
    exact List.mem_replicate.2 ⟨by omega, rfl⟩

/-- The symbols in use of a constant block (R201). -/
theorem State.histogram_used_of_constant {s : State} {inStart n : Nat} {v : Byte} (hn : n ≤ Config.maxBlock)
    (h : s.inBytes inStart n = List.replicate n v) {i : Nat} (hi : i ∈ (s.histogram inStart n).enc.used) :
    i = v.toNat ∨ v = 0#8 ∧ 256 ≤ i := by
  obtain ⟨x, hx, rfl⟩ := List.mem_map.1 ((s.histogram_mem_used inStart hn i).1 hi)
  rw [h] at hx
  exact sym_of_tokens_replicate hx

/-- A list without repetitions whose only member is `a`. -/
theorem eq_singleton_of_nodup {l : List Nat} {a : Nat} (hn : l.Nodup) (h : ∀ x, x ∈ l ↔ x = a) : l = [a] :=
  List.perm_singleton.1 ((List.perm_ext_iff_of_nodup hn (List.nodup_singleton a)).2 fun x => by rw [h, List.mem_singleton])

/-- `constant_value` finds the byte of a constant block (R201). -/
theorem State.constantValue_complete {s : State} {inStart n : Nat} {v : Byte} (hn : 1 ≤ n ∧ n ≤ Config.maxBlock)
    (h : s.inBytes inStart n = List.replicate n v) : (s.histogram inStart n).enc.constantValue = some v := by
  have hused := fun i hi => State.histogram_used_of_constant (i := i) hn.2 h hi
  generalize he : (s.histogram inStart n).enc = e at hused
  have hv := v.isLt
  by_cases hzero : v = 0#8
  · have hnone : e.literalsUsed = [] := List.eq_nil_iff_forall_not_mem.2 fun i hi => by
      obtain ⟨hi, h1, h2⟩ := Encoder.mem_literalsUsed.1 hi
      obtain rfl | ⟨-, h256⟩ := hused i hi
      · rw [hzero] at h1; exact absurd h1 (by decide)
      · omega
    rw [Encoder.constantValue, hnone, hzero]
  · have hpos : v.toNat ≠ 0 := fun k => hzero (BitVec.eq_of_toNat_eq k)
    have hall : ∀ i ∈ e.used, i = v.toNat := fun i hi => (hused i hi).resolve_right fun k => hzero k.1
    have hmem : v.toNat ∈ e.used := by
      have hne : (tokens (s.inBytes inStart n)) ≠ [] := fun k => by
        have hb := tokens_bytes (s.inBytes inStart n)
        rw [k, h] at hb
        exact absurd (congrArg List.length hb) (by simp; omega)
      obtain ⟨x, hx⟩ := List.exists_mem_of_ne_nil _ hne
      have hxu : x.sym ∈ e.used := he ▸ (s.histogram_mem_used inStart hn.2 _).2 (List.mem_map_of_mem hx)
      exact hall _ hxu ▸ hxu
    have hone : e.literalsUsed = [v.toNat] := eq_singleton_of_nodup (e.used_nodup.filter _) fun i => by
      rw [Encoder.mem_literalsUsed]
      exact ⟨fun k => hall i k.1, by rintro rfl; exact ⟨hmem, by omega, by omega⟩⟩
    have hclass : e.zeroClassUsed = false := by
      rw [Encoder.zeroClassUsed, List.any_eq_false]
      intro i hi hcount
      have hlt : i < Config.nsym := (by decide : ∀ i ∈ [0, 256, 257, 258, 259, 260], i < Config.nsym) i hi
      have hiv := hall i (Encoder.mem_used.2 ⟨hlt, Nat.ne_of_gt (of_decide_eq_true hcount)⟩)
      simp only [List.mem_cons, List.not_mem_nil, or_false] at hi
      omega
    rw [Encoder.constantValue, hone]
    dsimp only
    rw [hclass, BitVec.ofNat_toNat, BitVec.setWidth_eq]
    rfl

/-- A block that is not constant has no `constant_value` (R201). -/
theorem State.constantValue_of_mixed {s : State} {inStart n : Nat} (hn : n ≤ Config.maxBlock)
    (h : ¬ constantBytes (s.inBytes inStart n)) : (s.histogram inStart n).enc.constantValue = none := by
  cases e : (s.histogram inStart n).enc.constantValue with
  | none => rfl
  | some v => exact absurd ⟨v, by rw [s.inBytes_length]; exact State.constantValue_sound hn e⟩ h

/-- With one symbol in use or none there is a `constant_value` (R201). -/
theorem Encoder.two_le_used {e : Encoder} (h : e.constantValue = none) : 2 ≤ e.used.length := by
  match hu : e.used with
  | [] => exact absurd hu (Encoder.used_ne_nil_of_constantValue h)
  | [a] =>
    exfalso
    by_cases ha : 1 ≤ a ∧ a ≤ 255
    · have hone : e.literalsUsed = [a] := by simp [Encoder.literalsUsed, hu, ha]
      have hclass : e.zeroClassUsed = true := by
        by_contra hz
        rw [Encoder.constantValue, hone] at h
        dsimp only at h
        rw [if_neg hz] at h
        exact nomatch h
      obtain ⟨i, hi, hcount⟩ := List.any_eq_true.1 hclass
      have hlt : i < Config.nsym := (by decide : ∀ i ∈ [0, 256, 257, 258, 259, 260], i < Config.nsym) i hi
      have hiu : i ∈ e.used := Encoder.mem_used.2 ⟨hlt, Nat.ne_of_gt (of_decide_eq_true hcount)⟩
      rw [hu, List.mem_singleton] at hiu
      simp only [List.mem_cons, List.not_mem_nil, or_false] at hi
      omega
    · have hnone : e.literalsUsed = [] := by simp [Encoder.literalsUsed, hu, ha]
      rw [Encoder.constantValue, hnone] at h
      exact nomatch h
  | a :: b :: l => simp

/-- A description takes a bit for every node and 9 more for every leaf (R91). -/
theorem HTree.describe_length (t : HTree) : t.describe.length = t.nodes + 9 * t.symbols.length := by
  induction t with
  | leaf x => simp [HTree.describe, HTree.nodes, HTree.symbols, Config.symbolBits]
  | node a b iha ihb =>
    simp only [HTree.describe, HTree.nodes, HTree.symbols, List.length_cons, List.length_append, iha, ihb]; omega

end Sys2Proof.Machine
end

section
/-! SUPPORT. `BLOCK_ENCODE` as a command: what each mode leaves, and its failures (`spec/46_block_encoder.md` R200 to
R208). -/

namespace Sys2Proof.Machine

/-! ### The body of the command -/

/-- A constant block is encoded as FILL, and the writer is not touched (R201, R202). -/
theorem State.blockEncodeBody_of_constant (crc : CrcFn) {s : State} {inStart n outPos : Nat} {v : Byte}
    (hn : 1 ≤ n ∧ n ≤ Config.maxBlock) (h : s.inBytes inStart n = List.replicate n v) :
    s.blockEncodeBody crc inStart n outPos =
      .ok (8, 2) (((s.histogram inStart n).putOut (outPos + 7) v).writeBlockHeader crc outPos 1 2) := by
  rw [State.blockEncodeBody, State.emitPayload, State.constantValue_complete hn h]; rfl

/-- How a block that is not constant ends, from the state `u` and the answer the attempt at HUFF_RLE has left: HUFF_RLE
where the payload is kept, else COPY where the copy fits (R203, R204, R208). -/
def State.afterAttempt (u : State) (crc : CrcFn) (bs : List Byte) (outPos : Nat) : Option Nat → Res (Nat × Nat)
  | some es => .ok (7 + es, 1) (u.writeBlockHeader crc outPos es 1)
  | none =>
    if u.outCap < outPos + 7 + bs.length then .fail .encodeExhausted u
    else .ok (7 + bs.length, 0) ((u.putOutList (outPos + 7) bs).writeBlockHeader crc outPos bs.length 0)

/-- A block that is not constant goes through the attempt at HUFF_RLE, with two symbols or more in use (R203). -/
theorem State.blockEncodeBody_of_mixed (crc : CrcFn) {s : State} {inStart n outPos : Nat} (hn : n ≤ Config.maxBlock)
    (h : ¬ constantBytes (s.inBytes inStart n)) (ho : outPos + 7 ≤ s.outCap) (he : s.enc.ok) :
    ∃ u r tr, (s.histogram inStart n).Attempt u inStart n outPos r tr ∧ u.outCap = s.outCap ∧
      2 ≤ tr.symbols.length ∧
      s.blockEncodeBody crc inStart n outPos = u.afterAttempt crc (s.inBytes inStart n) outPos r := by
  have hnone := State.constantValue_of_mixed hn h
  obtain ⟨tr, A⟩ := State.tryHuffRle_attempt (s := s.histogram inStart n) (inStart := inStart) (n := n)
    (outPos := outPos) ho (State.histogram_enc_ok he _ _) (Encoder.used_ne_nil_of_constantValue hnone)
  have htwo := A.symbols.length_eq ▸ Encoder.two_le_used hnone
  have k := State.tryHuffRle_encoding (s := s.histogram inStart n) inStart n (outPos := outPos) ho
  generalize e : (s.histogram inStart n).tryHuffRle inStart n outPos = p at A k
  obtain ⟨r, u⟩ := p
  have hin : u.inBytes inStart n = s.inBytes inStart n := by rw [State.inBytes, k.inByte]; rfl
  refine ⟨u, r, tr, A, k.outCap, htwo, ?_⟩
  rw [State.blockEncodeBody, State.emitPayload, hnone]
  dsimp only
  rw [e]
  cases r with
  | some es => rfl
  | none =>
    dsimp only [State.afterAttempt]
    rw [State.emitCopy, hin, s.inBytes_length]
    split
    · rfl
    · rfl

/-- An attempt that is kept: the payload's size, of three bytes or more, and what it fits into (R203). -/
theorem State.Attempt.kept {s u : State} {inStart n outPos es : Nat} {tr : HTree}
    (A : s.Attempt u inStart n outPos (.some es) tr) :
    tr.depth ≤ 32 ∧ es < 65536 ∧ outPos + 7 + es ≤ s.outCap ∧
      es = ((tr.describe ++ (tokens (s.inBytes inStart n)).flatMap u.enc.tokenBits).length + 7) / 8 := by
  by_cases h : tr.depth ≤ 32 ∧
      ((tr.describe ++ (tokens (s.inBytes inStart n)).flatMap u.enc.tokenBits).length + 7) / 8 < 65536 ∧
      outPos + 7 + ((tr.describe ++ (tokens (s.inBytes inStart n)).flatMap u.enc.tokenBits).length + 7) / 8 ≤ s.outCap
  · obtain ⟨h1, h2, h3⟩ := h
    obtain rfl := Option.some.inj (A.some _ _ rfl rfl h1 h2 h3).1
    exact ⟨h1, h2, h3, rfl⟩
  · exact nomatch A.none _ _ rfl rfl h

/-- A kept payload has three bytes or more: two leaves take 21 bits (R91). -/
theorem State.Attempt.three_le {s u : State} {inStart n outPos es : Nat} {tr : HTree}
    (A : s.Attempt u inStart n outPos (.some es) tr) (h : 2 ≤ tr.symbols.length) : 3 ≤ es := by
  obtain ⟨-, -, -, hes⟩ := A.kept
  have hnodes := tr.nodes_eq
  rw [List.length_append, tr.describe_length] at hes
  omega

/-- The tables an attempt after a histogram leaves: a tree over the symbols in use, their counts, and the codes of the tree
where they fit (R172, R203). -/
theorem State.Attempt.tables {s u : State} {inStart n outPos : Nat} {r : Option Nat} {tr : HTree}
    (hn : n ≤ Config.maxBlock) (A : (s.histogram inStart n).Attempt u inStart n outPos r tr) :
    u.enc.holds tr u.enc.root.toNat ∧ tr.symbols.Perm u.enc.used ∧ u.enc.treeValid = true ∧
      (∀ i < 261, (u.enc.symAt i).count.toNat =
        (tokens (s.inBytes inStart n)).countP fun x => decide (x.sym = i)) ∧
      (tr.depth ≤ 32 → ∀ p ∈ tr.codes, (u.enc.symAt p.1).code = BitVec.ofNat 32 (bitsValue p.2) ∧
        (u.enc.symAt p.1).bits = BitVec.ofNat 6 p.2.length) := by
  have hused : u.enc.used = (s.histogram inStart n).enc.used := by simp only [Encoder.used, A.counts]
  refine ⟨A.holds, hused ▸ A.symbols, A.valid, fun i hi => ?_, A.codes⟩
  have hlen := tokens_length_le (s.inBytes inStart n)
  have hle := List.countP_le_length (p := fun x => decide (x.sym = i)) (l := tokens (s.inBytes inStart n))
  rw [s.inBytes_length] at hlen
  simp only [Config.maxBlock] at hn
  rw [A.counts, State.histogram_symAt s inStart n hi, BitVec.toNat_ofNat, Nat.mod_eq_of_lt (by omega)]

/-- The header leaves the bits of the payload as they are (R205). -/
theorem State.outBit_writeBlockHeader (crc : CrcFn) (u : State) {p es mode q : Nat} (hes : 1 ≤ es ∧ es ≤ Config.maxBlock)
    (hm : mode ≤ 2) (hq : 8 * (p + 7) ≤ q) : (u.writeBlockHeader crc p es mode).outBit q = u.outBit q := by
  obtain ⟨-, -, -, hout⟩ := State.writeBlockHeader_reads crc u p es mode hes hm
  rw [State.outBit, State.outBit, hout _ (by omega)]

/-! ### The command -/

section Command

variable {s : State} (hok : s.blockEncodeOk) (h8 : s.arg2 + 8 ≤ s.outCap)

include hok h8 in
theorem execBlockEncode_of_ok {t : State} {w mode : Nat}
    (e : s.blockEncodeBody crc32c s.arg0 s.arg1 s.arg2 = .ok (w, mode) t) :
    exec .blockEncode s = .next (t.finishOk w mode) := by
  show Host.Outcome.next (s.checked s.blockEncodeOk _) = _
  rw [State.checked_of s hok, if_neg (by omega), e]

include hok h8 in
theorem execBlockEncode_of_fail {t : State} {k : Kind}
    (e : s.blockEncodeBody crc32c s.arg0 s.arg1 s.arg2 = .fail k t) :
    exec .blockEncode s = .next (t.failOver k s.arg2 s.outCap) := by
  show Host.Outcome.next (s.checked s.blockEncodeOk _) = _
  rw [State.checked_of s hok, if_neg (by omega), e]

include hok h8 in
/-- The three ends of a block that is not constant: `t` holds the tables of the attempt, and the payload too where the
attempt was kept (R203, R204). -/
theorem execBlockEncode_of_attempt {u : State} {r : Option Nat} (hcap : u.outCap = s.outCap)
    (e : s.blockEncodeBody crc32c s.arg0 s.arg1 s.arg2 = u.afterAttempt crc32c (s.inBytes s.arg0 s.arg1) s.arg2 r) :
    ∃ t, exec .blockEncode s = .next t ∧ t.enc = u.enc ∧
      (∀ es, r = some es → 1 ≤ es → es ≤ Config.maxBlock → t.result = Result.okOf (7 + es) 1 ∧
        ∀ q, t.outBit (8 * (s.arg2 + 7) + q) = u.outBit (8 * (s.arg2 + 7) + q)) ∧
      (r = none → s.arg2 + 7 + s.arg1 ≤ s.outCap → t.result = Result.okOf (7 + s.arg1) 0) ∧
      (r = none → s.outCap < s.arg2 + 7 + s.arg1 → t.result = Result.failed .encodeExhausted) := by
  cases r with
  | some es =>
    refine ⟨_, execBlockEncode_of_ok hok h8 e, rfl, ?_, nofun, nofun⟩
    rintro _ ⟨⟩ h1 h2
    exact ⟨rfl, fun q => State.outBit_writeBlockHeader crc32c u ⟨h1, h2⟩ (by decide) (Nat.le_add_right _ q)⟩
  | none =>
    dsimp only [State.afterAttempt] at e
    rw [hcap, s.inBytes_length] at e
    by_cases hfit : s.outCap < s.arg2 + 7 + s.arg1
    · rw [if_pos hfit] at e
      exact ⟨_, execBlockEncode_of_fail hok h8 e, rfl, nofun, fun _ k => absurd hfit (Nat.not_lt.2 k), fun _ _ => rfl⟩
    · rw [if_neg hfit] at e
      exact ⟨_, execBlockEncode_of_ok hok h8 e, rfl, nofun, fun _ _ => rfl, fun _ k => absurd k hfit⟩

end Command

/-! ### The payloads -/

/-- A block is FILL exactly when it is constant (R201, R208). -/
theorem State.mode_eq_fill_iff {s t : State} {crc : CrcFn} {inStart n outPos es mode : Nat}
    (hn : 1 ≤ n ∧ n ≤ Config.maxBlock) (e : s.blockEncodeBody crc inStart n outPos = .ok (7 + es, mode) t)
    (hp : PayloadAt t.outByte (outPos + 7) es mode (s.inBytes inStart n)) :
    mode = 2 ↔ constantBytes (s.inBytes inStart n) := by
  constructor
  · rintro rfl
    obtain ⟨k, -⟩ | ⟨-, -, hbs⟩ | ⟨k, -⟩ := hp
    · exact absurd k (by decide)
    · exact ⟨_, hbs⟩
    · exact absurd k (by decide)
  · rintro ⟨v, hv⟩
    rw [s.inBytes_length] at hv
    rw [State.blockEncodeBody_of_constant crc hn hv] at e
    injection e with e
    exact (congrArg Prod.snd e).symm

/-- A FILL payload of a block is the block's first byte (R202). -/
theorem PayloadAt.fill {f : Nat → Byte} {s : State} {a es inStart n : Nat} (hn : 1 ≤ n)
    (h : PayloadAt f a es 2 (s.inBytes inStart n)) : es = 1 ∧ f a = s.inByte inStart := by
  obtain ⟨k, -⟩ | ⟨-, hes, hbs⟩ | ⟨k, -⟩ := h
  · exact absurd k (by decide)
  · have hlen := s.inBytes_length inStart n
    have hhead : (s.inBytes inStart n)[0]? = some (s.inByte inStart) := by
      rw [List.getElem?_eq_getElem (by omega)]
      exact congrArg some (readList_getElem _ _ _ _ _)
    rw [hbs, List.getElem?_replicate, if_pos (by omega)] at hhead
    exact ⟨hes, Option.some.inj hhead⟩
  · exact absurd k (by decide)

/-- A COPY payload is the block (R204). -/
theorem PayloadAt.copy {f : Nat → Byte} {a es : Nat} {bs : List Byte} (h : PayloadAt f a es 0 bs) :
    es = bs.length ∧ readList f a es = bs := by
  obtain ⟨-, hes, hbs⟩ | ⟨k, -⟩ | ⟨k, -⟩ := h
  · exact ⟨hes, hbs⟩
  · exact absurd k (by decide)
  · exact absurd k (by decide)

/-- A HUFF_RLE payload has at least three bytes and fewer than 65536 (R203, R208). -/
theorem State.huffSize_of_mode {s t : State} {crc : CrcFn} {inStart n outPos es : Nat}
    (hn : n ≤ Config.maxBlock) (hc : ¬ constantBytes (s.inBytes inStart n)) (ho : outPos + 7 ≤ s.outCap) (he : s.enc.ok)
    (e : s.blockEncodeBody crc inStart n outPos = .ok (7 + es, 1) t) : 3 ≤ es ∧ es < 65536 := by
  obtain ⟨u, r, tr, A, -, htwo, hbody⟩ := State.blockEncodeBody_of_mixed crc hn hc ho he
  rw [hbody] at e
  cases r with
  | some k =>
    injection e with e
    obtain rfl : k = es := Nat.add_left_cancel (congrArg Prod.fst e)
    obtain ⟨-, hlt, -⟩ := A.kept
    exact ⟨A.three_le htwo, hlt⟩
  | none =>
    dsimp only [State.afterAttempt] at e
    split_ifs at e
    injection e with e
    exact absurd (show 0 = 1 from congrArg Prod.snd e) (by decide)

/-- Settles O47: a block is constant and becomes FILL, or the attempt at HUFF_RLE is kept, or it is copied where it fits. -/
theorem blockEncodeResult : Obligations.BlockEncodeResult := by
  refine ⟨fun s he h1 h2 h3 hroom => ?_, fun s h1 h2 h3 h8 hc => ?_, fun s h1 h2 h3 h4 h8 => ?_,
    fun s he h1 h2 h3 h8 hc => ?_, fun s h => ?_⟩
  · have hn : 1 ≤ s.arg1 ∧ s.arg1 ≤ Config.maxBlock := ⟨h1, h2⟩
    have hok : s.blockEncodeOk := ⟨hn, h3, by omega⟩
    have h8 : s.arg2 + 8 ≤ s.outCap := by omega
    obtain ⟨w, mode, t, e, -⟩ := State.blockEncode_succeeds (crc := crc32c) (inStart := s.arg0) hn hroom he
    obtain ⟨es, rfl, hend, hblock⟩ := State.blockEncode_ok hn e he
    have hmode := hblock.mode_le
    obtain ⟨⟨hes1, hes2, hsize⟩, hcrc, hfield, hpayload⟩ := hblock
    rw [State.blockEncode, if_neg (by omega)] at e
    have hfill := State.mode_eq_fill_iff hn e hpayload
    have henc := State.blockEncodeBody_encoding crc32c s.arg0 s.arg1 h8
    rw [e, Res.state_ok] at henc
    refine ⟨t.finishOk (7 + es) mode, es, mode, execBlockEncode_of_ok hok h8 e, ?_, hes1, hes2, by omega, hmode,
      Nat.eq_sub_of_add_eq hsize, hcrc, hfield, hfill, ?_, ?_, ?_, fun a ha => henc.stores.read_outside _ ha⟩
    · conv_lhs => rw [henc.frame]
      rfl
    · rintro rfl
      exact hpayload.fill h1
    · rintro rfl
      obtain ⟨hes, hbs⟩ := hpayload.copy
      exact ⟨hes.trans (s.inBytes_length _ _), hbs⟩
    · rintro rfl
      exact State.huffSize_of_mode h2 (fun k => absurd (hfill.2 k) (by decide)) (by omega) he e
  · obtain ⟨v, hv⟩ := hc
    rw [s.inBytes_length] at hv
    have e := State.blockEncodeBody_of_constant crc32c (outPos := s.arg2) ⟨h1, h2⟩ hv
    exact ⟨_, execBlockEncode_of_ok ⟨⟨h1, h2⟩, h3, by omega⟩ h8 e, rfl, rfl, rfl, rfl⟩
  · have hok : s.blockEncodeOk := ⟨⟨h1, h2⟩, h3, h4⟩
    show Host.Outcome.next (s.checked s.blockEncodeOk _) = _
    rw [State.checked_of s hok, if_pos h8]
    rfl
  · have hok : s.blockEncodeOk := ⟨⟨h1, h2⟩, h3, by omega⟩
    obtain ⟨u, r, tr, A, hcap, htwo, hbody⟩ := State.blockEncodeBody_of_mixed crc32c (inStart := s.arg0) h2 hc
      (show s.arg2 + 7 ≤ s.outCap by omega) he
    obtain ⟨t, ht, henc, hsome, hcopy, hfail⟩ := execBlockEncode_of_attempt hok h8 hcap hbody
    obtain ⟨hholds, hperm, hvalid, hcounts, hcodes⟩ := A.tables h2
    refine ⟨t, tr, ht, ?_⟩
    rw [henc]
    refine ⟨hholds, hperm, hvalid, hcounts, hcodes, ?_, fun k => hcopy (A.none _ _ rfl rfl k),
      fun k => hfail (A.none _ _ rfl rfl k)⟩
    rintro ⟨hd, hlt, hfit⟩
    obtain ⟨rfl, hbits⟩ := A.some _ _ rfl rfl hd hlt hfit
    obtain ⟨hres, hout⟩ := hsome _ rfl ((by decide : 1 ≤ 3).trans (A.three_le htwo)) hlt.le
    exact ⟨hres, (List.map_congr_left fun q _ => hout q).trans hbits⟩
  · refine next_checked_of_not ?_
    rintro ⟨⟨k1, k2⟩, k3, k4⟩
    simp only [Config.maxBlock] at k2
    omega

end Sys2Proof.Machine
end

section
/-! SUPPORT. The bit reader's commands: what each does inside the range, and the reader's invariant (`spec/40_bitreader.md`
R110 to R120). -/

namespace Sys2Proof.Machine

/-! ### The stream -/

/-- The field at `q` as the sum of R110, over a row of bits. -/
theorem State.field_eq_listSum (s : State) (q n : Nat) :
    s.field q n = ((List.range n).map fun j => (s.sbit (q + j)).toNat * 2 ^ j).sum :=
  s.field_eq_sum q n

/-- Every bit past the range is 0 (R110). -/
theorem State.sbit_of_past {s : State} {q : Nat} (h : s.br.limit ≤ q) : s.sbit q = false := by
  have hq : ¬ q / 8 < s.br.stop.toNat := by simp only [Reader.limit] at h; omega
  rw [State.sbit, State.rangeByte, if_neg hq]
  exact BitVec.getLsbD_zero

/-- The cache as its bytes put together one by one, none from past the range (R110, R111). -/
theorem State.load4_eq_foldl (s : State) (p : Nat) :
    s.load4 p = (List.range 4).foldl (fun c j => c ||| (if p + j < s.br.stop.toNat then
      (s.inByte (p + j)).setWidth 32 <<< (8 * j) else 0#32)) 0#32 := by
  have shifted (i k : Nat) : (s.rangeByte i).setWidth 32 <<< k =
      if i < s.br.stop.toNat then (s.inByte i).setWidth 32 <<< k else 0#32 := by
    unfold State.rangeByte
    split <;> simp [Config.cacheFill]
  have first := shifted p 0
  rw [BitVec.shiftLeft_zero] at first
  simp only [State.load4, first, shifted, show List.range 4 = [0, 1, 2, 3] from rfl, List.foldl_cons, List.foldl_nil,
    BitVec.zero_or, Nat.add_zero, Nat.mul_zero, Nat.reduceMul]

/-! ### `BR_NEW` -/

/-- The reader over a range of `IN`, on its first bit (R111). -/
theorem State.brNew_br (s : State) (start stop : Word) :
    (s.brNew start.toNat stop.toNat).br =
      { ptr := start
        stop := stop
        bitpos := 0#5
        cache := (List.range 4).foldl (fun c j => c ||| (if start.toNat + j < stop.toNat then
          (s.inByte (start.toNat + j)).setWidth 32 <<< (8 * j) else 0#32)) 0#32
        fail := false } := by
  simp only [State.brNew, State.seek, State.load4_eq_foldl, Nat.mul_mod_right,
    Nat.mul_div_cancel_left start.toNat (by decide : 0 < 8), BitVec.ofNat_toNat, BitVec.setWidth_eq]
  rfl

/-- Settles O25: the reader is set to the first bit of a range inside the input; another range is refused. -/
theorem brNewResult : Obligations.BrNewResult := by
  intro s
  split
  · next h =>
    have e : exec .brNew s = .next ((s.brNew s.arg0 s.arg1).finishOk 0 0) := congrArg _ (State.checked_of s h)
    have frame : s.brNew s.arg0 s.arg1 = { s with br := (s.brNew s.arg0 s.arg1).br } := rfl
    rw [e, frame, State.arg0, State.arg1, State.brNew_br]
    rfl
  · next h => exact next_checked_of_not h

/-! ### Moves inside the range -/

/-- A move that fits, with the reader it leaves written out (R113, R114). -/
theorem State.brMove_of_inside {s : State} {n : Nat} (hf : s.br.fail = false) (h : s.br.pos + n ≤ s.br.limit) :
    s.brMove n = { s with br := if n = 0 then s.br else { s.br with
      ptr := BitVec.ofNat 64 ((s.br.pos + n) / 8)
      bitpos := BitVec.ofNat 5 ((s.br.pos + n) % 8)
      cache := s.load4 ((s.br.pos + n) / 8) } } := by
  split
  · next hn => exact if_pos (.inr hn)
  · next hn => exact State.brMove_of_fits hf (Nat.pos_of_ne_zero hn) h

/-- A read whose count is in range is one checked read (R112, R113, R116, R117). -/
theorem exec_of_read {i : Instr} {s : State} {n : Nat}
    (h : ((i = .brReadBit ∨ i = .brReadBitChk) ∧ n = 1) ∨
      ((i = .brReadBits ∨ i = .brReadBitsChk) ∧ n = s.arg0 ∧ 1 ≤ n ∧ n ≤ 32)) :
    1 ≤ n ∧ exec i s = .next (s.readCommand n) := by
  obtain ⟨rfl | rfl, rfl⟩ | ⟨rfl | rfl, rfl, hn⟩ := h
  · exact ⟨Nat.le_refl 1, rfl⟩
  · exact ⟨Nat.le_refl 1, rfl⟩
  · exact ⟨hn.1, congrArg _ (State.checked_of s hn)⟩
  · exact ⟨hn.1, congrArg _ (State.checked_of s hn)⟩

/-- An advance whose count is in range is one checked move (R114, R115, R118). -/
theorem exec_of_advance {i : Instr} {s : State} {n : Nat}
    (h : ((i = .brAdvance ∨ i = .brAdvanceChk) ∧ n = s.arg0 ∧ n ≤ 32) ∨ (i = .brAdvanceBytesChk ∧ n = 8 * s.arg0)) :
    exec i s = .next (s.moveCommand n) := by
  obtain ⟨rfl | rfl, rfl, hn⟩ | ⟨rfl, rfl⟩ := h
  · exact congrArg _ (State.checked_of s hn)
  · exact congrArg _ (State.checked_of s hn)
  · rfl

/-- Settles O26: the move fits, and the value is the field it moves past. -/
theorem readsReturnTheField : Obligations.ReadsReturnTheField := by
  intro i s n h hf hl
  obtain ⟨hn, e⟩ := exec_of_read h
  rw [e, State.readCommand, State.brValue_of_fits hf hl, State.field_eq_listSum, State.brMove_of_inside hf hl,
    if_neg (Nat.ne_of_gt hn)]
  rfl

/-- Settles O27: the move fits, or is by nothing. -/
theorem advancesMove : Obligations.AdvancesMove := by
  intro i s n h hf hl
  rw [exec_of_advance h, State.moveCommand, State.brMove_of_inside hf hl]
  rfl

/-! ### `BR_PEEK8`, `BR_AT_END` -/

/-- Fewer than 8 bits remain exactly at the end of the range and inside its last byte (R120). -/
theorem Reader.atEnd_iff {r : Reader} (h : r.ok) : r.atEnd = true ↔ r.limit - r.pos ≤ 7 := by
  obtain ⟨hb, hp⟩ := h
  simp only [Reader.pos, Reader.limit] at hp ⊢
  simp only [Reader.atEnd, Bool.or_eq_true, Bool.and_eq_true, decide_eq_true_eq]
  omega

/-- Settles O29: the cache holds the next 8 bits, those past the range 0; the end is told from `BR_PTR`, `BR_BITPOS`. -/
theorem peekAndAtEnd : Obligations.PeekAndAtEnd := by
  refine ⟨fun s h hc => ?_, fun s h => ?_⟩
  · have bit (j : Nat) : (s.sbit (s.br.pos + j)).toNat * 2 ^ j =
        if s.br.pos + j < s.br.limit then (s.sbit (s.br.pos + j)).toNat * 2 ^ j else 0 := by
      split
      · rfl
      · next hj => rw [State.sbit_of_past (Nat.le_of_not_lt hj), Bool.toNat_false, Nat.zero_mul]
    simp only [← bit, ← State.field_eq_listSum, ← State.peek8_eq_field h hc]
    rfl
  · have value : s.br.atEnd.toNat = if s.br.limit - s.br.pos ≤ 7 then 1 else 0 := by
      simp only [← Reader.atEnd_iff h]
      cases s.br.atEnd <;> rfl
    rw [← value]
    rfl

/-! ### The reader's invariant -/

/-- From `s` to `t` the reader's invariant is kept, and so is a fresh cache (R110, R291). -/
structure State.ReaderKept (s t : State) : Prop where
  ok : s.br.ok → t.br.ok
  fresh : s.cacheFresh → t.cacheFresh

theorem State.ReaderKept.trans {s t u : State} (h : s.ReaderKept t) (h' : t.ReaderKept u) : s.ReaderKept u :=
  ⟨h'.ok ∘ h.ok, h'.fresh ∘ h.fresh⟩

theorem State.Reading.readerKept {s t : State} (h : s.Reading t) : s.ReaderKept t := ⟨h.ok, h.fresh⟩

theorem State.ReaderKept.of_eq {s t : State} (h1 : t.br = s.br) (h2 : t.input = s.input) : s.ReaderKept t :=
  (State.Reading.of_eq h1 h2).readerKept

/-- `br_new` establishes the invariant, whatever the reader was (R110, R111). -/
theorem State.brNew_readerKept (s : State) {start stop : Nat} (h : start ≤ stop) (hs : stop < 2 ^ 64) :
    s.ReaderKept (s.brNew start stop) := ⟨fun _ => State.brNew_ok h hs, fun _ => State.brNew_cacheFresh (by omega)⟩

theorem State.huffDecode_readerKept (s : State) (start stop : Nat) : s.ReaderKept (s.huffDecode start stop).state :=
  State.ReaderKept.trans (t := s.setOut start stop) (.of_eq rfl rfl) (s.huffDecode_decoding start stop).reading.readerKept

theorem State.treeRecover_readerKept (s : State) : s.ReaderKept s.treeRecover.state := by
  obtain ⟨-, h, -⟩ := s.treeRecover_recovering
  exact h.readerKept

/-- Of the three modes only HUFF_RLE has a reader, over exactly the payload (R218 to R220). -/
theorem State.decodePayload_readerKept (s : State) (h : BlockHeader) {q : Nat} (start len : Nat) (hq : q + h.es < 2 ^ 64) :
    s.ReaderKept (s.decodePayload h q start len).state := by
  unfold State.decodePayload
  split
  · unfold State.decodeCopy; split <;> exact .of_eq rfl rfl
  · split
    · unfold State.decodeFill; split <;> exact .of_eq rfl rfl
    · exact (s.brNew_readerKept (Nat.le_add_right q h.es) hq).trans
        (Res.bind_rel (R := State.ReaderKept) State.ReaderKept.trans (State.treeRecover_readerKept _)
          fun _ t _ => t.huffDecode_readerKept _ _)

theorem State.blockDecode_readerKept (s : State) (p start len : Nat) :
    s.ReaderKept (s.blockDecode p start len).state := by
  unfold State.blockDecode
  split
  · exact .of_eq rfl rfl
  · next h e =>
    obtain ⟨⟨hfit, -⟩, rfl⟩ := State.readBlockHeader_eq_ok.1 e
    exact Res.bind_rel (R := State.ReaderKept) State.ReaderKept.trans
      (s.decodePayload_readerKept _ _ _ (Nat.lt_of_le_of_lt hfit s.inLen_lt)) fun _ _ _ => .of_eq rfl rfl

theorem State.decodeLoop_readerKept (d fuel pos o : Nat) (s : State) :
    s.ReaderKept (s.decodeLoop d fuel pos o).state := by
  induction fuel generalizing pos o s with
  | zero => exact .of_eq rfl rfl
  | succ fuel ih =>
    unfold State.decodeLoop
    split
    · exact Res.bind_rel (R := State.ReaderKept) State.ReaderKept.trans (s.blockDecode_readerKept _ _ _)
        fun _ t _ => ih _ _ t
    · exact .of_eq rfl rfl

/-- Every command keeps the reader's invariant and a fresh cache: it only reads through the reader, or sets it up over a
range of the input (R110, R291). -/
theorem exec_readerKept {i : Instr} {s t : State} (h : exec i s = .next t) : s.ReaderKept t := by
  have finish {u v : State} (k : s.ReaderKept u) (h1 : v.br = u.br) (h2 : v.input = u.input) : s.ReaderKept v :=
    k.trans (.of_eq h1 h2)
  have refused : s.ReaderKept (s.failWith .illegal) := .of_eq rfl rfl
  by_cases hi : i ∈ [.brNew, .blockDecode, .decode]
  · simp only [List.mem_cons, List.not_mem_nil, or_false] at hi
    obtain rfl | rfl | rfl := hi
    · obtain rfl := Host.Outcome.next.inj h
      exact State.checked_rec (motive := s.ReaderKept) refused fun ⟨hle, _⟩ =>
        finish (s.brNew_readerKept hle s.ops.arg1.isLt) rfl rfl
    · obtain rfl := Host.Outcome.next.inj h
      refine State.checked_rec (motive := s.ReaderKept) refused fun _ => ?_
      have k := s.blockDecode_readerKept s.arg0 s.arg1 s.arg2
      split
      · next e => rw [e] at k; exact finish k rfl rfl
      · next e => rw [e] at k; exact finish k rfl rfl
    · obtain rfl := Host.Outcome.next.inj h
      have k := s.decodeLoop_readerKept s.announced (blockCount s.announced) Config.masterHdr 0
      split_ifs
      · exact .of_eq rfl rfl
      · exact .of_eq rfl rfl
      · split
        · next e => rw [e] at k; exact finish k rfl rfl
        · next e => rw [e] at k; exact finish k rfl rfl
  · exact (exec_reading h hi).readerKept

/-- Settles O18: a step runs a command, leaves the reader alone or resets it. -/
theorem readerInvariantKept : Obligations.ReaderInvariantKept := by
  refine ⟨fun s t hok h => ?_, fun i s t hok hfresh h => ?_⟩
  · obtain ⟨i, e⟩ | ⟨e, -⟩ | ⟨e, -⟩ := step_cases h
    · exact (exec_readerKept e).ok hok
    · rw [e]; exact hok
    · rw [e]; decide
  · have k := exec_readerKept h
    exact ⟨k.ok hok, k.fresh hfresh⟩

end Sys2Proof.Machine
end

section
/-! SUPPORT. The bit writer's commands (`spec/41_bitwriter.md` R131 to R133), and that every step keeps the writer's
invariant and the encoder's tables well formed (R130, R32, R33). -/

namespace Sys2Proof.Machine

/-! ### The invariants of the encoding side -/

/-- From `s` to `t` the encoder's tables stay well formed, and so does the writer (R32, R33, R130). -/
structure State.EncodeSideKept (s t : State) : Prop where
  enc : s.enc.ok → t.enc.ok
  bw : s.bw.ok → t.bw.ok

theorem State.EncodeSideKept.of_eq {s t : State} (h1 : t.bw = s.bw) (h2 : t.enc = s.enc) : s.EncodeSideKept t :=
  ⟨fun k => h2 ▸ k, fun k => h1 ▸ k⟩

theorem State.EncodeSideKept.of_bw {s t : State} (h : t.enc = s.enc) (hb : s.bw.ok → t.bw.ok) : s.EncodeSideKept t :=
  ⟨fun k => h ▸ k, hb⟩

theorem State.EncodeSideKept.of_enc {s t : State} (h : t.bw = s.bw) (he : s.enc.ok → t.enc.ok) : s.EncodeSideKept t :=
  ⟨he, fun k => h ▸ k⟩

theorem State.Encoding.encodeSideKept {lo : Nat} {s t : State} (h : s.Encoding lo t) : s.EncodeSideKept t := ⟨h.enc, h.bw⟩

/-- A count written by the host is no part of what makes the tables well formed (R32, R252). -/
theorem Encoder.writeCount_ok {e : Encoder} (h : e.ok) (i value : Nat) : (e.writeCount i value).ok := by
  obtain ⟨hsym, henode, hnext, hcodes⟩ := h
  refine ⟨by simpa [Encoder.writeCount] using hsym, henode, hnext, fun x hx => ?_⟩
  obtain ⟨j, hj, rfl⟩ := List.mem_iff_getElem.1 hx
  have hj' : j < e.sym.length := by simpa [Encoder.writeCount] using hj
  have hy := hcodes _ (List.getElem_mem hj')
  simp only [Encoder.writeCount, List.getElem_modify]
  split
  · exact hy
  · exact hy

theorem execBlockEncode_encodeSideKept {s t : State} (h : exec .blockEncode s = .next t) : s.EncodeSideKept t := by
  obtain rfl := Host.Outcome.next.inj h
  refine State.checked_rec (motive := s.EncodeSideKept) (.of_eq rfl rfl) fun _ => ?_
  split
  · exact .of_eq rfl rfl
  · have k := (State.blockEncodeBody_encoding crc32c (s := s) s.arg0 s.arg1 (outPos := s.arg2) (by omega)).encodeSideKept
    split
    · next e => rw [e] at k; exact ⟨k.enc, k.bw⟩
    · next e => rw [e] at k; exact ⟨k.enc, k.bw⟩

theorem execEncode_encodeSideKept {s t : State} (h : exec .encode s = .next t) : s.EncodeSideKept t := by
  obtain rfl := Host.Outcome.next.inj h
  split_ifs with size room
  · exact .of_eq rfl rfl
  · exact .of_eq rfl rfl
  · have k := (State.encodeAll_encoding crc32c (s := s) (by omega)).encodeSideKept
    split
    · next e => rw [e] at k; exact ⟨k.enc, k.bw⟩
    · next e => rw [e] at k; exact ⟨k.enc, k.bw⟩

/-- Every command keeps both invariants: each of the writer's and of the encoder's commands by the law of its operation,
and the others touch neither unit (R26, R294). -/
theorem exec_encodeSideKept {i : Instr} {s t : State} (h : exec i s = .next t) : s.EncodeSideKept t := by
  have refused : s.EncodeSideKept (s.failWith .illegal) := .of_eq rfl rfl
  cases i with
  | bwNew =>
    obtain rfl := Host.Outcome.next.inj h
    exact State.checked_rec (motive := s.EncodeSideKept) refused fun ⟨hle, _⟩ =>
      .of_bw rfl fun _ => State.bwNew_ok (s := s) hle s.ops.arg1.isLt
  | bwWriteBits =>
    obtain rfl := Host.Outcome.next.inj h
    refine State.checked_rec (motive := s.EncodeSideKept) refused fun _ => .of_bw ?_ fun k => State.bwWriteBits_ok k _ _
    rw [State.bwWriteBits_frame]; rfl
  | bwForceFlush =>
    obtain rfl := Host.Outcome.next.inj h
    refine .of_bw ?_ State.bwForceFlush_ok
    rw [State.bwForceFlush_frame]; rfl
  | histogram =>
    obtain rfl := Host.Outcome.next.inj h
    exact State.checked_rec (motive := s.EncodeSideKept) refused fun _ =>
      .of_enc rfl fun k => State.histogram_enc_ok k _ _
  | treeBuild => obtain rfl := Host.Outcome.next.inj h; exact .of_enc rfl Encoder.treeBuild_ok
  | treeEmit =>
    obtain rfl := Host.Outcome.next.inj h
    exact State.checked_rec (motive := s.EncodeSideKept) refused fun _ => ⟨State.treeEmit_enc_ok, State.treeEmit_bw_ok⟩
  | symEmit =>
    obtain rfl := Host.Outcome.next.inj h
    refine State.checked_rec (motive := s.EncodeSideKept) refused fun _ => .of_bw ?_ fun k => State.symEmit_bw_ok k _ _
    rw [State.symEmit_frame]; rfl
  | tblWrite =>
    obtain rfl := Host.Outcome.next.inj h
    exact State.checked_rec (motive := s.EncodeSideKept) refused fun _ =>
      .of_enc rfl fun k => Encoder.writeCount_ok k _ _
  | blockEncode => exact execBlockEncode_encodeSideKept h
  | encode => exact execEncode_encodeSideKept h
  | _ =>
    obtain ⟨-, hbw, henc, -⟩ := unitsChangedByOwnCommands _ s t h
    exact .of_eq (hbw (by decide)) (henc (by decide))

/-- A step keeps both invariants: it runs a command, leaves the two units alone or resets them. -/
theorem step_encodeSideKept {s t : State} (h : step s = .next t) : s.EncodeSideKept t := by
  obtain ⟨i, e⟩ | ⟨-, hbw, henc, -⟩ | ⟨-, hbw, henc, -⟩ := step_cases h
  · exact ⟨(exec_encodeSideKept e).enc, (exec_encodeSideKept e).bw⟩
  · exact .of_eq hbw henc
  · exact ⟨fun _ => henc ▸ State.reset_enc_ok, fun _ => by rw [hbw]; decide⟩

/-- Settles O19: every command and every other action of the host keeps both invariants. -/
theorem writerAndEncoderInvariantsKept : Obligations.WriterAndEncoderInvariantsKept :=
  ⟨fun _ _ hok h => (step_encodeSideKept h).bw hok, fun _ _ hok h => (step_encodeSideKept h).enc hok⟩

/-! ### `BW_WRITE_BITS` -/

/-- A write whose bit count is in range is one `bw_write_bits` (R132, R264). -/
theorem execBwWriteBits_of_count {s : State} (h1 : 1 ≤ s.arg1) (h2 : s.arg1 ≤ 32) :
    exec .bwWriteBits s = .next ((s.bwWriteBits s.arg0 s.arg1).finishOk 0 0) :=
  congrArg _ (State.checked_of s ⟨h1, h2⟩)

/-- The accumulator of R132, bit by bit: the pending bits, and above them the bits written. -/
theorem testBit_accumulator {c x n p i : Nat} (hc : c < 2 ^ p) (hi : i < p + n) :
    (c ||| (x % 2 ^ n) <<< p).testBit i = if i < p then c.testBit i else x.testBit (i - p) := by
  rw [Nat.testBit_or, Nat.testBit_shiftLeft, Nat.testBit_mod_two_pow]
  split
  · next h => simp [show ¬ p ≤ i by omega]
  · next h =>
    rw [Nat.testBit_lt_two_pow (Nat.lt_of_lt_of_le hc (Nat.pow_le_pow_right (by decide) (Nat.le_of_not_lt h)))]
    simp [Nat.le_of_not_lt h, show i - p < n by omega]

/-- The bits of a memory after a little-endian write are the bits of the value from its first byte on (R62). -/
theorem bitAt_writeLE (f : Nat → Byte) (m : Mem) {a n q : Nat} (v : Nat) (h1 : 8 * a ≤ q) (h2 : q < 8 * (a + n)) :
    bitAt ((m.writeLE a n v).read f) q = v.testBit (q - 8 * a) := by
  rw [bitAt, Mem.read_writeLE, if_pos (by omega), BitVec.getLsbD_ofNat, show (256 : Nat) = 2 ^ 8 from rfl, ← Nat.pow_mul,
    Nat.testBit_div_two_pow, decide_eq_true (by omega : q % 8 < 8), Bool.true_and]
  congr 1; omega

/-- A write whose whole bytes do not fit: the bytes up to the end of the range are stored, the writer stands there with
`BW_FAIL` set and nothing pending (R132). -/
theorem State.bwWriteBits_of_past {s : State} {x n : Nat} (hok : s.bw.ok) (hf : s.bw.fail = false)
    (h : s.bw.stop.toNat < (s.bw.pos + n) / 8) :
    s.bwWriteBits x n =
      { s with
        bw := ⟨s.bw.stop, s.bw.stop, 0#6, 0#32, true⟩
        output := s.output.writeLE s.bw.ptr.toNat (s.bw.stop.toNat - s.bw.ptr.toNat)
          (s.bw.cache.toNat ||| (x % 2 ^ n) <<< s.bw.bitpos.toNat) } := by
  obtain ⟨-, -, hptr⟩ := hok
  rw [Writer.pos] at h
  rw [State.bwWriteBits, if_neg (by simp [hf]), State.bwFlush_eq _ _ _ _ hptr, if_neg (by omega)]

/-- What such a write leaves in the range: the pending bits, then the bits of `x` (R130, R132). -/
theorem State.outBit_bwWriteBits_of_past {s : State} {x n q : Nat} (hok : s.bw.ok) (hf : s.bw.fail = false)
    (h : s.bw.stop.toNat < (s.bw.pos + n) / 8) (h1 : 8 * s.bw.ptr.toNat ≤ q) (h2 : q < 8 * s.bw.stop.toNat) :
    (s.bwWriteBits x n).outBit q = if q < s.bw.pos then s.writtenBit q else x.testBit (q - s.bw.pos) := by
  have stored : (s.bwWriteBits x n).outBit q =
      (s.bw.cache.toNat ||| (x % 2 ^ n) <<< s.bw.bitpos.toNat).testBit (q - 8 * s.bw.ptr.toNat) := by
    rw [State.bwWriteBits_of_past hok hf h]
    exact bitAt_writeLE _ _ _ h1 (by omega)
  obtain ⟨-, hcache, -⟩ := hok
  have pending : s.writtenBit q = s.bw.cache.toNat.testBit (q - 8 * s.bw.ptr.toNat) := if_neg (by omega)
  rw [Writer.pos] at h ⊢
  rw [stored, testBit_accumulator hcache (by omega), pending, Nat.sub_sub]
  exact if_congr (by omega) rfl rfl

/-- Settles O31: a write that fits appends its bits; one that does not stores what fits and drops the rest; the count is
checked first. -/
theorem writeBitsAppends : Obligations.WriteBitsAppends := by
  refine ⟨fun s hok hf h1 h2 hfit => ?_, fun s hok hf h1 h2 hpast => ?_, fun s hn => next_checked_of_not (by omega)⟩
  · have appended : s.appended (s.bwWriteBits s.arg0 s.arg1) (bitsOf s.arg0 s.arg1) :=
      (State.bwWriteBits_writes hok s.arg0 s.arg1 h2).of_fits hf (by
        rw [bitsOf_length]; rw [Writer.pos] at hfit; omega)
    refine ⟨_, execBwWriteBits_of_count h1 h2, State.appended_congr_right appended rfl rfl, ?_⟩
    conv_lhs => rw [State.bwWriteBits_frame]
    rfl
  · refine ⟨_, execBwWriteBits_of_count h1 h2, ?_, fun a ha => ?_, fun q =>
      State.outBit_bwWriteBits_of_past hok hf hpast⟩
    · rw [State.bwWriteBits_of_past hok hf hpast]; rfl
    · exact (s.bwWriteBits_confined _ _).stores.read_outside _ ha

/-! ### `BW_NEW` -/

/-- Settles O30: the writer stands at the start of a range inside the output with nothing pending; another range is refused. -/
theorem bwNewResult : Obligations.BwNewResult := by
  intro s
  split
  · next h =>
    have e : exec .bwNew s = .next ((s.bwNew s.arg0 s.arg1).finishOk 0 0) := congrArg _ (State.checked_of s h)
    rw [e, State.bwNew, State.arg0, State.arg1, BitVec.ofNat_toNat, BitVec.ofNat_toNat, BitVec.setWidth_eq,
      BitVec.setWidth_eq]
    rfl
  · next h => exact next_checked_of_not h

/-! ### `BW_FORCE_FLUSH` -/

theorem Writer.pending_pos {w : Writer} (h : w.bitpos ≠ 0#6) : w.bitpos.toNat ≠ 0 := fun k =>
  h (BitVec.eq_of_toNat_eq k)

/-- With nothing pending, or once the writer has failed, a flush does nothing (R133, R134). -/
theorem State.bwForceFlush_of_idle {s : State} (h : s.bw.fail = true ∨ s.bw.bitpos = 0#6) : s.bwForceFlush = s := by
  unfold State.bwForceFlush
  split
  · rfl
  · next hf => exact if_pos (by rw [h.resolve_left hf]; rfl)

/-- With bits pending and room for a byte the low byte of the cache is stored, whatever its bits above the pending ones
(R133). -/
theorem State.bwForceFlush_of_room {s : State} (hf : s.bw.fail = false) (hb : s.bw.bitpos ≠ 0#6)
    (hp : s.bw.ptr.toNat < s.bw.stop.toNat) :
    s.bwForceFlush =
      { s with
        bw := ⟨s.bw.ptr + 1#64, s.bw.stop, 0#6, 0#32, false⟩
        output := s.output.write s.bw.ptr.toNat (s.bw.cache.setWidth 8) } := by
  rw [State.bwForceFlush, if_neg (by simp [hf]), if_neg (Writer.pending_pos hb), if_neg (by omega)]
  simp [State.bwPut, State.putOut, hf]

/-- With bits pending and no room for them `BW_FAIL` is set and they are dropped (R133). -/
theorem State.bwForceFlush_of_full {s : State} (hf : s.bw.fail = false) (hb : s.bw.bitpos ≠ 0#6)
    (hp : s.bw.stop.toNat ≤ s.bw.ptr.toNat) : s.bwForceFlush = s.bwOverflow := by
  rw [State.bwForceFlush, if_neg (by simp [hf]), if_neg (Writer.pending_pos hb), if_pos hp]

/-- The low byte of the cache between operations: the pending bits, and above them padding bits 0 (R96, R130). -/
theorem State.cacheByte_getLsbD {s : State} (hok : s.bw.ok) {j : Nat} (hj : j < 8) :
    (s.bw.cache.setWidth 8).getLsbD j =
      if j < s.bw.bitpos.toNat then s.writtenBit (8 * s.bw.ptr.toNat + j) else false := by
  obtain ⟨-, hcache, -⟩ := hok
  rw [BitVec.getLsbD_setWidth, decide_eq_true hj, Bool.true_and]
  split
  · rw [State.writtenBit, if_neg (by omega), Nat.add_sub_cancel_left]
  · next h =>
    exact Nat.testBit_lt_two_pow (Nat.lt_of_lt_of_le hcache (Nat.pow_le_pow_right (by decide) (Nat.le_of_not_lt h)))

/-- Settles O32: a flush is idle, stores one byte, or has no room for it. -/
theorem forceFlushCompletesTheByte : Obligations.ForceFlushCompletesTheByte := by
  have run (s : State) : exec .bwForceFlush s = .next (s.bwForceFlush.finishOk 0 0) := rfl
  refine ⟨fun s hf hb hp => ?_, fun s h => ?_, fun s hf hb hp => ?_⟩
  · have byte (a : Nat) : (s.bwForceFlush.finishOk 0 0).outByte a =
        if a = s.bw.ptr.toNat then s.bw.cache.setWidth 8 else s.outByte a := by
      rw [State.bwForceFlush_of_room hf hb hp]
      exact Mem.read_write _ _ _ _ _
    refine ⟨_, run s, ?_, byte, fun hok j hj => ?_⟩
    · rw [State.bwForceFlush_of_room hf hb hp]; rfl
    · rw [byte, if_pos rfl, State.cacheByte_getLsbD hok hj]
  · rw [run, State.bwForceFlush_of_idle h]; rfl
  · rw [run, State.bwForceFlush_of_full hf hb hp]; rfl

end Sys2Proof.Machine
end

section
/-! SUPPORT. The tree builder as a command (`spec/42_tree_builder.md` R140 to R145): the selection and one merge, and what a
whole build leaves. -/

namespace Sys2Proof.Machine

/-! ### Selection -/

/-- An entry the scan may choose: its count is not 0 and it is not the one to skip (R141). -/
abbrev Encoder.candidate (e : Encoder) (skip : Option Nat) (i : Nat) : Prop :=
  i < e.next.toNat ∧ 0 < (e.nodeAt i).count.toNat ∧ skip ≠ some i

/-- Pairs of count and index, compared first by count, then by index (R141). -/
abbrev Encoder.beats (e : Encoder) (i j : Nat) : Prop :=
  (e.nodeAt i).count.toNat < (e.nodeAt j).count.toNat ∨
    ((e.nodeAt i).count.toNat = (e.nodeAt j).count.toNat ∧ i ≤ j)

section Selection

variable {e : Encoder} {skip : Option Nat}

theorem Encoder.scanned_length (h : e.next.toNat ≤ e.enode.length) : e.scanned.length = e.next.toNat := by
  rw [Encoder.scanned, List.length_take, Nat.min_eq_left h]

theorem Encoder.scanned_getElem {k : Nat} (hk : k < e.scanned.length) : e.scanned[k] = e.nodeAt k := by
  have hk' : k < e.enode.length := Nat.lt_of_lt_of_le hk (List.length_take_le' ..)
  rw [Encoder.nodeAt_eq hk']
  exact List.getElem_take

/-- What the scan finds is a candidate, with its count, that beats every other. -/
theorem Encoder.candidate_of_lightest (h : e.next.toNat ≤ e.enode.length) {c i : Nat}
    (hs : lightest skip 0 none e.scanned = some (c, i)) :
    e.candidate skip i ∧ c = (e.nodeAt i).count.toNat ∧ ∀ j, e.candidate skip j → e.beats i j := by
  obtain ⟨found, -, least⟩ := lightest_some hs nofun
  obtain found | ⟨k, hk, hik, hc, hc0, hne⟩ := found
  · exact nomatch found
  obtain rfl : i = k := hik.trans (Nat.zero_add k)
  rw [Encoder.scanned_getElem] at hc
  rw [Encoder.scanned_length h] at hk
  refine ⟨⟨hk, by omega, hne⟩, hc.symm, fun j ⟨hj, hj0, hjs⟩ => ?_⟩
  have := least j (by rwa [Encoder.scanned_length h])
  rw [Encoder.scanned_getElem, Nat.zero_add, ← hc] at this
  exact this (by omega) hjs

/-- The scan finds something where there is a candidate. -/
theorem Encoder.lightest_ne_none (h : e.next.toNat ≤ e.enode.length) {i : Nat} (hi : e.candidate skip i) :
    lightest skip 0 none e.scanned ≠ none := fun hs => by
  obtain ⟨hlt, hpos, hne⟩ := hi
  have := (lightest_none hs).2 i (by rwa [Encoder.scanned_length h])
  rw [Encoder.scanned_getElem, Nat.zero_add] at this
  exact this.elim (fun k => by omega) hne

/-- The scan finds the candidate that beats every other, and that only (R141). -/
theorem Encoder.lightest_iff (h : e.next.toNat ≤ e.enode.length) (i : Nat) :
    (∃ c, lightest skip 0 none e.scanned = some (c, i)) ↔
      e.candidate skip i ∧ ∀ j, e.candidate skip j → e.beats i j := by
  refine ⟨fun ⟨c, hs⟩ => ?_, fun ⟨hi, hmin⟩ => ?_⟩
  · obtain ⟨h1, -, h2⟩ := Encoder.candidate_of_lightest h hs
    exact ⟨h1, h2⟩
  · obtain ⟨⟨c, j⟩, hs⟩ := Option.ne_none_iff_exists'.1 (Encoder.lightest_ne_none h hi)
    obtain ⟨hj, -, hmin'⟩ := Encoder.candidate_of_lightest h hs
    have hij := hmin j hj
    have hji := hmin' i hi
    obtain rfl : i = j := by omega
    exact ⟨c, hs⟩

end Selection

/-! ### One merge -/

theorem Encoder.mergeTurn_of_select {e : Encoder} {c1 n1 c2 n2 : Nat} (h1 : e.first = some (c1, n1))
    (h2 : e.second n1 = some (c2, n2)) : e.mergeTurn = e.merge n1 n2 := by
  simp only [Encoder.mergeTurn, h1, h2]

/-- A merge changes three entries only (R142). -/
theorem Encoder.merge_nodeAt_other {e : Encoder} {n1 n2 i : Nat} (hl : e.enode.length = Config.maxTreeNodes)
    (h1 : n1 < e.next.toNat) (h2 : n2 < e.next.toNat) (hi : i ≠ e.next.toNat) (hi1 : i ≠ n1) (hi2 : i ≠ n2) :
    (e.merge n1 n2).nodeAt i = e.nodeAt i := by
  by_cases hlt : i < Config.maxTreeNodes
  · rw [Encoder.merge_nodeAt hl h1 h2 hlt, if_neg hi, if_neg (by tauto)]
  · have outside {e' : Encoder} (hl' : e'.enode.length = Config.maxTreeNodes) : e'.nodeAt i = ENode.unwritten i :=
      List.getD_eq_default _ _ (by omega)
    rw [outside hl, outside (by rw [Encoder.merge_enode_length, hl])]

/-- Settles O33: the scan finds the least candidate, and a turn is the merge of the two it finds. -/
theorem selectsTwoLightest : Obligations.SelectsTwoLightest := by
  rintro e ⟨-, hlen, ⟨-, hnext⟩, -⟩
  have hle : e.next.toNat ≤ e.enode.length := hlen ▸ hnext
  refine ⟨fun i => ?_, fun n1 i => ?_, fun i hi => ?_, fun c1 n1 c2 n2 hlt h1 h2 => ?_⟩
  · simpa [Encoder.first, Encoder.candidate, Encoder.beats] using Encoder.lightest_iff (skip := none) hle i
  · simpa [Encoder.second, Encoder.candidate, Encoder.beats, and_assoc, eq_comm (a := n1)] using
      Encoder.lightest_iff (skip := some n1) hle i
  · exact Encoder.lightest_ne_none hle ⟨hi.1, hi.2, nofun⟩
  obtain ⟨⟨hn1, -, -⟩, rfl, -⟩ := Encoder.candidate_of_lightest hle h1
  obtain ⟨⟨hn2, -, -⟩, rfl, -⟩ := Encoder.candidate_of_lightest hle h2
  have consumed {i : Nat} (hi : i < e.next.toNat) (h : i = n1 ∨ i = n2) :
      (e.merge n1 n2).nodeAt i = { e.nodeAt i with count := 0#64 } := by
    rw [Encoder.merge_nodeAt hlen hn1 hn2 (by omega), if_neg (by omega), if_pos h]
  have hnew := Encoder.merge_nodeAt hlen hn1 hn2 hlt
  rw [if_pos rfl] at hnew
  have hroot : e.next.setWidth 16 = BitVec.ofNat 16 e.next.toNat := BitVec.eq_of_toNat_eq (by simp)
  dsimp only
  rw [Encoder.mergeTurn_of_select h1 h2]
  refine ⟨by rw [← hroot]; rfl, by rw [Encoder.merge_enode_length, hlen], by rw [hnew]; rfl, fun hc => ?_, rfl, rfl,
    consumed hn1 (.inl rfl), consumed hn2 (.inr rfl), fun i => Encoder.merge_nodeAt_other hlen hn1 hn2⟩
  rw [hnew, BitVec.toNat_add, Nat.mod_eq_of_lt hc]

/-! ### The whole build -/

/-- A turn reads `ENODE` and `ENC_NEXT` only, and leaves `SYM` alone (R141, R142). -/
theorem Encoder.mergeTurn_withSym (e : Encoder) (l : List SymEntry) :
    ({ e with sym := l } : Encoder).mergeTurn = { e.mergeTurn with sym := l } := by
  have hfirst : ({ e with sym := l } : Encoder).first = e.first := rfl
  have hsecond (n : Nat) : ({ e with sym := l } : Encoder).second n = e.second n := rfl
  unfold Encoder.mergeTurn
  rw [hfirst]
  split
  · rfl
  · rw [hsecond]
    split <;> rfl

theorem Encoder.mergeTurns_withSym (n : Nat) (e : Encoder) (l : List SymEntry) :
    Encoder.mergeTurns n { e with sym := l } = { Encoder.mergeTurns n e with sym := l } := by
  induction n generalizing e with
  | zero => rfl
  | succ n ih => rw [Encoder.mergeTurns, Encoder.mergeTurn_withSym, ih]; rfl

section Counts

variable {e e' : Encoder}

theorem Encoder.used_of_counts (h : ∀ i < Config.nsym, (e.symAt i).count = (e'.symAt i).count) : e.used = e'.used :=
  List.filter_congr fun i hi => by rw [h i (List.mem_range.1 hi)]

/-- The counts decide the build (R145 (b)). -/
theorem Encoder.treeBuild_of_counts (h : ∀ i < Config.nsym, (e.symAt i).count = (e'.symAt i).count) :
    e'.treeBuild = { e.treeBuild with sym := e'.sym } := by
  have hused := Encoder.used_of_counts h
  have hnodes : e.initialNodes = e'.initialNodes := by
    unfold Encoder.initialNodes
    exact congrArg (· ++ _) (List.map_congr_left fun i hi => by rw [h i (List.mem_range.1 hi)])
  have hinitial : e'.initial = { e.initial with sym := e'.sym } := by
    simp only [Encoder.initial, hnodes, hused]
  rw [Encoder.treeBuild, hinitial, Encoder.mergeTurns_withSym, ← hused]; rfl

end Counts

theorem exec_treeBuild (s : State) : exec .treeBuild s = execTreeBuild s := rfl

/-- Settles O34: with symbols in use the turns leave one tree, with none or one there is nothing to merge; and the counts
decide the build. -/
theorem treeBuildResult : Obligations.TreeBuildResult := by
  refine ⟨fun s => ⟨_, exec_treeBuild s, rfl, s.enc.treeBuild_sym, s.enc.treeBuild_treeValid, s.enc.treeBuild_codesValid,
    s.enc.treeBuild_empty, fun i => s.enc.treeBuild_single, fun hne => ?_⟩, fun s u t v hc ht hv => ?_⟩
  · obtain ⟨tree, hforest, hperm, hnext, -⟩ := s.enc.treeBuild_tree hne
    have hsum : (s.enc.treeBuild.nodeAt s.enc.treeBuild.root.toNat).count.toNat = s.enc.total := by
      simpa using hforest.sum
    exact ⟨tree, Encoder.holds_of_rooted (hforest.rooted _ (List.mem_singleton.2 rfl)), hperm, hsum, hnext⟩
  · obtain rfl := Host.Outcome.next.inj ht
    obtain rfl := Host.Outcome.next.inj hv
    have hbuild := Encoder.treeBuild_of_counts hc
    refine ⟨?_, (congrArg Encoder.enode hbuild).symm, (congrArg Encoder.next hbuild).symm⟩
    have hroot := congrArg Encoder.root hbuild
    have hused := Encoder.used_of_counts hc
    simp only [State.finishOk, hused, hroot]

end Sys2Proof.Machine
end

section
/-! SUPPORT. The tree that `TREE_BUILD` leaves has the least cost (R145 (c)), by the exchange argument: in any tree the two
lightest leaves can be brought to the deepest place, where they are siblings, without raising the cost. So of the trees over
the entries of a forest a cheapest one has the two lightest as siblings, and a turn that merges them keeps it within reach. -/

namespace Sys2Proof.Machine

/-! ### Leaves and their depths -/

/-- The leaves of a tree with their depths, where the root lies at depth `k`. -/
def HTree.leaves (t : HTree) (k : Nat) : Multiset (Nat × Nat) :=
  (t.paths.map fun p => (p.1, k + p.2.length) : List (Nat × Nat))

/-- The sum of weight times depth over a collection of leaves. -/
def leafCost (w : Nat → Nat) (m : Multiset (Nat × Nat)) : Nat := (m.map fun p => w p.1 * p.2).sum

/-- The sum of the weights of a tree's leaves. -/
def HTree.weight (t : HTree) (w : Nat → Nat) : Nat := (t.symbols.map w).sum

@[simp] theorem HTree.leaves_leaf (x k : Nat) : (HTree.leaf x).leaves k = {(x, k)} := rfl

theorem HTree.leaves_node (a b : HTree) (k : Nat) :
    (HTree.node a b).leaves k = a.leaves (k + 1) + b.leaves (k + 1) := by
  simp [HTree.leaves, HTree.paths, Function.comp_def, Nat.add_assoc, Nat.add_comm 1]

theorem HTree.leaves_fst (t : HTree) (k : Nat) : (t.leaves k).map Prod.fst = (t.symbols : Multiset Nat) := by
  rw [← HTree.paths_symbols, HTree.leaves, Multiset.map_coe, List.map_map]; rfl

theorem HTree.leaves_le_depth {t : HTree} {k : Nat} {p : Nat × Nat} (h : p ∈ t.leaves k) : p.2 ≤ k + t.depth := by
  obtain ⟨q, hq, rfl⟩ := List.mem_map.1 (Multiset.mem_coe.1 h)
  exact Nat.add_le_add_left (HTree.path_length_le hq) k

theorem HTree.cost_eq_leafCost (t : HTree) (w : Nat → Nat) : t.cost w = leafCost w (t.leaves 0) := by
  simp [HTree.cost, leafCost, HTree.leaves, Function.comp_def]

@[simp] theorem leafCost_cons (w : Nat → Nat) (p : Nat × Nat) (m : Multiset (Nat × Nat)) :
    leafCost w (p ::ₘ m) = w p.1 * p.2 + leafCost w m := by simp [leafCost]

@[simp] theorem HTree.cost_leaf (x : Nat) (w : Nat → Nat) : (HTree.leaf x).cost w = 0 := rfl

/-- One more level costs every leaf its weight once more. -/
theorem HTree.cost_node (a b : HTree) (w : Nat → Nat) :
    (HTree.node a b).cost w = (a.cost w + a.weight w) + (b.cost w + b.weight w) := by
  have deeper (t : HTree) (bit : Bool) :
      ((t.paths.map fun p => (p.1, bit :: p.2)).map fun p => w p.1 * p.2.length).sum = t.cost w + t.weight w := by
    rw [HTree.cost, HTree.weight, ← HTree.paths_symbols, List.map_map, List.map_map, ← List.sum_map_add]
    rfl
  rw [← deeper a false, ← deeper b true, HTree.cost, HTree.paths, List.map_append, List.sum_append]

theorem HTree.weight_node (a b : HTree) (w : Nat → Nat) : (HTree.node a b).weight w = a.weight w + b.weight w := by
  simp [HTree.weight, HTree.symbols]

/-! ### Relabelling -/

/-- A collection whose image falls into two parts falls into two parts. -/
theorem exists_add_of_map_eq_add {α β : Type} [DecidableEq α] {f : α → β} {m : Multiset α} {a b : Multiset β}
    (h : m.map f = a + b) : ∃ m₁ m₂, m = m₁ + m₂ ∧ m₁.map f = a ∧ m₂.map f = b := by
  induction a using Multiset.induction_on generalizing m with
  | empty => exact ⟨0, m, (zero_add m).symm, Multiset.map_zero f, by rwa [zero_add] at h⟩
  | cons x a ih =>
    rw [Multiset.cons_add] at h
    obtain ⟨y, hy, hfy, hrest⟩ := (Multiset.map_eq_cons f m (a + b) x).2 h
    obtain ⟨m₁, m₂, hm, h1, h2⟩ := ih hrest
    refine ⟨y ::ₘ m₁, m₂, ?_, by rw [Multiset.map_cons, hfy, h1], h2⟩
    rw [Multiset.cons_add, ← hm, Multiset.cons_erase hy]

/-- The leaves of a tree can be given any symbols. -/
theorem HTree.exists_relabelled (t : HTree) {k : Nat} {m : Multiset (Nat × Nat)}
    (h : m.map Prod.snd = (t.leaves k).map Prod.snd) : ∃ t' : HTree, t'.leaves k = m := by
  induction t generalizing k m with
  | leaf x =>
    rw [HTree.leaves_leaf, Multiset.map_singleton] at h
    obtain ⟨⟨y, d⟩, rfl, rfl⟩ := Multiset.map_eq_singleton.1 h
    exact ⟨.leaf y, rfl⟩
  | node a b iha ihb =>
    rw [HTree.leaves_node, Multiset.map_add] at h
    obtain ⟨m₁, m₂, rfl, h1, h2⟩ := exists_add_of_map_eq_add h
    obtain ⟨a', rfl⟩ := iha h1
    obtain ⟨b', rfl⟩ := ihb h2
    exact ⟨.node a' b', HTree.leaves_node a' b' k⟩

/-- Bringing the symbol `x` to a place `a` holds, at depth `D`, does not raise the cost where `x` is no heavier and no leaf
lies deeper. -/
theorem exists_exchange {w : Nat → Nat} {a x D : Nat} {m : Multiset (Nat × Nat)} (hdeep : ∀ p ∈ m, p.2 ≤ D)
    (hx : x ∈ a ::ₘ m.map Prod.fst) (hw : w x ≤ w a) :
    ∃ m' : Multiset (Nat × Nat), m'.map Prod.snd = m.map Prod.snd ∧
      x ::ₘ m'.map Prod.fst = a ::ₘ m.map Prod.fst ∧ w x * D + leafCost w m' ≤ w a * D + leafCost w m := by
  obtain rfl | hx := Multiset.mem_cons.1 hx
  · exact ⟨m, rfl, rfl, le_rfl⟩
  · obtain ⟨⟨x', d⟩, hp, hx'⟩ := Multiset.mem_map.1 hx
    obtain rfl : x' = x := hx'
    obtain ⟨rest, rfl⟩ := Multiset.exists_cons_of_mem hp
    have hd : d ≤ D := hdeep _ hp
    refine ⟨(a, d) ::ₘ rest, by simp, by simp [Multiset.cons_swap], ?_⟩
    have := mul_add_mul_le_mul_add_mul hw hd
    simp only [leafCost_cons]
    omega

/-- The two lightest symbols can be brought to two places at the greatest depth. -/
theorem exists_exchange_two {w : Nat → Nat} {a b x y D : Nat} {m : Multiset (Nat × Nat)} {l : List Nat}
    (hdeep : ∀ p ∈ m, p.2 ≤ D) (hsym : a ::ₘ b ::ₘ m.map Prod.fst = x ::ₘ y ::ₘ (l : Multiset Nat))
    (hxy : w x ≤ w y) (hlight : ∀ z ∈ l, w y ≤ w z) :
    ∃ m' : Multiset (Nat × Nat), m'.map Prod.snd = m.map Prod.snd ∧ m'.map Prod.fst = (l : Multiset Nat) ∧
      (w x + w y) * D + leafCost w m' ≤ (w a + w b) * D + leafCost w m := by
  have hy : ∀ z ∈ y ::ₘ (l : Multiset Nat), w y ≤ w z := Multiset.forall_mem_cons.2 ⟨le_rfl, hlight⟩
  have hx : ∀ z ∈ x ::ₘ y ::ₘ (l : Multiset Nat), w x ≤ w z :=
    Multiset.forall_mem_cons.2 ⟨le_rfl, fun z hz => hxy.trans (hy z hz)⟩
  obtain ⟨m₁, hsnd₁, hfst₁, hcost₁⟩ := exists_exchange (m := (b, D) ::ₘ m)
    (Multiset.forall_mem_cons.2 ⟨le_rfl, hdeep⟩) (by rw [Multiset.map_cons, hsym]; exact Multiset.mem_cons_self ..)
    (hx a (hsym ▸ Multiset.mem_cons_self ..))
  rw [Multiset.map_cons] at hsnd₁ hfst₁
  obtain ⟨⟨b', d⟩, hb', hd, hsnd⟩ := (Multiset.map_eq_cons Prod.snd m₁ _ _).2 hsnd₁
  obtain rfl : d = D := hd
  obtain ⟨m₂, rfl⟩ := Multiset.exists_cons_of_mem hb'
  rw [Multiset.erase_cons_head] at hsnd
  rw [hsym, Multiset.map_cons, Multiset.cons_inj_right] at hfst₁
  have hdeep₂ : ∀ p ∈ m₂, p.2 ≤ d := fun p hp => by
    obtain ⟨q, hq, hpq⟩ := Multiset.mem_map.1 (hsnd ▸ Multiset.mem_map_of_mem Prod.snd hp)
    exact hpq ▸ hdeep q hq
  obtain ⟨m₃, hsnd₃, hfst₃, hcost₃⟩ := exists_exchange (w := w) (a := b') (x := y) hdeep₂
    (hfst₁ ▸ Multiset.mem_cons_self ..) (hy b' (hfst₁ ▸ Multiset.mem_cons_self ..))
  refine ⟨m₃, hsnd₃.trans hsnd, (Multiset.cons_inj_right y).1 (hfst₃.trans hfst₁), ?_⟩
  simp only [leafCost_cons] at hcost₁
  rw [Nat.add_mul, Nat.add_mul]
  omega

/-! ### The deepest siblings -/

/-- Two siblings lie at the greatest depth, and the tree with these two replaced by one leaf exists. -/
def HTree.HasDeepestPair (t : HTree) : Prop :=
  ∀ k, ∃ a b rest, ∃ v : HTree,
    t.leaves k = (a, k + t.depth) ::ₘ (b, k + t.depth) ::ₘ rest ∧
    (v.leaves k).map Prod.snd = (k + t.depth - 1) ::ₘ rest.map Prod.snd

theorem HTree.hasDeepestPair_node {a b : HTree} (h : b.depth ≤ a.depth) (ha : 0 < a.depth → a.HasDeepestPair) :
    (HTree.node a b).HasDeepestPair := by
  intro k
  rcases Nat.eq_zero_or_pos a.depth with h0 | hpos
  · have isLeaf : ∀ t : HTree, t.depth = 0 → ∃ x, t = .leaf x
      | .leaf x, _ => ⟨x, rfl⟩
      | .node _ _, ht => absurd ht (by simp [HTree.depth])
    obtain ⟨x, rfl⟩ := isLeaf a h0
    obtain ⟨y, rfl⟩ := isLeaf b (by omega)
    exact ⟨x, y, 0, .leaf 0, rfl, rfl⟩
  · obtain ⟨x, y, rest, v, hleaves, hv⟩ := ha hpos (k + 1)
    have hdepth : k + (HTree.node a b).depth = k + 1 + a.depth := by rw [HTree.depth, Nat.max_eq_left h, Nat.add_assoc]
    refine ⟨x, y, rest + b.leaves (k + 1), .node v b, ?_, ?_⟩
    · rw [hdepth, HTree.leaves_node, hleaves, Multiset.cons_add, Multiset.cons_add]
    · rw [hdepth, HTree.leaves_node, Multiset.map_add, hv, Multiset.cons_add, Multiset.map_add]

theorem HTree.hasDeepestPair {t : HTree} (h : 0 < t.depth) : t.HasDeepestPair := by
  induction t with
  | leaf x => exact absurd h (Nat.lt_irrefl 0)
  | node a b iha ihb =>
    rcases Nat.le_total b.depth a.depth with hab | hab
    · exact HTree.hasDeepestPair_node hab iha
    · have swapped := HTree.hasDeepestPair_node hab ihb
      have hdepth : (HTree.node b a).depth = (HTree.node a b).depth := by rw [HTree.depth, HTree.depth, Nat.max_comm]
      intro k
      rw [HTree.leaves_node, Multiset.add_comm, ← HTree.leaves_node, ← hdepth]
      exact swapped k

theorem HTree.depth_pos_of_two {t : HTree} (h : 2 ≤ t.symbols.length) : 0 < t.depth := by
  cases t with
  | leaf x => exact absurd h (by simp [HTree.symbols])
  | node a b => exact Nat.lt_of_lt_of_le Nat.one_pos (Nat.le_add_right 1 _)

/-- The exchange argument: with its two lightest leaves merged into one, of their joint weight, some tree costs no more than
the given one without the last branch to each of the two. -/
theorem HTree.exists_merged {t : HTree} {w w' : Nat → Nat} {x y n : Nat} {l : List Nat}
    (hsym : t.symbols.Perm (x :: y :: l)) (hxy : w x ≤ w y) (hlight : ∀ z ∈ l, w y ≤ w z) (hn : w' n = w x + w y)
    (hw : ∀ z ∈ l, w' z = w z) :
    ∃ v : HTree, v.symbols.Perm (n :: l) ∧ v.cost w' + (w x + w y) ≤ t.cost w := by
  have hpos : 0 < t.depth := HTree.depth_pos_of_two (by rw [hsym.length_eq]; simp)
  obtain ⟨a, b, rest, v, hleaves, hv⟩ := HTree.hasDeepestPair hpos 0
  obtain ⟨d, hd⟩ : ∃ d, t.depth = d + 1 := ⟨t.depth - 1, by omega⟩
  simp only [Nat.zero_add, hd, Nat.add_sub_cancel] at hleaves hv
  have hdeep : ∀ p ∈ (a, d + 1) ::ₘ (b, d + 1) ::ₘ rest, p.2 ≤ d + 1 := fun p hp => by
    have := HTree.leaves_le_depth (hleaves ▸ hp)
    omega
  have hfst : a ::ₘ b ::ₘ rest.map Prod.fst = x ::ₘ y ::ₘ (l : Multiset Nat) := by
    have := t.leaves_fst 0
    rw [hleaves, Multiset.map_cons, Multiset.map_cons, Multiset.coe_eq_coe.2 hsym] at this
    exact this
  obtain ⟨m, hsnd, hmsym, hcost⟩ := exists_exchange_two (w := w)
    (fun p hp => hdeep p (Multiset.mem_cons_of_mem (Multiset.mem_cons_of_mem hp))) hfst hxy hlight
  obtain ⟨v', hv'⟩ := v.exists_relabelled (k := 0) (m := (n, d) ::ₘ m) (by rw [hv, Multiset.map_cons, hsnd])
  have hkept : leafCost w' m = leafCost w m := congrArg Multiset.sum <| Multiset.map_congr rfl fun p hp => by
    rw [hw p.1 (Multiset.mem_coe.1 (hmsym ▸ Multiset.mem_map_of_mem Prod.fst hp))]
  refine ⟨v', Multiset.coe_eq_coe.1 ?_, ?_⟩
  · rw [← v'.leaves_fst 0, hv', Multiset.map_cons, hmsym, Multiset.cons_coe]
  · rw [HTree.cost_eq_leafCost, HTree.cost_eq_leafCost, hv', hleaves, leafCost_cons, leafCost_cons, leafCost_cons, hkept, hn]
    linarith

end Sys2Proof.Machine
end

section
/-! SUPPORT. Every turn of the builder keeps a cheapest tree within reach, so that the tree `TREE_BUILD` leaves is optimal
(R145 (c)). -/

namespace Sys2Proof.Machine

/-! ### A turn merges the two lightest -/

/-- The count of an entry of `ENODE` as a number. -/
abbrev Encoder.countAt (e : Encoder) (i : Nat) : Nat := (e.nodeAt i).count.toNat

/-- The new entry tells which two were merged. -/
theorem Encoder.merge_injective {e : Encoder} {n1 n2 m1 m2 : Nat} (hl : e.enode.length = Config.maxTreeNodes)
    (hn : e.next.toNat < Config.maxTreeNodes) (hn1 : n1 < e.next.toNat) (hn2 : n2 < e.next.toNat)
    (hm1 : m1 < e.next.toNat) (hm2 : m2 < e.next.toNat) (h : e.merge n1 n2 = e.merge m1 m2) : n1 = m1 ∧ n2 = m2 := by
  have hnode := congrArg (Encoder.nodeAt · e.next.toNat) h
  simp only [Encoder.merge_nodeAt hl hn1 hn2 hn, Encoder.merge_nodeAt hl hm1 hm2 hn, if_true] at hnode
  have small {i : Nat} (hi : i < e.next.toNat) : (BitVec.ofNat 16 i).toNat = i :=
    Nat.mod_eq_of_lt (by simp only [Config.maxTreeNodes] at hn; omega)
  have hA := congrArg (fun x : ENode => x.childA.toNat) hnode
  have hB := congrArg (fun x : ENode => x.childB.toNat) hnode
  simp only [small hn1, small hn2, small hm1, small hm2] at hA hB
  exact ⟨hA, hB⟩

/-- The two entries a turn merges are the lightest and the lightest of the rest (R141). -/
theorem Encoder.beats_of_mergeTurn {e : Encoder} {n1 n2 : Nat} (hl : e.enode.length = Config.maxTreeNodes)
    (hn : e.next.toNat < Config.maxTreeNodes) (h1 : e.candidate none n1) (h2 : e.candidate (some n1) n2)
    (h : e.mergeTurn = e.merge n1 n2) :
    (∀ j, e.candidate none j → e.beats n1 j) ∧ ∀ j, e.candidate (some n1) j → e.beats n2 j := by
  have hle : e.next.toNat ≤ e.enode.length := by omega
  obtain ⟨⟨c1, m1⟩, hs1⟩ := Option.ne_none_iff_exists'.1 (Encoder.lightest_ne_none hle h1)
  have another : ∃ i, e.candidate (some m1) i := by
    by_cases hm : m1 = n1
    · exact ⟨n2, hm ▸ h2⟩
    · exact ⟨n1, h1.1, h1.2.1, fun k => hm (Option.some.inj k)⟩
  obtain ⟨i, hi⟩ := another
  obtain ⟨⟨c2, m2⟩, hs2⟩ := Option.ne_none_iff_exists'.1 (Encoder.lightest_ne_none hle hi)
  obtain ⟨⟨hm1, -⟩, -, least1⟩ := Encoder.candidate_of_lightest hle hs1
  obtain ⟨⟨hm2, -⟩, -, least2⟩ := Encoder.candidate_of_lightest hle hs2
  obtain ⟨rfl, rfl⟩ := Encoder.merge_injective hl hn h1.1 h2.1 hm1 hm2
    (h.symm.trans (Encoder.mergeTurn_of_select hs1 hs2))
  exact ⟨least1, least2⟩

/-! ### The invariant of the loop -/

/-- Each entry of the forest carries the weight of its tree, and for every tree over the symbols there is one over the
entries that, with each entry replaced by its tree, costs no more. -/
structure Encoder.Optimal (e : Encoder) (count : Nat → Nat) (syms : List Nat) (f : List (Nat × HTree)) : Prop where
  weight : ∀ p ∈ f, e.countAt p.1 = p.2.weight count
  least : ∀ other : HTree, other.symbols.Perm syms → ∃ top : HTree, top.symbols.Perm (f.map Prod.fst) ∧
    top.cost e.countAt + (f.map fun p => p.2.cost count).sum ≤ other.cost count

section Turn

variable {e : Encoder} {count : Nat → Nat} {syms : List Nat} {f : List (Nat × HTree)} {total : Nat}

theorem Encoder.Optimal.of_perm {f' : List (Nat × HTree)} (h : e.Optimal count syms f) (hp : f.Perm f') :
    e.Optimal count syms f' := by
  refine ⟨fun p hpf => h.weight p (hp.mem_iff.2 hpf), fun other ho => ?_⟩
  obtain ⟨top, hsym, hcost⟩ := h.least other ho
  exact ⟨top, hsym.trans (hp.map _), by rwa [← (hp.map fun p => p.2.cost count).sum_eq]⟩

/-- One merge of the two lightest keeps the invariant. -/
theorem Encoder.Optimal.merge {n1 n2 : Nat} {t1 t2 : HTree} {rest : List (Nat × HTree)} {e' : Encoder} {new : Nat}
    (h : e.Optimal count syms ((n1, t1) :: (n2, t2) :: rest)) (h12 : e.countAt n1 ≤ e.countAt n2)
    (hlight : ∀ p ∈ rest, e.countAt n2 ≤ e.countAt p.1) (hnew : e'.countAt new = e.countAt n1 + e.countAt n2)
    (hrest : ∀ p ∈ rest, e'.countAt p.1 = e.countAt p.1) :
    e'.Optimal count syms ((new, .node t1 t2) :: rest) := by
  obtain ⟨hw1, hw2, hwrest⟩ : _ ∧ _ ∧ ∀ p ∈ rest, e.countAt p.1 = p.2.weight count := by
    simpa only [List.forall_mem_cons] using h.weight
  refine ⟨List.forall_mem_cons.2 ⟨?_, fun p hp => (hrest p hp).trans (hwrest p hp)⟩, fun other ho => ?_⟩
  · rw [hnew, HTree.weight_node, hw1, hw2]
  · obtain ⟨top, hsym, hcost⟩ := h.least other ho
    obtain ⟨top', hsym', hcost'⟩ := HTree.exists_merged (w' := e'.countAt) (n := new) hsym h12
      (List.forall_mem_map.2 hlight) hnew (List.forall_mem_map.2 hrest)
    refine ⟨top', hsym', ?_⟩
    dsimp only at hw1 hw2 hcost'
    simp only [List.map_cons, List.sum_cons, HTree.cost_node] at hcost ⊢
    omega

/-- A turn joins the two lightest trees of the forest, and the counts of the others stay. -/
theorem Encoder.Forest.turn_lightest (h : e.Forest f total) (h2 : 2 ≤ f.length)
    (hn : e.next.toNat < Config.maxTreeNodes) :
    ∃ n1 t1 n2 t2 rest, f.Perm ((n1, t1) :: (n2, t2) :: rest) ∧ e.mergeTurn = e.merge n1 n2 ∧
      e.mergeTurn.Forest ((e.next.toNat, .node t1 t2) :: rest) total ∧ e.countAt n1 ≤ e.countAt n2 ∧
      (∀ p ∈ rest, e.countAt n2 ≤ e.countAt p.1) ∧ ∀ p ∈ rest, e.mergeTurn.countAt p.1 = e.countAt p.1 := by
  obtain ⟨n1, t1, n2, t2, rest, hperm, hturn, hforest⟩ := h.turn h2 hn
  have hlen := h.length
  have hnodup := h.nodup.perm (hperm.map Prod.fst)
  simp only [List.map_cons, List.nodup_cons, List.mem_cons, not_or] at hnodup
  obtain ⟨⟨h12, h1rest⟩, h2rest, -⟩ := hnodup
  have hcand : ∀ p ∈ (n1, t1) :: (n2, t2) :: rest, p.1 < e.next.toNat ∧ 0 < e.countAt p.1 := fun p hp => by
    have hpf := hperm.mem_iff.2 hp
    have hlt := Encoder.rooted_lt (h.rooted p hpf)
    exact ⟨hlt, Nat.pos_of_ne_zero ((h.eligible _ hlt).2 (List.mem_map_of_mem hpf))⟩
  obtain ⟨⟨hn1, hpos1⟩, ⟨hn2, hpos2⟩, hcrest⟩ : _ ∧ _ ∧ ∀ p ∈ rest, p.1 < e.next.toNat ∧ 0 < e.countAt p.1 := by
    simpa only [List.forall_mem_cons] using hcand
  have apart : ∀ p ∈ rest, p.1 ≠ n1 ∧ p.1 ≠ n2 := fun p hp =>
    ⟨fun k => h1rest (k ▸ List.mem_map_of_mem hp), fun k => h2rest (k ▸ List.mem_map_of_mem hp)⟩
  have hsecond : e.candidate (some n1) n2 := ⟨hn2, hpos2, fun k => h12 (Option.some.inj k)⟩
  obtain ⟨least1, least2⟩ := Encoder.beats_of_mergeTurn hlen hn ⟨hn1, hpos1, nofun⟩ hsecond hturn
  have le_of_beats {i j : Nat} (k : e.beats i j) : e.countAt i ≤ e.countAt j := k.elim Nat.le_of_lt fun k => k.1.le
  refine ⟨n1, t1, n2, t2, rest, hperm, hturn, hforest, le_of_beats (least1 n2 ⟨hn2, hpos2, nofun⟩), fun p hp => ?_,
    fun p hp => ?_⟩
  · obtain ⟨hlt, hpos⟩ := hcrest p hp
    exact le_of_beats (least2 p.1 ⟨hlt, hpos, fun k => (apart p hp).1 (Option.some.inj k).symm⟩)
  · rw [Encoder.countAt, hturn, Encoder.merge_nodeAt_other hlen hn1 hn2 (hcrest p hp).1.ne (apart p hp).1 (apart p hp).2]

/-- A turn on an optimal forest of two trees or more leaves an optimal forest of one tree less. -/
theorem Encoder.Forest.turn_optimal (h : e.Forest f total) (ho : e.Optimal count syms f) (h2 : 2 ≤ f.length)
    (hn : e.next.toNat < Config.maxTreeNodes) :
    ∃ f', e.mergeTurn.Forest f' total ∧ e.mergeTurn.Optimal count syms f' ∧ f'.length + 1 = f.length ∧
      e.mergeTurn.next.toNat = e.next.toNat + 1 := by
  obtain ⟨n1, t1, n2, t2, rest, hperm, hturn, hforest, h12, hlight, hrest⟩ := h.turn_lightest h2 hn
  have hnew : e.mergeTurn.countAt e.next.toNat = e.countAt n1 + e.countAt n2 := by
    have before := (hperm.map fun p => e.countAt p.1).sum_eq.symm.trans h.sum
    have after := hforest.sum
    simp only [List.map_cons, List.sum_cons] at before after
    rw [List.map_congr_left hrest] at after
    dsimp only [Encoder.countAt] at before after ⊢
    omega
  refine ⟨_, hforest, (ho.of_perm hperm).merge h12 hlight hnew hrest, by rw [hperm.length_eq]; rfl, ?_⟩
  rw [hturn, Encoder.merge_next]
  exact BitVec.toNat_add_of_lt (Nat.lt_of_le_of_lt hn (by decide))

/-- `n` turns on an optimal forest of `n + 1` trees leave one optimal tree. -/
theorem Encoder.Forest.turns_optimal (n : Nat) (h : e.Forest f total) (ho : e.Optimal count syms f)
    (hf : f.length = n + 1) (hn : e.next.toNat + n ≤ Config.maxTreeNodes) :
    ∃ p, (Encoder.mergeTurns n e).Forest [p] total ∧ (Encoder.mergeTurns n e).Optimal count syms [p] := by
  induction n generalizing e f with
  | zero =>
    obtain ⟨p, rfl⟩ := List.length_eq_one_iff.1 hf
    exact ⟨p, h, ho⟩
  | succ n ih =>
    obtain ⟨f', hforest, hoptimal, hlen, hnext⟩ := h.turn_optimal ho (by omega) (by omega)
    exact ih hforest hoptimal (by omega) (by omega)

/-- The one tree left is optimal. -/
theorem Encoder.Optimal.cost_le {p : Nat × HTree} (h : e.Optimal count syms [p]) {other : HTree}
    (ho : other.symbols.Perm syms) : p.2.cost count ≤ other.cost count := by
  obtain ⟨top, -, hcost⟩ := h.least other ho
  rw [List.map_singleton, List.sum_singleton] at hcost
  omega

end Turn

/-! ### The whole build -/

/-- The count of a symbol as a number. -/
abbrev Encoder.symCount (e : Encoder) (i : Nat) : Nat := (e.symAt i).count.toNat

theorem Encoder.initial_countAt (e : Encoder) {i : Nat} (h : i < Config.nsym) : e.initial.countAt i = e.symCount i := by
  rw [Encoder.countAt, e.initial_nodeAt_leaf h, BitVec.toNat_setWidth]
  exact Nat.mod_eq_of_lt (Nat.lt_of_lt_of_le (e.symAt i).count.isLt (by decide))

theorem HTree.cost_congr {t : HTree} {w w' : Nat → Nat} (h : ∀ x ∈ t.symbols, w x = w' x) : t.cost w = t.cost w' :=
  congrArg List.sum <| List.map_congr_left fun p hp => by
    rw [h p.1 (t.paths_symbols ▸ List.mem_map_of_mem hp)]

/-- Before the loop a tree over the entries is a tree over the symbols. -/
theorem Encoder.initial_optimal (e : Encoder) :
    e.initial.Optimal e.symCount e.used (e.used.map fun i => (i, .leaf i)) := by
  have counts : ∀ i ∈ e.used, e.initial.countAt i = e.symCount i := fun i hi =>
    e.initial_countAt (Encoder.mem_used.1 hi).1
  refine ⟨List.forall_mem_map.2 fun i hi => ?_, fun other ho => ⟨other, ?_, ?_⟩⟩
  · rw [counts i hi]; simp [HTree.weight, HTree.symbols]
  · rw [List.map_map]; exact ho.trans (.of_eq (List.map_id _).symm)
  · rw [HTree.cost_congr fun x hx => counts x (ho.mem_iff.1 hx)]
    simp [Function.comp_def]

/-- With symbols in use the build leaves an optimal tree at the root. -/
theorem Encoder.treeBuild_optimal (e : Encoder) (h : e.used ≠ []) :
    ∃ t : HTree, e.treeBuild.holds t e.treeBuild.root.toNat ∧ t.symbols.Perm e.used ∧
      ∀ other : HTree, other.symbols.Perm e.used → t.cost e.symCount ≤ other.cost e.symCount := by
  have hpos := List.length_pos_iff.2 h
  have hle := e.used_length_le
  obtain ⟨t, hforest, hperm, -⟩ := e.treeBuild_tree h
  obtain ⟨⟨r, t'⟩, hforest', hoptimal⟩ := e.initial_forest.turns_optimal (e.used.length - 1) e.initial_optimal
    (by rw [List.length_map]; omega)
    (by rw [show e.initial.next.toNat = Config.nsym from rfl]; simp only [Config.nsym, Config.maxTreeNodes] at *; omega)
  have hholds := Encoder.holds_of_rooted (hforest.rooted _ (List.mem_singleton.2 rfl))
  have hrooted' := hforest'.rooted _ (List.mem_singleton.2 rfl)
  -- both forests consist of the one eligible entry
  have hr : r = e.treeBuild.root.toNat := by
    have heligible := (hforest'.eligible r (Encoder.rooted_lt hrooted')).2 (List.mem_singleton.2 rfl)
    exact List.mem_singleton.1 ((hforest.eligible r (Encoder.rooted_lt hrooted')).1 heligible)
  subst hr
  obtain rfl : t' = t := Encoder.holds_unique (Encoder.holds_of_rooted hrooted') hholds
  exact ⟨t', hholds, hperm, fun other ho => hoptimal.cost_le ho⟩

/-- Settles O35: each turn keeps a cheapest tree within reach. -/
theorem treeBuildIsOptimal : Obligations.TreeBuildIsOptimal := by
  intro s t hne h
  rw [exec_treeBuild] at h
  obtain rfl := Host.Outcome.next.inj h
  exact s.enc.treeBuild_optimal hne

end Sys2Proof.Machine
end

section
/-! SUPPORT. The other ends of `TREE_EMIT`, and what `TREE_RECOVER` refuses (`spec/43_tree_emit_recover.md` R150 to R160;
`spec/60_exceptions.md` R271). -/

namespace Sys2Proof.Machine

/-! ### The ends of `TREE_EMIT` -/

theorem execTreeEmit_of_ok {s : State} (h : s.treeEmitOk) : exec .treeEmit s = .next (s.treeEmit.finishOk 0 0) :=
  congrArg Host.Outcome.next (State.checked_of s h)

/-- An empty tree has no leaf that could lie too deep (R152, R154). -/
theorem Encoder.codesFit_of_empty {e : Encoder} (h : e.root = Config.none16) : e.codesFit = true := by
  rw [Encoder.codesFit, decide_eq_true h, Bool.true_or]

/-- A tree deeper than 32 does not pass the depth check of `TREE_EMIT` (R152). -/
theorem Encoder.codesFit_of_too_deep {e : Encoder} {t : HTree} (h : e.holds t e.root.toNat) (hr : e.root ≠ Config.none16)
    (hd : Config.maxCodeBits < t.depth) : e.codesFit = false := by
  rw [Encoder.codesFit, Encoder.depthOk_of_holds h, decide_eq_false hr, decide_eq_false (by omega), Bool.or_false]

/-- `tree_emit` of the empty tree clears the codes and does nothing else (R152, R154). -/
theorem State.treeEmit_of_empty {s : State} (h : s.enc.root = Config.none16) : s.treeEmit = s.cleared.setCodesValid := by
  obtain ⟨-, e⟩ | ⟨hr, -⟩ := s.treeEmit_cases
  · exact e
  · exact absurd h hr

/-- Settles O37: an empty tree only clears the codes, a too deep one is refused by the depth check, and a writer without
room fails while the walk records the codes. -/
theorem treeEmitEdges : Obligations.TreeEmitEdges := by
  refine ⟨fun s hv hr => ?_, fun s tree hh hr hd => ?_, fun s tree he hv hr hh hn hd hok hno => ?_⟩
  · refine ⟨_, execTreeEmit_of_ok ⟨hv, Encoder.codesFit_of_empty hr⟩, ?_, ?_⟩ <;> rw [State.treeEmit_of_empty hr]
    · rfl
    · exact s.enc.clearCodes_symAt
  · refine next_checked_of_not fun hchecks => ?_
    exact Bool.false_ne_true ((Encoder.codesFit_of_too_deep hh hr hd).symm.trans hchecks.2)
  · obtain ⟨hw, hcodes, -⟩ := State.treeEmit_of_holds hh hr hd hok he.1 (Encoder.symbols_le_of_holds hh) hn
    exact ⟨_, execTreeEmit_of_ok ⟨hv, Encoder.codesFit_of_holds hh hd⟩, rfl, hw.fail_of_no_room hno, hcodes⟩

/-! ### The ends of `TREE_RECOVER` -/

theorem execTreeRecover_of_fail {s t : State} {k : Kind} (h : s.treeRecover = .fail k t) :
    exec .treeRecover s = .next (t.failWith k) := by
  change execTreeRecover s = _
  rw [execTreeRecover, h]

/-- A recovery that ends ok leaves what the recovery left (R155). -/
theorem execTreeRecover_ok {s t : State} (h : exec .treeRecover s = .next t) (hok : t.result.fail = false) :
    ∃ u, s.treeRecover = .ok () u ∧ t.dec = u.dec := by
  cases e : s.treeRecover with
  | ok _ u =>
    change execTreeRecover s = _ at h
    rw [execTreeRecover, e] at h
    obtain rfl := Host.Outcome.next.inj h
    exact ⟨u, rfl, rfl⟩
  | fail k u =>
    rw [execTreeRecover_of_fail e] at h
    obtain rfl := Host.Outcome.next.inj h
    exact nomatch hok

/-- A node whose reader has failed before (R122, R155). -/
theorem State.recoverNode_of_failed_reader {s : State} (hc : s.dec.count.toNat < Config.maxTreeNodes)
    (hf : s.br.fail = true) (fuel code bits : Nat) :
    s.recoverNode (fuel + 1) code bits = .fail .truncated ((s.withDec Decoder.alloc).brMove 1) := by
  have hread : (s.withDec Decoder.alloc).brReadOrFail 1 = .fail .truncated ((s.withDec Decoder.alloc).brMove 1) := by
    obtain ⟨e, -⟩ | ⟨-, hlive, -⟩ := State.brReadOrFail_cases (s := s.withDec Decoder.alloc) Nat.one_pos
    · exact e
    · exact absurd (hf.symm.trans hlive) (by decide)
  unfold State.recoverNode
  rw [if_neg (by omega)]
  dsimp only
  rw [hread]
  rfl

/-- A failed reader has nothing to recover from (R155). -/
theorem State.treeRecover_of_failed_reader {s : State} (hf : s.br.fail = true) :
    ∃ v, s.treeRecover = .fail .truncated v := by
  have hcount : s.recoverStart.dec.count.toNat < Config.maxTreeNodes := Nat.zero_lt_succ _
  exact ⟨_, by rw [State.treeRecover_eq, State.recoverNode_of_failed_reader hcount hf]; rfl⟩

/-- `TREE_RECOVER` over a description that has been read up to the start of a node: `u` stands at that node, with the rest
of the stream before it, and the command fails as the node fails (R155, R271 (c)). -/
theorem execTreeRecover_of_open {o : OpenTree} {s : State} (h : s.hasBits s.br.pos o.describe) (hf : s.br.fail = false)
    (hs : ∀ x ∈ o.symbols, x ≤ 260) (hd : s.dec.ok) (hn : o.nodes ≤ Config.maxTreeNodes) :
    ∃ (fuel code bits : Nat) (u : State), u.br.pos = s.br.pos + o.describe.length ∧ u.br.fail = false ∧
      u.br.limit = s.br.limit ∧ u.dec.count.toNat = o.nodes ∧
      (∀ xs, s.hasBits s.br.pos (o.describe ++ xs) → u.hasBits u.br.pos xs) ∧
      ∀ k v, u.recoverNode (fuel + 1) code bits = .fail k v → exec .treeRecover s = .next (v.failWith k) := by
  obtain ⟨fuel, code, bits, u, hpos, hfail, hstop, hinput, hcount, hrun⟩ := State.treeRecover_of_open h hf hs hd hn
  refine ⟨fuel, code, bits, u, hpos, hfail, congrArg (8 * ·.toNat) hstop, hcount, fun xs hxs => ?_,
    fun k v e => execTreeRecover_of_fail (hrun k v e)⟩
  rw [hpos, State.hasBits_congr hstop hinput]
  exact (State.hasBits_append.1 hxs).2

/-- Settles O39: what is recovered was the description of a legal tree; a failed reader fails at the root; and the node at
which a description breaks off meets the node limit, the end of the range at its flag or its symbol, or a bad symbol. -/
theorem treeRecoverAcceptsOnlyTrees : Obligations.TreeRecoverAcceptsOnlyTrees := by
  refine ⟨fun s t hd h => ⟨fun hok => ?_, fun hfail => ?_⟩, fun s hf => ?_, fun s o hd hf hs ho =>
    ⟨fun hn => ?_, fun hn hend => ?_, fun hn hflag hend => ?_, fun x hn hx hx' hsym => ?_⟩⟩
  · obtain ⟨u, e, hdec⟩ := execTreeRecover_ok h hok
    obtain ⟨-, tree, hlegal, hbits, hready, -⟩ := State.treeRecover_ok e hd
    exact ⟨tree, hlegal, hbits, hdec ▸ hready.holds⟩
  · rw [execTreeRecover_valid h, hfail]; rfl
  · obtain ⟨v, e⟩ := State.treeRecover_of_failed_reader hf
    exact ⟨_, execTreeRecover_of_fail e, rfl⟩
  · obtain ⟨fuel, code, bits, u, hpos, hfail, -, hcount, -, hrun⟩ := execTreeRecover_of_open ho hf hs hd hn.le
    exact ⟨_, hrun _ _ (State.recoverNode_of_full (hcount.trans hn) fuel code bits), rfl, hfail, hpos⟩
  · obtain ⟨fuel, code, bits, u, hpos, hfail, hlimit, hcount, -, hrun⟩ := execTreeRecover_of_open ho hf hs hd hn.le
    obtain ⟨v, e, hbr⟩ := State.recoverNode_of_no_flag (hcount.trans_lt hn) hfail (by omega) fuel code bits
    exact ⟨_, hrun _ _ e, rfl, congrArg Reader.fail hbr, (congrArg Reader.pos hbr).trans hpos⟩
  · obtain ⟨fuel, code, bits, u, hpos, hfail, hlimit, hcount, hrest, hrun⟩ := execTreeRecover_of_open ho hf hs hd hn.le
    obtain ⟨v, e, hvfail, hvpos⟩ := State.recoverNode_of_no_symbol (hcount.trans_lt hn) hfail (hrest _ hflag) (by omega)
      fuel code bits
    exact ⟨_, hrun _ _ e, rfl, hvfail, hvpos.trans (congrArg (· + 1) hpos)⟩
  · obtain ⟨fuel, code, bits, u, hpos, hfail, -, hcount, hrest, hrun⟩ := execTreeRecover_of_open ho hf hs hd hn.le
    obtain ⟨v, e, hvfail, hvpos⟩ := State.recoverNode_of_bad_symbol (hcount.trans_lt hn) hfail hx hx' (hrest _ hsym)
      fuel code bits
    exact ⟨_, hrun _ _ e, rfl, hvfail, hvpos.trans (congrArg (· + 10) hpos)⟩

end Sys2Proof.Machine
end

section
/-! SUPPORT. The greedy row of tokens (`spec/44_rle.md` R171, R175) and `HISTOGRAM` as a command (R172). -/

namespace Sys2Proof.Machine

/-! ### The zero class -/

/-- A legal token outside the zero class is the literal of a byte other than 0 (R93). -/
theorem Token.literal_of_not_isZeros {x : Token} (hx : x.legal) (hz : ¬ x.isZeros) :
    ∃ b : Byte, b ≠ 0#8 ∧ x = ⟨b.toNat, 0, 0⟩ := by
  obtain ⟨sym, k, suffix⟩ := x
  obtain ⟨-, hk : k = suffixBits sym, hsuf : suffix < 2 ^ k⟩ := hx
  have hsym : 1 ≤ sym ∧ sym ≤ 255 := by simp only [Token.isZeros] at hz; omega
  obtain rfl : k = 0 := by rw [hk]; simp only [suffixBits]; split_ifs <;> omega
  obtain rfl : suffix = 0 := Nat.lt_one_iff.1 hsuf
  have hb : (BitVec.ofNat 8 sym).toNat = sym := by rw [BitVec.toNat_ofNat]; omega
  refine ⟨BitVec.ofNat 8 sym, fun h => ?_, by rw [hb]⟩
  rw [h, BitVec.toNat_ofNat] at hb
  omega

theorem literal_not_isZeros {b : Byte} (hb : b ≠ 0#8) : ¬ Token.isZeros ⟨b.toNat, 0, 0⟩ := by
  rintro (h | h)
  · exact hb (BitVec.eq_of_toNat_eq h)
  · exact absurd b.isLt (Nat.not_lt_of_le h)

/-- The first byte of a row of tokens tells whether its first token is of the zero class. -/
theorem head?_bytes_eq_zero_iff {y : Token} (hy : y.legal) (ts : List Token) :
    ((y :: ts).flatMap Token.bytes).head? = some 0#8 ↔ y.isZeros := by
  rw [List.flatMap_cons]
  by_cases hz : y.isZeros
  · obtain ⟨h1, h2, hrun⟩ := Token.run_of_isZeros hy hz
    obtain ⟨n, hn⟩ : ∃ n, y.bytes.length = n + 1 := ⟨y.bytes.length - 1, by omega⟩
    have hbytes : y.bytes = List.replicate (n + 1) 0#8 := by
      rw [← hn, ← tokenForRun_bytes h1 h2, hrun]
    simp [hbytes, List.replicate_succ, hz]
  · obtain ⟨b, hb, rfl⟩ := Token.literal_of_not_isZeros hy hz
    simp [literal_bytes, hb, hz]

/-! ### Greedy rows -/

/-- One token before a greedy row: where it is a run that is not full, the row does not begin with another (R171). -/
theorem greedyTokens_cons {x : Token} {ts : List Token} :
    greedyTokens (x :: ts) ↔
      (∀ y ∈ ts.head?, x.isZeros → y.isZeros → x.bytes.length = Config.maxRun) ∧ greedyTokens ts := by
  cases ts with
  | nil => simp [greedyTokens]
  | cons y ts => simp [greedyTokens]

/-- The tokens made after some zeros are a greedy row (R171). -/
theorem tokensFrom_greedy (bs : List Byte) (r : Nat) (hr : r ≤ Config.maxRun) : greedyTokens (tokensFrom r bs) := by
  induction bs generalizing r with
  | nil =>
    rw [tokensFrom, closeRun]
    split <;> trivial
  | cons b bs ih =>
    rw [tokensFrom]
    split
    · split
      · next hfull =>
        have hlen : (tokenForRun r).bytes.length = Config.maxRun := by
          rw [tokenForRun_bytes (by rw [hfull]; decide) hr, List.length_replicate, hfull]
        exact greedyTokens_cons.2 ⟨fun _ _ _ _ => hlen, ih 1 (by decide)⟩
      · exact ih (r + 1) (by omega)
    · next hb =>
      have hlit := literal_not_isZeros hb
      have hrest : greedyTokens (⟨b.toNat, 0, 0⟩ :: tokensFrom 0 bs) :=
        greedyTokens_cons.2 ⟨fun _ _ h => absurd h hlit, ih 0 (Nat.zero_le _)⟩
      rw [closeRun]
      split
      · exact hrest
      · refine greedyTokens_cons.2 ⟨fun y hy _ hz => ?_, hrest⟩
        obtain rfl := Option.mem_some.1 hy
        exact absurd hz hlit

/-- A greedy row is the row of tokens of its bytes: each of its runs ends where the tokenizer ends it (R171, R175). -/
theorem tokens_of_greedy {ts : List Token} (hl : ∀ x ∈ ts, x.legal) (hg : greedyTokens ts) :
    tokens (ts.flatMap Token.bytes) = ts := by
  induction ts with
  | nil => rfl
  | cons x ts ih =>
    obtain ⟨hhead, hrest⟩ := greedyTokens_cons.1 hg
    obtain ⟨hx, hlts⟩ := List.forall_mem_cons.1 hl
    have hts := ih hlts hrest
    rw [List.flatMap_cons]
    by_cases hz : x.isZeros
    · obtain ⟨h1, h2, hrun⟩ := Token.run_of_isZeros hx hz
      have hbytes : x.bytes = List.replicate x.bytes.length 0#8 := by
        rw [← tokenForRun_bytes h1 h2, hrun]
      have hends : x.bytes.length = Config.maxRun ∨ (ts.flatMap Token.bytes).head? ≠ some 0#8 := by
        cases ts with
        | nil => exact .inr nofun
        | cons y ts =>
          rw [Ne, head?_bytes_eq_zero_iff (hlts y List.mem_cons_self)]
          by_cases hy : y.isZeros
          · exact .inl (hhead y rfl hz hy)
          · exact .inr hy
      rw [hbytes, tokens_run h1 h2 _ hends, hrun, hts]
    · obtain ⟨b, hb, rfl⟩ := Token.literal_of_not_isZeros hx hz
      rw [literal_bytes, List.singleton_append, tokens_cons_literal hb, hts]

/-- Settles O41: the tokenizer makes a greedy row, and a greedy row is the tokenizer's. -/
theorem tokensAreTheGreedyRow : Obligations.TokensAreTheGreedyRow := by
  intro bs ts
  constructor
  · rintro rfl
    exact ⟨tokens_legal bs, tokens_bytes bs, tokensFrom_greedy bs 0 (Nat.zero_le _)⟩
  · rintro ⟨hl, rfl, hg⟩
    exact (tokens_of_greedy hl hg).symm

/-! ### `HISTOGRAM` -/

/-- A count of tokens of a block fits its 32 bits, since a block has at most 65536 tokens (R32, R172). -/
theorem State.histogram_count (s : State) (start : Nat) {n i : Nat} (hn : n ≤ Config.maxBlock) (hi : i < Config.nsym) :
    ((s.histogram start n).enc.symAt i).count.toNat =
      (tokens (s.inBytes start n)).countP fun x => decide (x.sym = i) := by
  have hlen := tokens_length_le (s.inBytes start n)
  have hle := List.countP_le_length (p := fun x => decide (x.sym = i)) (l := tokens (s.inBytes start n))
  rw [s.inBytes_length] at hlen
  simp only [Config.maxBlock] at hn
  rw [State.histogram_symAt s start n hi, BitVec.toNat_ofNat, Nat.mod_eq_of_lt (by omega)]

/-- Settles O42: accepted, the command is the histogram of its range; its two checks are those of a raw block. -/
theorem histogramCounts : Obligations.HistogramCounts := by
  refine ⟨fun s hn hl => ⟨_, congrArg Host.Outcome.next (State.checked_of s ⟨hn, hl⟩), rfl,
    s.histogram_sym_length s.arg0 s.arg1, fun i hi => ⟨s.histogram_count s.arg0 hn hi, ?_⟩⟩, fun s h => ?_⟩
  · rw [State.finishOk_enc, State.histogram_symAt s _ _ hi]
    exact ⟨rfl, rfl⟩
  · exact next_checked_of_not (by rintro ⟨hn, hl⟩; simp only [Config.maxBlock] at hn; omega)

end Sys2Proof.Machine
end

section
/-! SUPPORT. `HUFF_DECODE` as a command (`spec/45_payload_decode.md` R187 to R191): a row of tokens that fills its range, and
a row behind which a token fails. -/

namespace Sys2Proof.Machine

/-- A row of tokens of the decoder's tree stands at the reader's position, and the reader is in order (R95, R110, R161). -/
structure State.RowAt (s : State) (tree : HTree) (ts : List Token) (bits : List Bool) : Prop where
  ready : s.dec.Ready tree
  encodes : tree.encodes ts bits
  legal : ∀ x ∈ ts, x.legal
  held : s.hasBits s.br.pos bits
  live : s.br.fail = false
  ok : s.br.ok
  fresh : s.cacheFresh

/-- The state in which the loop of `HUFF_DECODE` stands behind a row of tokens, with `DEC_STATE` at `st` (R187). -/
def State.afterRow (s : State) (st : DecState) (ts : List Token) (bits : List Bool) : State :=
  (s.tokenStart.setDecState st).decoded (s.br.pos + bits.length) (tokenBytes ts)

/-! ### The command and its loop -/

/-- The loop of `HUFF_DECODE`, from the state it starts in and with a turn for each byte of the range (R187). -/
def State.huffTurns (s : State) : Res Unit :=
  (s.tokenStart.setDecState s.tokenStart.startState).huffLoop (s.arg1 - s.arg0)

theorem execHuffDecode_of_ok {s t : State} (h : s.payloadOk) (e : s.huffTurns = .ok () t) :
    exec .huffDecode s = .next ((t.setDecState .completed).finishOk t.pay.outPtr.toNat 0) := by
  show Host.Outcome.next (s.checked s.payloadOk _) = _
  simp only [State.huffTurns] at e
  rw [State.checked_of s h, State.huffDecode, State.setOut_args, e]
  rfl

theorem execHuffDecode_of_fail {s t : State} {k : Kind} (h : s.payloadOk) (e : s.huffTurns = .fail k t) :
    exec .huffDecode s = .next ((t.setDecState .error).failOver k s.arg0 s.arg1) := by
  show Host.Outcome.next (s.checked s.payloadOk _) = _
  simp only [State.huffTurns] at e
  rw [State.checked_of s h, State.huffDecode, State.setOut_args, e]

/-- The bytes of `OUT` outside the range of the command stay as they are (R61, R266). -/
theorem execHuffDecode_outByte {s t : State} (h : exec .huffDecode s = .next t) (hp : s.payloadOk) {a : Nat}
    (ha : a < s.arg0 ∨ s.arg1 ≤ a) : t.outByte a = s.outByte a := by
  have hstored := execHuffDecode_stored h
  rw [State.writeSpan, spanIf, if_pos hp] at hstored
  exact hstored.outByte_outside ha

/-! ### Behind a row -/

section Row
variable {s : State} {tree : HTree} {ts : List Token} {bits : List Bool}

theorem State.afterRow_outPtr (st : DecState) (hroom : s.arg0 + (tokenBytes ts).length ≤ s.arg1) :
    (s.afterRow st ts bits).pay.outPtr.toNat = s.arg0 + (tokenBytes ts).length :=
  State.decoded_outPtr (s := s.tokenStart.setDecState st) (hroom.trans_lt s.ops.arg1.isLt)

/-- The state behind a row, field by field: the reader moved, the row's bytes stored, `OUT_PTR` past them. -/
theorem State.afterRow_eq (st : DecState) :
    s.afterRow st ts bits = { s with
      br := (s.seek (s.br.pos + bits.length)).br
      pay := ⟨st, BitVec.ofNat 64 (s.arg0 + (tokenBytes ts).length), s.ops.arg1⟩
      output := s.output.writeList s.arg0 (tokenBytes ts) } := by
  have hword : BitVec.ofNat 64 (s.arg0 + (tokenBytes ts).length) =
      s.ops.arg0 + BitVec.ofNat 64 (tokenBytes ts).length := by
    rw [BitVec.ofNat_add, State.arg0, BitVec.ofNat_toNat, BitVec.setWidth_eq]
  rw [hword]
  rfl

namespace State.RowAt
variable (h : s.RowAt tree ts bits)
include h

theorem position_lt : s.br.pos + bits.length < 8 * 2 ^ 64 := h.held.1.trans_lt s.br.limit_lt

theorem afterRow_pos (st : DecState) : (s.afterRow st ts bits).br.pos = s.br.pos + bits.length :=
  State.seek_pos (s.tokenStart.setDecState st) h.position_lt

theorem afterRow_ok (st : DecState) : (s.afterRow st ts bits).br.ok :=
  State.seek_ok (s.tokenStart.setDecState st) h.held.1

theorem afterRow_fresh (st : DecState) : (s.afterRow st ts bits).cacheFresh :=
  State.seek_cacheFresh (s.tokenStart.setDecState st) h.position_lt

/-- What stands behind the row stands at the reader's position once the row is decoded. -/
theorem afterRow_hasBits (st : DecState) {xs : List Bool} (hxs : s.hasBits s.br.pos (bits ++ xs)) :
    (s.afterRow st ts bits).hasBits (s.afterRow st ts bits).br.pos xs := by
  rw [h.afterRow_pos st]
  exact (State.hasBits_append.1 hxs).2

/-- A row whose bytes fill the range is decoded whole (R187). -/
theorem huffTurns_of_fills (hfill : s.arg0 + (tokenBytes ts).length = s.arg1) :
    ∃ st, s.huffTurns = .ok () (s.afterRow st ts bits) :=
  State.huffLoop_of_encodes (s := s.tokenStart.setDecState s.tokenStart.startState) h.ready h.encodes h.legal h.held
    h.live h.ok h.fresh hfill (by omega)

/-- A row that leaves room and then a token that fails, whose failure leaves the reader at `r` and changes nothing else:
the command fails as the token does (R187, R191). -/
theorem exec_of_next_fails (hp : s.payloadOk) (hroom : s.arg0 + (tokenBytes ts).length < s.arg1) {k : Kind} {r : Reader}
    (hnext : ∀ st, (s.afterRow st ts bits).decodeOne = .fail k { s.afterRow st ts bits with br := r }) :
    ∃ t, exec .huffDecode s = .next t ∧
      t = { s with
        result := Result.failed k
        br := r
        pay := ⟨.error, BitVec.ofNat 64 (s.arg0 + (tokenBytes ts).length), s.ops.arg1⟩
        output := t.output, freeCount := t.freeCount } ∧
      ∀ a, a < s.arg0 ∨ s.arg1 ≤ a → t.outByte a = s.outByte a := by
  obtain ⟨v, e, st, rfl⟩ : ∃ v, s.huffTurns = .fail k v ∧ ∃ st, v = { s.afterRow st ts bits with br := r } :=
    State.huffLoop_of_fail (s := s.tokenStart.setDecState s.tokenStart.startState) h.ready h.encodes h.legal h.held
      h.live h.ok h.fresh hroom (by omega) fun st => ⟨_, hnext st, st, rfl⟩
  have hexec := execHuffDecode_of_fail hp e
  refine ⟨_, hexec, ?_, fun a => execHuffDecode_outByte hexec hp⟩
  rw [State.afterRow_eq]
  rfl

/-- Where the next token does not fit, its failure leaves the reader behind it (R174, R191). -/
theorem decodeOne_of_overflow {x : Token} {code : List Bool} (hx : x.legal) (hsends : tree.sends x.sym code)
    (hb : s.hasBits s.br.pos (bits ++ (code ++ bitsOf x.suffix x.k)))
    (hroom : s.arg0 + (tokenBytes ts).length ≤ s.arg1)
    (hover : s.arg1 < s.arg0 + (tokenBytes ts).length + x.bytes.length) (st : DecState) :
    (s.afterRow st ts bits).decodeOne = .fail .outputOverflow { s.afterRow st ts bits with
      br := (s.seek (s.br.pos + bits.length + code.length + x.k)).br } := by
  have e := State.decodeOne_of_overflow (s := s.afterRow st ts bits) h.ready hsends hx (h.afterRow_hasBits st hb) h.live
    (h.afterRow_ok st) (h.afterRow_fresh st) (by rw [State.afterRow_outPtr st hroom]; exact hover)
  rw [e, h.afterRow_pos, ← Nat.add_assoc]
  rfl

/-- Where the next token is cut off, the failed read sets `BR_FAIL` (R113, R174, R191). -/
theorem decodeOne_of_cut {x : Token} {code : List Bool} {m : Nat} (hx : x.legal) (hsends : tree.sends x.sym code)
    (hm : m < code.length + x.k) (hb : s.hasBits s.br.pos (bits ++ (code ++ bitsOf x.suffix x.k).take m))
    (hend : s.br.pos + bits.length + m = s.br.limit) :
    ∃ r : Reader, r.fail = true ∧ ∀ st, (s.afterRow st ts bits).decodeOne =
      .fail .truncated { s.afterRow st ts bits with br := r } := by
  have e := fun st => State.decodeOne_of_cut (s := s.afterRow st ts bits) h.ready hsends hx hm (h.afterRow_hasBits st hb)
    (by rw [h.afterRow_pos st]; exact hend) h.live (h.afterRow_ok st) (h.afterRow_fresh st)
  refine ⟨((s.afterRow .idle ts bits).cutAt ((s.afterRow .idle ts bits).cutPos code m)).br, rfl, fun st => ?_⟩
  rw [e st]
  rfl

end State.RowAt
end Row

/-- Settles O46: the loop decodes the row, and then ends at the end of its range or fails with the token behind the row. -/
theorem huffDecodeResult : Obligations.HuffDecodeResult := by
  refine ⟨fun s tree ts bits hd hv hl hc hh hlut hr hfresh hf ho hx he hb hfill => ?_,
    fun s tree ts bits x code hd hv hl hc hh hlut hr hfresh hf ho hxs he hroom hx hsends =>
      ⟨fun hb hover => ?_, fun m hm hb hend => ?_⟩,
    fun s h => next_checked_of_not (by rintro ⟨-, h1, h2⟩; omega)⟩
  · have hrow : s.RowAt tree ts bits :=
      ⟨Decoder.ready_of_lutAgrees hd hv hl hc hh hlut, he, hx, hb, hf, hr, hfresh⟩
    obtain ⟨st, e⟩ := hrow.huffTurns_of_fills hfill
    refine ⟨_, execHuffDecode_of_ok ⟨hv, by omega, ho⟩ e, ?_, fun a => ?_⟩
    · have hend : BitVec.ofNat 64 (s.arg0 + (tokenBytes ts).length) = s.ops.arg1 := by
        rw [tokenBytes, hfill, State.arg1, BitVec.ofNat_toNat, BitVec.setWidth_eq]
      rw [State.afterRow_outPtr st hfill.le, State.afterRow_eq, hend]
      simp only [tokenBytes, hfill]
      rfl
    · show Mem.read _ (s.output.writeList s.arg0 (tokenBytes ts)) a = _
      rw [Mem.read_writeList, tokenBytes, ← hfill]
      split
      · next h => exact (List.getD_eq_getElem _ _ (by omega)).symm
      · rfl
  · have hrow : s.RowAt tree ts bits :=
      ⟨Decoder.ready_of_lutAgrees hd hv hl hc hh hlut, he, hxs, (State.hasBits_append.1 hb).1, hf, hr, hfresh⟩
    exact hrow.exec_of_next_fails ⟨hv, by omega, ho⟩ hroom (hrow.decodeOne_of_overflow hx hsends hb hroom.le hover)
  · have hrow : s.RowAt tree ts bits :=
      ⟨Decoder.ready_of_lutAgrees hd hv hl hc hh hlut, he, hxs, (State.hasBits_append.1 hb).1, hf, hr, hfresh⟩
    obtain ⟨r, hfail, hnext⟩ := hrow.decodeOne_of_cut hx hsends hm hb hend
    obtain ⟨t, e, ht, hout⟩ := hrow.exec_of_next_fails ⟨hv, by omega, ho⟩ hroom hnext
    have hbr : t.br = r := congrArg State.br ht
    exact ⟨t, e, by rw [hbr, hfail], by rw [hbr]; exact ht, hout⟩

end Sys2Proof.Machine
end

section
/-! SUPPORT. `DEC_STATE` between commands, and the two ends of `HUFF_DECODE` (`spec/45_payload_decode.md` R187, R190). -/

namespace Sys2Proof.Machine

/-! ### The ends of `HUFF_DECODE` -/

/-- A loop of `HUFF_DECODE` that succeeds leaves `OUT_PTR` at the end of the range (R187). -/
theorem State.huffTurns_ok_pay {s t : State} (hle : s.arg0 ≤ s.arg1) (e : s.huffTurns = .ok () t) :
    t.pay.outPtr = s.ops.arg1 ∧ t.pay.outEnd = s.ops.arg1 := by
  have hd := State.huffLoop_decoding (s.arg1 - s.arg0) (s.tokenStart.setDecState s.tokenStart.startState)
  change State.Decoding _ s.huffTurns.state at hd
  rw [e] at hd
  have hend : t.pay.outEnd = s.ops.arg1 := hd.stop
  have hle' : t.pay.outPtr.toNat ≤ t.pay.outEnd.toNat := hd.bound hle
  have hge : t.pay.outEnd.toNat ≤ t.pay.outPtr.toNat :=
    State.huffLoop_ok_ptr e (show s.arg1 ≤ s.arg0 + (s.arg1 - s.arg0) by omega)
  exact ⟨hend ▸ BitVec.eq_of_toNat_eq (Nat.le_antisymm hle' hge), hend⟩

/-- The three ends of `HUFF_DECODE`: it is refused, its loop ends ok, or its loop fails on the data (R187). -/
theorem execHuffDecode_cases {s t : State} (h : exec .huffDecode s = .next t) :
    t = s.failWith .illegal ∨
    (∃ u, s.payloadOk ∧ s.huffTurns = .ok () u ∧ t = (u.setDecState .completed).finishOk u.pay.outPtr.toNat 0) ∨
    ∃ k u, s.huffTurns = .fail k u ∧ t = (u.setDecState .error).failOver k s.arg0 s.arg1 := by
  by_cases hp : s.payloadOk
  · cases e : s.huffTurns with
    | ok _ u => exact .inr (.inl ⟨u, hp, rfl, Host.Outcome.next.inj (h.symm.trans (execHuffDecode_of_ok hp e))⟩)
    | fail k u => exact .inr (.inr ⟨k, u, rfl, Host.Outcome.next.inj (h.symm.trans (execHuffDecode_of_fail hp e))⟩)
  · obtain rfl := Host.Outcome.next.inj h
    exact .inl (State.checked_of_not s hp)

/-! ### `DEC_STATE` stays at rest -/

/-- `huff_decode` leaves the loop's states behind, however it ends (R187, R190). -/
theorem State.huffDecode_resting (s : State) (start stop : Nat) :
    (s.huffDecode start stop).state.pay.state.resting := by
  simp only [State.huffDecode]
  split
  · exact .inr (.inl rfl)
  · exact .inr (.inr rfl)

/-- From `s` to `t` a resting `DEC_STATE` stays at rest (R190). -/
def State.RestKept (s t : State) : Prop := s.pay.state.resting → t.pay.state.resting

theorem State.RestKept.of_eq {s t : State} (h : t.pay = s.pay) : s.RestKept t := fun k => h ▸ k

theorem State.RestKept.trans {s t u : State} (h : s.RestKept t) (h' : t.RestKept u) : s.RestKept u := h' ∘ h

theorem State.treeRecover_pay (s : State) : s.treeRecover.state.pay = s.pay := by
  rw [s.treeRecover_recovering.1]

/-- Of the three modes only HUFF_RLE runs the payload decoder (R218 to R220). -/
theorem State.decodePayload_restKept (s : State) (h : BlockHeader) (q start len : Nat) :
    s.RestKept (s.decodePayload h q start len).state := by
  unfold State.decodePayload
  split
  · unfold State.decodeCopy; split <;> exact .of_eq rfl
  · split
    · unfold State.decodeFill; split <;> exact .of_eq rfl
    · exact Res.bind_rel (R := State.RestKept) State.RestKept.trans (.of_eq (State.treeRecover_pay _))
        fun _ t _ _ => t.huffDecode_resting _ _

theorem State.blockDecode_restKept (s : State) (p start len : Nat) : s.RestKept (s.blockDecode p start len).state := by
  unfold State.blockDecode
  split
  · exact .of_eq rfl
  · exact Res.bind_rel (R := State.RestKept) State.RestKept.trans (s.decodePayload_restKept _ _ _ _)
      fun _ _ _ => .of_eq rfl

theorem State.decodeLoop_restKept (d fuel pos o : Nat) (s : State) : s.RestKept (s.decodeLoop d fuel pos o).state := by
  induction fuel generalizing pos o s with
  | zero => exact .of_eq rfl
  | succ fuel ih =>
    unfold State.decodeLoop
    split
    · exact Res.bind_rel (R := State.RestKept) State.RestKept.trans (s.blockDecode_restKept _ _ _) fun _ t _ => ih _ _ t
    · exact .of_eq rfl

/-- Every command leaves a resting `DEC_STATE` at rest: three run the payload decoder, the others do not touch the
register (R37, R190). -/
theorem exec_restKept {i : Instr} {s t : State} (h : exec i s = .next t) : s.RestKept t := by
  by_cases hi : i ∈ decStateCommands
  · simp only [decStateCommands, List.mem_cons, List.not_mem_nil, or_false] at hi
    obtain rfl | rfl | rfl := hi
    · obtain rfl | ⟨u, -, -, rfl⟩ | ⟨k, u, -, rfl⟩ := execHuffDecode_cases h
      · exact .of_eq rfl
      · exact fun _ => .inr (.inl rfl)
      · exact fun _ => .inr (.inr rfl)
    · obtain rfl := Host.Outcome.next.inj h
      refine State.checked_rec (motive := s.RestKept) (.of_eq rfl) fun _ => ?_
      have k := s.blockDecode_restKept s.arg0 s.arg1 s.arg2
      split
      · next e => rw [e] at k; exact k
      · next e => rw [e] at k; exact k
    · obtain rfl := Host.Outcome.next.inj h
      have k := s.decodeLoop_restKept s.announced (blockCount s.announced) Config.masterHdr 0
      split_ifs
      · exact .of_eq rfl
      · exact .of_eq rfl
      · split
        · next e => rw [e] at k; exact k
        · next e => rw [e] at k; exact k
  · obtain ⟨-, -, -, -, -, hstate, -⟩ := unitsChangedByOwnCommands i s t h
    exact fun k => hstate hi ▸ k

/-- Settles O21: a step runs a command, leaves `DEC_STATE` alone or resets it to Idle; and `HUFF_DECODE` has three ends,
each with its own `DEC_STATE`. -/
theorem decStateRests : Obligations.DecStateRests := by
  refine ⟨fun s t hrest h => ?_, fun s t h => ?_⟩
  · obtain ⟨i, e⟩ | ⟨-, -, -, -, e⟩ | ⟨-, -, -, -, e⟩ := step_cases h
    · exact exec_restKept e hrest
    · rw [e]; exact hrest
    · rw [e]; exact .inl rfl
  · obtain rfl | ⟨u, ⟨-, hle, -⟩, e, rfl⟩ | ⟨k, u, -, rfl⟩ := execHuffDecode_cases h
    · exact ⟨nofun, fun _ hne => absurd rfl hne⟩
    · obtain ⟨hptr, hend⟩ := State.huffTurns_ok_pay hle e
      refine ⟨fun _ => ⟨?_, ?_⟩, nofun⟩
      · show Payload.mk .completed u.pay.outPtr u.pay.outEnd = _
        rw [hptr, hend]
      · show Result.okOf u.pay.outPtr.toNat 0 = _
        rw [hptr]; rfl
    · exact ⟨nofun, fun _ _ => rfl⟩

end Sys2Proof.Machine
end

section
/-! SUPPORT. The verifier and the decoder as commands: `BLOCK_VERIFY` (`spec/47_block_decoder_verifier.md` R215, R216),
`VERIFY` and `DECODE` (`spec/48_container.md` R233, R234). -/

namespace Sys2Proof.Machine

/-! ### `BLOCK_VERIFY` -/

/-- A whole block of a known mode whose `crc32c` is not the stored one fails `INTEGRITY` (R216). -/
theorem State.blockVerify_of_crc_ne {s : State} {crc : CrcFn} {p : Nat} (hend : p + 7 + s.storedSize p ≤ s.inLen)
    (hmode : readLE s.inByte (p + 6) 1 ≤ 2)
    (hcrc : (crc (readList s.inByte (p + 7) (s.storedSize p))).toNat ≠ readLE s.inByte (p + 2) 4) :
    s.blockVerify crc p = .error .integrity := by
  rw [State.blockVerify, State.readBlockHeader_eq_ok.2 ⟨⟨hend, hmode⟩, rfl⟩]
  exact if_pos hcrc

section BlockVerify

variable {s : State} (h : s.arg0 ≤ s.inLen)

include h in
theorem execBlockVerify_of_ok {p mode : Nat} (e : s.blockVerify crc32c s.arg0 = .ok (p, mode)) :
    exec .blockVerify s = .next (s.finishOk p mode) := by
  show Host.Outcome.next (s.checked (s.arg0 ≤ s.inLen) _) = _
  rw [State.checked_of s h, e]

include h in
theorem execBlockVerify_of_error {k : Kind} (e : s.blockVerify crc32c s.arg0 = .error k) :
    exec .blockVerify s = .next (s.failWith k) := by
  show Host.Outcome.next (s.checked (s.arg0 ≤ s.inLen) _) = _
  rw [State.checked_of s h, e]

include h in
/-- A block whose header is refused fails as its header does (R216). -/
theorem execBlockVerify_of_header_error {k : Kind} (e : s.readBlockHeader s.arg0 = .error k) :
    exec .blockVerify s = .next (s.failWith k) :=
  execBlockVerify_of_error h (by rw [State.blockVerify, e])

end BlockVerify

/-- Settles O48: one case for each test of R215 and R216, in their order. -/
theorem blockVerifyResult : Obligations.BlockVerifyResult := by
  intro s
  have hsize : readLE s.inByte s.arg0 2 + 1 = s.storedSize s.arg0 := rfl
  rw [hsize]
  split_ifs with harg hcut hmode hend hcrc
  · exact next_checked_of_not (Nat.not_le.2 harg)
  · exact execBlockVerify_of_header_error (by omega) (State.readBlockHeader_eq_error (.inl ⟨hcut, rfl⟩))
  · exact execBlockVerify_of_header_error (by omega) (State.readBlockHeader_eq_error (.inr ⟨by omega, rfl, .inl hmode⟩))
  · exact execBlockVerify_of_header_error (by omega) (State.readBlockHeader_eq_error (.inr ⟨by omega, rfl, .inr hend⟩))
  · exact execBlockVerify_of_error (by omega) (State.blockVerify_of_crc_ne (by omega) (by omega) hcrc)
  · exact execBlockVerify_of_ok (by omega)
      (State.blockVerify_eq_ok.2 ⟨⟨by omega, by omega, not_not.1 hcrc⟩, rfl⟩)

/-! ### `VERIFY` -/

/-- The number of blocks, rounded up (R84). -/
theorem blockCount_eq (n : Nat) : blockCount n = (n + 65535) / 65536 := by
  simp only [blockCount, Config.maxBlock]; omega

/-- The loop of `VERIFY`, with a turn for each block that is announced, ends ok exactly over sound blocks, and behind
them (R233). -/
theorem State.verifyLoop_eq_ok {s : State} {crc : CrcFn} {fuel pos rem q : Nat} (hfuel : fuel = blockCount rem) :
    s.verifyLoop crc fuel pos rem = .ok q ↔ s.blocksSound crc fuel pos ∧ q = s.blocksEnd fuel pos := by
  induction fuel generalizing pos rem with
  | zero => simp [State.verifyLoop, State.blocksSound, State.blocksEnd, eq_comm]
  | succ fuel ih =>
    have hrem : 0 < rem := by rw [blockCount_eq] at hfuel; omega
    rw [blockCount_sub hrem] at hfuel
    rw [State.verifyLoop, if_pos hrem]
    cases e : s.blockVerify crc pos with
    | error k =>
      refine iff_of_false nofun fun ⟨⟨hend, hmode, hcrc, _⟩, _⟩ => ?_
      rw [State.blockVerify_eq_ok.2 ⟨⟨hend, hmode, hcrc⟩, rfl⟩] at e
      exact nomatch e
    | ok r =>
      obtain ⟨⟨hend, hmode, hcrc⟩, rfl⟩ := State.blockVerify_eq_ok.1 e
      refine (ih (Nat.succ.inj hfuel)).trans (and_congr_left fun _ => ?_)
      exact ⟨fun sound => ⟨hend, hmode, hcrc, sound⟩, fun ⟨_, _, _, sound⟩ => sound⟩

/-- `VERIFY` over sound blocks reports the announced size and the bytes consumed (R233). -/
theorem execVerifyWith_of_sound {crc : CrcFn} {s : State} (h : Config.masterHdr ≤ s.inLen)
    (hs : s.blocksSound crc (blockCount s.announced) Config.masterHdr) :
    execVerifyWith crc s =
      .next (s.finishOk s.announced (s.blocksEnd (blockCount s.announced) Config.masterHdr)) := by
  unfold execVerifyWith
  rw [if_neg (Nat.not_lt.2 h), (State.verifyLoop_eq_ok rfl).2 ⟨hs, rfl⟩]

/-- `VERIFY` that ends ok has found a master header and sound blocks (R233). -/
theorem execVerifyWith_ok {crc : CrcFn} {s t : State} (h : execVerifyWith crc s = .next t)
    (hf : t.result.fail = false) :
    Config.masterHdr ≤ s.inLen ∧ s.blocksSound crc (blockCount s.announced) Config.masterHdr := by
  simp only [execVerifyWith, Host.Outcome.next.injEq] at h
  subst h
  by_cases hcut : s.inLen < Config.masterHdr
  · rw [if_pos hcut] at hf; exact nomatch hf
  · rw [if_neg hcut] at hf
    cases e : s.verifyLoop crc (blockCount s.announced) Config.masterHdr s.announced with
    | ok pos => exact ⟨Nat.le_of_not_lt hcut, ((State.verifyLoop_eq_ok rfl).1 e).1⟩
    | error k => rw [e] at hf; exact nomatch hf

/-- Settles O55: the loop of `VERIFY` ends ok exactly over sound blocks, and the command changes its result only. -/
theorem verifyResult : Obligations.VerifyResult := by
  unfold Obligations.VerifyResult
  simp only [← blockCount_eq]
  exact ⟨fun _ h hs => execVerifyWith_of_sound h hs, fun _ _ h hf => execVerifyWith_ok h hf,
    fun _ h => congrArg Host.Outcome.next (if_pos h), fun _ _ h => exec_touched h⟩

/-! ### `DECODE` -/

/-- A COPY block of the right size is decoded to its payload (R218). -/
theorem State.blockDecode_of_copy {s : State} {p start len : Nat} (hend : p + 7 + len ≤ s.inLen)
    (hsize : s.storedSize p = len) (hm : readLE s.inByte (p + 6) 1 = 0) :
    s.blockDecode p start len = .ok (p + 7 + len, 0) (s.putOutList start (s.inBytes (p + 7) len)) := by
  subst hsize
  rw [State.blockDecode, State.readBlockHeader_eq_ok.2 ⟨⟨hend, by omega⟩, rfl⟩]
  simp [State.decodePayload, State.decodeCopy, hm, Config.blockHdr]

/-- A FILL block, whose payload is one byte, is decoded to that byte all over (R219). -/
theorem State.blockDecode_of_fill {s : State} {p : Nat} (start len : Nat) (hend : p + 8 ≤ s.inLen)
    (hsize : s.storedSize p = 1) (hm : readLE s.inByte (p + 6) 1 = 2) :
    s.blockDecode p start len = .ok (p + 8, 2) (s.putOutList start (List.replicate len (s.inByte (p + 7)))) := by
  rw [State.blockDecode, State.readBlockHeader_eq_ok.2 ⟨⟨by omega, by omega⟩, rfl⟩]
  simp [State.decodePayload, State.decodeFill, hm, hsize, Config.blockHdr]

/-- `DECODE` ends as the loop over its blocks does, behind the master header and with room for what is announced
(R234). -/
theorem execDecode_of_loop_ok {s t : State} {pos : Nat} (h : Config.masterHdr ≤ s.inLen)
    (hroom : s.announced ≤ s.outCap)
    (e : s.decodeLoop s.announced (blockCount s.announced) Config.masterHdr 0 = .ok pos t) :
    exec .decode s = .next (t.finishOk s.announced pos) := by
  show execDecode s = _
  unfold execDecode
  rw [if_neg (Nat.not_lt.2 h), if_neg (Nat.not_lt.2 hroom), e]

/-- A size of at most 65536 is the size of one block (R84). -/
theorem blockCount_eq_one {n : Nat} (h1 : 1 ≤ n) (h2 : n ≤ Config.maxBlock) : blockCount n = 1 := by
  rw [blockCount_eq]; simp only [Config.maxBlock] at h2; omega

/-- `DECODE` of a container of one block does what decoding that block into the whole output does (R234). -/
theorem execDecode_of_one_block {s t : State} {p mode : Nat} (h : Config.masterHdr ≤ s.inLen)
    (hroom : s.announced ≤ s.outCap) (h1 : 1 ≤ s.announced) (h2 : s.announced ≤ Config.maxBlock)
    (e : s.blockDecode Config.masterHdr 0 s.announced = .ok (p, mode) t) :
    exec .decode s = .next (t.finishOk s.announced p) := by
  refine execDecode_of_loop_ok h hroom ?_
  rw [blockCount_eq_one h1 h2, State.decodeLoop, if_pos (Nat.lt_of_lt_of_le Nat.one_pos h1), Nat.sub_zero,
    Nat.min_eq_right h2, e]
  rfl

/-- Settles O58: no block, one COPY block, one FILL block, and the two tests before the first block. -/
theorem decodeResult : Obligations.DecodeResult := by
  refine ⟨fun s h hd => ?_, fun s d hd h1 h2 hroom hend hsize hm => ?_, fun s d hd h1 h2 hroom hend hsize hm => ?_,
    fun s h => ?_⟩
  · change s.announced = 0 at hd
    have e : s.decodeLoop s.announced (blockCount s.announced) Config.masterHdr 0 = .ok 4 s := by rw [hd]; rfl
    rw [execDecode_of_loop_ok h (by omega) e, hd]
    rfl
  · obtain rfl : d = s.announced := hd
    have e := State.blockDecode_of_copy (s := s) (p := 4) (start := 0) (by omega) hsize hm
    refine ⟨_, execDecode_of_one_block (by simp only [Config.masterHdr]; omega) hroom h1 h2 e, rfl, fun a => ?_⟩
    refine (outByte_of_writeList rfl a).trans ?_
    simp
  · obtain rfl : d = s.announced := hd
    have e := State.blockDecode_of_fill (s := s) (p := 4) 0 s.announced hend (by rw [State.storedSize, hsize]) hm
    refine ⟨_, execDecode_of_one_block (by simp only [Config.masterHdr]; omega) hroom h1 h2 e, rfl, fun a => ?_⟩
    refine (State.outByte_putOutList_replicate _ _ _ _ _).trans ?_
    simp
  · refine congrArg Host.Outcome.next ?_
    by_cases hcut : s.inLen < Config.masterHdr
    · exact if_pos hcut
    · exact (if_neg hcut).trans (if_pos (h.resolve_left hcut))

end Sys2Proof.Machine
end

section
/-! SUPPORT. The size bound (R231). -/

namespace Sys2Proof.Machine

/-- Settles O51: past the largest input the command fails, up to it the result is the bound in numerals. -/
theorem maxsizeBound : Obligations.MaxsizeBound := by
  intro s
  by_cases hbig : 2 ^ 32 - 1 < s.arg0
  · rw [if_pos hbig]
    exact congrArg Host.Outcome.next (if_pos hbig)
  · rw [if_neg hbig, ← maxSize_eq]
    exact congrArg Host.Outcome.next (if_neg hbig)

end Sys2Proof.Machine
end

section
/-! SUPPORT. The ends of a command as the host sees them (`spec/60_exceptions.md` R260, R263). -/

namespace Sys2Proof.Machine

/-- Settles O13: of the three ends of a command, the first is ok, and the other two put one of its kinds into `ERR`. -/
theorem commandOutcomes : Obligations.CommandOutcomes := by
  intro i s t h
  cases exec_ends h with
  | ok hf he => exact .inl ⟨hf, he⟩
  | refused hk e => exact .inr ⟨.illegal, hk, congrArg State.result e⟩
  | failed k hk _ e => exact .inr ⟨k, hk, e⟩

end Sys2Proof.Machine
end

section
/-! SUPPORT. Table access (`spec/49_table_access.md` R250 to R252). -/

namespace Sys2Proof.Machine

/-! ### `TBL_READ` -/

/-- The result of a read that gives `v` where `ok` holds and is refused elsewhere (R251). -/
def Result.readIf (ok : Prop) [Decidable ok] (v : Nat) : Result := if ok then .okOf v 0 else .failed .illegal

/-- The result of `TBL_READ id, i` (R251). -/
def State.tableResult (s : State) (id i : Nat) : Result :=
  .readIf (id ≤ 13 ∧ i < s.tableSize id ∧ s.tableGuard id = true) (s.tableValue i id)

theorem exec_tblRead (s : State) : exec .tblRead s = .next { s with result := s.tableResult s.arg0 s.arg1 } := by
  refine congrArg Host.Outcome.next ?_
  by_cases h : s.arg0 ≤ 13 ∧ s.arg1 < s.tableSize s.arg0 ∧ s.tableGuard s.arg0 = true
  · rw [State.checked_of s h, State.tableResult, Result.readIf, if_pos h]; rfl
  · rw [State.checked_of_not s h, State.tableResult, Result.readIf, if_neg h]; rfl

/-- Two guards that say the same give the same result. -/
theorem Result.readIf_congr {p q : Prop} [Decidable p] [Decidable q] (h : p ↔ q) (v : Nat) : readIf p v = readIf q v :=
  if_congr h rfl rfl

section Tables

variable (s : State) {id : Nat} (i : Nat) {n : Nat} {guard : Bool}

theorem State.tableResult_of_size (hid : id ≤ 13) (hsize : s.tableSize id = n) (hguard : s.tableGuard id = guard) :
    s.tableResult id i = .readIf (i < n ∧ guard = true) (s.tableValue i id) :=
  Result.readIf_congr (by rw [hsize, hguard]; exact and_iff_right hid) _

/-- `State.tableResult_of_size` with the table's last index, which is what R250 writes for the tables of fixed size. -/
theorem State.tableResult_of_last (hid : id ≤ 13) (hsize : s.tableSize id = n + 1) (hguard : s.tableGuard id = guard) :
    s.tableResult id i = .readIf (i ≤ n ∧ guard = true) (s.tableValue i id) :=
  (s.tableResult_of_size i hid hsize hguard).trans (Result.readIf_congr (Nat.lt_succ_iff.and Iff.rfl) _)

theorem State.tableResult_of_sym (h : id ≤ 2) : s.tableResult id i = .readIf (i ≤ 260) (s.tableValue i id) :=
  (s.tableResult_of_last i (by omega) (if_pos h) (if_pos h)).trans (Result.readIf_congr (and_iff_left rfl) _)

theorem State.tableResult_of_scalar : s.tableResult 13 i = .readIf (i < 9) (s.scalar i) :=
  (s.tableResult_of_size i (by decide) rfl rfl).trans (Result.readIf_congr (and_iff_left rfl) _)

theorem State.tableResult_of_no_table (h : 14 ≤ id) : s.tableResult id i = .failed .illegal :=
  if_neg fun ⟨hid, _⟩ => absurd hid (Nat.not_le.2 h)

end Tables

/-- Settles O59: table by table, as R250 lists them. -/
theorem tblReadResult : Obligations.TblReadResult := by
  intro s i read
  rw [exec_tblRead]
  refine congrArg (fun r => Host.Outcome.next { s with result := r }) ?_
  match s.arg0 with
  | 0 | 1 | 2 => exact s.tableResult_of_sym i (by decide)
  | 3 | 4 | 5 | 6 | 10 | 11 | 12 => exact s.tableResult_of_last i (by decide) rfl rfl
  | 7 | 8 | 9 => exact s.tableResult_of_size i (by decide) rfl rfl
  | 13 =>
    refine (s.tableResult_of_scalar i).trans ?_
    match i with
    | 0 | 1 | 2 | 3 | 4 | 5 | 6 | 7 | 8 => rfl
    | n + 9 => exact if_neg (by omega)
  | n + 14 => exact s.tableResult_of_no_table i (by omega)

/-! ### `TBL_WRITE` -/

theorem Encoder.writeCount_symAt (e : Encoder) (i v : Nat) {j : Nat} (hj : j < e.sym.length) :
    (e.writeCount i v).symAt j = if j = i then { e.symAt j with count := BitVec.ofNat 32 v } else e.symAt j := by
  simp only [Encoder.writeCount, Encoder.symAt, List.getD, List.getElem?_modify, List.getElem?_eq_getElem hj]
  by_cases h : i = j <;> simp [h, eq_comm]

/-- Settles O60: `SYM` keeps its 261 entries, of which one gets the count; a failed check is a refusal. -/
theorem tblWriteResult : Obligations.TblWriteResult := by
  refine ⟨fun s henc htable hindex hvalue => ?_, fun s h => ?_⟩
  · obtain ⟨hsym, -⟩ := henc
    refine ⟨_, congrArg Host.Outcome.next (State.checked_of s ⟨htable, hindex, hvalue⟩), rfl, ?_, fun i hi => ?_⟩
    · exact (List.length_modify _ _ _).trans hsym
    · exact s.enc.writeCount_symAt _ _ (hi.trans_eq hsym.symm)
  · exact next_checked_of_not (by omega)

end Sys2Proof.Machine
end
